-- ==== Sys2Proof/Word.lean ====
section
/-! DEFINITION. The words of the machine: bytes, 16-byte blocks, 32-byte digests, the 56-bit counter. -/

namespace Sys2Proof

/-- A byte; bit 0 is the least significant (R10). -/
abbrev Byte := BitVec 8

/-- A block of 16 bytes, byte 0 first: the cipher's only unit of transformation (R6, R10). -/
abbrev Block := Vector Byte 16

/-- The 32-byte digest, byte 0 first (R6, R29). -/
abbrev Digest := Vector Byte 32

/-- The 56-bit block counter `D`; byte 0 is the least significant (R34). -/
abbrev Counter := BitVec 56

/-- The block of sixteen zero bytes, `0^16` (R10). -/
def Block.zero : Block := Vector.replicate 16 0#8

/-- Bytewise exclusive-or of two blocks, `A ⊕ B` (R10). -/
def Block.xor (a b : Block) : Block := Vector.zipWith (· ^^^ ·) a b

/-- The block whose byte `i` is byte `i` of `l`, and zero beyond its end. -/
def Block.ofBytes (l : List Byte) : Block := Vector.ofFn fun i => l.getD i.val 0#8

end Sys2Proof
end

