-- ==== Sys2Proof/Config.lean ====
section
/-! DEFINITION. The configuration: the parameters of R7, each a field, with the types of their values; and the free values of
the machine. The defaults are in Machine/Tables.lean. -/

namespace Sys2Proof

/-- The padding rule parameter `P_PAD` (R190, conflict C1). -/
inductive PadRule where
  /-- `LENBYTE`, the default: zeros, then the block's length in the last byte. -/
  | lenByte
  /-- `ONEZERO`: the byte `0x80`, then zeros. -/
  | oneZero
  deriving DecidableEq, Repr

/-- A map on bytes that is linear over exclusive-or, bit by bit: entry `i` lists the bits of the old byte whose exclusive-or
is bit `i` of the new one. -/
abbrev ByteMap := Vector (List (Fin 8)) 8

/-- What a byte of `TK1` holds in the AEAD layout (R96). -/
inductive Tk1Slot where
  /-- Byte `i` of the counter, counted from the least significant. -/
  | counter (i : Fin 7)
  /-- The domain byte. -/
  | domain
  /-- Zero. -/
  | zero
  deriving DecidableEq, Repr

/-- The domain bytes (R97), one for each row; that of `M_FINAL` is the one without flags. -/
structure DomainTable where
  nMsg : Byte
  nAd : Byte
  nMsgLastFull : Byte
  nMsgLastPart : Byte
  nAdLastFull : Byte
  nAdLastPart : Byte
  mCrypt : Byte
  mAd : Byte
  mMsg : Byte
  mFinal : Byte
  tKs : Byte
  tKu : Byte
  tKdf : Byte
  tTgf : Byte
  deriving DecidableEq, Repr

/-- How Romulus-H uses the core: Hirose's double-block compression of 32-byte blocks (R282), with the two constants of its
domain separation (R100). -/
structure HashScheme where
  /-- Exclusive-ored into byte 0 of the block input of the second invocation of a compression call (R282). -/
  second : Byte
  /-- Exclusive-ored into byte 0 of `L` before the last compression call (R284). -/
  last : Byte
  deriving DecidableEq, Repr

/-- The format of Romulus-T: R261 to R267, and which key its tag generation uses (conflict C6). -/
inductive TFormat where
  /-- The default: `T_TGF` under the long-term key (R267). -/
  | longTermTag
  /-- The letter of the source's sentence, as C6 puts it: "change rule R267 to use the session key". -/
  | sessionTag
  deriving DecidableEq, Repr

/-- The names of the host-visible registers (R20, R68). -/
inductive RegName where
  | cmd | status | klen | nlen | tglen | adlen | tlen | key | nonce | tagin | tagout | digest
  deriving DecidableEq, Repr

/-- One row of the register map: `size` bytes from offset `base`. -/
structure RegRow where
  base : Nat
  size : Nat
  reg : RegName
  deriving DecidableEq, Repr

/-- The parameters of R7. They differ between configurations and never within a run (R42). -/
structure Config where
  /-- `P_ROUNDS`: rounds of one `permute` call (R131). -/
  rounds : Nat
  /-- `P_TWEAKEY_BITS`: the width of the tweakey (R95). The registers `TK1` to `TK3` and both layouts are those of 384 bits, the
  only width the spec gives a meaning: `Config.admitted` asks for it (log 18). -/
  tweakeyBits : Nat
  /-- `P_SBOX`: row `r`, column `c` is the image of `16r + c` (R134). -/
  sbox : Vector (Vector Byte 16) 16
  /-- `P_RC`: the bits of the 6-bit round-constant register whose exclusive-or, inverted, is shifted in (R136). -/
  rcTaps : List (Fin 6)
  /-- `P_SR`: the cell permutation of the round (R139). -/
  sr : Vector (Fin 16) 16
  /-- `P_MC`: the binary matrix of the mixing layer, row by row (R140). -/
  mc : Vector (Vector Bool 4) 4
  /-- `P_PT`: the tweakey cell permutation (R163). -/
  pt : Vector (Fin 16) 16
  /-- `P_LFSR2`: the feedback function of the cells of `TK2` (R165). -/
  lfsr2 : ByteMap
  /-- `P_LFSR3`: the feedback function of the cells of `TK3` (R166). -/
  lfsr3 : ByteMap
  /-- `P_TK1_LAYOUT`: what each byte of `TK1` holds in the AEAD modes (R96). -/
  tk1Layout : Vector Tk1Slot 16
  /-- `P_DOMAIN`: the values of the domain byte (R97; log 18). -/
  domain : DomainTable
  /-- `P_CNT_POLY`: the feedback byte of the block counter (R185). -/
  cntPoly : Byte
  /-- `P_G`: the output feedback function of a byte of the state (R188). -/
  g : ByteMap
  /-- `P_PAD`: the padding rule of 16-byte blocks (R190). -/
  pad : PadRule
  /-- `P_HASH`: how Romulus-H uses the core (R282; log 18). -/
  hash : HashScheme
  /-- `P_T_FORMAT`: the format of Romulus-T (R261 to R267, R271; log 18, log 19). -/
  tFormat : TFormat
  /-- `LENW`: the width in bits of the length registers and of `IDX` (R25, R36). -/
  lenWidth : Nat
  /-- `BUFCAP`: the capacity in bytes of each buffer (R30). -/
  bufCap : Nat
  /-- `REGMAP`: the register addresses (R68). An offset in no row is reserved. -/
  regMap : List RegRow
  deriving DecidableEq, Repr

/-- FREE VALUE: the `n`-th free draw of a byte. The bytes of `TOUT` after a decrypt with an invalid tag are unspecified
(R67, U3): each is the next draw. Nothing in Lean can evaluate it (log 9). -/
opaque Config.freeByte : Nat → Byte

end Sys2Proof
end

