-- ==== Sys2Proof/Machine/Tables.lean ====
section
/-! DEFINITION. The values of the spec's tables: the default of each parameter (R7), the register map (R68), the constants of the
algorithms (R186, R187). -/

namespace Sys2Proof

/-- The S-box table of R134. PRESUMED in the spec itself from general knowledge of SKINNY-128-384+ (log 5). -/
def Config.sboxTable : Vector (Vector Byte 16) 16 := #v[
  #v[0x65#8, 0x4c#8, 0x6a#8, 0x42#8, 0x4b#8, 0x63#8, 0x43#8, 0x6b#8, 0x55#8, 0x75#8, 0x5a#8, 0x7a#8, 0x53#8, 0x73#8, 0x5b#8, 0x7b#8],
  #v[0x35#8, 0x8c#8, 0x3a#8, 0x81#8, 0x89#8, 0x33#8, 0x80#8, 0x3b#8, 0x95#8, 0x25#8, 0x98#8, 0x2a#8, 0x90#8, 0x23#8, 0x99#8, 0x2b#8],
  #v[0xe5#8, 0xcc#8, 0xe8#8, 0xc1#8, 0xc9#8, 0xe0#8, 0xc0#8, 0xe9#8, 0xd5#8, 0xf5#8, 0xd8#8, 0xf8#8, 0xd0#8, 0xf0#8, 0xd9#8, 0xf9#8],
  #v[0xa5#8, 0x1c#8, 0xa8#8, 0x12#8, 0x1b#8, 0xa0#8, 0x13#8, 0xa9#8, 0x05#8, 0xb5#8, 0x0a#8, 0xb8#8, 0x03#8, 0xb0#8, 0x0b#8, 0xb9#8],
  #v[0x32#8, 0x88#8, 0x3c#8, 0x85#8, 0x8d#8, 0x34#8, 0x84#8, 0x3d#8, 0x91#8, 0x22#8, 0x9c#8, 0x2c#8, 0x94#8, 0x24#8, 0x9d#8, 0x2d#8],
  #v[0x62#8, 0x4a#8, 0x6c#8, 0x45#8, 0x4d#8, 0x64#8, 0x44#8, 0x6d#8, 0x52#8, 0x72#8, 0x5c#8, 0x7c#8, 0x54#8, 0x74#8, 0x5d#8, 0x7d#8],
  #v[0xa1#8, 0x1a#8, 0xac#8, 0x15#8, 0x1d#8, 0xa4#8, 0x14#8, 0xad#8, 0x02#8, 0xb1#8, 0x0c#8, 0xbc#8, 0x04#8, 0xb4#8, 0x0d#8, 0xbd#8],
  #v[0xe1#8, 0xc8#8, 0xec#8, 0xc5#8, 0xcd#8, 0xe4#8, 0xc4#8, 0xed#8, 0xd1#8, 0xf1#8, 0xdc#8, 0xfc#8, 0xd4#8, 0xf4#8, 0xdd#8, 0xfd#8],
  #v[0x36#8, 0x8e#8, 0x38#8, 0x82#8, 0x8b#8, 0x30#8, 0x83#8, 0x39#8, 0x96#8, 0x26#8, 0x9a#8, 0x28#8, 0x93#8, 0x20#8, 0x9b#8, 0x29#8],
  #v[0x66#8, 0x4e#8, 0x68#8, 0x41#8, 0x49#8, 0x60#8, 0x40#8, 0x69#8, 0x56#8, 0x76#8, 0x58#8, 0x78#8, 0x50#8, 0x70#8, 0x59#8, 0x79#8],
  #v[0xa6#8, 0x1e#8, 0xaa#8, 0x11#8, 0x19#8, 0xa3#8, 0x10#8, 0xab#8, 0x06#8, 0xb6#8, 0x08#8, 0xba#8, 0x00#8, 0xb3#8, 0x09#8, 0xbb#8],
  #v[0xe6#8, 0xce#8, 0xea#8, 0xc2#8, 0xcb#8, 0xe3#8, 0xc3#8, 0xeb#8, 0xd6#8, 0xf6#8, 0xda#8, 0xfa#8, 0xd3#8, 0xf3#8, 0xdb#8, 0xfb#8],
  #v[0x31#8, 0x8a#8, 0x3e#8, 0x86#8, 0x8f#8, 0x37#8, 0x87#8, 0x3f#8, 0x92#8, 0x21#8, 0x9e#8, 0x2e#8, 0x97#8, 0x27#8, 0x9f#8, 0x2f#8],
  #v[0x61#8, 0x48#8, 0x6e#8, 0x46#8, 0x4f#8, 0x67#8, 0x47#8, 0x6f#8, 0x51#8, 0x71#8, 0x5e#8, 0x7e#8, 0x57#8, 0x77#8, 0x5f#8, 0x7f#8],
  #v[0xa2#8, 0x18#8, 0xae#8, 0x16#8, 0x1f#8, 0xa7#8, 0x17#8, 0xaf#8, 0x01#8, 0xb2#8, 0x0e#8, 0xbe#8, 0x07#8, 0xb7#8, 0x0f#8, 0xbf#8],
  #v[0xe2#8, 0xca#8, 0xee#8, 0xc6#8, 0xcf#8, 0xe7#8, 0xc7#8, 0xef#8, 0xd2#8, 0xf2#8, 0xde#8, 0xfe#8, 0xd7#8, 0xf7#8, 0xdf#8, 0xff#8]]

/-- The domain bytes of R97. -/
def DomainTable.default : DomainTable where
  nMsg := 0x04#8
  nAd := 0x08#8
  nMsgLastFull := 0x14#8
  nMsgLastPart := 0x15#8
  nAdLastFull := 0x18#8
  nAdLastPart := 0x1A#8
  mCrypt := 0x24#8
  mAd := 0x28#8
  mMsg := 0x2C#8
  mFinal := 0x30#8
  tKs := 0x40#8
  tKu := 0x41#8
  tKdf := 0x42#8
  tTgf := 0x44#8

/-- Every byte of a domain table, the sixteen of `M_FINAL` last. -/
def DomainTable.bytes (t : DomainTable) : List Byte :=
  [t.nMsg, t.nAd, t.nMsgLastFull, t.nMsgLastPart, t.nAdLastFull, t.nAdLastPart, t.mCrypt, t.mAd, t.mMsg, t.tKs, t.tKu, t.tKdf,
    t.tTgf] ++ (List.range 16).map fun i => t.mFinal ^^^ BitVec.ofNat 8 i

/-- No two rows of a domain table share a byte: each tag says which row it is (R97, "a closed enumeration"). -/
def DomainTable.distinct (t : DomainTable) : Bool := t.bytes.Nodup

/-- The `TK1` layout of R96: seven counter bytes, the domain byte, eight zero bytes. -/
def Config.defaultTk1Layout : Vector Tk1Slot 16 :=
  #v[.counter 0, .counter 1, .counter 2, .counter 3, .counter 4, .counter 5, .counter 6, .domain,
     .zero, .zero, .zero, .zero, .zero, .zero, .zero, .zero]

/-- The register map of R68. -/
def Config.defaultRegMap : List RegRow :=
  [⟨0x00, 1, .cmd⟩, ⟨0x01, 1, .status⟩, ⟨0x02, 1, .klen⟩, ⟨0x03, 1, .nlen⟩, ⟨0x04, 1, .tglen⟩,
   ⟨0x08, 4, .adlen⟩, ⟨0x0C, 4, .tlen⟩, ⟨0x10, 16, .key⟩, ⟨0x20, 16, .nonce⟩, ⟨0x30, 16, .tagin⟩,
   ⟨0x40, 16, .tagout⟩, ⟨0x60, 32, .digest⟩]

/-- The default configuration of R7. The tables are the spec's general-knowledge defaults (PRESUMED, unsafe, log 5);
`BUFCAP`, which the spec leaves OPEN, is the 64 of the spec's own programs (DESIGN CHOICE, unsafe, log 6). -/
def Config.default : Config where
  rounds := 40
  tweakeyBits := 384
  sbox := Config.sboxTable
  rcTaps := [5, 4]
  sr := #v[0, 1, 2, 3, 7, 4, 5, 6, 10, 11, 8, 9, 13, 14, 15, 12]
  mc := #v[#v[true, false, true, true], #v[true, false, false, false], #v[false, true, true, false], #v[true, false, true, false]]
  pt := #v[9, 15, 8, 13, 10, 14, 12, 11, 0, 1, 2, 3, 4, 5, 6, 7]
  lfsr2 := #v[[7, 5], [0], [1], [2], [3], [4], [5], [6]]
  lfsr3 := #v[[1], [2], [3], [4], [5], [6], [7], [0, 6]]
  tk1Layout := Config.defaultTk1Layout
  domain := DomainTable.default
  cntPoly := 0x95#8
  g := #v[[1], [2], [3], [4], [5], [6], [7], [0, 7]]
  pad := .lenByte
  hash := ⟨0x01#8, 0x02#8⟩
  tFormat := .longTermTag
  lenWidth := 32
  bufCap := 64
  regMap := Config.defaultRegMap

/-- What the spec asks of a configuration: the tweakey width that the layouts are for (R95), a `TK1` layout
with a domain byte (R96), a domain table whose bytes tell its rows apart (R97), length registers of at least one bit, and a
capacity that they can state (R7). -/
def Config.admitted (c : Config) : Bool :=
  c.tweakeyBits = 384 && c.tk1Layout.toList.contains .domain && c.domain.distinct && 0 < c.lenWidth
    && c.bufCap < 2 ^ c.lenWidth

/-- The start value `D0` of the block counter (R186). -/
def Config.d0 : Counter := 1#56

/-- The all-zero counter field `DZ` of the `T_KDF` and `T_TGF` invocations (R187). -/
def Config.dz : Counter := 0#56

end Sys2Proof
end

