-- ==== Sys2Proof/Syntax.lean ====
section
/-! DEFINITION. The instructions: one constructor for each row of spec/opcode_table.json. The eight command words (R91) are
written by the host to `CMD`; the fourteen domain rows (R97) tag the engine's own cipher invocations, in
`TK1[7]` by default. -/

namespace Sys2Proof

/-- The rows of the opcode table. Operands are not in the words: they are in the operand registers and buffers (R90, R93). -/
inductive Instr where
  /-- `CLEAR`, the control command (R312). -/
  | clear
  /-- `HASH`, Romulus-H (R280). -/
  | hash
  /-- `N_ENC`, Romulus-N encryption (R220). -/
  | nEnc
  /-- `N_DEC`, Romulus-N decryption (R227). -/
  | nDec
  /-- `M_ENC`, Romulus-M encryption (R240). -/
  | mEnc
  /-- `M_DEC`, Romulus-M decryption (R248). -/
  | mDec
  /-- `T_ENC`, Romulus-T encryption (R260). -/
  | tEnc
  /-- `T_DEC`, Romulus-T decryption (R268). -/
  | tDec
  /-- `N_MSG`: the invocation after a message block that is not the last (R97, R224). -/
  | nMsg
  /-- `N_AD`: the invocation of an even-numbered associated-data block (R97, R222). -/
  | nAd
  /-- `N_MSG_LAST_FULL`: finalisation after a last message block of 16 bytes (R97, R225). -/
  | nMsgLastFull
  /-- `N_MSG_LAST_PART`: finalisation after a last message block of 0 to 15 bytes (R97, R225). -/
  | nMsgLastPart
  /-- `N_AD_LAST_FULL`: end of associated data whose last block has 16 bytes (R97, R223). -/
  | nAdLastFull
  /-- `N_AD_LAST_PART`: end of associated data whose last block has 0 to 15 bytes (R97, R223). -/
  | nAdLastPart
  /-- `M_CRYPT`: one block of the encryption pass (R97, R246). -/
  | mCrypt
  /-- `M_AD`: first pass, an even-numbered element that is an associated-data block (R97, R243). -/
  | mAd
  /-- `M_MSG`: first pass, an even-numbered element that is a message block (R97, R243). -/
  | mMsg
  /-- `M_FINAL(fl)`: last invocation of the first pass, with its four flags (R97, R242, R244). -/
  | mFinal (fl : BitVec 4)
  /-- `T_KS`: a keystream block (R97, R262). -/
  | tKs
  /-- `T_KU`: session-key update (R97, R263). -/
  | tKu
  /-- `T_KDF`: derivation of the first session key (R97, R261). -/
  | tKdf
  /-- `T_TGF`: tag generation (R97, R267). -/
  | tTgf
  deriving DecidableEq, Repr

end Sys2Proof
end

