-- ==== Sys2Proof/WellFormed.lean ====
section
/-! DEFINITION. Which instruction is a well-formed word of which format. The table has two formats, read at two places: a
command word at `CMD` (R90) and a domain byte in `TK1`, byte 7 by default (R96, R97); a row of one is not a word of the other. -/

namespace Sys2Proof

/-- The two formats of the opcode table. -/
inductive Format where
  /-- `CMD8`: the 8-bit command word the host writes to `CMD` (R90). -/
  | cmd8
  /-- `DOMAIN`: the domain byte in `TK1` of an invocation (R96, R97). -/
  | domain
  deriving DecidableEq, Repr

/-- The format of an instruction's row. -/
def Instr.format : Instr → Format
  | .clear => .cmd8
  | .hash => .cmd8
  | .nEnc => .cmd8
  | .nDec => .cmd8
  | .mEnc => .cmd8
  | .mDec => .cmd8
  | .tEnc => .cmd8
  | .tDec => .cmd8
  | .nMsg => .domain
  | .nAd => .domain
  | .nMsgLastFull => .domain
  | .nMsgLastPart => .domain
  | .nAdLastFull => .domain
  | .nAdLastPart => .domain
  | .mCrypt => .domain
  | .mAd => .domain
  | .mMsg => .domain
  | .mFinal _ => .domain
  | .tKs => .domain
  | .tKu => .domain
  | .tKdf => .domain
  | .tTgf => .domain

/-- `i` is well formed as a word of format `f`. -/
def Instr.wellFormed (f : Format) (i : Instr) : Bool := i.format = f

end Sys2Proof
end

