-- ==== Sys2Proof/Decode.lean ====
section
/-! DEFINITION. The two decoders, total on all 256 bytes and rejecting by name, and the encoder. The command words are fixed
(R91); the domain bytes are the parameter `P_DOMAIN` (R7), whose default is the opcode table's own column (R97). -/

namespace Sys2Proof

/-- Why a byte is no word of its format. As a command word each of these is answered with `BAD_OP` (R92, R301). -/
inductive DecodeError where
  /-- Bits 7:4 of a command word, `RSV`, are not `0000` (R90, R92: `0x10` to `0xFF`). -/
  | rsvNotZero
  /-- `MODE` is `101` to `111` (R90, R92: `0x0A` to `0x0F`). -/
  | modeReserved
  /-- `MODE` is control or hash and `DIR = 1` (R92: `0x01`, `0x03`). -/
  | dirReserved
  /-- A domain byte outside the closed enumeration of R97. -/
  | domainNeverProduced
  /-- There is no byte to decode. -/
  | noByte
  deriving DecidableEq, Repr

/-- The command word `w`, by its fields `RSV`, `MODE` and `DIR` (R90, R91). -/
def decodeCommand (w : Byte) : Except DecodeError Instr :=
  if w.extractLsb' 4 4 ≠ 0#4 then .error .rsvNotZero
  else
    match (w.extractLsb' 1 3).toNat, w.getLsbD 0 with
    | 0, false => .ok .clear
    | 1, false => .ok .hash
    | 2, false => .ok .nEnc
    | 2, true => .ok .nDec
    | 3, false => .ok .mEnc
    | 3, true => .ok .mDec
    | 4, false => .ok .tEnc
    | 4, true => .ok .tDec
    | 0, true => .error .dirReserved
    | 1, true => .error .dirReserved
    | _, _ => .error .modeReserved

/-- The rows of a domain table that have one byte each, with their bytes. -/
def DomainTable.rows (t : DomainTable) : List (Byte × Instr) :=
  [(t.nMsg, .nMsg), (t.nAd, .nAd), (t.nMsgLastFull, .nMsgLastFull), (t.nMsgLastPart, .nMsgLastPart),
    (t.nAdLastFull, .nAdLastFull), (t.nAdLastPart, .nAdLastPart), (t.mCrypt, .mCrypt), (t.mAd, .mAd), (t.mMsg, .mMsg),
    (t.tKs, .tKs), (t.tKu, .tKu), (t.tKdf, .tKdf), (t.tTgf, .tTgf)]

/-- The domain byte `b`, by the table `t` (R97): `M_FINAL` with its four flags in the low bits, or one of the other rows. -/
def decodeDomain (t : DomainTable) (b : Byte) : Except DecodeError Instr :=
  if (b ^^^ t.mFinal).extractLsb' 4 4 = 0#4 then .ok (.mFinal ((b ^^^ t.mFinal).extractLsb' 0 4))
  else
    match t.rows.find? fun r => r.1 = b with
    | some (_, i) => .ok i
    | none => .error .domainNeverProduced

/-- The word `b` of format `f`. -/
def decodeByte (t : DomainTable) : Format → Byte → Except DecodeError Instr
  | .cmd8, w => decodeCommand w
  | .domain, b => decodeDomain t b

/-- The first instruction of a byte sequence, with the bytes after it: every word is one byte (R90). -/
def decode (t : DomainTable) (f : Format) : List Byte → Except DecodeError (Instr × List Byte)
  | [] => .error .noByte
  | b :: rest =>
    match decodeByte t f b with
    | .ok i => .ok (i, rest)
    | .error e => .error e

/-- The word of an instruction: the `CMD` value of R91, the domain byte `B` of the table `t`. -/
def encodeIn (t : DomainTable) : Instr → Byte
  | .clear => 0x00#8
  | .hash => 0x02#8
  | .nEnc => 0x04#8
  | .nDec => 0x05#8
  | .mEnc => 0x06#8
  | .mDec => 0x07#8
  | .tEnc => 0x08#8
  | .tDec => 0x09#8
  | .nMsg => t.nMsg
  | .nAd => t.nAd
  | .nMsgLastFull => t.nMsgLastFull
  | .nMsgLastPart => t.nMsgLastPart
  | .nAdLastFull => t.nAdLastFull
  | .nAdLastPart => t.nAdLastPart
  | .mCrypt => t.mCrypt
  | .mAd => t.mAd
  | .mMsg => t.mMsg
  | .mFinal fl => t.mFinal ^^^ fl.setWidth 8
  | .tKs => t.tKs
  | .tKu => t.tKu
  | .tKdf => t.tKdf
  | .tTgf => t.tTgf

/-- The word of an instruction in the opcode table. -/
def encode (i : Instr) : Byte := encodeIn DomainTable.default i

/-- The instruction the model reads from a row's bits `w`. Every row has 8 bits. The byte is read as a command word first,
and, where that is refused, as a domain byte: `0x04` and `0x08` are words of both formats and read as `N_ENC` and `T_ENC`.
DESIGN CHOICE (safe, log 3). -/
def decodeTableWord (nbits w : Nat) : Option Instr :=
  if nbits = 8 then
    match decode DomainTable.default .cmd8 [BitVec.ofNat 8 w] with
    | .ok (i, _) => some i
    | .error _ =>
      match decode DomainTable.default .domain [BitVec.ofNat 8 w] with
      | .ok (i, _) => some i
      | .error _ => none
  else none

end Sys2Proof
end

