-- ==== Sys2Proof/Machine/State.lean ====
section
/-! DEFINITION. The state of the block as plain data: everything 10_state.md names, the host's pending actions, and the
model's own bookkeeping. -/

namespace Sys2Proof.Machine

/-- The reasons the mark `FAULT` is set for, the closed list of R306. None of them stops an instruction or a host action: the
step that meets one sets the mark in its next state (log 8). -/
inductive FaultReason where
  /-- `F_UNWRITTEN_OPERAND`: a `START` passes every error check and an operand the command reads is unwritten (R306, R307
  step 6). Set by the seven primitive commands. -/
  | unwrittenOperand
  /-- `F_BUSY_ACCESS`: while `BUSY = 1` the host writes anything, or reads anything but `STATUS` (R70, R306). Set by the host's
  reads and writes and by every command word. -/
  | busyAccess
  /-- `F_READ_NO_VALUE`: while `BUSY = 0` the host reads what holds no value (R306). Set by the host's reads. -/
  | readNoValue
  deriving DecidableEq, Repr

/-- The reasons a run stops. -/
inductive Fault where
  /-- The run has ended with the `fault` outcome (R11): the mark `FAULT` is set, for the reason `r`. Raised by `step` alone, in a
  state with the mark, never by an instruction. Safe. -/
  | runEnded (r : FaultReason)
  /-- The MODEL's own (log 17): an engine micro-operation reads an internal register, an operand or a buffer byte that is
  unwritten. No run from reset reaches it (R39: every algorithm writes an internal register before it reads it). Raised by
  the engine and by the domain rows. Safe. -/
  | engineUnwritten
  deriving DecidableEq, Repr

/-- The reasons the model has no step. -/
inductive Refusal where
  /-- Raised only by `exec`, for an instruction without a meaning. Safe. -/
  | notModelled (mnemonic : String)
  /-- The MODEL's own (log 17): the domain byte in the pending invocation's `TK1` is outside the domain table (R97). The engine
  never produces one. Raised by the engine. Safe. -/
  | badDomainByte (b : Byte)
  /-- The MODEL's own (log 17): `BUSY = 1` and `OP` and `PHASE` name no micro-operation, or an invocation is pending and the layout
  of `TK1` has no domain byte. No run of an admitted configuration from reset reaches it. Raised by the engine. Safe. -/
  | noMicroOp
  deriving DecidableEq, Repr

/-- The outcome of a step of the block. -/
abbrev Out (State : Type) := Host.Outcome State Fault Refusal

/-- Which part of a command's algorithm runs (R36). -/
inductive Phase where
  | idle | ad | text | mac | crypt | kdf | stream | hashblk | final | compare | publish
  deriving DecidableEq, Repr

/-- The three buffer memories (R30, R60). -/
inductive Space where
  | adbuf | tin | tout
  deriving DecidableEq, Repr

/-- What the host does in one step (R103, R340). -/
inductive HostAction where
  /-- The host does nothing in this step: the engine moves if it can (log 1). -/
  | idle
  /-- `START v`, by name: the same as the write of `v` to `CMD` (R103). -/
  | start (v : Byte)
  /-- `W REG[off] <- bytes` (R68, R103). -/
  | writeReg (off : Nat) (bytes : List Byte)
  /-- `R REG[off], n` (R68, R103). -/
  | readReg (off n : Nat)
  /-- `WRBUF space, off, bytes` (R103). -/
  | writeBuf (space : Space) (off : Nat) (bytes : List Byte)
  /-- `RDBUF space, off, n` (R103). -/
  | readBuf (space : Space) (off n : Nat)
  /-- `WAIT`: read `STATUS` until `BUSY = 0` (R103). -/
  | wait
  /-- The `RESET` action (R340). -/
  | reset
  deriving DecidableEq, Repr

/-- The key source of a cipher invocation (R198). -/
inductive KeySource where
  /-- The key register `KEY`. -/
  | key
  /-- The session key `Z`. -/
  | z
  /-- The hash layout: no key (R99). -/
  | pub
  deriving DecidableEq, Repr

/-- One entry of the model's log: a cipher invocation (R198) or a buffer access of the engine (R349). -/
inductive Event where
  /-- A TBC invocation: key source, and domain byte and counter, or none for the hash layout. -/
  | invoke (source : KeySource) (tweak : Option (Byte × Counter))
  /-- The engine reads `n` bytes from offset `off`. -/
  | read (space : Space) (off n : Nat)
  /-- The engine writes `n` bytes from offset `off`. -/
  | write (space : Space) (off n : Nat)
  deriving DecidableEq, Repr

/-- A 16-byte operand register: each byte written or unwritten (R37, R68). -/
abbrev OperandReg := Vector (Option Byte) 16

/-- A buffer memory: its written bytes, offsets strictly rising. An unlisted offset is unwritten: it holds no value, and a
host's read of it sets `FAULT` (R37, R40, R306; log 20). -/
abbrev Memory := List Host.Cell

/-- The canonical form of a memory: offsets strictly rising. (No entry can equal what an unlisted offset reads as, since an
unlisted offset has no value.) -/
abbrev Memory.wf (m : Memory) : Prop := m.Pairwise fun a b => a.1 < b.1

/-- The state of the block (R20) with its configuration, its host and the model's own fields. -/
structure State where
  /-- The parameters of the step relation (R42). No step writes them (log 5). -/
  cfg : Config
  /-- `KEY` (R21). -/
  key : OperandReg
  /-- `NONCE` (R22). -/
  nonce : OperandReg
  /-- `TAGIN` (R23). -/
  tagin : OperandReg
  /-- `KLEN`, the declared key length (R24). -/
  klen : BitVec 8
  /-- `NLEN`, the declared nonce length (R24). -/
  nlen : BitVec 8
  /-- `TGLEN`, the declared tag length (R24). -/
  tglen : BitVec 8
  /-- `ADLEN`, an unsigned number of `LENW` bits (R25, R201; log 24). -/
  adlen : Nat
  /-- `TLEN`, an unsigned number of `LENW` bits (R25, R201; log 24). -/
  tlen : Nat
  /-- `STATUS` (R27). -/
  status : BitVec 8
  /-- `TAGOUT`, or unwritten (R28). -/
  tagout : Option Block
  /-- `DIGEST`, or unwritten (R29). -/
  digest : Option Digest
  /-- `ADBUF` (R30). -/
  adbuf : Memory
  /-- `TIN` (R30). -/
  tin : Memory
  /-- `TOUT` (R30). -/
  tout : Memory
  /-- `S`, the duplex state, or unwritten (R31). -/
  regS : Option Block
  /-- `L`, or unwritten (R32). -/
  regL : Option Block
  /-- `R`, or unwritten (R32). -/
  regR : Option Block
  /-- `Z`, the session key, or unwritten (R33). -/
  regZ : Option Block
  /-- `D`, the block counter, or unwritten (R34). -/
  regD : Option Counter
  /-- `TK1`, or unwritten (R35). -/
  tk1 : Option Block
  /-- `TK2`, or unwritten (R35). -/
  tk2 : Option Block
  /-- `TK3`, or unwritten (R35). -/
  tk3 : Option Block
  /-- `RC`, or unwritten (R35, R136). -/
  rc : Option (BitVec 6)
  /-- `RND`, or unwritten (R35). -/
  rnd : Option Nat
  /-- `ACC`, or unwritten (R35, R196). -/
  acc : Option Byte
  /-- `IDX`, or unwritten: unwritten at the entry of a phase (R36; log 11, log 24). -/
  idx : Option Nat
  /-- `OP`, the latched command word (R36). -/
  op : BitVec 8
  /-- `PHASE` (R36). -/
  phase : Phase
  /-- `FAULT`, the model-level mark of R306: clear, or set with its reason (log 8). -/
  fault : Option FaultReason
  /-- The MODEL's own: an invocation is loaded into `TK1` and not yet run; it is the engine's next micro-operation (log 12). -/
  pending : Bool
  /-- The MODEL's own: the variable `T` of the pseudocode, or none (log 10). -/
  tagT : Option Block
  /-- The MODEL's own: the message-sized scratch of R199, the ciphertext of `T_ENC` so far, from which its authentication input
  is formed (log 26). -/
  scratch : List Byte
  /-- The MODEL's own: what the host does next, one item a step (log 1). -/
  script : List HostAction
  /-- The MODEL's own: what the host's reads returned, oldest first (log 15). -/
  reads : List (List Byte)
  /-- The MODEL's own: the trace of R198 with the buffer accesses of R349, oldest first (log 16). -/
  log : List Event
  /-- The MODEL's own: how many free values have been drawn (log 9). -/
  draws : Nat
  deriving DecidableEq, Repr

/-- An operand register no byte of which is written. -/
def OperandReg.unwritten : OperandReg := Vector.replicate 16 none

/-- The state after `RESET` of a block with configuration `c` (R40, R340): the lengths, `STATUS` and `OP` zero, `PHASE`
`IDLE`, everything else unwritten, `FAULT` clear. -/
def State.resetWith (c : Config) : State where
  cfg := c
  key := OperandReg.unwritten
  nonce := OperandReg.unwritten
  tagin := OperandReg.unwritten
  klen := 0
  nlen := 0
  tglen := 0
  adlen := 0
  tlen := 0
  status := 0
  tagout := none
  digest := none
  adbuf := []
  tin := []
  tout := []
  regS := none
  regL := none
  regR := none
  regZ := none
  regD := none
  tk1 := none
  tk2 := none
  tk3 := none
  rc := none
  rnd := none
  acc := none
  idx := none
  op := 0
  phase := .idle
  fault := none
  pending := false
  tagT := none
  scratch := []
  script := []
  reads := []
  log := []
  draws := 0

/-- The state of the block right after reset, in the default configuration of R7 (R40, R340). -/
def State.reset : State := State.resetWith Config.default

end Sys2Proof.Machine
end

