-- ==== Sys2Proof/Machine/Tweakey.lean ====
section
/-! DEFINITION. The tweakey schedule (41_tweakey_schedule.md): the subtweakey of a round and the update after it. -/

namespace Sys2Proof.Machine

/-- The 48-byte tweakey `TK1 ‖ TK2 ‖ TK3` (R95, R160). -/
structure Tweakey where
  tk1 : Block
  tk2 : Block
  tk3 : Block
  deriving DecidableEq, Repr

/-- `subtweakey`: the exclusive-or of the first two rows of the three words (R161). -/
def subtweakey (t : Tweakey) : Vector Byte 8 := Vector.ofFn fun i => t.tk1[i] ^^^ t.tk2[i] ^^^ t.tk3[i]

/-- The exclusive-or of the bits of `x` that a list names. -/
def bitSum {w n : Nat} (l : List (Fin n)) (x : BitVec w) : Bool := l.foldl (fun a i => a ^^ x.getLsbD i) false

/-- The image of a byte under a byte map. -/
def applyMap (m : ByteMap) (x : Byte) : Byte :=
  BitVec.ofBool (bitSum m[7] x) ++ BitVec.ofBool (bitSum m[6] x) ++ BitVec.ofBool (bitSum m[5] x)
    ++ BitVec.ofBool (bitSum m[4] x) ++ BitVec.ofBool (bitSum m[3] x) ++ BitVec.ofBool (bitSum m[2] x)
    ++ BitVec.ofBool (bitSum m[1] x) ++ BitVec.ofBool (bitSum m[0] x)

/-- `lfsr2`, the feedback function of `TK2` cells (R165). -/
def lfsr2 (c : Config) (x : Byte) : Byte := applyMap c.lfsr2 x

/-- `lfsr3`, the feedback function of `TK3` cells (R166). -/
def lfsr3 (c : Config) (x : Byte) : Byte := applyMap c.lfsr3 x

/-- The cell permutation `P_PT`: `new[i] = old[P_PT[i]]` (R163). -/
def permuteCells (c : Config) (w : Block) : Block := Vector.ofFn fun i => w[c.pt[i]]

/-- A feedback function on the cells of rows 0 and 1 (R162). -/
def topRows (f : Byte → Byte) (w : Block) : Block := Vector.ofFn fun i => if i.val < 8 then f w[i] else w[i]

/-- `tk_update`: permute the cells of all three words, then the feedback functions on the top rows of `TK2` and `TK3`
(R162); `TK1` has none (R164). -/
def tkUpdate (c : Config) (t : Tweakey) : Tweakey where
  tk1 := permuteCells c t.tk1
  tk2 := topRows (lfsr2 c) (permuteCells c t.tk2)
  tk3 := topRows (lfsr3 c) (permuteCells c t.tk3)

/-- `schedule`: the tweakey after `r` updates; round `r + 1` adds its `subtweakey` (R160). -/
def tweakeyAfter (c : Config) (t : Tweakey) : Nat → Tweakey
  | 0 => t
  | r + 1 => tkUpdate c (tweakeyAfter c t r)

end Sys2Proof.Machine
end

