-- ==== Sys2Proof/Machine/Cipher.lean ====
section
/-! DEFINITION. The tweakable block cipher core (40_cipher_core.md): one round in five steps, and `permute`. -/

namespace Sys2Proof.Machine

/-- `P_SBOX` looked up: row `x div 16`, column `x mod 16` (R134). -/
def sboxLookup (c : Config) (x : Byte) : Byte := (c.sbox[(x.extractLsb' 4 4).toFin])[(x.extractLsb' 0 4).toFin]

/-- The two exclusive-ors of one pass of R133: `x4 ⊕ NOT(x7 OR x6)` and `x0 ⊕ NOT(x3 OR x2)`. -/
def sboxMix (x : Byte) : Byte :=
  x ^^^ ((BitVec.ofBool !(x.getLsbD 7 || x.getLsbD 6)).setWidth 8 <<< 4)
    ^^^ (BitVec.ofBool !(x.getLsbD 3 || x.getLsbD 2)).setWidth 8

/-- The byte whose bits 7 down to 0 are the given bits of `x`. -/
def pickBits (x : Byte) (b7 b6 b5 b4 b3 b2 b1 b0 : Nat) : Byte :=
  BitVec.ofBool (x.getLsbD b7) ++ BitVec.ofBool (x.getLsbD b6) ++ BitVec.ofBool (x.getLsbD b5) ++ BitVec.ofBool (x.getLsbD b4)
    ++ BitVec.ofBool (x.getLsbD b3) ++ BitVec.ofBool (x.getLsbD b2) ++ BitVec.ofBool (x.getLsbD b1)
    ++ BitVec.ofBool (x.getLsbD b0)

/-- The substitution by its bit-level rule: four passes, the last with the swap of bits 2 and 1 only (R133). Where the table
and this rule disagree, this rule governs (R134). -/
def sboxByRule (x : Byte) : Byte :=
  let pass (y : Byte) : Byte := pickBits (sboxMix y) 2 1 7 6 4 0 3 5
  pickBits (sboxMix (pass (pass (pass x)))) 7 6 5 4 3 1 2 0

/-- `SubCells` (R133). -/
def subCells (c : Config) (x : Block) : Block := x.map (sboxLookup c)

/-- `rc_next`: shift left within 6 bits, and the inverted exclusive-or of the taps into bit 0; by default `rc5 ⊕ rc4 ⊕ 1`
(R136). -/
def rcNext (c : Config) (r : BitVec 6) : BitVec 6 := (r <<< 1) ||| (BitVec.ofBool (bitSum c.rcTaps r ^^ true)).setWidth 6

/-- `AddConstants`: three constants into the first column (R137). -/
def addConstants (r : BitVec 6) (x : Block) : Block :=
  ((x.set 0 (x[0] ^^^ (r.setWidth 8 &&& 0x0F#8))).set 4 (x[4] ^^^ ((r.setWidth 8 >>> 4) &&& 0x03#8))).set 8 (x[8] ^^^ 0x02#8)

/-- `AddRoundTweakey`: the subtweakey into rows 0 and 1 (R138). -/
def addRoundTweakey (stk : Vector Byte 8) (x : Block) : Block :=
  Vector.ofFn fun i => if h : i.val < 8 then x[i] ^^^ stk[i.val] else x[i]

/-- `ShiftRows`: `new[i] = old[P_SR[i]]` (R139). -/
def shiftRows (c : Config) (x : Block) : Block := Vector.ofFn fun i => x[c.sr[i]]

/-- One cell of the mixing layer: row `row` of `P_MC` applied to a column of four cells (R140). -/
def mixCell (row : Vector Bool 4) (r0 r1 r2 r3 : Byte) : Byte :=
  (if row[0] then r0 else 0#8) ^^^ (if row[1] then r1 else 0#8) ^^^ (if row[2] then r2 else 0#8)
    ^^^ (if row[3] then r3 else 0#8)

/-- `MixColumns`: every column multiplied by `P_MC` (R140). -/
def mixColumns (c : Config) (x : Block) : Block :=
  Vector.ofFn fun i : Fin 16 =>
    mixCell (c.mc[i.val / 4]) (x[i.val % 4]) (x[4 + i.val % 4]) (x[8 + i.val % 4]) (x[12 + i.val % 4])

/-- One round: the five steps in order (R132). -/
def cipherRound (c : Config) (r : BitVec 6) (stk : Vector Byte 8) (x : Block) : Block :=
  mixColumns c (shiftRows c (addRoundTweakey stk (addConstants r (subCells c x))))

/-- What a `permute` call works on: the internal state, the round constant and the tweakey words (R130, R135, R35). -/
structure CipherState where
  cells : Block
  rc : BitVec 6
  tk : Tweakey
  deriving DecidableEq, Repr

/-- The body of the loop of R130. -/
def cipherStep (c : Config) (q : CipherState) : CipherState where
  cells := cipherRound c (rcNext c q.rc) (subtweakey q.tk) q.cells
  rc := rcNext c q.rc
  tk := tkUpdate c q.tk

/-- `n` rounds. -/
def cipherRounds (c : Config) : Nat → CipherState → CipherState
  | 0, q => q
  | n + 1, q => cipherRounds c n (cipherStep c q)

/-- `permute`, with everything it leaves behind: the loads and the loop of R130. -/
def permuteState (c : Config) (t : Tweakey) (x : Block) : CipherState := cipherRounds c c.rounds ⟨x, 0#6, t⟩

/-- `permute(TK, X)` (R130). -/
def permute (c : Config) (t : Tweakey) (x : Block) : Block := (permuteState c t x).cells

end Sys2Proof.Machine
end

