-- ==== Sys2Proof/Machine/Duplex.lean ====
section
/-! DEFINITION. The functions of the mode engine (42_duplex_engine.md) and the hash compression (46_romulus_h.md): counter,
state feedback, padding, `rho`, tweakey assembly, tag comparison. -/

namespace Sys2Proof.Machine

/-! ## Counter and tweakey assembly -/

/-- `cnt_step`: shift the 56 bits left by one; if bit 55 was set, exclusive-or the feedback byte into byte 0 (R185). -/
def cntStep (c : Config) (d : Counter) : Counter :=
  (d <<< 1) ^^^ (if d.getLsbD 55 then c.cntPoly.setWidth 56 else 0#56)

/-- `n` counter steps. -/
def cntSteps (c : Config) : Nat → Counter → Counter
  | 0, d => d
  | n + 1, d => cntSteps c n (cntStep c d)

/-- The seven bytes of the counter, least significant first (R34, R63). -/
def counterBytes (d : Counter) : List Byte := (List.range 7).map fun i => d.extractLsb' (8 * i) 8

/-- The byte that a slot of `TK1` holds for counter `d` and domain byte `b` (R96). -/
def tk1Byte (d : Counter) (b : Byte) : Tk1Slot → Byte
  | .counter i => d.extractLsb' (8 * i.val) 8
  | .domain => b
  | .zero => 0#8

/-- `TK1` of the AEAD layout (R96). -/
def aeadTk1 (c : Config) (d : Counter) (b : Byte) : Block := c.tk1Layout.map (tk1Byte d b)

/-- The domain byte in a `TK1`, or none where the layout has no place for one. -/
def tagOf (c : Config) (w : Block) : Option Byte :=
  ((c.tk1Layout.toList.zip w.toList).find? fun p => p.1 = .domain).map Prod.snd

/-- The AEAD tweakey layout (R96, R183). -/
def aeadTweakey (c : Config) (k t : Block) (b : Byte) (d : Counter) : Tweakey := ⟨aeadTk1 c d b, t, k⟩

/-- `E(K, T, B, D, X)` (R183). -/
def tbc (c : Config) (k t : Block) (b : Byte) (d : Counter) (x : Block) : Block := permute c (aeadTweakey c k t b d) x

/-! ## State feedback and padding -/

/-- One byte of `G` (R188). -/
def gByte (c : Config) (x : Byte) : Byte := applyMap c.g x

/-- `G(S)` (R188). -/
def feedback (c : Config) (s : Block) : Block := s.map (gByte c)

/-- `pad16`, by the parameter `P_PAD` (R190): a full block is exempt. -/
def pad16 (c : Config) (b : List Byte) : Block :=
  if b.length = 16 then Block.ofBytes b
  else
    match c.pad with
    | .lenByte => Block.ofBytes (b ++ List.replicate (15 - b.length) 0#8 ++ [BitVec.ofNat 8 b.length])
    | .oneZero => Block.ofBytes (b ++ [0x80#8])

/-- The exclusive-or of a byte sequence with as many first bytes of a block. -/
def xorPrefix (m : List Byte) (k : Block) : List Byte := List.zipWith (· ^^^ ·) m k.toList

/-- `rho(S, M)`: the new state and the output block; `G(S)` is read before `S` changes (R191). -/
def rho (c : Config) (s : Block) (m : List Byte) : Block × List Byte := (s.xor (pad16 c m), xorPrefix m (feedback c s))

/-- `rho_inv(S, C)`: the new state and the recovered block, by which the state is updated (R192). -/
def rhoInv (c : Config) (s : Block) (x : List Byte) : Block × List Byte :=
  (s.xor (pad16 c (xorPrefix x (feedback c s))), xorPrefix x (feedback c s))

/-! ## Tag comparison -/

/-- The accumulator after all 16 bytes: the OR of the bytewise differences (R196). -/
def tagDifference (t1 t2 : Block) : Byte := (t1.xor t2).toList.foldl (· ||| ·) 0#8

/-- `tag_equal` (R196). -/
def tagEqual (t1 t2 : Block) : Bool := tagDifference t1 t2 = 0#8

/-! ## Blocks of a byte sequence -/

/-- The number of blocks of `blocks16` for a sequence of `n` bytes: an empty one is one block (R189). -/
def blockCount (n : Nat) : Nat := max 1 ((n + 15) / 16)

/-- The number of blocks where an empty sequence is zero blocks (R247, R262). -/
def textBlockCount (n : Nat) : Nat := (n + 15) / 16

/-- The length of block `i`, counted from 0, of a sequence of `n` bytes (R65). -/
def blockLength (n i : Nat) : Nat := min 16 (n - 16 * i)

/-- The last block of `blocks16` has 16 bytes (R189). -/
def lastBlockFull (n : Nat) : Bool := n ≠ 0 && n % 16 = 0

/-- Block `i`, counted from 0, of a byte sequence cut into blocks of `k` bytes. -/
def blockOf (k : Nat) (x : List Byte) (i : Nat) : List Byte := (x.drop (k * i)).take k

/-! ## Hash (46_romulus_h.md) -/

/-- `CF(L, R, B)`: the tweakey is `R ‖ B`; two invocations, each with feed-forward (R282, R99). -/
def compressTweakey (r : Block) (b : List Byte) : Tweakey := ⟨r, Block.ofBytes (b.take 16), Block.ofBytes (b.drop 16)⟩

/-- `L` with a constant exclusive-ored into byte 0 (R100, R282, R284). -/
def flipByte0 (v : Byte) (l : Block) : Block := l.set 0 (l[0] ^^^ v)

/-- `CF(L, R, B)`: the new `L` and `R`, both from the old ones (R282). -/
def compress (c : Config) (l r : Block) (b : List Byte) : Block × Block :=
  ((permute c (compressTweakey r b) l).xor l,
   (permute c (compressTweakey r b) (flipByte0 c.hash.second l)).xor (flipByte0 c.hash.second l))

/-- `ipad32`, for 0 to 31 bytes (R283). -/
def ipad32 (x : List Byte) : List Byte := x ++ List.replicate (31 - x.length) 0#8 ++ [BitVec.ofNat 8 x.length]

/-- `ipadstar16` (R265). -/
def ipadStar16 (x : List Byte) : List Byte :=
  if x.length = 0 then []
  else x ++ List.replicate (15 - x.length % 16) 0#8 ++ [BitVec.ofNat 8 (x.length % 16)]

/-- `pl(n)`, the length of `ipadstar16` of `n` bytes (R264). -/
def ipadStarLength (n : Nat) : Nat := if n = 0 then 0 else 16 * (n / 16 + 1)

/-- The authentication input of Romulus-T (R264). -/
def authString (a x : List Byte) (nonce : Block) (d : Counter) : List Byte :=
  ipadStar16 a ++ ipadStar16 x ++ nonce.toList ++ counterBytes d

end Sys2Proof.Machine
end

