-- ==== Sys2Proof/Machine/Flags.lean ====
section
/-! DEFINITION. The fields of `STATUS` (R27) and the error codes (R94): the block's only flags. -/

namespace Sys2Proof.Machine

/-- `STATUS.BUSY`, bit 0 (R27). -/
def statusBusy (v : BitVec 8) : Bool := v.getLsbD 0

/-- `STATUS.DONE`, bit 1 (R27). -/
def statusDone (v : BitVec 8) : Bool := v.getLsbD 1

/-- `STATUS.VALID`, bit 2 (R27). -/
def statusValid (v : BitVec 8) : Bool := v.getLsbD 2

/-- `STATUS.ERR`, bit 3 (R27). -/
def statusErr (v : BitVec 8) : Bool := v.getLsbD 3

/-- `STATUS.ECODE`, bits 7:4 (R27). -/
def statusEcode (v : BitVec 8) : BitVec 4 := v.extractLsb' 4 4

/-- The value of `STATUS` with the given fields (R27). -/
def statusOf (busy done valid err : Bool) (ecode : BitVec 4) : BitVec 8 :=
  ecode ++ BitVec.ofBool err ++ BitVec.ofBool valid ++ BitVec.ofBool done ++ BitVec.ofBool busy

/-- The five error codes (R94, R301 to R305). -/
inductive ErrorCode where
  /-- `BAD_OP` (R301). -/
  | badOp
  /-- `BAD_KEYLEN` (R302). -/
  | badKeyLen
  /-- `BAD_NONCELEN` (R303). -/
  | badNonceLen
  /-- `BAD_TAGLEN` (R304). -/
  | badTagLen
  /-- `LEN_RANGE` (R305). -/
  | lenRange
  deriving DecidableEq, Repr

/-- The value of `STATUS.ECODE` that reports a code (R94). -/
def ecodeOf : ErrorCode → BitVec 4
  | .badOp => 1
  | .badKeyLen => 2
  | .badNonceLen => 3
  | .badTagLen => 4
  | .lenRange => 5

/-- `STATUS` right after step 1 of `START`, after `CLEAR` and after reset (R307, R312, R40). -/
def statusClear : BitVec 8 := statusOf false false false false 0

/-- `STATUS` while a command runs (R307 step 7). -/
def statusRunning : BitVec 8 := statusOf true false false false 0

/-- `STATUS` after the error outcome (R308). -/
def statusError (c : ErrorCode) : BitVec 8 := statusOf false true false true (ecodeOf c)

/-- `STATUS` after the done outcome with the given validity (R9, R27, R309). -/
def statusFinished (valid : Bool) : BitVec 8 := statusOf false true valid false 0

/-- The block is running a command. -/
def State.busy (s : State) : Bool := statusBusy s.status

end Sys2Proof.Machine
end

