-- ==== Sys2Proof/Machine/Ops.lean ====
section
/-! DEFINITION. The named operations over memories and registers, and the error outcome: entry, exit, and the destruction of
secrets at the end of a command. -/

namespace Sys2Proof.Machine

/-! ## Outcomes -/

/-- Go on from a next state; a fault or a refusal ends it. -/
def andThen (o : Out State) (f : State → Out State) : Out State :=
  match o with
  | .next s => f s
  | .fault r => .fault r
  | .refused r => .refused r

/-- Go on with the value of something written; the engine never reads anything else (R39; log 17). -/
def need {α : Type} (x : Option α) (f : α → Out State) : Out State :=
  match x with
  | some a => f a
  | none => .fault .engineUnwritten

/-! ## Memories (R64) -/

/-- The byte at offset `a`, or none where it is unwritten (R37). -/
def Memory.read : Memory → Nat → Option Byte
  | [], _ => none
  | (b, v) :: rest, a => if a = b then some v else Memory.read rest a

/-- `m` with the byte `v` at offset `a`, in canonical form. -/
def Memory.write : Memory → Nat → Byte → Memory
  | [], a, v => [(a, v)]
  | (b, w) :: rest, a, v =>
    if a < b then (a, v) :: (b, w) :: rest
    else if a = b then (a, v) :: rest
    else (b, w) :: Memory.write rest a v

/-- `MemRead`: the `n` bytes from offset `off`, or none where one of them is unwritten (R64). -/
def Memory.readRange (m : Memory) (off : Nat) : Nat → Option (List Byte)
  | 0 => some []
  | n + 1 =>
    match m.read off, Memory.readRange m (off + 1) n with
    | some b, some bs => some (b :: bs)
    | _, _ => none

/-- `MemWrite`: `m` with the bytes `bs` from offset `off` (R64). -/
def Memory.writeRange (m : Memory) (off : Nat) : List Byte → Memory
  | [] => m
  | b :: bs => Memory.writeRange (m.write off b) (off + 1) bs

/-- Every one of the first `n` bytes is written (R307 step 6). -/
def Memory.writtenTo (m : Memory) (n : Nat) : Bool := (m.readRange 0 n).isSome

/-! ## Operand registers (R37, R68) -/

/-- The value of an operand register: it counts as written when all its bytes have been written (R68). -/
def OperandReg.value (r : OperandReg) : Option Block :=
  if r.toList.all Option.isSome then some (Vector.ofFn fun i => (r[i]).getD 0#8) else none

/-- The register with byte `i` written; nothing is written at an `i` beyond its end. -/
def OperandReg.writeByte (r : OperandReg) (i : Nat) (b : Byte) : OperandReg := r.setIfInBounds i (some b)

/-- The register all of whose bytes are written, with those of `b`. -/
def OperandReg.ofBlock (b : Block) : OperandReg := b.map some

/-- A length register of `w` bits with byte `i`, counted from the least significant, written (R25, R63). -/
def writeLengthByte (w v i : Nat) (b : Byte) : Nat :=
  (v % 256 ^ i + 256 ^ i * b.toNat + 256 ^ (i + 1) * (v / 256 ^ (i + 1))) % 2 ^ w

/-- Byte `i` of a length register, counted from the least significant (R63). -/
def lengthByte (v i : Nat) : Byte := BitVec.ofNat 8 (v / 256 ^ i)

/-! ## The log (R198, R349) -/

/-- The state with one more event in the log. -/
def logEvent (e : Event) (s : State) : State := { s with log := s.log ++ [e] }

/-- The invocation trace of R198: the log's cipher invocations, in order. -/
def traceOf (l : List Event) : List (KeySource × Option (Byte × Counter)) :=
  l.filterMap fun e =>
    match e with
    | .invoke k t => some (k, t)
    | .read _ _ _ => none
    | .write _ _ _ => none

/-! ## Command life cycle -/

/-- The explicit operands that end with a command become unwritten (R38, R308, R312). -/
def unwriteOperands (s : State) : State :=
  { s with key := OperandReg.unwritten, nonce := OperandReg.unwritten, tagin := OperandReg.unwritten }

/-- The end of a command destroys everything that depends on a secret and everything the next command must not inherit
(R38); the model's own `pending`, `tagT` and `scratch` go with it (R199). -/
def destroy (s : State) : State :=
  { unwriteOperands s with
    regS := none, regL := none, regR := none, regZ := none, regD := none
    tk1 := none, tk2 := none, tk3 := none, rc := none, rnd := none, acc := none, idx := none
    pending := false, tagT := none, scratch := [], phase := .idle }

/-- Step 1 of `START`: latch the command word, clear `STATUS`, make the results unwritten (R307). The log starts anew: it is
the log of this command. -/
def latch (v : BitVec 8) (s : State) : State :=
  { s with op := v, status := statusClear, tagout := none, digest := none, tout := [], log := [] }

/-- `raise Error(code)`, the ONE way an error is taken (R308): `STATUS` reports it, the operands become unwritten, nothing is
saved and control goes nowhere. There is no return from an error: the next `START` leaves it, its step 1 being `latch`
(R313). -/
def raiseError (c : ErrorCode) (s : State) : State := { unwriteOperands s with status := statusError c }

/-- `fault(reason)`, the ONE way a fault is taken (R306): the mark `FAULT` is set with the reason, and nothing else changes. A mark
that is set keeps its reason (log 8). -/
def raiseFault (r : FaultReason) (s : State) : State := { s with fault := some (s.fault.getD r) }

/-- Enter a phase: its `IDX` is not yet written (R36; log 11). -/
def enter (p : Phase) (s : State) : State := { s with phase := p, idx := none }

/-- The `RESET` action (R340): every piece of state takes its value of R40. `FAULT` is not cleared (R306), the configuration
is not state (R42), and the model's own `script`, `reads` and `draws` are the host's and the model's (log 22). -/
def resetAction (s : State) : State :=
  { State.resetWith s.cfg with fault := s.fault, script := s.script, reads := s.reads, draws := s.draws }

end Sys2Proof.Machine
end

