-- ==== Sys2Proof/Machine/Operands.lean ====
section
/-! DEFINITION. How operands become cipher inputs (R93, R101): what each command reads, the blocks of the buffers, the
domain byte of each invocation (R184), and the assembly and issue of an invocation's tweakey (R35, R96). -/

namespace Sys2Proof.Machine

/-! ## The command -/

/-- The kind of a primitive, which decides what it reads (R93) and what it publishes. -/
inductive Kind where
  | hash | encrypt | decrypt
  deriving DecidableEq, Repr

/-- The mode field of a primitive's command word (R90). -/
inductive Mode where
  | romulusH | romulusN | romulusM | romulusT
  deriving DecidableEq, Repr

/-- The mode of the latched command, from `MODE`, bits 3:1 of `OP` (R90). -/
def State.mode (s : State) : Option Mode :=
  match (s.op.extractLsb' 1 3).toNat with
  | 1 => some .romulusH
  | 2 => some .romulusN
  | 3 => some .romulusM
  | 4 => some .romulusT
  | _ => none

/-- The latched command decrypts: `DIR`, bit 0 of `OP` (R90). -/
def State.decrypting (s : State) : Bool := s.op.getLsbD 0

/-- The kind of the latched command. -/
def State.kind (s : State) : Kind :=
  if s.mode = some .romulusH then .hash else if s.decrypting then .decrypt else .encrypt

/-! ## Buffers -/

/-- The buffer memory of a space (R60). -/
def State.buffer (s : State) : Space → Memory
  | .adbuf => s.adbuf
  | .tin => s.tin
  | .tout => s.tout

/-- `Block(space, len, i)`, `i` counted from 0, or none where a byte is unwritten (R65). -/
def State.block (s : State) (sp : Space) (len i : Nat) : Option (List Byte) :=
  (s.buffer sp).readRange (16 * i) (blockLength len i)

/-- Record a buffer read of the engine (R349); a read of no byte is no access. -/
def logRead (sp : Space) (off n : Nat) (s : State) : State := if n = 0 then s else logEvent (.read sp off n) s

/-- Record a buffer write of the engine (R349); a write of no byte is no access. -/
def logWrite (off n : Nat) (s : State) : State := if n = 0 then s else logEvent (.write .tout off n) s

/-- Record the read of block `i`. -/
def logBlock (sp : Space) (len i : Nat) (s : State) : State := logRead sp (16 * i) (blockLength len i) s

/-- `MemWrite(TOUT, 16 i, |o|, o)`: the output block `i` (R67). -/
def writeText (i : Nat) (o : List Byte) (s : State) : State :=
  logWrite (16 * i) o.length { s with tout := s.tout.writeRange (16 * i) o }

/-- Keep the output `o` of `T_ENC` in the scratch of R199, for its authentication input; `T_DEC` has the ciphertext in `TIN`. -/
def keepText (o : List Byte) (s : State) : State :=
  if s.decrypting then s else { s with scratch := s.scratch ++ o }

/-! ## Which operands a command reads (R93) -/

/-- The error checks of `START`, steps 4 and 5 of R307: the first that fails is the one reported. -/
def precheck (k : Kind) (s : State) : Option ErrorCode :=
  match k with
  | .hash => if s.cfg.bufCap < s.tlen then some .lenRange else none
  | .encrypt =>
    if s.klen ≠ 16 then some .badKeyLen
    else if s.nlen ≠ 16 then some .badNonceLen
    else if s.cfg.bufCap < s.adlen then some .lenRange
    else if s.cfg.bufCap < s.tlen then some .lenRange
    else none
  | .decrypt =>
    if s.klen ≠ 16 then some .badKeyLen
    else if s.nlen ≠ 16 then some .badNonceLen
    else if s.tglen ≠ 16 then some .badTagLen
    else if s.cfg.bufCap < s.adlen then some .lenRange
    else if s.cfg.bufCap < s.tlen then some .lenRange
    else none

/-- Every operand a command of kind `k` reads is written: step 6 of R307, by the table of R93. -/
def operandsWritten (k : Kind) (s : State) : Bool :=
  match k with
  | .hash => s.tin.writtenTo s.tlen
  | .encrypt =>
    s.key.value.isSome && s.nonce.value.isSome && s.adbuf.writtenTo s.adlen && s.tin.writtenTo s.tlen
  | .decrypt =>
    s.key.value.isSome && s.nonce.value.isSome && s.tagin.value.isSome && s.adbuf.writtenTo s.adlen
      && s.tin.writtenTo s.tlen

/-- `START` of a primitive (R307): the host's write of its command word to `CMD`. It ends in an error (R308), with
`FAULT` set (R306), or with `BUSY` set and the engine in the command's first phase. -/
def startPrimitive (v : BitVec 8) (k : Kind) (first : Phase) (s : State) : Out State :=
  if s.busy then .next (raiseFault .busyAccess s)
  else
    match precheck k (latch v s) with
    | some code => .next (raiseError code (latch v s))
    | none =>
      if operandsWritten k (latch v s) then .next { latch v s with status := statusRunning, phase := first }
      else .next (raiseFault .unwrittenOperand (latch v s))

/-- `START` of a reserved word: steps 1 and 2 of R307, `BAD_OP` (R92, R301). -/
def startReserved (v : BitVec 8) (s : State) : Out State :=
  if s.busy then .next (raiseFault .busyAccess s) else .next (raiseError .badOp (latch v s))

/-! ## Domain bytes (R184) -/

/-- The closing tag of the associated-data phase of Romulus-N (R223). -/
def nAdLast (s : State) : Instr := if lastBlockFull s.adlen then .nAdLastFull else .nAdLastPart

/-- The tag after text block `i`, counted from 0, of Romulus-N (R224, R225). -/
def nTextTag (s : State) (i : Nat) : Instr :=
  if i + 1 < blockCount s.tlen then .nMsg
  else if lastBlockFull s.tlen then .nMsgLastFull
  else .nMsgLastPart

/-- The four flags of `M_FINAL` (R97, R242): last message block partial, last associated-data block partial, message block
count even, associated-data block count even. -/
def mFlags (s : State) : BitVec 4 :=
  BitVec.ofBool (blockCount s.adlen % 2 = 0) ++ BitVec.ofBool (blockCount s.tlen % 2 = 0)
    ++ BitVec.ofBool (!lastBlockFull s.adlen) ++ BitVec.ofBool (!lastBlockFull s.tlen)

/-! ## Elements of the pairing loops (R222, R243) -/

/-- Where the message of the first pass of Romulus-M is: `TIN` for `M_ENC`, the recovered plaintext in `TOUT` for `M_DEC`
(R249). -/
def macSpace (s : State) : Space := if s.decrypting then .tout else .tin

/-! ## Invocations -/

/-- Load `TK1` for the invocation tagged `i` with counter `d`, the engine's next micro-operation: the domain byte is in `TK1`
(R96, R35; log 12). The rest is loaded by the `permute` call itself (R130). -/
def issue (i : Instr) (d : Counter) (s : State) : State :=
  { s with tk1 := some (aeadTk1 s.cfg d (encodeIn s.cfg.domain i)), pending := true }

/-- The ephemeral registers as a `permute` call leaves them; the invocation is no longer pending (R35, R130, R144). -/
def leaveCipher (q : CipherState) (s : State) : State :=
  { s with
    tk1 := some q.tk.tk1, tk2 := some q.tk.tk2, tk3 := some q.tk.tk3, rc := some q.rc, rnd := some s.cfg.rounds
    pending := false }

/-- The state after the invocation `E(k, t, b, d, x)`, but for its result: the ephemeral registers, and the trace (R183,
R198). -/
def afterTbc (src : KeySource) (k t : Block) (b : Byte) (d : Counter) (x : Block) (s : State) : State :=
  logEvent (.invoke src (some (b, d))) (leaveCipher (permuteState s.cfg (aeadTweakey s.cfg k t b d) x) s)

/-- `S <- E(KEY, NONCE, B, D, S)`: the invocations of R97 whose tweak word is the nonce and whose key is `KEY`, tagged `i`. -/
def invokeNonce (i : Instr) (s : State) : Out State :=
  need s.key.value fun k => need s.nonce.value fun n => need s.regD fun d => need s.regS fun x =>
    .next
      { afterTbc .key k n (encodeIn s.cfg.domain i) d x s with
        regS := some (tbc s.cfg k n (encodeIn s.cfg.domain i) d x) }

/-- `S <- E(KEY, X, B, D, S)`: the invocations of R97 whose tweak word is a padded block `X`, tagged `i`: block `IDX`, counted
from 0, of the text of `len` bytes in the buffer `sp`. -/
def invokeBlock (i : Instr) (sp : Space) (len : Nat) (s : State) : Out State :=
  need s.idx fun j => need (s.block sp len j) fun w =>
    need s.key.value fun k => need s.regD fun d => need s.regS fun x =>
      .next
        { afterTbc .key k (pad16 s.cfg w) (encodeIn s.cfg.domain i) d x (logBlock sp len j s) with
          regS := some (tbc s.cfg k (pad16 s.cfg w) (encodeIn s.cfg.domain i) d x) }

/-- The counter stepped, and the next index: the end of a loop body (R222, R243, R246, R263). -/
def stepCounter (s : State) : Out State :=
  need s.regD fun d => need s.idx fun i => .next { s with regD := some (cntStep s.cfg d), idx := some (i + 1) }

/-- The body of a pairing loop (R222, R243) for its element number `n`, counted from 0, which is block `IDX` of the buffer `sp`:
an odd-numbered element (`n` even) is injected into `S`; an even-numbered one is the tweak word of the invocation tagged
`tag`. -/
def pairMicro (sp : Space) (len n : Nat) (tag : Instr) (s : State) : Out State :=
  need s.idx fun i => need s.regD fun d =>
    if n % 2 = 0 then
      need (s.block sp len i) fun w => need s.regS fun x =>
        stepCounter (logBlock sp len i { s with regS := some (x.xor (pad16 s.cfg w)) })
    else .next (issue tag d s)

/-- The set-up of a pairing loop: `S <- 0^16`, `D <- D0` (R221, R241). -/
def startPairs (s : State) : State := { s with regS := some Block.zero, regD := some Config.d0, idx := some 0 }

end Sys2Proof.Machine
end

