-- ==== Sys2Proof/Machine/Control.lean ====
section
/-! DEFINITION. The control command (60_exceptions.md). -/

namespace Sys2Proof.Machine

/-- `CLEAR` (R312), handled inside `START` (R307 steps 1 and 3): `STATUS` zero, results and operands unwritten, `PHASE`
`IDLE`; lengths and input buffers keep their values. -/
def execClear (s : State) : Out State :=
  if s.busy then .next (raiseFault .busyAccess s)
  else .next { unwriteOperands (latch (encode .clear) s) with status := statusClear, phase := .idle }

end Sys2Proof.Machine
end

