-- ==== Sys2Proof/Machine/RomulusN.lean ====
section
/-! DEFINITION. Romulus-N (43_romulus_n.md): its commands, its tagged invocations, and its block micro-operations. -/

namespace Sys2Proof.Machine

/-- `N_ENC` (R220): `START` of the command; the engine starts in the associated-data phase. -/
def execNEnc (s : State) : Out State := startPrimitive (encode .nEnc) .encrypt .ad s

/-- `N_DEC` (R227). -/
def execNDec (s : State) : Out State := startPrimitive (encode .nDec) .decrypt .ad s

/-- `N_AD` (R97, R222): `S <- E(KEY, pad16(A[j]), 8, D, S)`, the block being number `IDX`, counted from 0. -/
def execNAd (s : State) : Out State := invokeBlock .nAd .adbuf s.adlen s

/-- `N_AD_LAST_FULL` (R97, R223): `S <- E(KEY, NONCE, 24, D, S)`. -/
def execNAdLastFull (s : State) : Out State := invokeNonce .nAdLastFull s

/-- `N_AD_LAST_PART` (R97, R223): `S <- E(KEY, NONCE, 26, D, S)`. -/
def execNAdLastPart (s : State) : Out State := invokeNonce .nAdLastPart s

/-- `N_MSG` (R97, R224): `S <- E(KEY, NONCE, 4, D, S)`. -/
def execNMsg (s : State) : Out State := invokeNonce .nMsg s

/-- `N_MSG_LAST_FULL` (R97, R225): `S <- E(KEY, NONCE, 20, D, S)`. -/
def execNMsgLastFull (s : State) : Out State := invokeNonce .nMsgLastFull s

/-- `N_MSG_LAST_PART` (R97, R225): `S <- E(KEY, NONCE, 21, D, S)`. -/
def execNMsgLastPart (s : State) : Out State := invokeNonce .nMsgLastPart s

/-- A micro-operation of the associated-data phase (R221 to R223): set up at its entry; a block of the pairing loop; the issue
of the closing invocation. -/
def nAdMicro (s : State) : Out State :=
  match s.idx with
  | none => .next (startPairs s)
  | some i =>
    if i < blockCount s.adlen then pairMicro .adbuf s.adlen i .nAd s
    else need s.regD fun d => .next (issue (nAdLast s) d s)

/-- `rho` or `rho_inv`, by the direction of the command (R191, R192). -/
def rhoBy (s : State) (x : Block) (m : List Byte) : Block × List Byte :=
  if s.decrypting then rhoInv s.cfg x m else rho s.cfg x m

/-- A micro-operation of the text phase (R224): set up at its entry; one block: injection, output, counter step, and the
issue of the invocation after it. -/
def nTextMicro (s : State) : Out State :=
  match s.idx with
  | none => .next { s with regD := some Config.d0, idx := some 0 }
  | some i =>
    need (s.block .tin s.tlen i) fun m => need s.regS fun x => need s.regD fun d =>
      .next
        (issue (nTextTag s i) (cntStep s.cfg d)
          (writeText i (rhoBy s x m).2
            (logBlock .tin s.tlen i
              { s with regS := some (rhoBy s x m).1, regD := some (cntStep s.cfg d) })))

/-- The end of Romulus-N: `T <- G(S)` (R226, R227), then the comparison of a decrypt, the publication of an encrypt. -/
def nFinalMicro (s : State) : Out State :=
  need s.regS fun x =>
    .next (enter (if s.decrypting then .compare else .publish) { s with tagT := some (feedback s.cfg x) })

/-- The end of the loop body of R224 after the invocation of text block `IDX`. -/
def nTextNext (s : State) : Out State := need s.idx fun i => .next { s with idx := some (i + 1) }

end Sys2Proof.Machine
end

