-- ==== Sys2Proof/Machine/RomulusM.lean ====
section
/-! DEFINITION. Romulus-M (44_romulus_m.md): its commands, its tagged invocations, and its block micro-operations. -/

namespace Sys2Proof.Machine

/-- `M_ENC` (R240): `START` of the command; the engine starts in the first pass. -/
def execMEnc (s : State) : Out State := startPrimitive (encode .mEnc) .encrypt .ad s

/-- `M_DEC` (R248): `START` of the command; the engine starts in the keystream pass. -/
def execMDec (s : State) : Out State := startPrimitive (encode .mDec) .decrypt .crypt s

/-- `M_AD` (R97, R243): `S <- E(KEY, X[j], 40, D, S)`, the element being associated-data block `IDX`, counted from 0. -/
def execMAd (s : State) : Out State := invokeBlock .mAd .adbuf s.adlen s

/-- `M_MSG` (R97, R243): `S <- E(KEY, X[j], 44, D, S)`, the element being message block `IDX`, counted from 0. -/
def execMMsg (s : State) : Out State := invokeBlock .mMsg (macSpace s) s.tlen s

/-- `M_FINAL(fl)` (R97, R242, R244): `S <- E(KEY, NONCE, 48 ⊕ fl, D, S)`. -/
def execMFinal (fl : BitVec 4) (s : State) : Out State := invokeNonce (.mFinal fl) s

/-- `M_CRYPT` (R97, R246): `S <- E(KEY, NONCE, 36, D, S)`. -/
def execMCrypt (s : State) : Out State := invokeNonce .mCrypt s

/-- A micro-operation of the associated-data part of the first pass (R241, R243; log 11): set up at its entry; a block of the
pairing loop; go on with the message part after the last. -/
def mAdMicro (s : State) : Out State :=
  match s.idx with
  | none => .next (startPairs s)
  | some i =>
    if i < blockCount s.adlen then pairMicro .adbuf s.adlen i .mAd s else .next (enter .mac s)

/-- A micro-operation of the message part of the first pass (R243): its block `i` is element `a + i` of the joint sequence, and
neither `S` nor `D` is set up anew. -/
def mMacMicro (s : State) : Out State :=
  match s.idx with
  | none => .next { s with idx := some 0 }
  | some i =>
    if i < blockCount s.tlen then pairMicro (macSpace s) s.tlen (blockCount s.adlen + i) .mMsg s
    else .next (enter .final s)

/-- The issue of the closing invocation of the first pass (R244). -/
def mFinalMicro (s : State) : Out State := need s.regD fun d => .next (issue (.mFinal (mFlags s)) d s)

/-- After the closing invocation: `T <- G(S)` (R245), then the encryption pass of `M_ENC`, the comparison of `M_DEC`. -/
def mFinalNext (s : State) : Out State :=
  need s.regS fun x =>
    .next (enter (if s.decrypting then .compare else .crypt) { s with tagT := some (feedback s.cfg x) })

/-- The starting state of the encryption pass: the tag of the first pass for `M_ENC` (R240), the supplied tag for `M_DEC`
(R248). -/
def cryptStart (s : State) : Option Block := if s.decrypting then s.tagin.value else s.tagT

/-- A micro-operation of the encryption pass (R246, R247): set up at its entry; issue the invocation of a block; leave the
pass after the last, and at once where the text is empty. -/
def mCryptMicro (s : State) : Out State :=
  match s.idx with
  | none => need (cryptStart s) fun t => .next { s with regS := some t, regD := some Config.d0, idx := some 0 }
  | some i =>
    need s.regD fun d =>
      if i < textBlockCount s.tlen then .next (issue .mCrypt d s)
      else .next (enter (if s.decrypting then .ad else .publish) s)

/-- The loop body of R246 after its invocation: injection and output of text block `IDX`, counter step. -/
def mCryptNext (s : State) : Out State :=
  need s.idx fun i => need (s.block .tin s.tlen i) fun m => need s.regS fun x =>
    stepCounter
      (writeText i (rhoBy s x m).2
        (logBlock .tin s.tlen i { s with regS := some (rhoBy s x m).1 }))

end Sys2Proof.Machine
end

