-- ==== Sys2Proof/Machine/RomulusH.lean ====
section
/-! DEFINITION. Romulus-H (46_romulus_h.md): its command, and the compression micro-operation that Romulus-T shares (R266). -/

namespace Sys2Proof.Machine

/-- `HASH` (R280): `START` of the command; the engine starts in the hash phase. -/
def execHash (s : State) : Out State := startPrimitive (encode .hash) .hash .hashblk s

/-- The ciphertext that Romulus-T authenticates: for `T_ENC` what it has written to `TOUT`, held in the scratch of R199 since
`M_DEC` alone reads `TOUT` back (R30, R72; log 26); for `T_DEC` the text in `TIN` (R264, R268). -/
def cipherText (s : State) : Option (List Byte) :=
  if s.decrypting then s.tin.readRange 0 s.tlen else some s.scratch

/-- The authentication input of Romulus-T, or none where a part is unwritten (R264). -/
def authInput (s : State) : Option (List Byte) :=
  match s.adbuf.readRange 0 s.adlen, cipherText s, s.nonce.value, s.regD with
  | some a, some x, some n, some d => some (authString a x n d)
  | _, _, _, _ => none

/-- The byte string that is hashed: `TIN[0 .. TLEN-1]` for `HASH`, the authentication input for Romulus-T (R280, R266). -/
def hashInput (s : State) : Option (List Byte) :=
  if s.mode = some .romulusH then s.tin.readRange 0 s.tlen else authInput s

/-- Record the read of the part of a buffer that occupies `[at, at + len)` of the hashed string and lies in its 32-byte
block `i` (R349; log 26). -/
def logHashPart (sp : Space) (start len i : Nat) (s : State) : State :=
  logRead sp (max (32 * i) start - start) (min (32 * i + 32) (start + len) - max (32 * i) start) s

/-- Record the buffer reads of block `i` of the hashed string. -/
def logHashBlock (i : Nat) (s : State) : State :=
  if s.mode = some .romulusH then logHashPart .tin 0 s.tlen i s
  else if s.decrypting then
    logHashPart .tin (ipadStarLength s.adlen) s.tlen i (logHashPart .adbuf 0 s.adlen i s)
  else logHashPart .adbuf 0 s.adlen i s

/-- One compression call on the registers `L`, `R`: two invocations of the hash layout (R282, R99, R198). -/
def invokeCompress (b : List Byte) (l r : Block) (s : State) : State :=
  { logEvent (.invoke .pub none) (logEvent (.invoke .pub none)
      (leaveCipher (permuteState s.cfg (compressTweakey r b) (flipByte0 s.cfg.hash.second l)) s)) with
    regL := some (compress s.cfg l r b).1, regR := some (compress s.cfg l r b).2 }

/-- A micro-operation of the hash phase (R280): set up at its entry (R281); a full block; the padded last block with the
finalisation constant (R283, R284), after which `HASH` publishes and Romulus-T generates its tag. -/
def hashMicro (s : State) : Out State :=
  match s.idx with
  | none => .next { s with regL := some Block.zero, regR := some Block.zero, idx := some 0 }
  | some i =>
    need (hashInput s) fun x => need s.regL fun l => need s.regR fun r =>
      if i < x.length / 32 then
        .next { invokeCompress (blockOf 32 x i) l r (logHashBlock i s) with idx := some (i + 1) }
      else
        .next
          (enter (if s.mode = some .romulusH then .publish else .final)
            (invokeCompress (ipad32 (blockOf 32 x i)) (flipByte0 s.cfg.hash.last l) r (logHashBlock i s)))

end Sys2Proof.Machine
end

