-- ==== Sys2Proof/Machine/RomulusT.lean ====
section
/-! DEFINITION. Romulus-T (45_romulus_t.md): its commands, its tagged invocations, and its block micro-operations. The whole
algorithm is the parameter `P_T_FORMAT`, held by the spec with low confidence (R271; log 19). -/

namespace Sys2Proof.Machine

/-- `T_ENC` (R260): `START` of the command; the engine starts with the session-key derivation. -/
def execTEnc (s : State) : Out State := startPrimitive (encode .tEnc) .encrypt .kdf s

/-- `T_DEC` (R268). -/
def execTDec (s : State) : Out State := startPrimitive (encode .tDec) .decrypt .kdf s

/-- `T_KDF` (R97, R261): `Z <- E(KEY, 0^16, 66, DZ, NONCE)`. -/
def execTKdf (s : State) : Out State :=
  need s.key.value fun k => need s.nonce.value fun n =>
    .next
      { afterTbc .key k Block.zero (encodeIn s.cfg.domain .tKdf) Config.dz n s with
        regZ := some (tbc s.cfg k Block.zero (encodeIn s.cfg.domain .tKdf) Config.dz n) }

/-- `T_KS` (R97, R262): the keystream block `E(Z, NONCE, 64, D, 0^16)`, exclusive-ored into text block `IDX`, counted from
0, and written to `TOUT`; encryption and decryption are the same but for the scratch of R199. -/
def execTKs (s : State) : Out State :=
  need s.regZ fun z => need s.nonce.value fun n => need s.regD fun d => need s.idx fun i =>
    need (s.block .tin s.tlen i) fun x =>
      .next
        (keepText (xorPrefix x (tbc s.cfg z n (encodeIn s.cfg.domain .tKs) d Block.zero))
          (writeText i (xorPrefix x (tbc s.cfg z n (encodeIn s.cfg.domain .tKs) d Block.zero))
            (logBlock .tin s.tlen i (afterTbc .z z n (encodeIn s.cfg.domain .tKs) d Block.zero s))))

/-- `T_KU` (R97, R263): `Z <- E(Z, NONCE, 65, D, 0^16)`. -/
def execTKu (s : State) : Out State :=
  need s.regZ fun z => need s.nonce.value fun n => need s.regD fun d =>
    .next
      { afterTbc .z z n (encodeIn s.cfg.domain .tKu) d Block.zero s with
        regZ := some (tbc s.cfg z n (encodeIn s.cfg.domain .tKu) d Block.zero) }

/-- The key source of the tag generation: `KEY` (R267), or `Z` in the other value of `P_T_FORMAT` (conflict C6). -/
def tagSource (c : Config) : KeySource :=
  match c.tFormat with
  | .longTermTag => .key
  | .sessionTag => .z

/-- The key of the tag generation. -/
def State.tagKey (s : State) : Option Block :=
  match s.cfg.tFormat with
  | .longTermTag => s.key.value
  | .sessionTag => s.regZ

/-- `T_TGF` (R97, R267): the tag `E(KEY, R, 68, DZ, L)`; `G` is not applied. -/
def execTTgf (s : State) : Out State :=
  need s.tagKey fun k => need s.regR fun r => need s.regL fun l =>
    .next
      { afterTbc (tagSource s.cfg) k r (encodeIn s.cfg.domain .tTgf) Config.dz l s with
        tagT := some (tbc s.cfg k r (encodeIn s.cfg.domain .tTgf) Config.dz l) }

/-- The issue of the session-key derivation (R261). -/
def tKdfMicro (s : State) : Out State := .next (issue .tKdf Config.dz s)

/-- A micro-operation of the keystream phase (R263): set up at its entry, the scratch empty; issue the keystream invocation of a
block; leave the phase after the last, and at once where the text is empty. -/
def tStreamMicro (s : State) : Out State :=
  match s.idx with
  | none => .next { s with regD := some Config.d0, idx := some 0, scratch := [] }
  | some i =>
    need s.regD fun d =>
      if i < textBlockCount s.tlen then .next (issue .tKs d s) else .next (enter .hashblk s)

/-- After the keystream invocation of block `IDX`: the key update follows, except after the last block (R263). -/
def tKsNext (s : State) : Out State :=
  need s.idx fun i => need s.regD fun d =>
    if i + 1 < textBlockCount s.tlen then .next (issue .tKu d s) else stepCounter s

/-- The issue of the tag generation (R267). -/
def tFinalMicro (s : State) : Out State := .next (issue .tTgf Config.dz s)

/-- After the tag generation: the comparison of a decrypt, the publication of an encrypt (R260, R268). -/
def tTgfNext (s : State) : Out State := .next (enter (if s.decrypting then .compare else .publish) s)

end Sys2Proof.Machine
end

