-- ==== Sys2Proof/Machine/Dispatch.lean ====
section
/-! DEFINITION. The meaning of every instruction, one arm for each constructor. A command word is the host's write of it to
`CMD` (`START`, R307); a domain row is the engine's invocation with that tag (R97). -/

namespace Sys2Proof.Machine

def exec (i : Instr) (s : State) : Host.Outcome State Fault Refusal :=
  match i with
  | .clear => Sys2Proof.Machine.execClear s
  | .hash => Sys2Proof.Machine.execHash s
  | .nEnc => Sys2Proof.Machine.execNEnc s
  | .nDec => Sys2Proof.Machine.execNDec s
  | .mEnc => Sys2Proof.Machine.execMEnc s
  | .mDec => Sys2Proof.Machine.execMDec s
  | .tEnc => Sys2Proof.Machine.execTEnc s
  | .tDec => Sys2Proof.Machine.execTDec s
  | .nMsg => Sys2Proof.Machine.execNMsg s
  | .nAd => Sys2Proof.Machine.execNAd s
  | .nMsgLastFull => Sys2Proof.Machine.execNMsgLastFull s
  | .nMsgLastPart => Sys2Proof.Machine.execNMsgLastPart s
  | .nAdLastFull => Sys2Proof.Machine.execNAdLastFull s
  | .nAdLastPart => Sys2Proof.Machine.execNAdLastPart s
  | .mCrypt => Sys2Proof.Machine.execMCrypt s
  | .mAd => Sys2Proof.Machine.execMAd s
  | .mMsg => Sys2Proof.Machine.execMMsg s
  | .mFinal fl => Sys2Proof.Machine.execMFinal fl s
  | .tKs => Sys2Proof.Machine.execTKs s
  | .tKu => Sys2Proof.Machine.execTKu s
  | .tKdf => Sys2Proof.Machine.execTKdf s
  | .tTgf => Sys2Proof.Machine.execTTgf s

end Sys2Proof.Machine
end

