-- ==== Sys2Proof/Machine/Engine.lean ====
section
/-! DEFINITION. The engine's sequencing: which micro-operation is next, from `OP`, `PHASE`, `IDX` and the lengths only (R184,
R198, R316), what follows an invocation, the tag comparison and the publication. -/

namespace Sys2Proof.Machine

/-- What follows the invocation tagged `i` in its loop body. -/
def afterInvocation (i : Instr) (s : State) : Out State :=
  match i with
  | .nAd => stepCounter s
  | .nAdLastFull => .next (enter .text s)
  | .nAdLastPart => .next (enter .text s)
  | .nMsg => nTextNext s
  | .nMsgLastFull => .next (enter .final s)
  | .nMsgLastPart => .next (enter .final s)
  | .mAd => stepCounter s
  | .mMsg => stepCounter s
  | .mFinal _ => mFinalNext s
  | .mCrypt => mCryptNext s
  | .tKdf => .next (enter .stream s)
  | .tKs => tKsNext s
  | .tKu => stepCounter s
  | .tTgf => tTgfNext s
  | .clear => .refused .noMicroOp
  | .hash => .refused .noMicroOp
  | .nEnc => .refused .noMicroOp
  | .nDec => .refused .noMicroOp
  | .mEnc => .refused .noMicroOp
  | .mDec => .refused .noMicroOp
  | .tEnc => .refused .noMicroOp
  | .tDec => .refused .noMicroOp

/-- The pending invocation: the engine fetches the domain byte from `TK1` (R96), decodes it, runs the invocation, and goes on
in the loop body. -/
def invocationMicro (s : State) : Out State :=
  need s.tk1 fun w =>
    match tagOf s.cfg w with
    | none => .refused .noMicroOp
    | some b =>
      match decodeDomain s.cfg.domain b with
      | .ok i => andThen (exec i s) (afterInvocation i)
      | .error _ => .refused (.badDomainByte b)

/-- The tag comparison of a decrypt: all 16 bytes, into `ACC` (R196, R227, R248, R268). -/
def compareMicro (s : State) : Out State :=
  need s.tagT fun t => need s.tagin.value fun u =>
    .next (enter .publish { s with acc := some (tagDifference t u) })

/-- The unspecified bytes of `TOUT` after an invalid tag: `n` free draws from draw `k` on (R67, U3). -/
def freeBytes (k n : Nat) : List Byte := (List.range n).map fun j => Config.freeByte (k + j)

/-- The last micro-operation: publish the results, set `DONE`, hand the registers and buffers back, and destroy (R27, R38,
R67, R69, R309). -/
def publishMicro (s : State) : Out State :=
  match s.kind with
  | .hash =>
    need s.regL fun l => need s.regR fun r =>
      .next (destroy { s with digest := some (l ++ r), status := statusFinished true })
  | .encrypt => need s.tagT fun t => .next (destroy { s with tagout := some t, status := statusFinished true })
  | .decrypt =>
    need s.acc fun a =>
      if a = 0 then .next (destroy { s with status := statusFinished true })
      else
        .next
          (destroy
            { s with
              status := statusFinished false
              tout := s.tout.writeRange 0 (freeBytes s.draws s.tlen)
              draws := s.draws + s.tlen })

/-- The next micro-operation where no invocation is pending (R36). -/
def sequenceMicro (s : State) : Out State :=
  match s.phase with
  | .idle => .refused .noMicroOp
  | .ad =>
    match s.mode with
    | some .romulusN => nAdMicro s
    | some .romulusM => mAdMicro s
    | some .romulusT => .refused .noMicroOp
    | some .romulusH => .refused .noMicroOp
    | none => .refused .noMicroOp
  | .text => nTextMicro s
  | .mac => mMacMicro s
  | .crypt => mCryptMicro s
  | .kdf => tKdfMicro s
  | .stream => tStreamMicro s
  | .hashblk => hashMicro s
  | .final =>
    match s.mode with
    | some .romulusN => nFinalMicro s
    | some .romulusM => mFinalMicro s
    | some .romulusT => tFinalMicro s
    | some .romulusH => .refused .noMicroOp
    | none => .refused .noMicroOp
  | .compare => compareMicro s
  | .publish => publishMicro s

/-- One micro-operation of the engine (R8, R180): the pending invocation if there is one, else the next in sequence. -/
def engineMicro (s : State) : Out State := if s.pending then invocationMicro s else sequenceMicro s

end Sys2Proof.Machine
end

