-- ==== Sys2Proof/Machine/HostBus.lean ====
section
/-! DEFINITION. The host's actions (R103) on the register map (R68) and the buffers, byte by byte (log 13), and the turn of
the two agents (R69). -/

namespace Sys2Proof.Machine

/-- The register and the byte of it at an offset of `REG`, or none where the offset is reserved (R68). -/
def registerAt (c : Config) (off : Nat) : Option (RegName × Nat) :=
  (c.regMap.find? fun w => w.base ≤ off && off < w.base + w.size).map fun w => (w.reg, off - w.base)

/-- `START`: the host's write of `v` to `CMD` (R26, R307). -/
def start (v : BitVec 8) (s : State) : Out State :=
  match decodeCommand v with
  | .ok i => exec i s
  | .error _ => startReserved v s

/-- The host writes one byte of a register, or of none where the offset is reserved, while `BUSY = 0`: a read-only register
and a reserved offset ignore it (R68, R306). -/
def writeIdleRegister (at? : Option (RegName × Nat)) (b : Byte) (s : State) : Out State :=
  match at? with
  | none => .next s
  | some (.cmd, _) => start b s
  | some (.status, _) => .next s
  | some (.klen, _) => .next { s with klen := b }
  | some (.nlen, _) => .next { s with nlen := b }
  | some (.tglen, _) => .next { s with tglen := b }
  | some (.adlen, i) => .next { s with adlen := writeLengthByte s.cfg.lenWidth s.adlen i b }
  | some (.tlen, i) => .next { s with tlen := writeLengthByte s.cfg.lenWidth s.tlen i b }
  | some (.key, i) => .next { s with key := s.key.writeByte i b }
  | some (.nonce, i) => .next { s with nonce := s.nonce.writeByte i b }
  | some (.tagin, i) => .next { s with tagin := s.tagin.writeByte i b }
  | some (.tagout, _) => .next s
  | some (.digest, _) => .next s

/-- The host writes one byte at an offset of `REG` (R68, R70, R306). -/
def writeRegisterByte (off : Nat) (b : Byte) (s : State) : Out State :=
  if s.busy then .next (raiseFault .busyAccess s) else writeIdleRegister (registerAt s.cfg off) b s

/-- The host writes bytes from an offset of `REG` on, in increasing order (log 13). -/
def writeRegisters (off : Nat) : List Byte → State → Out State
  | [], s => .next s
  | b :: bs, s => andThen (writeRegisterByte off b s) (writeRegisters (off + 1) bs)

/-- A byte that is there, or the reason of a read that has no value to return (R306). -/
def orNoValue (x : Option Byte) : Except FaultReason Byte :=
  match x with
  | some b => .ok b
  | none => .error .readNoValue

/-- The host reads one byte of a register while `BUSY = 0` (R68, R306). `NONCE` and `TAGIN` have a value only once all their
bytes are written (R68, U19; log 14). -/
def readIdleRegister (at? : Option (RegName × Nat)) (s : State) : Except FaultReason Byte :=
  match at? with
  | none => .error .readNoValue
  | some (.cmd, _) => .error .readNoValue
  | some (.status, _) => .ok s.status
  | some (.klen, _) => .ok s.klen
  | some (.nlen, _) => .ok s.nlen
  | some (.tglen, _) => .ok s.tglen
  | some (.adlen, i) => .ok (lengthByte s.adlen i)
  | some (.tlen, i) => .ok (lengthByte s.tlen i)
  | some (.key, _) => .error .readNoValue
  | some (.nonce, i) => orNoValue (s.nonce.value.bind fun x => x[i]?)
  | some (.tagin, i) => orNoValue (s.tagin.value.bind fun x => x[i]?)
  | some (.tagout, i) => orNoValue (s.tagout.bind fun x => x[i]?)
  | some (.digest, i) => orNoValue (s.digest.bind fun x => x[i]?)

/-- The host reads one byte at an offset of `REG`: while `BUSY = 1` only `STATUS` (R70, R306). -/
def readRegisterByte (off : Nat) (s : State) : Except FaultReason Byte :=
  if s.busy then
    match registerAt s.cfg off with
    | some (.status, _) => .ok s.status
    | _ => .error .busyAccess
  else readIdleRegister (registerAt s.cfg off) s

/-- The host writes one byte at an offset of a buffer (R30, R70, R306): `TOUT` and offsets at or beyond `BUFCAP` ignore it. -/
def writeBufferByte (sp : Space) (off : Nat) (b : Byte) (s : State) : Out State :=
  if s.busy then .next (raiseFault .busyAccess s)
  else if s.cfg.bufCap ≤ off then .next s
  else
    match sp with
    | .adbuf => .next { s with adbuf := s.adbuf.write off b }
    | .tin => .next { s with tin := s.tin.write off b }
    | .tout => .next s

/-- The host writes bytes from an offset of a buffer on, in increasing order. -/
def writeBuffer (sp : Space) (off : Nat) : List Byte → State → Out State
  | [], s => .next s
  | b :: bs, s => andThen (writeBufferByte sp off b s) (writeBuffer sp (off + 1) bs)

/-- The host reads one byte at an offset of a buffer (R70, R306). -/
def readBufferByte (sp : Space) (off : Nat) (s : State) : Except FaultReason Byte :=
  if s.busy then .error .busyAccess
  else if s.cfg.bufCap ≤ off then .error .readNoValue
  else orNoValue ((s.buffer sp).read off)

/-- `n` bytes, each read from `off` on, or the reason of the first that returns none. -/
def readBytes (rd : Nat → Except FaultReason Byte) (off : Nat) : Nat → Except FaultReason (List Byte)
  | 0 => .ok []
  | n + 1 =>
    match rd off with
    | .error r => .error r
    | .ok b =>
      match readBytes rd (off + 1) n with
      | .error r => .error r
      | .ok bs => .ok (b :: bs)

/-- A read of the host returns its bytes, and changes nothing of the block (R64; log 15); where there is no value to return, or the
engine owns what is read, it returns none and sets `FAULT` (R306). -/
def returnBytes (r : Except FaultReason (List Byte)) (s : State) : Out State :=
  match r with
  | .ok bs => .next { s with reads := s.reads ++ [bs] }
  | .error r => .next (raiseFault r s)

/-- What the engine does in a step in which the host does nothing: one micro-operation while `BUSY = 1`, nothing while
`BUSY = 0` (R341). -/
def engineTurn (s : State) : Out State := if s.busy then engineMicro s else .next s

/-- One host action on the block, the rest of the script following (R103). `WAIT` reads `STATUS` until `BUSY = 0`: while
`BUSY = 1` it stays, and the engine moves (log 15). -/
def hostTurn (a : HostAction) (rest : List HostAction) (s : State) : Out State :=
  match a with
  | .idle => engineTurn { s with script := rest }
  | .start v => start v { s with script := rest }
  | .writeReg off bs => writeRegisters off bs { s with script := rest }
  | .readReg off n => returnBytes (readBytes (fun o => readRegisterByte o s) off n) { s with script := rest }
  | .writeBuf sp off bs => writeBuffer sp off bs { s with script := rest }
  | .readBuf sp off n => returnBytes (readBytes (fun o => readBufferByte sp o s) off n) { s with script := rest }
  | .wait =>
    if s.busy then engineMicro s else .next { s with script := rest, reads := s.reads ++ [[s.status]] }
  | .reset => .next (resetAction { s with script := rest })

/-- What the block and its host do in one step, whether `FAULT` is set or not: no action clears it (R306). -/
def turn (s : State) : Out State :=
  match s.script with
  | [] => engineTurn s
  | a :: rest => hostTurn a rest s

end Sys2Proof.Machine
end

