-- ==== Sys2Proof/Machine/Placement.lean ====
section
/-! DEFINITION. How an instruction's word is placed where the next step fetches it (log 4): a command word as the host's next
`START`, a domain byte in `TK1` of the engine's pending invocation. -/

namespace Sys2Proof.Machine

/-- The command and the phase in which the engine makes the invocation tagged `i` (R97, R36). -/
def placeOf : Instr → Instr × Phase
  | .nAd => (.nEnc, .ad)
  | .nAdLastFull => (.nEnc, .ad)
  | .nAdLastPart => (.nEnc, .ad)
  | .nMsg => (.nEnc, .text)
  | .nMsgLastFull => (.nEnc, .text)
  | .nMsgLastPart => (.nEnc, .text)
  | .mAd => (.mEnc, .ad)
  | .mMsg => (.mEnc, .mac)
  | .mFinal _ => (.mEnc, .final)
  | .mCrypt => (.mEnc, .crypt)
  | .tKdf => (.tEnc, .kdf)
  | .tKs => (.tEnc, .stream)
  | .tKu => (.tEnc, .stream)
  | .tTgf => (.tEnc, .final)
  | .clear => (.clear, .idle)
  | .hash => (.hash, .hashblk)
  | .nEnc => (.nEnc, .ad)
  | .nDec => (.nDec, .ad)
  | .mEnc => (.mEnc, .ad)
  | .mDec => (.mDec, .crypt)
  | .tEnc => (.tEnc, .kdf)
  | .tDec => (.tDec, .kdf)

/-- The register with a zero byte wherever a byte is unwritten. -/
def OperandReg.filled (r : OperandReg) : OperandReg := Vector.ofFn fun i => some ((r[i]).getD 0#8)

/-- The engine inside a command with the invocation tagged `i` loaded as its next micro-operation: what an invocation reads
is written, as `START` and the algorithm have seen to by then (R307 step 6, R39), with zero where it was not. -/
def placeInvocation (i : Instr) (s : State) : State :=
  { s with
    script := .idle :: s.script
    status := statusRunning
    op := encode (placeOf i).1
    phase := (placeOf i).2
    key := s.key.filled, nonce := s.nonce.filled
    idx := some (s.idx.getD 0)
    regS := some (s.regS.getD Block.zero), regL := some (s.regL.getD Block.zero)
    regR := some (s.regR.getD Block.zero), regZ := some (s.regZ.getD Block.zero)
    regD := some (s.regD.getD Config.d0)
    tk1 := some (aeadTk1 s.cfg (s.regD.getD Config.d0) (encodeIn s.cfg.domain i)), pending := true }

/-- The state in which the next step fetches the word `b`: a command word, also a reserved one, as the host's
`START`; a byte that is no command word and is a domain byte as the tag of the pending invocation. -/
def placeWord (b : Byte) (s : State) : State :=
  match decodeCommand b, decodeDomain s.cfg.domain b with
  | .error _, .ok i => placeInvocation i s
  | _, _ => { s with script := .start b :: s.script }

end Sys2Proof.Machine
end

