-- ==== Sys2Proof/Machine/Step.lean ====
section
/-! DEFINITION. One step, and how a word is placed for the next step. -/

namespace Sys2Proof.Machine

/-- One step: the next host action, or one micro-operation of the engine (R8). A fault ends the run with the `fault`
outcome: it sets the mark `FAULT` (R306), and a run does not go on from a state with the mark (R11; log 8). -/
def step (s : State) : Host.Outcome State Fault Refusal :=
  match s.fault with
  | some r => .fault (.runEnded r)
  | none => turn s

/-- `s` with the instruction whose bits are `w` where the next step fetches it (log 4). Every row has 8 bits. -/
def State.withFetchWord (s : State) (nbits w : Nat) : State := placeWord (BitVec.ofNat 8 (w % 2 ^ nbits)) s

end Sys2Proof.Machine
end

