-- ==== Sys2Proof/Machine/Primitives.lean ====
section
/-! DEFINITION. The seven primitives as functions of their explicit operands (R39), each a transcription of its pseudocode on
byte sequences: what a command's micro-operations come to, taken as one (R8). The engine does not call these; statements
compare its runs with them. -/

namespace Sys2Proof.Machine

/-- The pairing loop of R222 and R243 from element `i` on, `n` elements: an odd-numbered element (`i` even) is injected, an
even-numbered one is the tweak word of an invocation with the domain byte `tag i`; the counter is stepped after each. -/
def absorbLoop (c : Config) (k : Block) (tag : Nat → Byte) (elt : Nat → List Byte) : Nat → Nat → Block × Counter → Block × Counter
  | 0, _, q => q
  | n + 1, i, (x, d) =>
    absorbLoop c k tag elt n (i + 1)
      (if i % 2 = 0 then x.xor (pad16 c (elt i)) else tbc c k (pad16 c (elt i)) (tag i) d x, cntStep c d)

/-! ## Romulus-N -/

/-- The state after the associated-data phase (R221 to R223). -/
def nAdState (c : Config) (k n : Block) (a : List Byte) : Block :=
  let q := absorbLoop c k (fun _ => c.domain.nAd) (blockOf 16 a) (blockCount a.length) 0 (Block.zero, Config.d0)
  tbc c k n (if lastBlockFull a.length then c.domain.nAdLastFull else c.domain.nAdLastPart) q.2 q.1

/-- The text loop of R224 from block `i` on, `m` blocks: the state after it, and the output. -/
def nTextLoop (c : Config) (k n : Block) (dec : Bool) (x : List Byte) : Nat → Nat → Block × Counter → Block × List Byte
  | 0, _, q => (q.1, [])
  | m + 1, i, (s, d) =>
    let r := if dec then rhoInv c s (blockOf 16 x i) else rho c s (blockOf 16 x i)
    let b := if m ≠ 0 then c.domain.nMsg else if lastBlockFull x.length then c.domain.nMsgLastFull else c.domain.nMsgLastPart
    let q := nTextLoop c k n dec x m (i + 1) (tbc c k n b (cntStep c d) r.1, cntStep c d)
    (q.1, r.2 ++ q.2)

/-- Romulus-N in either direction: the output text and the computed tag (R220, R227). -/
def nCore (c : Config) (k n : Block) (dec : Bool) (a x : List Byte) : List Byte × Block :=
  let q := nTextLoop c k n dec x (blockCount x.length) 0 (nAdState c k n a, Config.d0)
  (q.2, feedback c q.1)

/-- `N_ENC`: ciphertext and tag (R220). -/
def nEncrypt (c : Config) (k n : Block) (a m : List Byte) : List Byte × Block := nCore c k n false a m

/-- `N_DEC`: validity and plaintext (R227). -/
def nDecrypt (c : Config) (k n t : Block) (a x : List Byte) : Bool × List Byte :=
  (tagEqual (nCore c k n true a x).2 t, (nCore c k n true a x).1)

/-! ## Romulus-M -/

/-- The closing domain byte of the first pass (R242). -/
def mClosing (t : DomainTable) (la lm : Nat) : Byte :=
  t.mFinal ^^^ (if lastBlockFull la then 0#8 else 2#8) ^^^ (if lastBlockFull lm then 0#8 else 1#8)
    ^^^ (if blockCount la % 2 = 0 then 8#8 else 0#8) ^^^ (if blockCount lm % 2 = 0 then 4#8 else 0#8)

/-- The tag of the first pass (R241 to R245). -/
def mMac (c : Config) (k n : Block) (a m : List Byte) : Block :=
  let na := blockCount a.length
  let q := absorbLoop c k (fun i => if i < na then c.domain.mAd else c.domain.mMsg)
    (fun i => if i < na then blockOf 16 a i else blockOf 16 m (i - na)) (na + blockCount m.length) 0 (Block.zero, Config.d0)
  feedback c (tbc c k n (mClosing c.domain a.length m.length) q.2 q.1)

/-- The loop of R246 from block `i` on, `m` blocks. -/
def mCryptLoop (c : Config) (k n : Block) (dec : Bool) (x : List Byte) : Nat → Nat → Block × Counter → List Byte
  | 0, _, _ => []
  | m + 1, i, (s, d) =>
    let y := tbc c k n c.domain.mCrypt d s
    let r := if dec then rhoInv c y (blockOf 16 x i) else rho c y (blockOf 16 x i)
    r.2 ++ mCryptLoop c k n dec x m (i + 1) (r.1, cntStep c d)

/-- The encryption pass from the tag `t` (R246, R247). -/
def mCrypt (c : Config) (k n t : Block) (dec : Bool) (x : List Byte) : List Byte :=
  mCryptLoop c k n dec x (textBlockCount x.length) 0 (t, Config.d0)

/-- `M_ENC`: ciphertext and tag (R240). -/
def mEncrypt (c : Config) (k n : Block) (a m : List Byte) : List Byte × Block :=
  (mCrypt c k n (mMac c k n a m) false m, mMac c k n a m)

/-- `M_DEC`: validity and plaintext (R248). -/
def mDecrypt (c : Config) (k n t : Block) (a x : List Byte) : Bool × List Byte :=
  (tagEqual (mMac c k n a (mCrypt c k n t true x)) t, mCrypt c k n t true x)

/-! ## Romulus-H -/

/-- The full 32-byte blocks of R280 from block `i` on, `q` of them. -/
def hashLoop (c : Config) (x : List Byte) : Nat → Nat → Block × Block → Block × Block
  | 0, _, h => h
  | q + 1, i, h => hashLoop c x q (i + 1) (compress c h.1 h.2 (blockOf 32 x i))

/-- `hash_core`: the two halves of the hash (R280 to R284, R266). -/
def hashCore (c : Config) (x : List Byte) : Block × Block :=
  let h := hashLoop c x (x.length / 32) 0 (Block.zero, Block.zero)
  compress c (flipByte0 c.hash.last h.1) h.2 (ipad32 (blockOf 32 x (x.length / 32)))

/-- `HASH` (R280, R285). -/
def hashDigest (c : Config) (x : List Byte) : Digest := (hashCore c x).1 ++ (hashCore c x).2

/-! ## Romulus-T -/

/-- The session key (R261). -/
def tKdf (c : Config) (k n : Block) : Block := tbc c k Block.zero c.domain.tKdf Config.dz n

/-- The loop of R263 from block `i` on, `m` blocks: the output, and the session key and the counter after it. -/
def tStreamLoop (c : Config) (n : Block) (x : List Byte) : Nat → Nat → Block × Counter → List Byte × Block × Counter
  | 0, _, q => ([], q)
  | m + 1, i, (z, d) =>
    let o := xorPrefix (blockOf 16 x i) (tbc c z n c.domain.tKs d Block.zero)
    let q := tStreamLoop c n x m (i + 1) (if m ≠ 0 then tbc c z n c.domain.tKu d Block.zero else z, cntStep c d)
    (o ++ q.1, q.2)

/-- `stream` (R262, R263), with the session key it ends with. -/
def tStream (c : Config) (k n : Block) (x : List Byte) : List Byte × Block × Counter :=
  tStreamLoop c n x (textBlockCount x.length) 0 (tKdf c k n, Config.d0)

/-- The key of the tag generation, from `KEY` and the session key (R267, conflict C6). -/
def tagKeyOf (c : Config) (k z : Block) : Block :=
  match c.tFormat with
  | .longTermTag => k
  | .sessionTag => z

/-- The tag over associated data and ciphertext, under the key `k` (R264 to R267). -/
def tTag (c : Config) (k n : Block) (a x : List Byte) (d : Counter) : Block :=
  let h := hashCore c (authString a x n d)
  tbc c k h.2 c.domain.tTgf Config.dz h.1

/-- `T_ENC`: ciphertext and tag (R260). -/
def tEncrypt (c : Config) (k n : Block) (a m : List Byte) : List Byte × Block :=
  let q := tStream c k n m
  (q.1, tTag c (tagKeyOf c k q.2.1) n a q.1 q.2.2)

/-- `T_DEC`: validity and plaintext (R268). -/
def tDecrypt (c : Config) (k n t : Block) (a x : List Byte) : Bool × List Byte :=
  let q := tStream c k n x
  (tagEqual (tTag c (tagKeyOf c k q.2.1) n a x q.2.2) t, q.1)

end Sys2Proof.Machine
end

