-- ==== Sys2Proof/Safety.lean ====
section
/-! DEFINITION. What the statements speak of: runs, the mark `FAULT` along a run, the invariants of the block, the readiness of
the engine, and what two runs with different data have in common. -/

namespace Sys2Proof.Machine

/-! ## Runs -/

/-- `n` steps, stopping at the first fault or refusal. -/
def steps : Nat → State → Out State
  | 0, s => .next s
  | n + 1, s => andThen (step s) (steps n)

/-- A run is safe for `n` steps when it meets no stop and the mark `FAULT` is clear at its end (R306). -/
def SafeFor (n : Nat) (s : State) : Prop := ∃ t, steps n s = .next t ∧ t.fault = none

/-! ## What holds in every state of a run -/

/-- What R27 says of the fields of `STATUS` together; `ECODE` reports one of the five codes, and only with `ERR` (R94). -/
def statusLegal (v : BitVec 8) : Bool :=
  !(statusBusy v && statusDone v)
    && (!statusValid v || (statusDone v && !statusErr v))
    && (!statusErr v || (statusDone v && !statusValid v && statusEcode v ≠ 0))
    && (statusErr v || statusEcode v = 0)
    && statusEcode v ≤ 5

/-- Every written offset of a memory is below `cap`. -/
def Memory.below (m : Memory) (cap : Nat) : Bool := m.all fun e => e.1 < cap

/-- Every engine-internal register, and the model's `tagT` and `scratch`, is unwritten, and no invocation is pending (R38, R199). -/
def internalsUnwritten (s : State) : Bool :=
  s.regS.isNone && s.regL.isNone && s.regR.isNone && s.regZ.isNone && s.regD.isNone && s.tk1.isNone && s.tk2.isNone
    && s.tk3.isNone && s.rc.isNone && s.rnd.isNone && s.acc.isNone && s.idx.isNone && s.tagT.isNone
    && s.scratch = [] && !s.pending

/-- The invariant of the block: the buffers are in canonical form and within `BUFCAP` (R30); the fields of `STATUS` are legal
(R27); `ADLEN` and `TLEN` have `LENW` bits (R25, R201); the engine has a phase exactly while it runs (R36); what a running
command declared fits the buffers (R305), and no result is there before its end (R28, R29); an idle block holds no internal
value (R38); `RND` is a round index (R35). -/
structure Inv (s : State) : Prop where
  adbuf_wf : s.adbuf.wf
  tin_wf : s.tin.wf
  tout_wf : s.tout.wf
  adbuf_below : s.adbuf.below s.cfg.bufCap = true
  tin_below : s.tin.below s.cfg.bufCap = true
  tout_below : s.tout.below s.cfg.bufCap = true
  status_legal : statusLegal s.status = true
  adlen_width : s.adlen < 2 ^ s.cfg.lenWidth
  tlen_width : s.tlen < 2 ^ s.cfg.lenWidth
  busy_iff : s.busy = true ↔ s.phase ≠ .idle
  text_fits : s.busy = true → s.tlen ≤ s.cfg.bufCap
  no_result : s.busy = true → s.tagout = none ∧ s.digest = none
  idle_clean : s.busy = false → internalsUnwritten s = true
  round_index : ∀ r, s.rnd = some r → r ≤ s.cfg.rounds

/-! ## Readiness of the engine -/

/-- The pending invocation, if there is one, is tagged `i`. -/
def pendingIs (i : Instr) (s : State) : Bool :=
  !s.pending || (match s.tk1.bind (tagOf s.cfg) with | some b => decodeDomain s.cfg.domain b = .ok i | none => false)

/-- `p` of the index of the phase, and no invocation pending at its entry. -/
def atIndex (s : State) (p : Nat → Bool) : Bool :=
  match s.idx with
  | none => !s.pending
  | some i => p i

/-- The length of the authentication input of Romulus-T (R264). -/
def authLength (la lm : Nat) : Nat := ipadStarLength la + ipadStarLength lm + 23

/-- The length of the byte string that is hashed (R280, R264). -/
def hashLength (s : State) : Nat := if s.mode = some .romulusH then s.tlen else authLength s.adlen s.tlen

/-- The scratch of `T_ENC` holds the first `n` bytes of the ciphertext (R199, R264). -/
def keptTo (s : State) (n : Nat) : Bool := s.decrypting || s.scratch.length = n

/-- What the engine's next micro-operation reads is written, phase by phase: the registers its algorithm has written by then
(R39) and the pending tag its tag selection gives (R184); and `IDX` is at most the number of blocks, and unwritten in a phase that
has none to count (R36; log 11). -/
def phaseReady (s : State) : Bool :=
  match s.phase with
  | .idle => false
  | .ad =>
    match s.mode with
    | some .romulusN =>
      atIndex s fun i =>
        s.regS.isSome && s.regD.isSome && i ≤ blockCount s.adlen
          && pendingIs (if i < blockCount s.adlen then .nAd else nAdLast s) s
    | some .romulusM =>
      (!s.decrypting || s.tout.writtenTo s.tlen)
        && atIndex s fun i =>
          s.regS.isSome && s.regD.isSome && i ≤ blockCount s.adlen && (!s.pending || i < blockCount s.adlen)
            && pendingIs .mAd s
    | some .romulusT => false
    | some .romulusH => false
    | none => false
  | .text =>
    s.mode = some .romulusN && s.regS.isSome
      && atIndex s fun i => s.regD.isSome && i < blockCount s.tlen && pendingIs (nTextTag s i) s
  | .mac =>
    s.mode = some .romulusM && (!s.decrypting || s.tout.writtenTo s.tlen) && s.regS.isSome && s.regD.isSome
      && atIndex s fun i =>
        i ≤ blockCount s.tlen && (!s.pending || i < blockCount s.tlen) && pendingIs .mMsg s
  | .crypt =>
    s.mode = some .romulusM && (s.decrypting || s.tagT.isSome)
      && atIndex s fun i =>
        s.regS.isSome && s.regD.isSome && i ≤ textBlockCount s.tlen && s.tout.writtenTo (min (16 * i) s.tlen)
          && (!s.pending || i < textBlockCount s.tlen) && pendingIs .mCrypt s
  | .kdf => s.mode = some .romulusT && s.idx.isNone && pendingIs .tKdf s
  | .stream =>
    s.mode = some .romulusT && s.regZ.isSome
      && atIndex s fun i =>
        s.regD.isSome && i ≤ textBlockCount s.tlen
          && (if s.pending then
              i < textBlockCount s.tlen
                && (pendingIs .tKs s && keptTo s (min (16 * i) s.tlen)
                  || pendingIs .tKu s && keptTo s (min (16 * (i + 1)) s.tlen))
            else keptTo s (min (16 * i) s.tlen))
  | .hashblk =>
    !s.pending
      && (s.mode = some .romulusH
        || s.mode = some .romulusT && s.regD.isSome && s.tagKey.isSome && keptTo s s.tlen)
      && atIndex s fun i => s.regL.isSome && s.regR.isSome && i ≤ hashLength s / 32
  | .final =>
    s.idx.isNone
      && match s.mode with
        | some .romulusN => s.regS.isSome && !s.pending
        | some .romulusM => s.regS.isSome && s.regD.isSome && pendingIs (.mFinal (mFlags s)) s
        | some .romulusT => s.regL.isSome && s.regR.isSome && s.tagKey.isSome && pendingIs .tTgf s
        | some .romulusH => false
        | none => false
  | .compare =>
    s.mode.isSome && s.mode ≠ some .romulusH && s.decrypting && s.idx.isNone && s.tagT.isSome && !s.pending
  | .publish =>
    s.mode.isSome && s.idx.isNone && !s.pending
      && match s.kind with
        | .hash => s.regL.isSome && s.regR.isSome
        | .encrypt => s.tagT.isSome
        | .decrypt => s.acc.isSome

/-- The engine runs a command that has passed the error checks (R307 steps 4 and 5) and whose operands are written (step 6),
and it is ready for its next micro-operation. -/
def EngineReady (s : State) : Bool :=
  s.busy && s.cfg.admitted && precheck s.kind s = none && operandsWritten s.kind s && phaseReady s

/-- The phases of the latched command, in the order its mode's file gives (R36). -/
def phasesOf (s : State) : List Phase :=
  match s.mode, s.decrypting with
  | some .romulusH, _ => [.hashblk, .publish]
  | some .romulusN, false => [.ad, .text, .final, .publish]
  | some .romulusN, true => [.ad, .text, .final, .compare, .publish]
  | some .romulusM, false => [.ad, .mac, .final, .crypt, .publish]
  | some .romulusM, true => [.crypt, .ad, .mac, .final, .compare, .publish]
  | some .romulusT, false => [.kdf, .stream, .hashblk, .final, .publish]
  | some .romulusT, true => [.kdf, .stream, .hashblk, .final, .compare, .publish]
  | none, _ => []

/-- `PHASE` and `IDX` from `s` to `t` as R36 has them: within a phase `IDX` is written 0 or counts up by one, or stays; or the
next phase of the command begins. -/
def MovesForward (s t : State) : Prop :=
  (t.phase = s.phase ∧ (t.idx = s.idx ∨ t.idx = some (s.idx.elim 0 (· + 1)))) ∨
    ((s.phase, t.phase) ∈ (phasesOf s).zip (phasesOf s).tail ∧ t.idx = none)

/-! ## What does not depend on data (R198, R349) -/

/-- `s` and `t` agree on what may depend on `OP`, `ADLEN` and `TLEN` only: the configuration, the lengths, the sequencing
registers, the counter, whether an invocation is pending and its tweakey word, the length of the scratch, and the log of
invocations and buffer accesses.
Nothing is said of `KEY`, `NONCE`, the buffers' contents, the data registers or the tags. -/
structure SameShape (s t : State) : Prop where
  cfg : s.cfg = t.cfg
  adlen : s.adlen = t.adlen
  tlen : s.tlen = t.tlen
  op : s.op = t.op
  busy : s.busy = t.busy
  phase : s.phase = t.phase
  idx : s.idx = t.idx
  regD : s.regD = t.regD
  rnd : s.rnd = t.rnd
  pending : s.pending = t.pending
  tk1 : s.pending = true → s.tk1 = t.tk1
  scratch : s.scratch.length = t.scratch.length
  log : s.log = t.log

/-- Block and host at rest: no fault, no host action to come, no command running, no internal value. -/
def AtRest (s : State) : Prop := s.fault = none ∧ s.script = [] ∧ s.busy = false ∧ internalsUnwritten s = true

/-- `v` is the `w`-bit number `old` with the byte `b` in place `i`, counted from the least significant, bit by bit (R25, R63). -/
def HoldsByte (w old i : Nat) (b : Byte) (v : Nat) : Prop :=
  v < 2 ^ w ∧
    ∀ k, k < w → v.testBit k = if 8 * i ≤ k ∧ k < 8 * i + 8 then b.getLsbD (k - 8 * i) else old.testBit k

/-! ## What a command is started with -/

/-- The phase `START` puts the engine in (R307 step 7; R220, R227, R240, R248, R260, R268, R280). -/
def firstPhase : Instr → Phase
  | .hash => .hashblk
  | .nEnc => .ad
  | .nDec => .ad
  | .mEnc => .ad
  | .mDec => .crypt
  | .tEnc => .kdf
  | .tDec => .kdf
  | _ => .idle

/-- The declared lengths, the key, the nonce, the associated data and the text of an authenticated-encryption command are
there, and fit (R93, R302, R303, R305, R307). -/
structure AeadOperands (s : State) (k n : Block) (a x : List Byte) : Prop where
  klen : s.klen = 16
  nlen : s.nlen = 16
  ad_fits : s.adlen ≤ s.cfg.bufCap
  text_fits : s.tlen ≤ s.cfg.bufCap
  key : s.key.value = some k
  nonce : s.nonce.value = some n
  ad : s.adbuf.readRange 0 s.adlen = some a
  text : s.tin.readRange 0 s.tlen = some x

/-- What the command `v` leaves when it is done (R9, R27, R38, R67): the block at rest, `STATUS`, the text written and nothing
beyond it, the operands gone, the inputs and the lengths as they were, and `OP` the command (R36). -/
structure FinishedWith (s t : State) (v : Byte) (st : BitVec 8) (out : List Byte) : Prop where
  rest : AtRest t
  op : t.op = v
  status : t.status = st
  text : t.tout.readRange 0 out.length = some out
  beyond : ∀ a, out.length ≤ a → t.tout.read a = none
  key : t.key = OperandReg.unwritten
  nonce : t.nonce = OperandReg.unwritten
  tagin : t.tagin = OperandReg.unwritten
  adbuf : t.adbuf = s.adbuf
  tin : t.tin = s.tin
  klen : t.klen = s.klen
  nlen : t.nlen = s.nlen
  tglen : t.tglen = s.tglen
  adlen : t.adlen = s.adlen
  tlen : t.tlen = s.tlen

/-! ## Invocation traces (R198) -/

/-- The trace of `N_ENC` and of `N_DEC` for lengths `la` and `lm` (R222 to R225, R229). -/
def nTrace (c : Config) (la lm : Nat) : List (KeySource × Option (Byte × Counter)) :=
  ((List.range (blockCount la)).filter fun i => i % 2 = 1).map (fun i => (.key, some (c.domain.nAd, cntSteps c i Config.d0)))
    ++ [(.key, some (if lastBlockFull la then c.domain.nAdLastFull else c.domain.nAdLastPart,
          cntSteps c (blockCount la) Config.d0))]
    ++ (List.range (blockCount lm)).map fun i =>
        (.key, some (if i + 1 < blockCount lm then c.domain.nMsg
            else if lastBlockFull lm then c.domain.nMsgLastFull else c.domain.nMsgLastPart,
          cntSteps c (i + 1) Config.d0))

/-- The trace of the first pass of Romulus-M (R243, R244). -/
def mMacTrace (c : Config) (la lm : Nat) : List (KeySource × Option (Byte × Counter)) :=
  ((List.range (blockCount la + blockCount lm)).filter fun i => i % 2 = 1).map
      (fun i => (.key, some (if i < blockCount la then c.domain.mAd else c.domain.mMsg, cntSteps c i Config.d0)))
    ++ [(.key, some (mClosing c.domain la lm, cntSteps c (blockCount la + blockCount lm) Config.d0))]

/-- The trace of the encryption pass of Romulus-M (R246, R247). -/
def mCryptTrace (c : Config) (lm : Nat) : List (KeySource × Option (Byte × Counter)) :=
  (List.range (textBlockCount lm)).map fun i => (.key, some (c.domain.mCrypt, cntSteps c i Config.d0))

/-- The trace of a hash of `n` bytes (R282, R288). -/
def hTrace (n : Nat) : List (KeySource × Option (Byte × Counter)) := List.replicate (2 * (n / 32 + 1)) (.pub, none)

/-- The trace of `T_ENC` and of `T_DEC` (R261 to R263, R266, R267, R270). -/
def tTrace (c : Config) (la lm : Nat) : List (KeySource × Option (Byte × Counter)) :=
  [(.key, some (c.domain.tKdf, Config.dz))]
    ++ (List.range (textBlockCount lm)).flatMap (fun i =>
        (.z, some (c.domain.tKs, cntSteps c i Config.d0))
          :: if i + 1 < textBlockCount lm then [(.z, some (c.domain.tKu, cntSteps c i Config.d0))] else [])
    ++ hTrace (authLength la lm)
    ++ [(tagSource c, some (c.domain.tTgf, Config.dz))]

end Sys2Proof.Machine
end

