-- ==== Sys2Proof/Certificates/Slice0/Obligations.lean ====
section
/-! DEFINITION. The statements for the provers. A conclusion `exec i s = .next { s with … }` states the result of the
instruction, its completion and its whole frame at once: every field of `State` not named in the record keeps its value, every
byte of the three buffers among them. -/

section

open Sys2Proof Sys2Proof.Machine

/-! ## Encodings -/

/-- R91: the eight command words and no other. -/
def Obligations.CommandWordsAreTheOpcodeMap : Prop :=
  ∀ (w : Byte) (i : Instr),
    decodeCommand w = .ok i ↔
      (w, i) ∈
        [(0x00#8, Instr.clear), (0x02#8, .hash), (0x04#8, .nEnc), (0x05#8, .nDec), (0x06#8, .mEnc), (0x07#8, .mDec),
          (0x08#8, .tEnc), (0x09#8, .tDec)]

/-- R97, the columns of names and values, and the list of values never produced. -/
def Obligations.DomainBytesAreAClosedEnumeration : Prop :=
  (∀ (b : Byte) (i : Instr),
    decodeDomain DomainTable.default b = .ok i ↔
      (b, i) ∈
          [(0x04#8, Instr.nMsg), (0x08#8, .nAd), (0x14#8, .nMsgLastFull), (0x15#8, .nMsgLastPart), (0x18#8, .nAdLastFull),
            (0x1A#8, .nAdLastPart), (0x24#8, .mCrypt), (0x28#8, .mAd), (0x2C#8, .mMsg), (0x40#8, .tKs), (0x41#8, .tKu),
            (0x42#8, .tKdf), (0x44#8, .tTgf)]
        ∨ ∃ fl : BitVec 4, i = .mFinal fl ∧ b.toNat = 48 + fl.toNat) ∧
  ∀ b : Byte,
    (∃ e, decodeDomain DomainTable.default b = .error e) ↔
      b.toNat ≤ 3 ∨ (5 ≤ b.toNat ∧ b.toNat ≤ 7) ∨ (9 ≤ b.toNat ∧ b.toNat ≤ 19) ∨ b.toNat = 22 ∨ b.toNat = 23 ∨ b.toNat = 25
        ∨ (27 ≤ b.toNat ∧ b.toNat ≤ 35) ∨ (37 ≤ b.toNat ∧ b.toNat ≤ 39) ∨ (41 ≤ b.toNat ∧ b.toNat ≤ 43)
        ∨ b.toNat = 45 ∨ b.toNat = 46 ∨ b.toNat = 47 ∨ b.toNat = 67 ∨ 69 ≤ b.toNat

/-- Decoding the word of a well-formed instruction, whatever follows it, gives the instruction and what follows, for every
domain table whose bytes are distinct, the default of R97 among them; and a word that decodes is the word of what it decodes to,
which is well formed (R90, R91, R97). -/
def Obligations.EncodeAndDecodeAgree : Prop :=
  (∀ (t : DomainTable) (f : Format) (i : Instr) (rest : List Byte), t.distinct = true → i.wellFormed f = true →
    decode t f (encodeIn t i :: rest) = .ok (i, rest)) ∧
  (∀ (t : DomainTable) (f : Format) (b : Byte) (rest tail : List Byte) (i : Instr),
    decode t f (b :: rest) = .ok (i, tail) → b = encodeIn t i ∧ tail = rest ∧ i.wellFormed f = true) ∧
  DomainTable.default.distinct = true

/-- A few words written out from R91 and R97 (a sanity statement). -/
def Obligations.WrittenOutWordsDecode : Prop :=
  decodeCommand 0b00000010#8 = .ok .hash ∧ decodeCommand 0b00000101#8 = .ok .nDec ∧ decodeCommand 0b00000110#8 = .ok .mEnc ∧
    decodeCommand 0b00001001#8 = .ok .tDec ∧ decodeDomain DomainTable.default 0b00011010#8 = .ok .nAdLastPart ∧
    decodeDomain DomainTable.default 0b00100100#8 = .ok .mCrypt ∧
    decodeDomain DomainTable.default 0b00111011#8 = .ok (.mFinal 0b1011#4) ∧
    decodeDomain DomainTable.default 0b01000100#8 = .ok .tTgf

/-! ## `START`, `CLEAR`, errors -/

/-- R92 and R301: a word is reserved exactly when it is `0x01`, `0x03` or above `0x09`, and the host's write of a reserved word
while `BUSY = 0` ends at once with `BAD_OP`, with no cipher invocation. -/
def Obligations.ReservedWordsEndInBadOp : Prop :=
  (∀ v : Byte, (∃ e, decodeCommand v = .error e) ↔ v = 0x01#8 ∨ v = 0x03#8 ∨ 0x0A ≤ v.toNat) ∧
  ∀ (v : Byte) (s : State), s.busy = false → v = 0x01#8 ∨ v = 0x03#8 ∨ 0x0A ≤ v.toNat →
    ∃ l, traceOf l = [] ∧
      start v s =
        .next
          { s with
            op := v, status := 0x1A#8, tagout := none, digest := none, tout := [], log := l
            key := OperandReg.unwritten, nonce := OperandReg.unwritten, tagin := OperandReg.unwritten }

/-- R307: what `START(v)` does, for every value `v`, step by step and in this order, without a cipher invocation. Which phase is
a command's first is the model's assignment (log 11), here and in `PrimitivesStart`. That the fault of step 6 is the mark of R306 in
a next state with no effect beyond step 1, and that a mark already set keeps its reason, is the model's (log 8). -/
def Obligations.StartChecksInOrder : Prop :=
  ∀ (v : Byte) (s : State), s.busy = false → ∃ l, traceOf l = [] ∧
    let begun : State := { s with op := v, status := 0#8, tagout := none, digest := none, tout := [], log := l }
    let cleared : State :=
      { begun with key := OperandReg.unwritten, nonce := OperandReg.unwritten, tagin := OperandReg.unwritten }
    let error (status : BitVec 8) : Out State := .next { cleared with status := status }
    let aead : Prop := v = 4#8 ∨ v = 5#8 ∨ v = 6#8 ∨ v = 7#8 ∨ v = 8#8 ∨ v = 9#8
    let decrypt : Prop := v = 5#8 ∨ v = 7#8 ∨ v = 9#8
    let first : Phase :=
      if v = 2#8 then .hashblk
      else if v = 4#8 ∨ v = 5#8 ∨ v = 6#8 then .ad
      else if v = 7#8 then .crypt
      else .kdf
    start v s =
      if ¬ (v = 0#8 ∨ v = 2#8 ∨ aead) then error 0x1A#8
      else if v = 0#8 then .next { cleared with phase := .idle }
      else if aead ∧ s.klen ≠ 16 then error 0x2A#8
      else if aead ∧ s.nlen ≠ 16 then error 0x3A#8
      else if aead ∧ decrypt ∧ s.tglen ≠ 16 then error 0x4A#8
      else if aead ∧ s.cfg.bufCap < s.adlen then error 0x5A#8
      else if s.cfg.bufCap < s.tlen then error 0x5A#8
      else if ¬ ((aead →
              s.key.value.isSome = true ∧ s.nonce.value.isSome = true
                ∧ ∀ a, a < s.adlen → (s.adbuf.read a).isSome = true)
            ∧ (decrypt → s.tagin.value.isSome = true)
            ∧ ∀ a, a < s.tlen → (s.tin.read a).isSome = true) then
        .next { begun with fault := some (s.fault.getD .unwrittenOperand) }
      else .next { begun with status := 0x01#8, phase := first }

/-- R308: an error reports itself in `STATUS`, the operands become unwritten, and nothing else changes beyond step 1 of
`START`; the block stays idle, the internal registers unwritten, the trace empty. `Inv` is an invariant (`StepKeepsInv`). -/
def Obligations.ErrorEntryIsExact : Prop :=
  ∀ (v : Byte) (s t : State), Inv s → s.busy = false → start v s = .next t → statusErr t.status = true →
    (∃ code : BitVec 4, 1 ≤ code.toNat ∧ code.toNat ≤ 5 ∧
      t =
        { s with
          op := v, status := code ++ 0b1010#4, tagout := none, digest := none, tout := [], log := t.log
          key := OperandReg.unwritten, nonce := OperandReg.unwritten, tagin := OperandReg.unwritten }) ∧
      t.phase = .idle ∧ internalsUnwritten t = true ∧ traceOf t.log = []

/-- The completion of the seven primitive commands: while `BUSY = 0`, with the declared lengths 16 and in range and every operand
of R93 written, the command starts. Its log of invocations and buffer accesses begins empty: the model's own (log 16). -/
def Obligations.PrimitivesStart : Prop :=
  (∀ (s : State) (x : List Byte), s.busy = false → s.tlen ≤ s.cfg.bufCap → s.tin.readRange 0 s.tlen = some x →
    exec .hash s =
      .next
        { s with
          op := 0x02#8, status := 0x01#8, tagout := none, digest := none, tout := [], log := [], phase := .hashblk }) ∧
  (∀ (s : State) (k n : Block) (a x : List Byte), s.busy = false → AeadOperands s k n a x →
    ∀ (i : Instr) (v : Byte) (p : Phase),
      (i, v, p) ∈ [(Instr.nEnc, 0x04#8, Phase.ad), (.mEnc, 0x06#8, .ad), (.tEnc, 0x08#8, .kdf)] →
      exec i s =
        .next { s with op := v, status := 0x01#8, tagout := none, digest := none, tout := [], log := [], phase := p }) ∧
  ∀ (s : State) (k n t : Block) (a x : List Byte), s.busy = false → AeadOperands s k n a x → s.tglen = 16 →
    s.tagin.value = some t →
    ∀ (i : Instr) (v : Byte) (p : Phase),
      (i, v, p) ∈ [(Instr.nDec, 0x05#8, Phase.ad), (.mDec, 0x07#8, .crypt), (.tDec, 0x09#8, .kdf)] →
      exec i s =
        .next { s with op := v, status := 0x01#8, tagout := none, digest := none, tout := [], log := [], phase := p }

/-- R312: `CLEAR` while `BUSY = 0`, which no operand can make fail, and its corner case right after reset. -/
def Obligations.ClearEmptiesTheBlock : Prop :=
  (∀ s : State, s.busy = false → ∃ l, traceOf l = [] ∧
    exec .clear s =
      .next
        { s with
          op := 0x00#8, status := 0x00#8, tagout := none, digest := none, tout := [], log := l
          key := OperandReg.unwritten, nonce := OperandReg.unwritten, tagin := OperandReg.unwritten, phase := .idle }) ∧
  ∀ c : Config, exec .clear (State.resetWith c) = .next (State.resetWith c)

/-! ## The host's side -/

/-- R70: while `BUSY = 1` the host may read `STATUS` and nothing else; every other access, `START`, and every command word, sets
`FAULT` with `F_BUSY_ACCESS` (R306) and does nothing else, the action taken off the script. That
such an access has no effect but the mark, where R70 leaves the hardware's behaviour open, is the model's choice (log 8); that a
read of which only some bytes are `STATUS` returns nothing is the model's (log 13), and that a read's bytes are appended to
`reads` the model's own (log 15). -/
def Obligations.BusyBlockAnswersStatusOnly : Prop :=
  ∀ (s : State) (rest : List HostAction), s.fault = none → s.busy = true →
    (∀ off, (registerAt s.cfg off).map Prod.fst = some .status → s.script = .readReg off 1 :: rest →
      step s = .next { s with script := rest, reads := s.reads ++ [[s.status]] }) ∧
    (∀ off n i, i ≤ n → (registerAt s.cfg (off + i)).map Prod.fst ≠ some .status → s.script = .readReg off (n + 1) :: rest →
      step s = .next { s with script := rest, fault := some .busyAccess }) ∧
    (s.cfg.regMap = Config.defaultRegMap → ∀ off, (registerAt s.cfg off).map Prod.fst = some .status ↔ off = 1) ∧
    (∀ v, s.script = .start v :: rest → step s = .next { s with script := rest, fault := some .busyAccess }) ∧
    (∀ off b bs, s.script = .writeReg off (b :: bs) :: rest → step s = .next { s with script := rest, fault := some .busyAccess }) ∧
    (∀ sp off b bs, s.script = .writeBuf sp off (b :: bs) :: rest → step s = .next { s with script := rest, fault := some .busyAccess }) ∧
    (∀ sp off n, s.script = .readBuf sp off (n + 1) :: rest → step s = .next { s with script := rest, fault := some .busyAccess }) ∧
    ∀ i : Instr, i.format = .cmd8 → exec i s = .next { s with fault := some .busyAccess }

/-- R306, its last paragraph: while `BUSY = 0` a write to `STATUS`, `TAGOUT`, `DIGEST`, a reserved offset, `TOUT` or an offset at
or beyond `BUFCAP` is ignored: the step takes the action off the script and changes nothing else. -/
def Obligations.IgnoredWritesChangeNothing : Prop :=
  ∀ (s : State) (b : Byte) (rest : List HostAction), s.fault = none → s.busy = false →
    (∀ off, s.cfg.regMap = Config.defaultRegMap → off = 1 ∨ (5 ≤ off ∧ off ≤ 7) ∨ 0x40 ≤ off →
      s.script = .writeReg off [b] :: rest → step s = .next { s with script := rest }) ∧
    (∀ off, registerAt s.cfg off = none → s.script = .writeReg off [b] :: rest → step s = .next { s with script := rest }) ∧
    ∀ sp off, sp = .tout ∨ s.cfg.bufCap ≤ off → s.script = .writeBuf sp off [b] :: rest →
      step s = .next { s with script := rest }

/-- What the host reads at every offset while `BUSY = 0` (R68, R63, R306), and the step that reads: it returns the bytes, or
returns none and sets `FAULT` where one of them is not there. That `NONCE` and `TAGIN` read only once all their bytes are
written is the model's reading (log 14); that the fault is the mark in a next state with no other effect (log 8), that a read of
which one byte is missing returns nothing and a read of no byte records an empty entry (log 13), and that a read's bytes are
appended to `reads` (log 15), are the model's. -/
def Obligations.IdleReadsReturnWhatIsThere : Prop :=
  ∀ s : State, s.busy = false →
    (∀ off, s.cfg.regMap = Config.defaultRegMap →
      readRegisterByte off s =
        if off = 1 then .ok s.status
        else if off = 2 then .ok s.klen
        else if off = 3 then .ok s.nlen
        else if off = 4 then .ok s.tglen
        else if 8 ≤ off ∧ off < 12 then .ok (BitVec.ofNat 8 (s.adlen >>> (8 * (off - 8))))
        else if 12 ≤ off ∧ off < 16 then .ok (BitVec.ofNat 8 (s.tlen >>> (8 * (off - 12))))
        else
          let found : Option Byte :=
            if 0x20 ≤ off ∧ off < 0x30 then s.nonce.value.bind fun x => x[off - 0x20]?
            else if 0x30 ≤ off ∧ off < 0x40 then s.tagin.value.bind fun x => x[off - 0x30]?
            else if 0x40 ≤ off ∧ off < 0x50 then s.tagout.bind fun x => x[off - 0x40]?
            else if 0x60 ≤ off ∧ off < 0x80 then s.digest.bind fun x => x[off - 0x60]?
            else none
          match found with
          | some b => .ok b
          | none => .error .readNoValue) ∧
    (∀ sp off,
      readBufferByte sp off s =
        match (if s.cfg.bufCap ≤ off then none else (s.buffer sp).read off) with
        | some b => .ok b
        | none => .error .readNoValue) ∧
    ∀ (rest : List HostAction) (off : Nat), s.fault = none →
      (∀ bs : List Byte, s.script = .readReg off bs.length :: rest →
        (∀ (i : Nat) (h : i < bs.length), readRegisterByte (off + i) s = .ok bs[i]) →
        step s = .next { s with script := rest, reads := s.reads ++ [bs] }) ∧
      (∀ n i, s.script = .readReg off n :: rest → i < n → readRegisterByte (off + i) s = .error .readNoValue →
        step s = .next { s with script := rest, fault := some .readNoValue }) ∧
      (∀ (sp : Space) (bs : List Byte), s.script = .readBuf sp off bs.length :: rest →
        (∀ (i : Nat) (h : i < bs.length), readBufferByte sp (off + i) s = .ok bs[i]) →
        step s = .next { s with script := rest, reads := s.reads ++ [bs] }) ∧
      ∀ sp n i, s.script = .readBuf sp off n :: rest → i < n → readBufferByte sp (off + i) s = .error .readNoValue →
        step s = .next { s with script := rest, fault := some .readNoValue }

/-- What a step that writes a register leaves while `BUSY = 0`: a whole register (R21 to R25, R63, R68), or one byte of an operand
or length register. A length register of fewer than 32 bits keeps the low bits (log 5). -/
def Obligations.RegisterWritesLand : Prop :=
  (∀ (s : State) (rest : List HostAction), s.fault = none → s.busy = false → s.cfg.regMap = Config.defaultRegMap →
    (∀ b, s.script = .writeReg 2 [b] :: rest → step s = .next { s with script := rest, klen := b }) ∧
    (∀ b, s.script = .writeReg 3 [b] :: rest → step s = .next { s with script := rest, nlen := b }) ∧
    (∀ b, s.script = .writeReg 4 [b] :: rest → step s = .next { s with script := rest, tglen := b }) ∧
    (∀ b0 b1 b2 b3 : Byte, s.cfg.lenWidth ≤ 32 → s.script = .writeReg 8 [b0, b1, b2, b3] :: rest →
      step s = .next { s with script := rest, adlen := (b3 ++ b2 ++ b1 ++ b0).toNat % 2 ^ s.cfg.lenWidth }) ∧
    (∀ b0 b1 b2 b3 : Byte, s.cfg.lenWidth ≤ 32 → s.script = .writeReg 12 [b0, b1, b2, b3] :: rest →
      step s = .next { s with script := rest, tlen := (b3 ++ b2 ++ b1 ++ b0).toNat % 2 ^ s.cfg.lenWidth }) ∧
    (∀ x : Block, s.script = .writeReg 0x10 x.toList :: rest →
      step s = .next { s with script := rest, key := OperandReg.ofBlock x }) ∧
    (∀ x : Block, s.script = .writeReg 0x20 x.toList :: rest →
      step s = .next { s with script := rest, nonce := OperandReg.ofBlock x }) ∧
    (∀ x : Block, s.script = .writeReg 0x30 x.toList :: rest →
      step s = .next { s with script := rest, tagin := OperandReg.ofBlock x }) ∧
    (∀ (i : Nat) (b : Byte), i < 4 →
      (s.script = .writeReg (8 + i) [b] :: rest →
        ∃ v, step s = .next { s with script := rest, adlen := v } ∧ HoldsByte s.cfg.lenWidth s.adlen i b v) ∧
      (s.script = .writeReg (12 + i) [b] :: rest →
        ∃ v, step s = .next { s with script := rest, tlen := v } ∧ HoldsByte s.cfg.lenWidth s.tlen i b v)) ∧
    ∀ (i : Nat) (h : i < 16) (b : Byte),
      (s.script = .writeReg (0x10 + i) [b] :: rest → step s = .next { s with script := rest, key := s.key.set i (some b) }) ∧
      (s.script = .writeReg (0x20 + i) [b] :: rest →
        step s = .next { s with script := rest, nonce := s.nonce.set i (some b) }) ∧
      (s.script = .writeReg (0x30 + i) [b] :: rest →
        step s = .next { s with script := rest, tagin := s.tagin.set i (some b) })) ∧
  ∀ x : Block, (OperandReg.ofBlock x).value = some x

/-- `MemWrite` and `MemRead` of the host on `ADBUF` and `TIN` while `BUSY = 0` (R64, R30): what the step that writes leaves; the
bytes written are read back, and every other byte of every buffer reads as before. -/
def Obligations.BufferWritesReadBack : Prop :=
  ∀ (s : State) (rest : List HostAction) (off : Nat) (bs : List Byte), s.fault = none → s.busy = false →
    off + bs.length ≤ s.cfg.bufCap →
    (s.script = .writeBuf .adbuf off bs :: rest →
      ∃ m : Memory,
        step s = .next { s with script := rest, adbuf := m } ∧ m.readRange off bs.length = some bs ∧
          (s.adbuf.wf → m.wf) ∧ ∀ a, a < off ∨ off + bs.length ≤ a → m.read a = s.adbuf.read a) ∧
    (s.script = .writeBuf .tin off bs :: rest →
      ∃ m : Memory,
        step s = .next { s with script := rest, tin := m } ∧ m.readRange off bs.length = some bs ∧
          (s.tin.wf → m.wf) ∧ ∀ a, a < off ∨ off + bs.length ≤ a → m.read a = s.tin.read a)

/-! ## Invocations -/

/-- R183 and R96: the tweakey of an invocation of the AEAD modes in the default layout, byte by byte. -/
def Obligations.AeadTweakeyLayout : Prop :=
  ∀ (c : Config) (k t x : Block) (b : Byte) (d : Counter), c.tk1Layout = Config.defaultTk1Layout →
    tbc c k t b d x =
      permute c
        ⟨#v[d.extractLsb' 0 8, d.extractLsb' 8 8, d.extractLsb' 16 8, d.extractLsb' 24 8, d.extractLsb' 32 8,
            d.extractLsb' 40 8, d.extractLsb' 48 8, b, 0#8, 0#8, 0#8, 0#8, 0#8, 0#8, 0#8, 0#8],
          t, k⟩ x

/-- The invocations whose tweak word is the nonce and whose key is `KEY` (R97, R223, R224, R225, R244, R246): result, completion
and frame, each with its byte of `P_DOMAIN`. What `TK1` to `TK3`, `RC` and `RND` hold after an invocation is the model's reading of
R35, `pending` is the model's own (log 12), and so is the log (log 16), here and in the next four statements. -/
def Obligations.NonceInvocations : Prop :=
  ∀ (s : State) (k n x : Block) (d : Counter), s.key.value = some k → s.nonce.value = some n → s.regD = some d →
    s.regS = some x → ∀ (fl : BitVec 4) (i : Instr) (b : Byte),
      let t := s.cfg.domain
      (i, b) ∈
        [(Instr.nMsg, t.nMsg), (.nMsgLastFull, t.nMsgLastFull), (.nMsgLastPart, t.nMsgLastPart),
          (.nAdLastFull, t.nAdLastFull), (.nAdLastPart, t.nAdLastPart), (.mCrypt, t.mCrypt),
          (.mFinal fl, t.mFinal ^^^ fl.setWidth 8)] →
      let q := permuteState s.cfg (aeadTweakey s.cfg k n b d) x
      exec i s =
        .next
          { s with
            regS := some (tbc s.cfg k n b d x)
            tk1 := some q.tk.tk1, tk2 := some q.tk.tk2, tk3 := some q.tk.tk3, rc := some q.rc, rnd := some s.cfg.rounds
            pending := false
            log := s.log ++ [.invoke .key (some (b, d))] }

/-- The invocations whose tweak word is a padded block, block `IDX` of a buffer (R97, R222, R243): `N_AD` and `M_AD` take it from
`ADBUF`, `M_MSG` from `TIN` for `M_ENC` and from `TOUT` for `M_DEC` (R249). `IDX` counts the blocks of its own part from 0
(log 11). -/
def Obligations.BlockInvocations : Prop :=
  ∀ (s : State) (k x : Block) (d : Counter) (j : Nat) (w : List Byte), s.key.value = some k → s.regD = some d →
    s.regS = some x → s.idx = some j →
    let done (b : Byte) (sp : Space) : Out State :=
      let q := permuteState s.cfg (aeadTweakey s.cfg k (pad16 s.cfg w) b d) x
      .next
        { s with
          regS := some (tbc s.cfg k (pad16 s.cfg w) b d x)
          tk1 := some q.tk.tk1, tk2 := some q.tk.tk2, tk3 := some q.tk.tk3, rc := some q.rc, rnd := some s.cfg.rounds
          pending := false
          log :=
            s.log ++ (if w = [] then [] else [.read sp (16 * j) w.length]) ++ [.invoke .key (some (b, d))] }
    (s.adbuf.readRange (16 * j) (min 16 (s.adlen - 16 * j)) = some w →
      exec .nAd s = done s.cfg.domain.nAd .adbuf ∧ exec .mAd s = done s.cfg.domain.mAd .adbuf) ∧
    (s.op.getLsbD 0 = false → s.tin.readRange (16 * j) (min 16 (s.tlen - 16 * j)) = some w →
      exec .mMsg s = done s.cfg.domain.mMsg .tin) ∧
    (s.op.getLsbD 0 = true → s.tout.readRange (16 * j) (min 16 (s.tlen - 16 * j)) = some w →
      exec .mMsg s = done s.cfg.domain.mMsg .tout)

/-- R261 and R263: `T_KDF` and `T_KU` write the session key. -/
def Obligations.SessionKeyInvocations : Prop :=
  (∀ (s : State) (k n : Block), s.key.value = some k → s.nonce.value = some n →
    let b := s.cfg.domain.tKdf
    let q := permuteState s.cfg (aeadTweakey s.cfg k Block.zero b Config.dz) n
    exec .tKdf s =
      .next
        { s with
          regZ := some (tbc s.cfg k Block.zero b Config.dz n)
          tk1 := some q.tk.tk1, tk2 := some q.tk.tk2, tk3 := some q.tk.tk3, rc := some q.rc, rnd := some s.cfg.rounds
          pending := false
          log := s.log ++ [.invoke .key (some (b, Config.dz))] }) ∧
  ∀ (s : State) (z n : Block) (d : Counter), s.regZ = some z → s.nonce.value = some n → s.regD = some d →
    let b := s.cfg.domain.tKu
    let q := permuteState s.cfg (aeadTweakey s.cfg z n b d) Block.zero
    exec .tKu s =
      .next
        { s with
          regZ := some (tbc s.cfg z n b d Block.zero)
          tk1 := some q.tk.tk1, tk2 := some q.tk.tk2, tk3 := some q.tk.tk3, rc := some q.rc, rnd := some s.cfg.rounds
          pending := false
          log := s.log ++ [.invoke .z (some (b, d))] }

/-- R262: `T_KS` writes text block `IDX` exclusive-or the keystream block to the same offsets of `TOUT`, and changes no other
byte of `TOUT`, nor anything but the ephemeral registers, the log and, for `T_ENC`, the scratch of R199, which keeps the block
(log 26). -/
def Obligations.KeystreamInvocation : Prop :=
  ∀ (s : State) (z n : Block) (d : Counter) (j : Nat) (x : List Byte), s.regZ = some z → s.nonce.value = some n →
    s.regD = some d → s.idx = some j → s.tin.readRange (16 * j) (min 16 (s.tlen - 16 * j)) = some x →
    ∃ (m : Memory) (l : List Event),
      let b := s.cfg.domain.tKs
      let q := permuteState s.cfg (aeadTweakey s.cfg z n b d) Block.zero
      let o := List.zipWith (· ^^^ ·) x (tbc s.cfg z n b d Block.zero).toList
      exec .tKs s =
        .next
          { s with
            tout := m
            scratch := if s.op.getLsbD 0 then s.scratch else s.scratch ++ o
            tk1 := some q.tk.tk1, tk2 := some q.tk.tk2, tk3 := some q.tk.tk3, rc := some q.rc, rnd := some s.cfg.rounds
            pending := false
            log := l } ∧
      m.readRange (16 * j) x.length = some o ∧
      (∀ a, a < 16 * j ∨ 16 * j + x.length ≤ a → m.read a = s.tout.read a) ∧
      (s.tout.wf → m.wf) ∧
      l =
        s.log ++ [.invoke .z (some (b, d))]
          ++ if x = [] then [] else [.read .tin (16 * j) x.length, .write .tout (16 * j) x.length]

/-- R267: `T_TGF` computes the tag under `KEY`, or, in the format that C6 names as the other one, under the session key; `G` is
not applied. The register that holds it until the end of the command is the model's `tagT` (log 10). -/
def Obligations.TagGenerationInvocation : Prop :=
  ∀ (s : State) (k l r : Block) (src : KeySource),
    (s.cfg.tFormat = .longTermTag ∧ s.key.value = some k ∧ src = .key)
      ∨ (s.cfg.tFormat = .sessionTag ∧ s.regZ = some k ∧ src = .z) →
    s.regL = some l → s.regR = some r →
    let b := s.cfg.domain.tTgf
    let q := permuteState s.cfg (aeadTweakey s.cfg k r b Config.dz) l
    exec .tTgf s =
      .next
        { s with
          tagT := some (tbc s.cfg k r b Config.dz l)
          tk1 := some q.tk.tk1, tk2 := some q.tk.tk2, tk3 := some q.tk.tk3, rc := some q.rc, rnd := some s.cfg.rounds
          pending := false
          log := s.log ++ [.invoke src (some (b, Config.dz))] }

/-- R242: the domain byte the engine issues for the closing invocation of the first pass of Romulus-M. -/
def Obligations.ClosingDomainByteOfTheFirstPass : Prop :=
  ∀ s : State, s.cfg.domain = DomainTable.default →
    let a := max 1 ((s.adlen + 15) / 16)
    let m := max 1 ((s.tlen + 15) / 16)
    let lastA := s.adlen - 16 * (a - 1)
    let lastM := s.tlen - 16 * (m - 1)
    encodeIn s.cfg.domain (.mFinal (mFlags s)) =
      48#8 ^^^ (if lastA < 16 then 2#8 else 0#8) ^^^ (if lastM < 16 then 1#8 else 0#8)
        ^^^ (if a % 2 = 0 then 8#8 else 0#8) ^^^ (if m % 2 = 0 then 4#8 else 0#8)

/-! ## The cipher -/

/-- R134: the table is the one R133 generates, and it is a permutation of the bytes. -/
def Obligations.SboxTableFollowsItsRule : Prop :=
  (∀ x : Byte, sboxLookup Config.default x = sboxByRule x) ∧
  ∀ x y : Byte, sboxLookup Config.default x = sboxLookup Config.default y → x = y

/-- A round is its five steps in order (R132); the first maps every cell (R133), and the other four cell by cell (R137, R138, R139,
R140). -/
def Obligations.RoundStepsCellByCell : Prop :=
  (∀ (c : Config) (r : BitVec 6) (stk : Vector Byte 8) (x : Block),
    cipherRound c r stk x = mixColumns c (shiftRows c (addRoundTweakey stk (addConstants r (subCells c x))))) ∧
  (∀ (c : Config) (x : Block) (i : Nat) (h : i < 16), (subCells c x)[i] = sboxLookup c x[i]) ∧
  (∀ (r : BitVec 6) (x : Block) (i : Nat) (h : i < 16),
    (addConstants r x)[i] =
      if i = 0 then x[0] ^^^ (r.setWidth 8 &&& 0x0F#8)
      else if i = 4 then x[4] ^^^ ((r.setWidth 8 >>> 4) &&& 0x03#8)
      else if i = 8 then x[8] ^^^ 0x02#8
      else x[i]) ∧
  (∀ (stk : Vector Byte 8) (x : Block) (i : Nat) (h : i < 16),
    (addRoundTweakey stk x)[i] = if h8 : i < 8 then x[i] ^^^ stk[i] else x[i]) ∧
  (∀ x : Block,
    shiftRows Config.default x =
      #v[x[0], x[1], x[2], x[3], x[7], x[4], x[5], x[6], x[10], x[11], x[8], x[9], x[13], x[14], x[15], x[12]]) ∧
  ∀ (x : Block) (i : Nat) (h : i < 4),
    let y := mixColumns Config.default x
    y[i] = x[i] ^^^ x[8 + i] ^^^ x[12 + i] ∧ y[4 + i] = x[i] ∧ y[8 + i] = x[4 + i] ^^^ x[8 + i] ∧
      y[12 + i] = x[i] ^^^ x[8 + i]

/-- The forty round constants that R136 generates, as R145 derives them. -/
def Obligations.RoundConstants : Prop :=
  (List.range 40).map (fun r => (rcNext Config.default)^[r + 1] 0#6) =
    [0x01#6, 0x03#6, 0x07#6, 0x0F#6, 0x1F#6, 0x3E#6, 0x3D#6, 0x3B#6, 0x37#6, 0x2F#6,
     0x1E#6, 0x3C#6, 0x39#6, 0x33#6, 0x27#6, 0x0E#6, 0x1D#6, 0x3A#6, 0x35#6, 0x2B#6,
     0x16#6, 0x2C#6, 0x18#6, 0x30#6, 0x21#6, 0x02#6, 0x05#6, 0x0B#6, 0x17#6, 0x2E#6,
     0x1C#6, 0x38#6, 0x31#6, 0x23#6, 0x06#6, 0x0D#6, 0x1B#6, 0x36#6, 0x2D#6, 0x1A#6]

/-- R141, for the spec's S-box, row shift and matrix and for any round count, constants and tweakey schedule. -/
def Obligations.PermuteIsABijection : Prop :=
  ∀ (c : Config) (t : Tweakey), c.sbox = Config.default.sbox → c.sr = Config.default.sr → c.mc = Config.default.mc →
    Function.Bijective (permute c t)

/-- What the spec derives of the schedule (R168, and the clauses marked as derived in R163 and R166): it is linear over
exclusive-or, for every configuration, and a zero tweakey gives zero subtweakeys; `P_PT` has order 16: sixteen applications are
the identity, and no smaller positive number of them is; `lfsr3` inverts `lfsr2`. -/
def Obligations.ScheduleIsLinearAndItsPartsInvert : Prop :=
  (∀ (c : Config) (t u : Tweakey) (r i : Nat) (h : i < 8),
    (subtweakey (tweakeyAfter c ⟨t.tk1.xor u.tk1, t.tk2.xor u.tk2, t.tk3.xor u.tk3⟩ r))[i] =
      (subtweakey (tweakeyAfter c t r))[i] ^^^ (subtweakey (tweakeyAfter c u r))[i]) ∧
  (∀ (c : Config) (r i : Nat) (h : i < 8),
    (subtweakey (tweakeyAfter c ⟨Block.zero, Block.zero, Block.zero⟩ r))[i] = 0#8) ∧
  (∀ w : Block, (permuteCells Config.default)^[16] w = w) ∧
  (∀ j, 0 < j → j < 16 → ∃ w : Block, (permuteCells Config.default)^[j] w ≠ w) ∧
  ∀ x : Byte, lfsr3 Config.default (lfsr2 Config.default x) = x

/-- R160: the subtweakeys computed beforehand from the tweakey alone give the same `permute` as R130's interleaved loop. -/
def Obligations.SubtweakeysMayBeComputedAhead : Prop :=
  ∀ (c : Config) (t : Tweakey) (x : Block),
    permute c t x =
      (List.range c.rounds).foldl
        (fun y r => cipherRound c ((rcNext c)^[r + 1] 0#6) (subtweakey (tweakeyAfter c t r)) y) x

/-- R161, R162 and R165: the subtweakey, the update with its cell permutation, and the feedback functions bit by bit. -/
def Obligations.TweakeyUpdate : Prop :=
  (∀ (t : Tweakey) (i : Nat) (h : i < 8), (subtweakey t)[i] = t.tk1[i] ^^^ t.tk2[i] ^^^ t.tk3[i]) ∧
  (∀ (t : Tweakey) (i : Nat) (h : i < 16),
    let u := tkUpdate Config.default t
    let p := ([9, 15, 8, 13, 10, 14, 12, 11, 0, 1, 2, 3, 4, 5, 6, 7] : List (Fin 16))[i]
    u.tk1[i] = t.tk1[p] ∧
      u.tk2[i] = (if i < 8 then lfsr2 Config.default t.tk2[p] else t.tk2[p]) ∧
      u.tk3[i] = (if i < 8 then lfsr3 Config.default t.tk3[p] else t.tk3[p])) ∧
  (∀ (x : Byte) (i : Nat), i < 8 →
    (lfsr2 Config.default x).getLsbD i = if i = 0 then x.getLsbD 7 ^^ x.getLsbD 5 else x.getLsbD (i - 1)) ∧
  ∀ (x : Byte) (i : Nat), i < 8 →
    (lfsr3 Config.default x).getLsbD i = if i = 7 then x.getLsbD 0 ^^ x.getLsbD 6 else x.getLsbD (i + 1)

/-! ## The functions of the engine -/

/-- R185: the counter step, bit by bit, and the worked example of 56 and 57 steps from `D0`. -/
def Obligations.CounterStep : Prop :=
  (∀ (c : Config) (d : Counter) (i : Nat), i < 56 → c.cntPoly = 0x95#8 →
    (cntStep c d).getLsbD i = ((decide (0 < i) && d.getLsbD (i - 1)) ^^ (d.getLsbD 55 && (0x95#8).getLsbD i))) ∧
  counterBytes (cntSteps Config.default 56 Config.d0) = [0x95#8, 0#8, 0#8, 0#8, 0#8, 0#8, 0#8] ∧
  counterBytes (cntSteps Config.default 57 Config.d0) = [0x2A#8, 0x01#8, 0#8, 0#8, 0#8, 0#8, 0#8]

/-- R188: `G`, byte by byte and bit by bit. -/
def Obligations.OutputFeedback : Prop :=
  ∀ (s : Block) (i j : Nat) (h : i < 16), j < 8 →
    ((feedback Config.default s)[i]).getLsbD j =
      if j = 7 then s[i].getLsbD 0 ^^ s[i].getLsbD 7 else s[i].getLsbD (j + 1)

/-- R190: `pad16` for both values of `P_PAD`, byte by byte. -/
def Obligations.PaddingKeepsTheBytes : Prop :=
  ∀ (c : Config) (b : List Byte) (i : Nat) (h : i < 16), b.length ≤ 16 →
    (pad16 c b)[i] =
      if hb : i < b.length then b[i]
      else
        match c.pad with
        | .lenByte => if i = 15 then BitVec.ofNat 8 b.length else 0#8
        | .oneZero => if i = b.length then 0x80#8 else 0#8

/-- R191 and R192: `rho`, `rho_inv`, and that each undoes the other. -/
def Obligations.RhoAndItsInverse : Prop :=
  ∀ (c : Config) (s s' : Block) (m x : List Byte), m.length ≤ 16 →
    rho c s m = (s.xor (pad16 c m), List.zipWith (· ^^^ ·) m (feedback c s).toList) ∧
    (rhoInv c s m).2 = List.zipWith (· ^^^ ·) m (feedback c s).toList ∧
    (rhoInv c s m).1 = s.xor (pad16 c (rhoInv c s m).2) ∧
    (rhoInv c s x = (s', m) ∧ x.length ≤ 16 ↔ rho c s m = (s', x))

/-- R196: the accumulator ORs the differences of all 16 bytes, and the result is true exactly when the two values agree. -/
def Obligations.TagComparisonIsExact : Prop :=
  ∀ t u : Block,
    (tagEqual t u = true ↔ t = u) ∧
    ∀ j < 8, (tagDifference t u).getLsbD j = (List.range 16).any fun i => (t.getD i 0#8 ^^^ u.getD i 0#8).getLsbD j

/-- R264 and R265: `ipadstar16`, and the authentication input of Romulus-T with its length. -/
def Obligations.AuthenticationInput : Prop :=
  ipadStar16 [] = [] ∧
  (∀ x : List Byte, x ≠ [] →
    ipadStar16 x = x ++ List.replicate (15 - x.length % 16) 0#8 ++ [BitVec.ofNat 8 (x.length % 16)]) ∧
  ∀ (a x : List Byte) (n : Block) (d : Counter),
    let pl (l : Nat) : Nat := if l = 0 then 0 else 16 * (l / 16 + 1)
    authString a x n d = ipadStar16 a ++ ipadStar16 x ++ n.toList ++ counterBytes d ∧
      (authString a x n d).length = pl a.length + pl x.length + 23

/-- R282, R283 and R284: the compression function, its padding, and the constants that separate the domains. -/
def Obligations.CompressionFunction : Prop :=
  (∀ (c : Config) (l r b1 b2 : Block),
    let l1 : Block := l.set 0 (l[0] ^^^ c.hash.second)
    compress c l r (b1.toList ++ b2.toList) =
      ((permute c ⟨r, b1, b2⟩ l).xor l, (permute c ⟨r, b1, b2⟩ l1).xor l1)) ∧
  (∀ x : List Byte, x.length ≤ 31 →
    ipad32 x = x ++ List.replicate (31 - x.length) 0#8 ++ [BitVec.ofNat 8 x.length] ∧ (ipad32 x).length = 32) ∧
  (∀ (c : Config) (x : List Byte), x.length < 32 →
    hashCore c x = compress c (Block.zero.set 0 c.hash.last) Block.zero (ipad32 x)) ∧
  Config.default.hash.second = 0x01#8 ∧ Config.default.hash.last = 0x02#8

/-! ## Whole commands -/

/-- R280: `HASH` runs to its end and leaves the digest of `TIN[0 .. TLEN-1]`; nothing of `ADBUF` or of the operand registers is
asked for. The trace is R288's. -/
def Obligations.HashRunsToItsDigest : Prop :=
  ∀ (s : State) (x : List Byte), AtRest s → s.cfg.admitted = true → s.tlen ≤ s.cfg.bufCap →
    s.tin.readRange 0 s.tlen = some x →
    ∃ (u e : State) (j : Nat), exec .hash s = .next u ∧ steps j u = .next e ∧
      e.digest = some (hashDigest s.cfg x) ∧ e.tagout = none ∧ FinishedWith s e 0x02#8 0x06#8 [] ∧
      traceOf e.log = hTrace x.length

/-- R220: `N_ENC` runs to its end, and leaves ciphertext and tag. -/
def Obligations.NEncRunsToItsResult : Prop :=
  ∀ (s : State) (k n : Block) (a m : List Byte), AtRest s → s.cfg.admitted = true → AeadOperands s k n a m →
    ∃ (u e : State) (j : Nat), exec .nEnc s = .next u ∧ steps j u = .next e ∧
      e.tagout = some (nEncrypt s.cfg k n a m).2 ∧ e.digest = none ∧
      FinishedWith s e 0x04#8 0x06#8 (nEncrypt s.cfg k n a m).1 ∧ traceOf e.log = nTrace s.cfg a.length m.length

/-- R227 and R67: `N_DEC` runs to its end whatever the tag, with the trace of `N_ENC`; the plaintext is there when the tag is
valid, and free values (log 9) when it is not. -/
def Obligations.NDecRunsToItsResult : Prop :=
  ∀ (s : State) (k n t : Block) (a x : List Byte), AtRest s → s.cfg.admitted = true → AeadOperands s k n a x →
    s.tglen = 16 → s.tagin.value = some t →
    ∃ (u e : State) (j : Nat), exec .nDec s = .next u ∧ steps j u = .next e ∧ e.tagout = none ∧ e.digest = none ∧
      traceOf e.log = nTrace s.cfg a.length x.length ∧
      if (nDecrypt s.cfg k n t a x).1 then FinishedWith s e 0x05#8 0x06#8 (nDecrypt s.cfg k n t a x).2
      else FinishedWith s e 0x05#8 0x02#8 (freeBytes s.draws x.length)

/-- R240: `M_ENC` runs to its end, the first pass before the encryption pass. -/
def Obligations.MEncRunsToItsResult : Prop :=
  ∀ (s : State) (k n : Block) (a m : List Byte), AtRest s → s.cfg.admitted = true → AeadOperands s k n a m →
    ∃ (u e : State) (j : Nat), exec .mEnc s = .next u ∧ steps j u = .next e ∧
      e.tagout = some (mEncrypt s.cfg k n a m).2 ∧ e.digest = none ∧
      FinishedWith s e 0x06#8 0x06#8 (mEncrypt s.cfg k n a m).1 ∧
      traceOf e.log = mMacTrace s.cfg a.length m.length ++ mCryptTrace s.cfg m.length

/-- R248, R249 and R67: `M_DEC` runs to its end whatever the tag, the keystream pass first; free values (log 9) where the tag is
invalid. -/
def Obligations.MDecRunsToItsResult : Prop :=
  ∀ (s : State) (k n t : Block) (a x : List Byte), AtRest s → s.cfg.admitted = true → AeadOperands s k n a x →
    s.tglen = 16 → s.tagin.value = some t →
    ∃ (u e : State) (j : Nat), exec .mDec s = .next u ∧ steps j u = .next e ∧ e.tagout = none ∧ e.digest = none ∧
      traceOf e.log = mCryptTrace s.cfg x.length ++ mMacTrace s.cfg a.length x.length ∧
      if (mDecrypt s.cfg k n t a x).1 then FinishedWith s e 0x07#8 0x06#8 (mDecrypt s.cfg k n t a x).2
      else FinishedWith s e 0x07#8 0x02#8 (freeBytes s.draws x.length)

/-- R260: `T_ENC` runs to its end, and leaves ciphertext and tag. -/
def Obligations.TEncRunsToItsResult : Prop :=
  ∀ (s : State) (k n : Block) (a m : List Byte), AtRest s → s.cfg.admitted = true → AeadOperands s k n a m →
    ∃ (u e : State) (j : Nat), exec .tEnc s = .next u ∧ steps j u = .next e ∧
      e.tagout = some (tEncrypt s.cfg k n a m).2 ∧ e.digest = none ∧
      FinishedWith s e 0x08#8 0x06#8 (tEncrypt s.cfg k n a m).1 ∧ traceOf e.log = tTrace s.cfg a.length m.length

/-- R268 and R67: `T_DEC` runs to its end whatever the tag, with the trace of `T_ENC`; free values (log 9) where the tag is
invalid. -/
def Obligations.TDecRunsToItsResult : Prop :=
  ∀ (s : State) (k n t : Block) (a x : List Byte), AtRest s → s.cfg.admitted = true → AeadOperands s k n a x →
    s.tglen = 16 → s.tagin.value = some t →
    ∃ (u e : State) (j : Nat), exec .tDec s = .next u ∧ steps j u = .next e ∧ e.tagout = none ∧ e.digest = none ∧
      traceOf e.log = tTrace s.cfg a.length x.length ∧
      if (tDecrypt s.cfg k n t a x).1 then FinishedWith s e 0x09#8 0x06#8 (tDecrypt s.cfg k n t a x).2
      else FinishedWith s e 0x09#8 0x02#8 (freeBytes s.draws x.length)

/-- R227, R248, R268: decryption of an encryption is valid and gives back the text, in every configuration; and, in Romulus-N and
Romulus-T, a tag that differs in any bit is invalid. -/
def Obligations.DecryptionUndoesEncryption : Prop :=
  ∀ (c : Config) (k n : Block) (a m : List Byte),
    nDecrypt c k n (nEncrypt c k n a m).2 a (nEncrypt c k n a m).1 = (true, m) ∧
    mDecrypt c k n (mEncrypt c k n a m).2 a (mEncrypt c k n a m).1 = (true, m) ∧
    tDecrypt c k n (tEncrypt c k n a m).2 a (tEncrypt c k n a m).1 = (true, m) ∧
    (∀ t, t ≠ (nEncrypt c k n a m).2 → (nDecrypt c k n t a (nEncrypt c k n a m).1).1 = false) ∧
    ∀ t, t ≠ (tEncrypt c k n a m).2 → (tDecrypt c k n t a (tEncrypt c k n a m).1).1 = false

/-- R229, R252, R270 and R288: how many invocations the traces of the commands hold, for Romulus-N also of which tags. -/
def Obligations.InvocationCounts : Prop :=
  ∀ (c : Config) (la lm : Nat),
    let a := max 1 ((la + 15) / 16)
    let m := max 1 ((lm + 15) / 16)
    let m' := (lm + 15) / 16
    let pl (l : Nat) : Nat := if l = 0 then 0 else 16 * (l / 16 + 1)
    let h := (pl la + pl lm + 23) / 32 + 1
    (nTrace c la lm).length = a / 2 + 1 + m ∧
    (nTrace c la lm).map (fun e => (e.1, e.2.map Prod.fst)) =
      (List.replicate (a / 2) c.domain.nAd
        ++ [if la ≠ 0 ∧ la % 16 = 0 then c.domain.nAdLastFull else c.domain.nAdLastPart]
        ++ List.replicate (m - 1) c.domain.nMsg
        ++ [if lm ≠ 0 ∧ lm % 16 = 0 then c.domain.nMsgLastFull else c.domain.nMsgLastPart]).map
        (fun b => (KeySource.key, some b)) ∧
    (mMacTrace c la lm ++ mCryptTrace c lm).length = (a + m) / 2 + 1 + m' ∧
    (∀ e ∈ mMacTrace c la lm ++ mCryptTrace c lm, e.1 = .key) ∧
    (tTrace c la lm).length = 1 + m' + (m' - 1) + 2 * h + 1 ∧
    hTrace lm = List.replicate (2 * (lm / 32 + 1)) (.pub, none)

/-- R269, in the default format: in the trace of `T_ENC` and of `T_DEC` the long-term key is the key of the first and the last
invocation and of no other; every other keyed one is a `T_KS` or a `T_KU` under `Z`. -/
def Obligations.LongTermKeyIsUsedTwice : Prop :=
  ∀ (c : Config) (la lm : Nat), c.tFormat = .longTermTag →
    (tTrace c la lm).head? = some (.key, some (c.domain.tKdf, Config.dz)) ∧
    (tTrace c la lm).getLast? = some (.key, some (c.domain.tTgf, Config.dz)) ∧
    (tTrace c la lm).filter (fun e => e.1 = .key) =
      [(.key, some (c.domain.tKdf, Config.dz)), (.key, some (c.domain.tTgf, Config.dz))] ∧
    ∀ e ∈ tTrace c la lm,
      e.1 = .key ∨ (e.1 = .z ∧ ∃ d, e.2 = some (c.domain.tKs, d) ∨ e.2 = some (c.domain.tKu, d)) ∨ e = (.pub, none)

/-! ## Reset and invariants -/

/-- R40: the values after reset, for every configuration, and that a `RESET` taken later does not clear `FAULT`; the block's own
reset state is the one of the default. -/
def Obligations.ResetValues : Prop :=
  State.reset = State.resetWith Config.default ∧ (∀ s : State, (resetAction s).fault = s.fault) ∧
  ∀ c : Config,
    let s := State.resetWith c
    s.status = 0x00#8 ∧ s.klen = 0 ∧ s.nlen = 0 ∧ s.tglen = 0 ∧ s.adlen = 0 ∧ s.tlen = 0 ∧ s.op = 0x00#8 ∧
      s.phase = .idle ∧ s.key.toList = List.replicate 16 none ∧ s.nonce.toList = List.replicate 16 none ∧
      s.tagin.toList = List.replicate 16 none ∧ s.tagout = none ∧ s.digest = none ∧
      (∀ sp a, (s.buffer sp).read a = none) ∧ s.regS = none ∧ s.regL = none ∧ s.regR = none ∧ s.regZ = none ∧
      s.regD = none ∧ s.tk1 = none ∧ s.tk2 = none ∧ s.tk3 = none ∧ s.rc = none ∧ s.rnd = none ∧ s.acc = none ∧
      s.idx = none ∧ s.fault = none

/-- The invariant holds after reset, in every configuration (the base of `StepKeepsInv`). -/
def Obligations.ResetMeetsInv : Prop := Inv State.reset ∧ ∀ c : Config, Inv (State.resetWith c)

/-- Every step, of the host and of the engine, keeps the invariant: the canonical form and the bounds of the buffers (R30), the
laws of `STATUS` (R27, R94), lengths of `LENW` bits (R25, R201), a phase exactly while busy (R36), no result while busy (R28,
R29), nothing internal while idle (R38), a round index in range (R35). -/
def Obligations.StepKeepsInv : Prop := ∀ s t : State, Inv s → step s = .next t → Inv t

/-- R198 and R349: two blocks that agree on configuration, `OP`, `ADLEN` and `TLEN` and on where the engine is agree after any
number of engine steps on where it is and on the log of invocations and buffer accesses (the model's own, log 16), whatever keys,
nonces, tags and data they hold. -/
def Obligations.TraceDependsOnLengthsOnly : Prop :=
  ∀ (j : Nat) (s t s' t' : State), SameShape s t → s.script = [] → t.script = [] →
    steps j s = .next s' → steps j t = .next t' → SameShape s' t' ∧ traceOf s'.log = traceOf t'.log

/-- A command word that starts a primitive leaves the engine ready (R307 step 7, R39); readiness follows the model's
micro-operations (log 2, log 11, log 12), here and in the next two statements. `Inv` is an invariant. -/
def Obligations.StartMakesTheEngineReady : Prop :=
  ∀ (i : Instr) (s t : State), i.format = .cmd8 → Inv s → s.busy = false → s.cfg.admitted = true → exec i s = .next t →
    t.busy = true → EngineReady t = true

/-- R310 and R36: a ready engine's micro-operation raises nothing, and leaves the engine ready or the command done; `PHASE` only
moves forward through the order of its mode, and `IDX` only counts up from 0, never above `BUFCAP div 16 + 1`, so it does not
wrap. -/
def Obligations.ReadyEngineNeverStops : Prop :=
  ∀ s : State, EngineReady s = true →
    ∃ t : State, engineMicro s = .next t ∧
      ((EngineReady t = true ∧ MovesForward s t ∧ ∀ i, t.idx = some i → i ≤ s.cfg.bufCap / 16 + 1 ∧ i < 2 ^ s.cfg.lenWidth)
        ∨ (t.busy = false ∧ statusDone t.status = true ∧ statusErr t.status = false))

/-- R350: from a ready engine the command ends, within a bound that depends on `ADLEN` and `TLEN` only. -/
def Obligations.EveryCommandEnds : Prop :=
  ∀ s : State, s.fault = none → s.script = [] → EngineReady s = true →
    ∃ (j : Nat) (t : State), j ≤ 4 * (blockCount s.adlen + blockCount s.tlen) + 20 ∧ steps j s = .next t ∧
      t.busy = false ∧ statusDone t.status = true ∧ statusErr t.status = false

/-- What a micro-operation of the engine leaves alone (R30, R21 to R25, R42, R67): configuration, lengths, input buffers, latched
command, `FAULT`, the host's actions; the operand registers until the command ends; and `TOUT` at and beyond `TLEN`. -/
def Obligations.EngineLeavesInputsAlone : Prop :=
  ∀ s t : State, engineMicro s = .next t →
    t.cfg = s.cfg ∧ t.klen = s.klen ∧ t.nlen = s.nlen ∧ t.tglen = s.tglen ∧ t.adlen = s.adlen ∧ t.tlen = s.tlen ∧
      t.adbuf = s.adbuf ∧ t.tin = s.tin ∧ t.op = s.op ∧ t.fault = s.fault ∧ t.script = s.script ∧ t.reads = s.reads ∧
      ((t.key = s.key ∧ t.nonce = s.nonce ∧ t.tagin = s.tagin ∧ t.status = s.status ∧ t.tagout = s.tagout ∧
          t.digest = s.digest ∧ t.draws = s.draws)
        ∨ (t.key = OperandReg.unwritten ∧ t.nonce = OperandReg.unwritten ∧ t.tagin = OperandReg.unwritten ∧
          t.busy = false ∧ statusDone t.status = true)) ∧
      ∀ a, s.tlen ≤ a → t.tout.read a = s.tout.read a

/-- R306, R11 and R42: a run goes on only with `FAULT` clear and keeps the configuration; a mark that is set ends it with the
`fault` outcome, for its reason, and nothing else does; whatever the block and the host do in a state with the mark, `START`, `CLEAR`
and `RESET` among it, the mark stays as it is. No command word stops, nor does any step of an idle block: they set the mark and go
on. That a mark keeps its first reason, and that the run ends at the step after it, is the model's choice (log 8). -/
def Obligations.FaultMarkIsNeverCleared : Prop :=
  (∀ s t : State, step s = .next t → s.fault = none ∧ t.cfg = s.cfg) ∧
  (∀ (s : State) (r : FaultReason), step s = .fault (.runEnded r) ↔ s.fault = some r) ∧
  (∀ (s t : State) (r : FaultReason), s.fault = some r → turn s = .next t → t.fault = some r) ∧
  (∀ (i : Instr) (s : State), i.format = .cmd8 → ∃ t, exec i s = .next t) ∧
  ∀ s : State, s.fault = none → s.busy = false → ∃ t, step s = .next t

/-- R340: the `RESET` action, taken at any time, also while `BUSY = 1`; in a state with `FAULT` set it does not clear it. The
host's script and what its reads returned are not the block's (log 22). -/
def Obligations.ResetActionEmptiesTheBlock : Prop :=
  (∀ (s : State) (rest : List HostAction), s.fault = none → s.script = .reset :: rest →
    step s = .next { State.resetWith s.cfg with script := rest, reads := s.reads, draws := s.draws }) ∧
  ∀ (s : State) (rest : List HostAction), s.script = .reset :: rest →
    turn s = .next { State.resetWith s.cfg with fault := s.fault, script := rest, reads := s.reads, draws := s.draws }

/-- R38: when a command ends, done or in error, everything that depends on a secret is gone, and the lengths and the input buffers
are as they were. `Inv` is an invariant. -/
def Obligations.EndOfCommandDestroys : Prop :=
  (∀ s t : State, s.busy = true → engineMicro s = .next t → t.busy = false →
    t.key = OperandReg.unwritten ∧ t.nonce = OperandReg.unwritten ∧ t.tagin = OperandReg.unwritten ∧
      internalsUnwritten t = true ∧ t.phase = .idle ∧ t.adbuf = s.adbuf ∧ t.tin = s.tin ∧ t.klen = s.klen ∧
      t.nlen = s.nlen ∧ t.tglen = s.tglen ∧ t.adlen = s.adlen ∧ t.tlen = s.tlen) ∧
  ∀ (v : Byte) (s t : State), Inv s → start v s = .next t → statusErr t.status = true →
    t.key = OperandReg.unwritten ∧ t.nonce = OperandReg.unwritten ∧ t.tagin = OperandReg.unwritten ∧
      internalsUnwritten t = true ∧ t.phase = .idle ∧ t.adbuf = s.adbuf ∧ t.tin = s.tin ∧ t.klen = s.klen ∧
      t.nlen = s.nlen ∧ t.tglen = s.tglen ∧ t.adlen = s.adlen ∧ t.tlen = s.tlen

/-- R341: while `BUSY = 0` the engine takes no step: with nothing to come from the host the block stays as it is, and a `WAIT`
ends at once. The host's script and `reads` are the model's own (log 1, log 15). -/
def Obligations.IdleBlockStaysIdle : Prop :=
  ∀ (s : State) (rest : List HostAction), s.fault = none → s.busy = false →
    (s.script = [] → step s = .next s) ∧
    (s.script = .idle :: rest → step s = .next { s with script := rest }) ∧
    (s.script = .wait :: rest → step s = .next { s with script := rest, reads := s.reads ++ [[s.status]] })

/-! ## Steps run instructions -/

/-- The host's `START` of a word that decodes to `i`, also as the write of it to `CMD`, is exactly `exec i`, with the action taken
off the script; a reserved word is `START` of it. A write of registers or of a buffer is that of its bytes in increasing order
(R103; log 13). -/
def Obligations.StepRunsTheCommand : Prop :=
  ∀ (s : State) (rest : List HostAction), s.fault = none →
    (∀ v, (s.script = .start v :: rest
          ∨ ∃ off, registerAt s.cfg off = some (.cmd, 0) ∧ s.script = .writeReg off [v] :: rest) →
      (∀ i, decodeCommand v = .ok i → step s = exec i { s with script := rest }) ∧
      ∀ e, decodeCommand v = .error e → step s = startReserved v { s with script := rest }) ∧
    (s.cfg.regMap = Config.defaultRegMap → registerAt s.cfg 0 = some (.cmd, 0)) ∧
    (∀ off bs, s.script = .writeReg off bs :: rest → step s = writeRegisters off bs { s with script := rest }) ∧
    (∀ sp off bs, s.script = .writeBuf sp off bs :: rest → step s = writeBuffer sp off bs { s with script := rest }) ∧
    (∀ off t, writeRegisters off [] t = .next t) ∧
    (∀ off b bs t, writeRegisters off (b :: bs) t = andThen (writeRegisterByte off b t) (writeRegisters (off + 1) bs)) ∧
    (∀ sp off t, writeBuffer sp off [] t = .next t) ∧
    ∀ sp off b bs t, writeBuffer sp off (b :: bs) t = andThen (writeBufferByte sp off b t) (writeBuffer sp (off + 1) bs)

/-- A step of the busy engine with an invocation loaded runs the instruction its domain byte decodes to, and then the rest of the
loop body; in the default layout that byte is `TK1[7]`. -/
def Obligations.StepRunsTheInvocation : Prop :=
  ∀ (s : State) (w : Block) (b : Byte) (i : Instr), s.fault = none → s.busy = true → s.pending = true → s.tk1 = some w →
    tagOf s.cfg w = some b → decodeDomain s.cfg.domain b = .ok i →
    (s.script = [] → step s = andThen (exec i s) (afterInvocation i)) ∧
    (∀ rest, s.script = .idle :: rest → step s = andThen (exec i { s with script := rest }) (afterInvocation i)) ∧
    (∀ rest, s.script = .wait :: rest → step s = andThen (exec i s) (afterInvocation i)) ∧
    (s.cfg.tk1Layout = Config.defaultTk1Layout → b = w[7])

/-- Where `withFetchWord` places a word, the next step runs it (log 4): a command word as the host's `START`, a domain byte as the
engine's pending invocation, which from reset completes. -/
def Obligations.PlacedWordRunsNext : Prop :=
  (∀ (s : State) (w : Byte) (i : Instr), s.fault = none → decodeTableWord 8 w.toNat = some i →
    (i.format = .cmd8 → step (s.withFetchWord 8 w.toNat) = exec i s) ∧
    (i.format = .domain → s.cfg.domain = DomainTable.default → s.cfg.tk1Layout.toList.contains .domain = true →
      step (s.withFetchWord 8 w.toNat) =
        andThen (exec i { s.withFetchWord 8 w.toNat with script := s.script }) (afterInvocation i))) ∧
  ∀ (w : Byte) (i : Instr), decodeTableWord 8 w.toNat = some i → ∃ t, step (State.reset.withFetchWord 8 w.toNat) = .next t

end
end

