-- ==== Sys2Proof/Laws/Memory.lean ====
section
/-! SUPPORT. The laws of the buffer memories: every operation keeps the canonical form, what a read gives after a write, and
the length of a range read. -/

namespace Sys2Proof.Machine

/-- Every offset written by `write` is the new one or one that was there. -/
theorem Memory.mem_write {m : Memory} {a : Nat} {v : Byte} {e : Host.Cell} (h : e ∈ m.write a v) : e = (a, v) ∨ e ∈ m := by
  induction m with
  | nil => simpa [Memory.write] using h
  | cons c rest ih =>
    obtain ⟨b, w⟩ := c
    simp only [Memory.write] at h
    split_ifs at h
    · simpa using h
    · rcases List.mem_cons.mp h with h | h
      · exact .inl h
      · exact .inr (List.mem_cons_of_mem _ h)
    · rcases List.mem_cons.mp h with h | h
      · exact .inr (h ▸ List.mem_cons_self)
      · exact (ih h).imp id (List.mem_cons_of_mem _)

theorem Memory.write_wf {m : Memory} (h : m.wf) (a : Nat) (v : Byte) : (m.write a v).wf := by
  induction m with
  | nil => simp [Memory.write, Memory.wf]
  | cons c rest ih =>
    obtain ⟨b, w⟩ := c
    have h' := List.pairwise_cons.mp h
    simp only [Memory.write]
    split_ifs with hlt heq
    · refine List.pairwise_cons.mpr ⟨?_, h⟩
      intro e he
      rcases List.mem_cons.mp he with rfl | he
      · exact hlt
      · exact lt_trans hlt (h'.1 e he)
    · exact List.pairwise_cons.mpr ⟨fun e he => heq ▸ h'.1 e he, h'.2⟩
    · refine List.pairwise_cons.mpr ⟨?_, ih h'.2⟩
      intro e he
      rcases Memory.mem_write he with rfl | he
      · show b < a
        omega
      · exact h'.1 e he

theorem Memory.writeRange_wf {m : Memory} (h : m.wf) (off : Nat) (bs : List Byte) : (m.writeRange off bs).wf := by
  induction bs generalizing m off with
  | nil => exact h
  | cons b bs ih => exact ih (Memory.write_wf h off b) (off + 1)

theorem reset_memories_wf (c : Config) :
    (State.resetWith c).adbuf.wf ∧ (State.resetWith c).tin.wf ∧ (State.resetWith c).tout.wf :=
  ⟨List.Pairwise.nil, List.Pairwise.nil, List.Pairwise.nil⟩

/-- A read after a write: the byte written at its offset, the old one elsewhere. -/
theorem Memory.read_write (m : Memory) (a b : Nat) (v : Byte) : (m.write a v).read b = if b = a then some v else m.read b := by
  induction m with
  | nil => simp [Memory.write, Memory.read]
  | cons c rest ih =>
    obtain ⟨x, w⟩ := c
    simp only [Memory.write]
    split_ifs with hlt heq hba hba hba <;> simp_all [Memory.read]

@[simp] theorem Memory.read_write_same (m : Memory) (a : Nat) (v : Byte) : (m.write a v).read a = some v := by
  simp [Memory.read_write]

theorem Memory.read_write_other (m : Memory) {a b : Nat} (v : Byte) (h : b ≠ a) : (m.write a v).read b = m.read b := by
  simp [Memory.read_write, h]

/-- A read after the write of a range: the byte of the range there, the old one elsewhere. -/
theorem Memory.read_writeRange (m : Memory) (off : Nat) (bs : List Byte) (b : Nat) :
    (m.writeRange off bs).read b = if off ≤ b ∧ b < off + bs.length then bs[b - off]? else m.read b := by
  induction bs generalizing m off with
  | nil => simp [Memory.writeRange]
  | cons x xs ih =>
    rw [Memory.writeRange, ih, Memory.read_write]
    by_cases h1 : off + 1 ≤ b ∧ b < off + 1 + xs.length
    · have h2 : off ≤ b ∧ b < off + (xs.length + 1) := by omega
      have h3 : b - off = (b - (off + 1)) + 1 := by omega
      simp [h1, h2, h3]
    · by_cases h2 : b = off
      · subst h2
        simp
      · have h3 : ¬ (off ≤ b ∧ b < off + (xs.length + 1)) := by omega
        rw [if_neg h1, if_neg h2, List.length_cons, if_neg h3]

/-- A range read gives as many bytes as it was asked for. -/
theorem Memory.readRange_length {m : Memory} {off n : Nat} {bs : List Byte} (h : m.readRange off n = some bs) :
    bs.length = n := by
  induction n generalizing off bs with
  | zero => simp_all [Memory.readRange]
  | succ n ih =>
    simp only [Memory.readRange] at h
    split at h
    · rename_i x xs hx hxs
      cases h
      simp [ih hxs]
    · cases h

/-- Each byte of a range read is the byte at its offset. -/
theorem Memory.readRange_get {m : Memory} {off n : Nat} {bs : List Byte} (h : m.readRange off n = some bs) {i : Nat}
    (hi : i < n) : bs[i]? = m.read (off + i) := by
  induction n generalizing off bs i with
  | zero => omega
  | succ n ih =>
    simp only [Memory.readRange] at h
    split at h
    · rename_i x xs hx hxs
      cases h
      cases i with
      | zero => simpa using hx.symm
      | succ i =>
        rw [List.getElem?_cons_succ, ih hxs (by omega)]
        congr 1
        omega
    · cases h

/-- A range is read exactly when every byte of it is written. -/
theorem Memory.readRange_isSome (m : Memory) (off n : Nat) :
    (m.readRange off n).isSome = true ↔ ∀ i < n, (m.read (off + i)).isSome = true := by
  induction n generalizing off with
  | zero => simp [Memory.readRange]
  | succ n ih =>
    have ih := ih (off + 1)
    constructor
    · intro h i hi
      simp only [Memory.readRange] at h
      split at h
      · rename_i x xs hx hxs
        cases i with
        | zero => simp [hx]
        | succ i =>
          have := ih.mp (by simp [hxs]) i (by omega)
          rwa [show off + 1 + i = off + (i + 1) by omega] at this
      · cases h
    · intro h
      have h0 := h 0 (by omega)
      have h1 := ih.mpr fun i hi => by
        have := h (i + 1) (by omega)
        rwa [show off + (i + 1) = off + 1 + i by omega] at this
      simp only [Memory.readRange]
      obtain ⟨x, hx⟩ := Option.isSome_iff_exists.mp h0
      obtain ⟨xs, hxs⟩ := Option.isSome_iff_exists.mp h1
      rw [Nat.add_zero] at hx
      simp [hx, hxs]

/-- The bytes written are the bytes read back (R64). -/
theorem Memory.readRange_writeRange (m : Memory) (off : Nat) (bs : List Byte) :
    (m.writeRange off bs).readRange off bs.length = some bs := by
  have h : ((m.writeRange off bs).readRange off bs.length).isSome = true := by
    rw [Memory.readRange_isSome]
    intro i hi
    rw [Memory.read_writeRange, if_pos (by omega)]
    simp
    omega
  obtain ⟨w, hw⟩ := Option.isSome_iff_exists.mp h
  rw [hw]
  congr 1
  apply List.ext_getElem?
  intro i
  by_cases hi : i < bs.length
  · rw [Memory.readRange_get hw hi, Memory.read_writeRange, if_pos (by omega)]
    simp
  · have := Memory.readRange_length hw
    rw [List.getElem?_eq_none (by omega), List.getElem?_eq_none (by omega)]

/-- Every block of what is written can be read, and has its length (R65). -/
theorem Memory.block_of_writtenTo {m : Memory} {n : Nat} (h : m.writtenTo n = true) (i : Nat) :
    ∃ w, m.readRange (16 * i) (blockLength n i) = some w ∧ w.length = blockLength n i := by
  have : (m.readRange (16 * i) (blockLength n i)).isSome = true := by
    rw [Memory.readRange_isSome]
    intro j hj
    have := (Memory.readRange_isSome m 0 n).mp h (16 * i + j) (by simp only [blockLength] at hj; omega)
    simpa using this
  obtain ⟨w, hw⟩ := Option.isSome_iff_exists.mp this
  exact ⟨w, hw, Memory.readRange_length hw⟩

theorem Memory.write_below {m : Memory} {cap a : Nat} (h : m.below cap = true) (ha : a < cap) (v : Byte) :
    (m.write a v).below cap = true := by
  simp only [Memory.below, List.all_eq_true, decide_eq_true_eq] at h ⊢
  intro e he
  rcases Memory.mem_write he with rfl | he
  · exact ha
  · exact h e he

theorem Memory.writeRange_below {m : Memory} {cap off : Nat} (bs : List Byte) (h : m.below cap = true)
    (hb : bs = [] ∨ off + bs.length ≤ cap) : (m.writeRange off bs).below cap = true := by
  induction bs generalizing m off with
  | nil => exact h
  | cons b bs ih =>
    have hb : off + (bs.length + 1) ≤ cap := by simpa using hb
    exact ih (Memory.write_below h (by omega) b) (.inr (by omega))

end Sys2Proof.Machine
end

