-- ==== Sys2Proof/Laws/State.lean ====
section
/-! SUPPORT. What each named update does to each field of the state: one lemma for a field and an update, so that no proof
unfolds an update. -/

namespace Sys2Proof.Machine

/-! ## logEvent -/

@[simp] theorem logEvent_cfg (e : Event) (s : State) : (logEvent e s).cfg = s.cfg := rfl
@[simp] theorem logEvent_key (e : Event) (s : State) : (logEvent e s).key = s.key := rfl
@[simp] theorem logEvent_nonce (e : Event) (s : State) : (logEvent e s).nonce = s.nonce := rfl
@[simp] theorem logEvent_tagin (e : Event) (s : State) : (logEvent e s).tagin = s.tagin := rfl
@[simp] theorem logEvent_klen (e : Event) (s : State) : (logEvent e s).klen = s.klen := rfl
@[simp] theorem logEvent_nlen (e : Event) (s : State) : (logEvent e s).nlen = s.nlen := rfl
@[simp] theorem logEvent_tglen (e : Event) (s : State) : (logEvent e s).tglen = s.tglen := rfl
@[simp] theorem logEvent_adlen (e : Event) (s : State) : (logEvent e s).adlen = s.adlen := rfl
@[simp] theorem logEvent_tlen (e : Event) (s : State) : (logEvent e s).tlen = s.tlen := rfl
@[simp] theorem logEvent_status (e : Event) (s : State) : (logEvent e s).status = s.status := rfl
@[simp] theorem logEvent_tagout (e : Event) (s : State) : (logEvent e s).tagout = s.tagout := rfl
@[simp] theorem logEvent_digest (e : Event) (s : State) : (logEvent e s).digest = s.digest := rfl
@[simp] theorem logEvent_adbuf (e : Event) (s : State) : (logEvent e s).adbuf = s.adbuf := rfl
@[simp] theorem logEvent_tin (e : Event) (s : State) : (logEvent e s).tin = s.tin := rfl
@[simp] theorem logEvent_tout (e : Event) (s : State) : (logEvent e s).tout = s.tout := rfl
@[simp] theorem logEvent_regS (e : Event) (s : State) : (logEvent e s).regS = s.regS := rfl
@[simp] theorem logEvent_regL (e : Event) (s : State) : (logEvent e s).regL = s.regL := rfl
@[simp] theorem logEvent_regR (e : Event) (s : State) : (logEvent e s).regR = s.regR := rfl
@[simp] theorem logEvent_regZ (e : Event) (s : State) : (logEvent e s).regZ = s.regZ := rfl
@[simp] theorem logEvent_regD (e : Event) (s : State) : (logEvent e s).regD = s.regD := rfl
@[simp] theorem logEvent_tk1 (e : Event) (s : State) : (logEvent e s).tk1 = s.tk1 := rfl
@[simp] theorem logEvent_tk2 (e : Event) (s : State) : (logEvent e s).tk2 = s.tk2 := rfl
@[simp] theorem logEvent_tk3 (e : Event) (s : State) : (logEvent e s).tk3 = s.tk3 := rfl
@[simp] theorem logEvent_rc (e : Event) (s : State) : (logEvent e s).rc = s.rc := rfl
@[simp] theorem logEvent_rnd (e : Event) (s : State) : (logEvent e s).rnd = s.rnd := rfl
@[simp] theorem logEvent_acc (e : Event) (s : State) : (logEvent e s).acc = s.acc := rfl
@[simp] theorem logEvent_idx (e : Event) (s : State) : (logEvent e s).idx = s.idx := rfl
@[simp] theorem logEvent_op (e : Event) (s : State) : (logEvent e s).op = s.op := rfl
@[simp] theorem logEvent_phase (e : Event) (s : State) : (logEvent e s).phase = s.phase := rfl
@[simp] theorem logEvent_fault (e : Event) (s : State) : (logEvent e s).fault = s.fault := rfl
@[simp] theorem logEvent_pending (e : Event) (s : State) : (logEvent e s).pending = s.pending := rfl
@[simp] theorem logEvent_tagT (e : Event) (s : State) : (logEvent e s).tagT = s.tagT := rfl
@[simp] theorem logEvent_scratch (e : Event) (s : State) : (logEvent e s).scratch = s.scratch := rfl
@[simp] theorem logEvent_script (e : Event) (s : State) : (logEvent e s).script = s.script := rfl
@[simp] theorem logEvent_reads (e : Event) (s : State) : (logEvent e s).reads = s.reads := rfl
@[simp] theorem logEvent_log (e : Event) (s : State) : (logEvent e s).log = s.log ++ [e] := rfl
@[simp] theorem logEvent_draws (e : Event) (s : State) : (logEvent e s).draws = s.draws := rfl

/-! ## unwriteOperands -/

@[simp] theorem unwriteOperands_cfg (s : State) : (unwriteOperands s).cfg = s.cfg := rfl
@[simp] theorem unwriteOperands_key (s : State) : (unwriteOperands s).key = OperandReg.unwritten := rfl
@[simp] theorem unwriteOperands_nonce (s : State) : (unwriteOperands s).nonce = OperandReg.unwritten := rfl
@[simp] theorem unwriteOperands_tagin (s : State) : (unwriteOperands s).tagin = OperandReg.unwritten := rfl
@[simp] theorem unwriteOperands_klen (s : State) : (unwriteOperands s).klen = s.klen := rfl
@[simp] theorem unwriteOperands_nlen (s : State) : (unwriteOperands s).nlen = s.nlen := rfl
@[simp] theorem unwriteOperands_tglen (s : State) : (unwriteOperands s).tglen = s.tglen := rfl
@[simp] theorem unwriteOperands_adlen (s : State) : (unwriteOperands s).adlen = s.adlen := rfl
@[simp] theorem unwriteOperands_tlen (s : State) : (unwriteOperands s).tlen = s.tlen := rfl
@[simp] theorem unwriteOperands_status (s : State) : (unwriteOperands s).status = s.status := rfl
@[simp] theorem unwriteOperands_tagout (s : State) : (unwriteOperands s).tagout = s.tagout := rfl
@[simp] theorem unwriteOperands_digest (s : State) : (unwriteOperands s).digest = s.digest := rfl
@[simp] theorem unwriteOperands_adbuf (s : State) : (unwriteOperands s).adbuf = s.adbuf := rfl
@[simp] theorem unwriteOperands_tin (s : State) : (unwriteOperands s).tin = s.tin := rfl
@[simp] theorem unwriteOperands_tout (s : State) : (unwriteOperands s).tout = s.tout := rfl
@[simp] theorem unwriteOperands_regS (s : State) : (unwriteOperands s).regS = s.regS := rfl
@[simp] theorem unwriteOperands_regL (s : State) : (unwriteOperands s).regL = s.regL := rfl
@[simp] theorem unwriteOperands_regR (s : State) : (unwriteOperands s).regR = s.regR := rfl
@[simp] theorem unwriteOperands_regZ (s : State) : (unwriteOperands s).regZ = s.regZ := rfl
@[simp] theorem unwriteOperands_regD (s : State) : (unwriteOperands s).regD = s.regD := rfl
@[simp] theorem unwriteOperands_tk1 (s : State) : (unwriteOperands s).tk1 = s.tk1 := rfl
@[simp] theorem unwriteOperands_tk2 (s : State) : (unwriteOperands s).tk2 = s.tk2 := rfl
@[simp] theorem unwriteOperands_tk3 (s : State) : (unwriteOperands s).tk3 = s.tk3 := rfl
@[simp] theorem unwriteOperands_rc (s : State) : (unwriteOperands s).rc = s.rc := rfl
@[simp] theorem unwriteOperands_rnd (s : State) : (unwriteOperands s).rnd = s.rnd := rfl
@[simp] theorem unwriteOperands_acc (s : State) : (unwriteOperands s).acc = s.acc := rfl
@[simp] theorem unwriteOperands_idx (s : State) : (unwriteOperands s).idx = s.idx := rfl
@[simp] theorem unwriteOperands_op (s : State) : (unwriteOperands s).op = s.op := rfl
@[simp] theorem unwriteOperands_phase (s : State) : (unwriteOperands s).phase = s.phase := rfl
@[simp] theorem unwriteOperands_fault (s : State) : (unwriteOperands s).fault = s.fault := rfl
@[simp] theorem unwriteOperands_pending (s : State) : (unwriteOperands s).pending = s.pending := rfl
@[simp] theorem unwriteOperands_tagT (s : State) : (unwriteOperands s).tagT = s.tagT := rfl
@[simp] theorem unwriteOperands_scratch (s : State) : (unwriteOperands s).scratch = s.scratch := rfl
@[simp] theorem unwriteOperands_script (s : State) : (unwriteOperands s).script = s.script := rfl
@[simp] theorem unwriteOperands_reads (s : State) : (unwriteOperands s).reads = s.reads := rfl
@[simp] theorem unwriteOperands_log (s : State) : (unwriteOperands s).log = s.log := rfl
@[simp] theorem unwriteOperands_draws (s : State) : (unwriteOperands s).draws = s.draws := rfl

/-! ## destroy -/

@[simp] theorem destroy_cfg (s : State) : (destroy s).cfg = s.cfg := rfl
@[simp] theorem destroy_key (s : State) : (destroy s).key = OperandReg.unwritten := rfl
@[simp] theorem destroy_nonce (s : State) : (destroy s).nonce = OperandReg.unwritten := rfl
@[simp] theorem destroy_tagin (s : State) : (destroy s).tagin = OperandReg.unwritten := rfl
@[simp] theorem destroy_klen (s : State) : (destroy s).klen = s.klen := rfl
@[simp] theorem destroy_nlen (s : State) : (destroy s).nlen = s.nlen := rfl
@[simp] theorem destroy_tglen (s : State) : (destroy s).tglen = s.tglen := rfl
@[simp] theorem destroy_adlen (s : State) : (destroy s).adlen = s.adlen := rfl
@[simp] theorem destroy_tlen (s : State) : (destroy s).tlen = s.tlen := rfl
@[simp] theorem destroy_status (s : State) : (destroy s).status = s.status := rfl
@[simp] theorem destroy_tagout (s : State) : (destroy s).tagout = s.tagout := rfl
@[simp] theorem destroy_digest (s : State) : (destroy s).digest = s.digest := rfl
@[simp] theorem destroy_adbuf (s : State) : (destroy s).adbuf = s.adbuf := rfl
@[simp] theorem destroy_tin (s : State) : (destroy s).tin = s.tin := rfl
@[simp] theorem destroy_tout (s : State) : (destroy s).tout = s.tout := rfl
@[simp] theorem destroy_regS (s : State) : (destroy s).regS = none := rfl
@[simp] theorem destroy_regL (s : State) : (destroy s).regL = none := rfl
@[simp] theorem destroy_regR (s : State) : (destroy s).regR = none := rfl
@[simp] theorem destroy_regZ (s : State) : (destroy s).regZ = none := rfl
@[simp] theorem destroy_regD (s : State) : (destroy s).regD = none := rfl
@[simp] theorem destroy_tk1 (s : State) : (destroy s).tk1 = none := rfl
@[simp] theorem destroy_tk2 (s : State) : (destroy s).tk2 = none := rfl
@[simp] theorem destroy_tk3 (s : State) : (destroy s).tk3 = none := rfl
@[simp] theorem destroy_rc (s : State) : (destroy s).rc = none := rfl
@[simp] theorem destroy_rnd (s : State) : (destroy s).rnd = none := rfl
@[simp] theorem destroy_acc (s : State) : (destroy s).acc = none := rfl
@[simp] theorem destroy_idx (s : State) : (destroy s).idx = none := rfl
@[simp] theorem destroy_op (s : State) : (destroy s).op = s.op := rfl
@[simp] theorem destroy_phase (s : State) : (destroy s).phase = .idle := rfl
@[simp] theorem destroy_fault (s : State) : (destroy s).fault = s.fault := rfl
@[simp] theorem destroy_pending (s : State) : (destroy s).pending = false := rfl
@[simp] theorem destroy_tagT (s : State) : (destroy s).tagT = none := rfl
@[simp] theorem destroy_scratch (s : State) : (destroy s).scratch = [] := rfl
@[simp] theorem destroy_script (s : State) : (destroy s).script = s.script := rfl
@[simp] theorem destroy_reads (s : State) : (destroy s).reads = s.reads := rfl
@[simp] theorem destroy_log (s : State) : (destroy s).log = s.log := rfl
@[simp] theorem destroy_draws (s : State) : (destroy s).draws = s.draws := rfl

/-! ## latch -/

@[simp] theorem latch_cfg (v : BitVec 8) (s : State) : (latch v s).cfg = s.cfg := rfl
@[simp] theorem latch_key (v : BitVec 8) (s : State) : (latch v s).key = s.key := rfl
@[simp] theorem latch_nonce (v : BitVec 8) (s : State) : (latch v s).nonce = s.nonce := rfl
@[simp] theorem latch_tagin (v : BitVec 8) (s : State) : (latch v s).tagin = s.tagin := rfl
@[simp] theorem latch_klen (v : BitVec 8) (s : State) : (latch v s).klen = s.klen := rfl
@[simp] theorem latch_nlen (v : BitVec 8) (s : State) : (latch v s).nlen = s.nlen := rfl
@[simp] theorem latch_tglen (v : BitVec 8) (s : State) : (latch v s).tglen = s.tglen := rfl
@[simp] theorem latch_adlen (v : BitVec 8) (s : State) : (latch v s).adlen = s.adlen := rfl
@[simp] theorem latch_tlen (v : BitVec 8) (s : State) : (latch v s).tlen = s.tlen := rfl
@[simp] theorem latch_status (v : BitVec 8) (s : State) : (latch v s).status = statusClear := rfl
@[simp] theorem latch_tagout (v : BitVec 8) (s : State) : (latch v s).tagout = none := rfl
@[simp] theorem latch_digest (v : BitVec 8) (s : State) : (latch v s).digest = none := rfl
@[simp] theorem latch_adbuf (v : BitVec 8) (s : State) : (latch v s).adbuf = s.adbuf := rfl
@[simp] theorem latch_tin (v : BitVec 8) (s : State) : (latch v s).tin = s.tin := rfl
@[simp] theorem latch_tout (v : BitVec 8) (s : State) : (latch v s).tout = [] := rfl
@[simp] theorem latch_regS (v : BitVec 8) (s : State) : (latch v s).regS = s.regS := rfl
@[simp] theorem latch_regL (v : BitVec 8) (s : State) : (latch v s).regL = s.regL := rfl
@[simp] theorem latch_regR (v : BitVec 8) (s : State) : (latch v s).regR = s.regR := rfl
@[simp] theorem latch_regZ (v : BitVec 8) (s : State) : (latch v s).regZ = s.regZ := rfl
@[simp] theorem latch_regD (v : BitVec 8) (s : State) : (latch v s).regD = s.regD := rfl
@[simp] theorem latch_tk1 (v : BitVec 8) (s : State) : (latch v s).tk1 = s.tk1 := rfl
@[simp] theorem latch_tk2 (v : BitVec 8) (s : State) : (latch v s).tk2 = s.tk2 := rfl
@[simp] theorem latch_tk3 (v : BitVec 8) (s : State) : (latch v s).tk3 = s.tk3 := rfl
@[simp] theorem latch_rc (v : BitVec 8) (s : State) : (latch v s).rc = s.rc := rfl
@[simp] theorem latch_rnd (v : BitVec 8) (s : State) : (latch v s).rnd = s.rnd := rfl
@[simp] theorem latch_acc (v : BitVec 8) (s : State) : (latch v s).acc = s.acc := rfl
@[simp] theorem latch_idx (v : BitVec 8) (s : State) : (latch v s).idx = s.idx := rfl
@[simp] theorem latch_op (v : BitVec 8) (s : State) : (latch v s).op = v := rfl
@[simp] theorem latch_phase (v : BitVec 8) (s : State) : (latch v s).phase = s.phase := rfl
@[simp] theorem latch_fault (v : BitVec 8) (s : State) : (latch v s).fault = s.fault := rfl
@[simp] theorem latch_pending (v : BitVec 8) (s : State) : (latch v s).pending = s.pending := rfl
@[simp] theorem latch_tagT (v : BitVec 8) (s : State) : (latch v s).tagT = s.tagT := rfl
@[simp] theorem latch_scratch (v : BitVec 8) (s : State) : (latch v s).scratch = s.scratch := rfl
@[simp] theorem latch_script (v : BitVec 8) (s : State) : (latch v s).script = s.script := rfl
@[simp] theorem latch_reads (v : BitVec 8) (s : State) : (latch v s).reads = s.reads := rfl
@[simp] theorem latch_log (v : BitVec 8) (s : State) : (latch v s).log = [] := rfl
@[simp] theorem latch_draws (v : BitVec 8) (s : State) : (latch v s).draws = s.draws := rfl

/-! ## raiseError -/

@[simp] theorem raiseError_cfg (c : ErrorCode) (s : State) : (raiseError c s).cfg = s.cfg := rfl
@[simp] theorem raiseError_key (c : ErrorCode) (s : State) : (raiseError c s).key = OperandReg.unwritten := rfl
@[simp] theorem raiseError_nonce (c : ErrorCode) (s : State) : (raiseError c s).nonce = OperandReg.unwritten := rfl
@[simp] theorem raiseError_tagin (c : ErrorCode) (s : State) : (raiseError c s).tagin = OperandReg.unwritten := rfl
@[simp] theorem raiseError_klen (c : ErrorCode) (s : State) : (raiseError c s).klen = s.klen := rfl
@[simp] theorem raiseError_nlen (c : ErrorCode) (s : State) : (raiseError c s).nlen = s.nlen := rfl
@[simp] theorem raiseError_tglen (c : ErrorCode) (s : State) : (raiseError c s).tglen = s.tglen := rfl
@[simp] theorem raiseError_adlen (c : ErrorCode) (s : State) : (raiseError c s).adlen = s.adlen := rfl
@[simp] theorem raiseError_tlen (c : ErrorCode) (s : State) : (raiseError c s).tlen = s.tlen := rfl
@[simp] theorem raiseError_status (c : ErrorCode) (s : State) : (raiseError c s).status = statusError c := rfl
@[simp] theorem raiseError_tagout (c : ErrorCode) (s : State) : (raiseError c s).tagout = s.tagout := rfl
@[simp] theorem raiseError_digest (c : ErrorCode) (s : State) : (raiseError c s).digest = s.digest := rfl
@[simp] theorem raiseError_adbuf (c : ErrorCode) (s : State) : (raiseError c s).adbuf = s.adbuf := rfl
@[simp] theorem raiseError_tin (c : ErrorCode) (s : State) : (raiseError c s).tin = s.tin := rfl
@[simp] theorem raiseError_tout (c : ErrorCode) (s : State) : (raiseError c s).tout = s.tout := rfl
@[simp] theorem raiseError_regS (c : ErrorCode) (s : State) : (raiseError c s).regS = s.regS := rfl
@[simp] theorem raiseError_regL (c : ErrorCode) (s : State) : (raiseError c s).regL = s.regL := rfl
@[simp] theorem raiseError_regR (c : ErrorCode) (s : State) : (raiseError c s).regR = s.regR := rfl
@[simp] theorem raiseError_regZ (c : ErrorCode) (s : State) : (raiseError c s).regZ = s.regZ := rfl
@[simp] theorem raiseError_regD (c : ErrorCode) (s : State) : (raiseError c s).regD = s.regD := rfl
@[simp] theorem raiseError_tk1 (c : ErrorCode) (s : State) : (raiseError c s).tk1 = s.tk1 := rfl
@[simp] theorem raiseError_tk2 (c : ErrorCode) (s : State) : (raiseError c s).tk2 = s.tk2 := rfl
@[simp] theorem raiseError_tk3 (c : ErrorCode) (s : State) : (raiseError c s).tk3 = s.tk3 := rfl
@[simp] theorem raiseError_rc (c : ErrorCode) (s : State) : (raiseError c s).rc = s.rc := rfl
@[simp] theorem raiseError_rnd (c : ErrorCode) (s : State) : (raiseError c s).rnd = s.rnd := rfl
@[simp] theorem raiseError_acc (c : ErrorCode) (s : State) : (raiseError c s).acc = s.acc := rfl
@[simp] theorem raiseError_idx (c : ErrorCode) (s : State) : (raiseError c s).idx = s.idx := rfl
@[simp] theorem raiseError_op (c : ErrorCode) (s : State) : (raiseError c s).op = s.op := rfl
@[simp] theorem raiseError_phase (c : ErrorCode) (s : State) : (raiseError c s).phase = s.phase := rfl
@[simp] theorem raiseError_fault (c : ErrorCode) (s : State) : (raiseError c s).fault = s.fault := rfl
@[simp] theorem raiseError_pending (c : ErrorCode) (s : State) : (raiseError c s).pending = s.pending := rfl
@[simp] theorem raiseError_tagT (c : ErrorCode) (s : State) : (raiseError c s).tagT = s.tagT := rfl
@[simp] theorem raiseError_scratch (c : ErrorCode) (s : State) : (raiseError c s).scratch = s.scratch := rfl
@[simp] theorem raiseError_script (c : ErrorCode) (s : State) : (raiseError c s).script = s.script := rfl
@[simp] theorem raiseError_reads (c : ErrorCode) (s : State) : (raiseError c s).reads = s.reads := rfl
@[simp] theorem raiseError_log (c : ErrorCode) (s : State) : (raiseError c s).log = s.log := rfl
@[simp] theorem raiseError_draws (c : ErrorCode) (s : State) : (raiseError c s).draws = s.draws := rfl

/-! ## raiseFault -/

@[simp] theorem raiseFault_cfg (r : FaultReason) (s : State) : (raiseFault r s).cfg = s.cfg := rfl
@[simp] theorem raiseFault_key (r : FaultReason) (s : State) : (raiseFault r s).key = s.key := rfl
@[simp] theorem raiseFault_nonce (r : FaultReason) (s : State) : (raiseFault r s).nonce = s.nonce := rfl
@[simp] theorem raiseFault_tagin (r : FaultReason) (s : State) : (raiseFault r s).tagin = s.tagin := rfl
@[simp] theorem raiseFault_klen (r : FaultReason) (s : State) : (raiseFault r s).klen = s.klen := rfl
@[simp] theorem raiseFault_nlen (r : FaultReason) (s : State) : (raiseFault r s).nlen = s.nlen := rfl
@[simp] theorem raiseFault_tglen (r : FaultReason) (s : State) : (raiseFault r s).tglen = s.tglen := rfl
@[simp] theorem raiseFault_adlen (r : FaultReason) (s : State) : (raiseFault r s).adlen = s.adlen := rfl
@[simp] theorem raiseFault_tlen (r : FaultReason) (s : State) : (raiseFault r s).tlen = s.tlen := rfl
@[simp] theorem raiseFault_status (r : FaultReason) (s : State) : (raiseFault r s).status = s.status := rfl
@[simp] theorem raiseFault_tagout (r : FaultReason) (s : State) : (raiseFault r s).tagout = s.tagout := rfl
@[simp] theorem raiseFault_digest (r : FaultReason) (s : State) : (raiseFault r s).digest = s.digest := rfl
@[simp] theorem raiseFault_adbuf (r : FaultReason) (s : State) : (raiseFault r s).adbuf = s.adbuf := rfl
@[simp] theorem raiseFault_tin (r : FaultReason) (s : State) : (raiseFault r s).tin = s.tin := rfl
@[simp] theorem raiseFault_tout (r : FaultReason) (s : State) : (raiseFault r s).tout = s.tout := rfl
@[simp] theorem raiseFault_regS (r : FaultReason) (s : State) : (raiseFault r s).regS = s.regS := rfl
@[simp] theorem raiseFault_regL (r : FaultReason) (s : State) : (raiseFault r s).regL = s.regL := rfl
@[simp] theorem raiseFault_regR (r : FaultReason) (s : State) : (raiseFault r s).regR = s.regR := rfl
@[simp] theorem raiseFault_regZ (r : FaultReason) (s : State) : (raiseFault r s).regZ = s.regZ := rfl
@[simp] theorem raiseFault_regD (r : FaultReason) (s : State) : (raiseFault r s).regD = s.regD := rfl
@[simp] theorem raiseFault_tk1 (r : FaultReason) (s : State) : (raiseFault r s).tk1 = s.tk1 := rfl
@[simp] theorem raiseFault_tk2 (r : FaultReason) (s : State) : (raiseFault r s).tk2 = s.tk2 := rfl
@[simp] theorem raiseFault_tk3 (r : FaultReason) (s : State) : (raiseFault r s).tk3 = s.tk3 := rfl
@[simp] theorem raiseFault_rc (r : FaultReason) (s : State) : (raiseFault r s).rc = s.rc := rfl
@[simp] theorem raiseFault_rnd (r : FaultReason) (s : State) : (raiseFault r s).rnd = s.rnd := rfl
@[simp] theorem raiseFault_acc (r : FaultReason) (s : State) : (raiseFault r s).acc = s.acc := rfl
@[simp] theorem raiseFault_idx (r : FaultReason) (s : State) : (raiseFault r s).idx = s.idx := rfl
@[simp] theorem raiseFault_op (r : FaultReason) (s : State) : (raiseFault r s).op = s.op := rfl
@[simp] theorem raiseFault_phase (r : FaultReason) (s : State) : (raiseFault r s).phase = s.phase := rfl
@[simp] theorem raiseFault_fault (r : FaultReason) (s : State) : (raiseFault r s).fault = some (s.fault.getD r) := rfl
@[simp] theorem raiseFault_pending (r : FaultReason) (s : State) : (raiseFault r s).pending = s.pending := rfl
@[simp] theorem raiseFault_tagT (r : FaultReason) (s : State) : (raiseFault r s).tagT = s.tagT := rfl
@[simp] theorem raiseFault_scratch (r : FaultReason) (s : State) : (raiseFault r s).scratch = s.scratch := rfl
@[simp] theorem raiseFault_script (r : FaultReason) (s : State) : (raiseFault r s).script = s.script := rfl
@[simp] theorem raiseFault_reads (r : FaultReason) (s : State) : (raiseFault r s).reads = s.reads := rfl
@[simp] theorem raiseFault_log (r : FaultReason) (s : State) : (raiseFault r s).log = s.log := rfl
@[simp] theorem raiseFault_draws (r : FaultReason) (s : State) : (raiseFault r s).draws = s.draws := rfl

/-! ## enter -/

@[simp] theorem enter_cfg (p : Phase) (s : State) : (enter p s).cfg = s.cfg := rfl
@[simp] theorem enter_key (p : Phase) (s : State) : (enter p s).key = s.key := rfl
@[simp] theorem enter_nonce (p : Phase) (s : State) : (enter p s).nonce = s.nonce := rfl
@[simp] theorem enter_tagin (p : Phase) (s : State) : (enter p s).tagin = s.tagin := rfl
@[simp] theorem enter_klen (p : Phase) (s : State) : (enter p s).klen = s.klen := rfl
@[simp] theorem enter_nlen (p : Phase) (s : State) : (enter p s).nlen = s.nlen := rfl
@[simp] theorem enter_tglen (p : Phase) (s : State) : (enter p s).tglen = s.tglen := rfl
@[simp] theorem enter_adlen (p : Phase) (s : State) : (enter p s).adlen = s.adlen := rfl
@[simp] theorem enter_tlen (p : Phase) (s : State) : (enter p s).tlen = s.tlen := rfl
@[simp] theorem enter_status (p : Phase) (s : State) : (enter p s).status = s.status := rfl
@[simp] theorem enter_tagout (p : Phase) (s : State) : (enter p s).tagout = s.tagout := rfl
@[simp] theorem enter_digest (p : Phase) (s : State) : (enter p s).digest = s.digest := rfl
@[simp] theorem enter_adbuf (p : Phase) (s : State) : (enter p s).adbuf = s.adbuf := rfl
@[simp] theorem enter_tin (p : Phase) (s : State) : (enter p s).tin = s.tin := rfl
@[simp] theorem enter_tout (p : Phase) (s : State) : (enter p s).tout = s.tout := rfl
@[simp] theorem enter_regS (p : Phase) (s : State) : (enter p s).regS = s.regS := rfl
@[simp] theorem enter_regL (p : Phase) (s : State) : (enter p s).regL = s.regL := rfl
@[simp] theorem enter_regR (p : Phase) (s : State) : (enter p s).regR = s.regR := rfl
@[simp] theorem enter_regZ (p : Phase) (s : State) : (enter p s).regZ = s.regZ := rfl
@[simp] theorem enter_regD (p : Phase) (s : State) : (enter p s).regD = s.regD := rfl
@[simp] theorem enter_tk1 (p : Phase) (s : State) : (enter p s).tk1 = s.tk1 := rfl
@[simp] theorem enter_tk2 (p : Phase) (s : State) : (enter p s).tk2 = s.tk2 := rfl
@[simp] theorem enter_tk3 (p : Phase) (s : State) : (enter p s).tk3 = s.tk3 := rfl
@[simp] theorem enter_rc (p : Phase) (s : State) : (enter p s).rc = s.rc := rfl
@[simp] theorem enter_rnd (p : Phase) (s : State) : (enter p s).rnd = s.rnd := rfl
@[simp] theorem enter_acc (p : Phase) (s : State) : (enter p s).acc = s.acc := rfl
@[simp] theorem enter_idx (p : Phase) (s : State) : (enter p s).idx = none := rfl
@[simp] theorem enter_op (p : Phase) (s : State) : (enter p s).op = s.op := rfl
@[simp] theorem enter_phase (p : Phase) (s : State) : (enter p s).phase = p := rfl
@[simp] theorem enter_fault (p : Phase) (s : State) : (enter p s).fault = s.fault := rfl
@[simp] theorem enter_pending (p : Phase) (s : State) : (enter p s).pending = s.pending := rfl
@[simp] theorem enter_tagT (p : Phase) (s : State) : (enter p s).tagT = s.tagT := rfl
@[simp] theorem enter_scratch (p : Phase) (s : State) : (enter p s).scratch = s.scratch := rfl
@[simp] theorem enter_script (p : Phase) (s : State) : (enter p s).script = s.script := rfl
@[simp] theorem enter_reads (p : Phase) (s : State) : (enter p s).reads = s.reads := rfl
@[simp] theorem enter_log (p : Phase) (s : State) : (enter p s).log = s.log := rfl
@[simp] theorem enter_draws (p : Phase) (s : State) : (enter p s).draws = s.draws := rfl

/-! ## resetAction -/

@[simp] theorem resetAction_cfg (s : State) : (resetAction s).cfg = s.cfg := rfl
@[simp] theorem resetAction_key (s : State) : (resetAction s).key = OperandReg.unwritten := rfl
@[simp] theorem resetAction_nonce (s : State) : (resetAction s).nonce = OperandReg.unwritten := rfl
@[simp] theorem resetAction_tagin (s : State) : (resetAction s).tagin = OperandReg.unwritten := rfl
@[simp] theorem resetAction_klen (s : State) : (resetAction s).klen = 0 := rfl
@[simp] theorem resetAction_nlen (s : State) : (resetAction s).nlen = 0 := rfl
@[simp] theorem resetAction_tglen (s : State) : (resetAction s).tglen = 0 := rfl
@[simp] theorem resetAction_adlen (s : State) : (resetAction s).adlen = 0 := rfl
@[simp] theorem resetAction_tlen (s : State) : (resetAction s).tlen = 0 := rfl
@[simp] theorem resetAction_status (s : State) : (resetAction s).status = 0 := rfl
@[simp] theorem resetAction_tagout (s : State) : (resetAction s).tagout = none := rfl
@[simp] theorem resetAction_digest (s : State) : (resetAction s).digest = none := rfl
@[simp] theorem resetAction_adbuf (s : State) : (resetAction s).adbuf = [] := rfl
@[simp] theorem resetAction_tin (s : State) : (resetAction s).tin = [] := rfl
@[simp] theorem resetAction_tout (s : State) : (resetAction s).tout = [] := rfl
@[simp] theorem resetAction_regS (s : State) : (resetAction s).regS = none := rfl
@[simp] theorem resetAction_regL (s : State) : (resetAction s).regL = none := rfl
@[simp] theorem resetAction_regR (s : State) : (resetAction s).regR = none := rfl
@[simp] theorem resetAction_regZ (s : State) : (resetAction s).regZ = none := rfl
@[simp] theorem resetAction_regD (s : State) : (resetAction s).regD = none := rfl
@[simp] theorem resetAction_tk1 (s : State) : (resetAction s).tk1 = none := rfl
@[simp] theorem resetAction_tk2 (s : State) : (resetAction s).tk2 = none := rfl
@[simp] theorem resetAction_tk3 (s : State) : (resetAction s).tk3 = none := rfl
@[simp] theorem resetAction_rc (s : State) : (resetAction s).rc = none := rfl
@[simp] theorem resetAction_rnd (s : State) : (resetAction s).rnd = none := rfl
@[simp] theorem resetAction_acc (s : State) : (resetAction s).acc = none := rfl
@[simp] theorem resetAction_idx (s : State) : (resetAction s).idx = none := rfl
@[simp] theorem resetAction_op (s : State) : (resetAction s).op = 0 := rfl
@[simp] theorem resetAction_phase (s : State) : (resetAction s).phase = .idle := rfl
@[simp] theorem resetAction_fault (s : State) : (resetAction s).fault = s.fault := rfl
@[simp] theorem resetAction_pending (s : State) : (resetAction s).pending = false := rfl
@[simp] theorem resetAction_tagT (s : State) : (resetAction s).tagT = none := rfl
@[simp] theorem resetAction_scratch (s : State) : (resetAction s).scratch = [] := rfl
@[simp] theorem resetAction_script (s : State) : (resetAction s).script = s.script := rfl
@[simp] theorem resetAction_reads (s : State) : (resetAction s).reads = s.reads := rfl
@[simp] theorem resetAction_log (s : State) : (resetAction s).log = [] := rfl
@[simp] theorem resetAction_draws (s : State) : (resetAction s).draws = s.draws := rfl

/-! ## issue -/

@[simp] theorem issue_cfg (i : Instr) (d : Counter) (s : State) : (issue i d s).cfg = s.cfg := rfl
@[simp] theorem issue_key (i : Instr) (d : Counter) (s : State) : (issue i d s).key = s.key := rfl
@[simp] theorem issue_nonce (i : Instr) (d : Counter) (s : State) : (issue i d s).nonce = s.nonce := rfl
@[simp] theorem issue_tagin (i : Instr) (d : Counter) (s : State) : (issue i d s).tagin = s.tagin := rfl
@[simp] theorem issue_klen (i : Instr) (d : Counter) (s : State) : (issue i d s).klen = s.klen := rfl
@[simp] theorem issue_nlen (i : Instr) (d : Counter) (s : State) : (issue i d s).nlen = s.nlen := rfl
@[simp] theorem issue_tglen (i : Instr) (d : Counter) (s : State) : (issue i d s).tglen = s.tglen := rfl
@[simp] theorem issue_adlen (i : Instr) (d : Counter) (s : State) : (issue i d s).adlen = s.adlen := rfl
@[simp] theorem issue_tlen (i : Instr) (d : Counter) (s : State) : (issue i d s).tlen = s.tlen := rfl
@[simp] theorem issue_status (i : Instr) (d : Counter) (s : State) : (issue i d s).status = s.status := rfl
@[simp] theorem issue_tagout (i : Instr) (d : Counter) (s : State) : (issue i d s).tagout = s.tagout := rfl
@[simp] theorem issue_digest (i : Instr) (d : Counter) (s : State) : (issue i d s).digest = s.digest := rfl
@[simp] theorem issue_adbuf (i : Instr) (d : Counter) (s : State) : (issue i d s).adbuf = s.adbuf := rfl
@[simp] theorem issue_tin (i : Instr) (d : Counter) (s : State) : (issue i d s).tin = s.tin := rfl
@[simp] theorem issue_tout (i : Instr) (d : Counter) (s : State) : (issue i d s).tout = s.tout := rfl
@[simp] theorem issue_regS (i : Instr) (d : Counter) (s : State) : (issue i d s).regS = s.regS := rfl
@[simp] theorem issue_regL (i : Instr) (d : Counter) (s : State) : (issue i d s).regL = s.regL := rfl
@[simp] theorem issue_regR (i : Instr) (d : Counter) (s : State) : (issue i d s).regR = s.regR := rfl
@[simp] theorem issue_regZ (i : Instr) (d : Counter) (s : State) : (issue i d s).regZ = s.regZ := rfl
@[simp] theorem issue_regD (i : Instr) (d : Counter) (s : State) : (issue i d s).regD = s.regD := rfl
@[simp] theorem issue_tk1 (i : Instr) (d : Counter) (s : State) : (issue i d s).tk1 = some (aeadTk1 s.cfg d (encodeIn s.cfg.domain i)) := rfl
@[simp] theorem issue_tk2 (i : Instr) (d : Counter) (s : State) : (issue i d s).tk2 = s.tk2 := rfl
@[simp] theorem issue_tk3 (i : Instr) (d : Counter) (s : State) : (issue i d s).tk3 = s.tk3 := rfl
@[simp] theorem issue_rc (i : Instr) (d : Counter) (s : State) : (issue i d s).rc = s.rc := rfl
@[simp] theorem issue_rnd (i : Instr) (d : Counter) (s : State) : (issue i d s).rnd = s.rnd := rfl
@[simp] theorem issue_acc (i : Instr) (d : Counter) (s : State) : (issue i d s).acc = s.acc := rfl
@[simp] theorem issue_idx (i : Instr) (d : Counter) (s : State) : (issue i d s).idx = s.idx := rfl
@[simp] theorem issue_op (i : Instr) (d : Counter) (s : State) : (issue i d s).op = s.op := rfl
@[simp] theorem issue_phase (i : Instr) (d : Counter) (s : State) : (issue i d s).phase = s.phase := rfl
@[simp] theorem issue_fault (i : Instr) (d : Counter) (s : State) : (issue i d s).fault = s.fault := rfl
@[simp] theorem issue_pending (i : Instr) (d : Counter) (s : State) : (issue i d s).pending = true := rfl
@[simp] theorem issue_tagT (i : Instr) (d : Counter) (s : State) : (issue i d s).tagT = s.tagT := rfl
@[simp] theorem issue_scratch (i : Instr) (d : Counter) (s : State) : (issue i d s).scratch = s.scratch := rfl
@[simp] theorem issue_script (i : Instr) (d : Counter) (s : State) : (issue i d s).script = s.script := rfl
@[simp] theorem issue_reads (i : Instr) (d : Counter) (s : State) : (issue i d s).reads = s.reads := rfl
@[simp] theorem issue_log (i : Instr) (d : Counter) (s : State) : (issue i d s).log = s.log := rfl
@[simp] theorem issue_draws (i : Instr) (d : Counter) (s : State) : (issue i d s).draws = s.draws := rfl

/-! ## leaveCipher -/

@[simp] theorem leaveCipher_cfg (q : CipherState) (s : State) : (leaveCipher q s).cfg = s.cfg := rfl
@[simp] theorem leaveCipher_key (q : CipherState) (s : State) : (leaveCipher q s).key = s.key := rfl
@[simp] theorem leaveCipher_nonce (q : CipherState) (s : State) : (leaveCipher q s).nonce = s.nonce := rfl
@[simp] theorem leaveCipher_tagin (q : CipherState) (s : State) : (leaveCipher q s).tagin = s.tagin := rfl
@[simp] theorem leaveCipher_klen (q : CipherState) (s : State) : (leaveCipher q s).klen = s.klen := rfl
@[simp] theorem leaveCipher_nlen (q : CipherState) (s : State) : (leaveCipher q s).nlen = s.nlen := rfl
@[simp] theorem leaveCipher_tglen (q : CipherState) (s : State) : (leaveCipher q s).tglen = s.tglen := rfl
@[simp] theorem leaveCipher_adlen (q : CipherState) (s : State) : (leaveCipher q s).adlen = s.adlen := rfl
@[simp] theorem leaveCipher_tlen (q : CipherState) (s : State) : (leaveCipher q s).tlen = s.tlen := rfl
@[simp] theorem leaveCipher_status (q : CipherState) (s : State) : (leaveCipher q s).status = s.status := rfl
@[simp] theorem leaveCipher_tagout (q : CipherState) (s : State) : (leaveCipher q s).tagout = s.tagout := rfl
@[simp] theorem leaveCipher_digest (q : CipherState) (s : State) : (leaveCipher q s).digest = s.digest := rfl
@[simp] theorem leaveCipher_adbuf (q : CipherState) (s : State) : (leaveCipher q s).adbuf = s.adbuf := rfl
@[simp] theorem leaveCipher_tin (q : CipherState) (s : State) : (leaveCipher q s).tin = s.tin := rfl
@[simp] theorem leaveCipher_tout (q : CipherState) (s : State) : (leaveCipher q s).tout = s.tout := rfl
@[simp] theorem leaveCipher_regS (q : CipherState) (s : State) : (leaveCipher q s).regS = s.regS := rfl
@[simp] theorem leaveCipher_regL (q : CipherState) (s : State) : (leaveCipher q s).regL = s.regL := rfl
@[simp] theorem leaveCipher_regR (q : CipherState) (s : State) : (leaveCipher q s).regR = s.regR := rfl
@[simp] theorem leaveCipher_regZ (q : CipherState) (s : State) : (leaveCipher q s).regZ = s.regZ := rfl
@[simp] theorem leaveCipher_regD (q : CipherState) (s : State) : (leaveCipher q s).regD = s.regD := rfl
@[simp] theorem leaveCipher_tk1 (q : CipherState) (s : State) : (leaveCipher q s).tk1 = some q.tk.tk1 := rfl
@[simp] theorem leaveCipher_tk2 (q : CipherState) (s : State) : (leaveCipher q s).tk2 = some q.tk.tk2 := rfl
@[simp] theorem leaveCipher_tk3 (q : CipherState) (s : State) : (leaveCipher q s).tk3 = some q.tk.tk3 := rfl
@[simp] theorem leaveCipher_rc (q : CipherState) (s : State) : (leaveCipher q s).rc = some q.rc := rfl
@[simp] theorem leaveCipher_rnd (q : CipherState) (s : State) : (leaveCipher q s).rnd = some s.cfg.rounds := rfl
@[simp] theorem leaveCipher_acc (q : CipherState) (s : State) : (leaveCipher q s).acc = s.acc := rfl
@[simp] theorem leaveCipher_idx (q : CipherState) (s : State) : (leaveCipher q s).idx = s.idx := rfl
@[simp] theorem leaveCipher_op (q : CipherState) (s : State) : (leaveCipher q s).op = s.op := rfl
@[simp] theorem leaveCipher_phase (q : CipherState) (s : State) : (leaveCipher q s).phase = s.phase := rfl
@[simp] theorem leaveCipher_fault (q : CipherState) (s : State) : (leaveCipher q s).fault = s.fault := rfl
@[simp] theorem leaveCipher_pending (q : CipherState) (s : State) : (leaveCipher q s).pending = false := rfl
@[simp] theorem leaveCipher_tagT (q : CipherState) (s : State) : (leaveCipher q s).tagT = s.tagT := rfl
@[simp] theorem leaveCipher_scratch (q : CipherState) (s : State) : (leaveCipher q s).scratch = s.scratch := rfl
@[simp] theorem leaveCipher_script (q : CipherState) (s : State) : (leaveCipher q s).script = s.script := rfl
@[simp] theorem leaveCipher_reads (q : CipherState) (s : State) : (leaveCipher q s).reads = s.reads := rfl
@[simp] theorem leaveCipher_log (q : CipherState) (s : State) : (leaveCipher q s).log = s.log := rfl
@[simp] theorem leaveCipher_draws (q : CipherState) (s : State) : (leaveCipher q s).draws = s.draws := rfl

/-! ## afterTbc -/

@[simp] theorem afterTbc_cfg (src : KeySource) (k t : Block) (b : Byte) (d : Counter) (x : Block) (s : State) : (afterTbc src k t b d x s).cfg = s.cfg := rfl
@[simp] theorem afterTbc_key (src : KeySource) (k t : Block) (b : Byte) (d : Counter) (x : Block) (s : State) : (afterTbc src k t b d x s).key = s.key := rfl
@[simp] theorem afterTbc_nonce (src : KeySource) (k t : Block) (b : Byte) (d : Counter) (x : Block) (s : State) : (afterTbc src k t b d x s).nonce = s.nonce := rfl
@[simp] theorem afterTbc_tagin (src : KeySource) (k t : Block) (b : Byte) (d : Counter) (x : Block) (s : State) : (afterTbc src k t b d x s).tagin = s.tagin := rfl
@[simp] theorem afterTbc_klen (src : KeySource) (k t : Block) (b : Byte) (d : Counter) (x : Block) (s : State) : (afterTbc src k t b d x s).klen = s.klen := rfl
@[simp] theorem afterTbc_nlen (src : KeySource) (k t : Block) (b : Byte) (d : Counter) (x : Block) (s : State) : (afterTbc src k t b d x s).nlen = s.nlen := rfl
@[simp] theorem afterTbc_tglen (src : KeySource) (k t : Block) (b : Byte) (d : Counter) (x : Block) (s : State) : (afterTbc src k t b d x s).tglen = s.tglen := rfl
@[simp] theorem afterTbc_adlen (src : KeySource) (k t : Block) (b : Byte) (d : Counter) (x : Block) (s : State) : (afterTbc src k t b d x s).adlen = s.adlen := rfl
@[simp] theorem afterTbc_tlen (src : KeySource) (k t : Block) (b : Byte) (d : Counter) (x : Block) (s : State) : (afterTbc src k t b d x s).tlen = s.tlen := rfl
@[simp] theorem afterTbc_status (src : KeySource) (k t : Block) (b : Byte) (d : Counter) (x : Block) (s : State) : (afterTbc src k t b d x s).status = s.status := rfl
@[simp] theorem afterTbc_tagout (src : KeySource) (k t : Block) (b : Byte) (d : Counter) (x : Block) (s : State) : (afterTbc src k t b d x s).tagout = s.tagout := rfl
@[simp] theorem afterTbc_digest (src : KeySource) (k t : Block) (b : Byte) (d : Counter) (x : Block) (s : State) : (afterTbc src k t b d x s).digest = s.digest := rfl
@[simp] theorem afterTbc_adbuf (src : KeySource) (k t : Block) (b : Byte) (d : Counter) (x : Block) (s : State) : (afterTbc src k t b d x s).adbuf = s.adbuf := rfl
@[simp] theorem afterTbc_tin (src : KeySource) (k t : Block) (b : Byte) (d : Counter) (x : Block) (s : State) : (afterTbc src k t b d x s).tin = s.tin := rfl
@[simp] theorem afterTbc_tout (src : KeySource) (k t : Block) (b : Byte) (d : Counter) (x : Block) (s : State) : (afterTbc src k t b d x s).tout = s.tout := rfl
@[simp] theorem afterTbc_regS (src : KeySource) (k t : Block) (b : Byte) (d : Counter) (x : Block) (s : State) : (afterTbc src k t b d x s).regS = s.regS := rfl
@[simp] theorem afterTbc_regL (src : KeySource) (k t : Block) (b : Byte) (d : Counter) (x : Block) (s : State) : (afterTbc src k t b d x s).regL = s.regL := rfl
@[simp] theorem afterTbc_regR (src : KeySource) (k t : Block) (b : Byte) (d : Counter) (x : Block) (s : State) : (afterTbc src k t b d x s).regR = s.regR := rfl
@[simp] theorem afterTbc_regZ (src : KeySource) (k t : Block) (b : Byte) (d : Counter) (x : Block) (s : State) : (afterTbc src k t b d x s).regZ = s.regZ := rfl
@[simp] theorem afterTbc_regD (src : KeySource) (k t : Block) (b : Byte) (d : Counter) (x : Block) (s : State) : (afterTbc src k t b d x s).regD = s.regD := rfl
@[simp] theorem afterTbc_tk1 (src : KeySource) (k t : Block) (b : Byte) (d : Counter) (x : Block) (s : State) : (afterTbc src k t b d x s).tk1 = some (permuteState s.cfg (aeadTweakey s.cfg k t b d) x).tk.tk1 := rfl
@[simp] theorem afterTbc_tk2 (src : KeySource) (k t : Block) (b : Byte) (d : Counter) (x : Block) (s : State) : (afterTbc src k t b d x s).tk2 = some (permuteState s.cfg (aeadTweakey s.cfg k t b d) x).tk.tk2 := rfl
@[simp] theorem afterTbc_tk3 (src : KeySource) (k t : Block) (b : Byte) (d : Counter) (x : Block) (s : State) : (afterTbc src k t b d x s).tk3 = some (permuteState s.cfg (aeadTweakey s.cfg k t b d) x).tk.tk3 := rfl
@[simp] theorem afterTbc_rc (src : KeySource) (k t : Block) (b : Byte) (d : Counter) (x : Block) (s : State) : (afterTbc src k t b d x s).rc = some (permuteState s.cfg (aeadTweakey s.cfg k t b d) x).rc := rfl
@[simp] theorem afterTbc_rnd (src : KeySource) (k t : Block) (b : Byte) (d : Counter) (x : Block) (s : State) : (afterTbc src k t b d x s).rnd = some s.cfg.rounds := rfl
@[simp] theorem afterTbc_acc (src : KeySource) (k t : Block) (b : Byte) (d : Counter) (x : Block) (s : State) : (afterTbc src k t b d x s).acc = s.acc := rfl
@[simp] theorem afterTbc_idx (src : KeySource) (k t : Block) (b : Byte) (d : Counter) (x : Block) (s : State) : (afterTbc src k t b d x s).idx = s.idx := rfl
@[simp] theorem afterTbc_op (src : KeySource) (k t : Block) (b : Byte) (d : Counter) (x : Block) (s : State) : (afterTbc src k t b d x s).op = s.op := rfl
@[simp] theorem afterTbc_phase (src : KeySource) (k t : Block) (b : Byte) (d : Counter) (x : Block) (s : State) : (afterTbc src k t b d x s).phase = s.phase := rfl
@[simp] theorem afterTbc_fault (src : KeySource) (k t : Block) (b : Byte) (d : Counter) (x : Block) (s : State) : (afterTbc src k t b d x s).fault = s.fault := rfl
@[simp] theorem afterTbc_pending (src : KeySource) (k t : Block) (b : Byte) (d : Counter) (x : Block) (s : State) : (afterTbc src k t b d x s).pending = false := rfl
@[simp] theorem afterTbc_tagT (src : KeySource) (k t : Block) (b : Byte) (d : Counter) (x : Block) (s : State) : (afterTbc src k t b d x s).tagT = s.tagT := rfl
@[simp] theorem afterTbc_scratch (src : KeySource) (k t : Block) (b : Byte) (d : Counter) (x : Block) (s : State) : (afterTbc src k t b d x s).scratch = s.scratch := rfl
@[simp] theorem afterTbc_script (src : KeySource) (k t : Block) (b : Byte) (d : Counter) (x : Block) (s : State) : (afterTbc src k t b d x s).script = s.script := rfl
@[simp] theorem afterTbc_reads (src : KeySource) (k t : Block) (b : Byte) (d : Counter) (x : Block) (s : State) : (afterTbc src k t b d x s).reads = s.reads := rfl
@[simp] theorem afterTbc_log (src : KeySource) (k t : Block) (b : Byte) (d : Counter) (x : Block) (s : State) : (afterTbc src k t b d x s).log = s.log ++ [.invoke src (some (b, d))] := rfl
@[simp] theorem afterTbc_draws (src : KeySource) (k t : Block) (b : Byte) (d : Counter) (x : Block) (s : State) : (afterTbc src k t b d x s).draws = s.draws := rfl

/-! ## invokeCompress -/

@[simp] theorem invokeCompress_cfg (b : List Byte) (l r : Block) (s : State) : (invokeCompress b l r s).cfg = s.cfg := rfl
@[simp] theorem invokeCompress_key (b : List Byte) (l r : Block) (s : State) : (invokeCompress b l r s).key = s.key := rfl
@[simp] theorem invokeCompress_nonce (b : List Byte) (l r : Block) (s : State) : (invokeCompress b l r s).nonce = s.nonce := rfl
@[simp] theorem invokeCompress_tagin (b : List Byte) (l r : Block) (s : State) : (invokeCompress b l r s).tagin = s.tagin := rfl
@[simp] theorem invokeCompress_klen (b : List Byte) (l r : Block) (s : State) : (invokeCompress b l r s).klen = s.klen := rfl
@[simp] theorem invokeCompress_nlen (b : List Byte) (l r : Block) (s : State) : (invokeCompress b l r s).nlen = s.nlen := rfl
@[simp] theorem invokeCompress_tglen (b : List Byte) (l r : Block) (s : State) : (invokeCompress b l r s).tglen = s.tglen := rfl
@[simp] theorem invokeCompress_adlen (b : List Byte) (l r : Block) (s : State) : (invokeCompress b l r s).adlen = s.adlen := rfl
@[simp] theorem invokeCompress_tlen (b : List Byte) (l r : Block) (s : State) : (invokeCompress b l r s).tlen = s.tlen := rfl
@[simp] theorem invokeCompress_status (b : List Byte) (l r : Block) (s : State) : (invokeCompress b l r s).status = s.status := rfl
@[simp] theorem invokeCompress_tagout (b : List Byte) (l r : Block) (s : State) : (invokeCompress b l r s).tagout = s.tagout := rfl
@[simp] theorem invokeCompress_digest (b : List Byte) (l r : Block) (s : State) : (invokeCompress b l r s).digest = s.digest := rfl
@[simp] theorem invokeCompress_adbuf (b : List Byte) (l r : Block) (s : State) : (invokeCompress b l r s).adbuf = s.adbuf := rfl
@[simp] theorem invokeCompress_tin (b : List Byte) (l r : Block) (s : State) : (invokeCompress b l r s).tin = s.tin := rfl
@[simp] theorem invokeCompress_tout (b : List Byte) (l r : Block) (s : State) : (invokeCompress b l r s).tout = s.tout := rfl
@[simp] theorem invokeCompress_regS (b : List Byte) (l r : Block) (s : State) : (invokeCompress b l r s).regS = s.regS := rfl
@[simp] theorem invokeCompress_regL (b : List Byte) (l r : Block) (s : State) : (invokeCompress b l r s).regL = some (compress s.cfg l r b).1 := rfl
@[simp] theorem invokeCompress_regR (b : List Byte) (l r : Block) (s : State) : (invokeCompress b l r s).regR = some (compress s.cfg l r b).2 := rfl
@[simp] theorem invokeCompress_regZ (b : List Byte) (l r : Block) (s : State) : (invokeCompress b l r s).regZ = s.regZ := rfl
@[simp] theorem invokeCompress_regD (b : List Byte) (l r : Block) (s : State) : (invokeCompress b l r s).regD = s.regD := rfl
@[simp] theorem invokeCompress_tk1 (b : List Byte) (l r : Block) (s : State) : (invokeCompress b l r s).tk1 = some (permuteState s.cfg (compressTweakey r b) (flipByte0 s.cfg.hash.second l)).tk.tk1 := rfl
@[simp] theorem invokeCompress_tk2 (b : List Byte) (l r : Block) (s : State) : (invokeCompress b l r s).tk2 = some (permuteState s.cfg (compressTweakey r b) (flipByte0 s.cfg.hash.second l)).tk.tk2 := rfl
@[simp] theorem invokeCompress_tk3 (b : List Byte) (l r : Block) (s : State) : (invokeCompress b l r s).tk3 = some (permuteState s.cfg (compressTweakey r b) (flipByte0 s.cfg.hash.second l)).tk.tk3 := rfl
@[simp] theorem invokeCompress_rc (b : List Byte) (l r : Block) (s : State) : (invokeCompress b l r s).rc = some (permuteState s.cfg (compressTweakey r b) (flipByte0 s.cfg.hash.second l)).rc := rfl
@[simp] theorem invokeCompress_rnd (b : List Byte) (l r : Block) (s : State) : (invokeCompress b l r s).rnd = some s.cfg.rounds := rfl
@[simp] theorem invokeCompress_acc (b : List Byte) (l r : Block) (s : State) : (invokeCompress b l r s).acc = s.acc := rfl
@[simp] theorem invokeCompress_idx (b : List Byte) (l r : Block) (s : State) : (invokeCompress b l r s).idx = s.idx := rfl
@[simp] theorem invokeCompress_op (b : List Byte) (l r : Block) (s : State) : (invokeCompress b l r s).op = s.op := rfl
@[simp] theorem invokeCompress_phase (b : List Byte) (l r : Block) (s : State) : (invokeCompress b l r s).phase = s.phase := rfl
@[simp] theorem invokeCompress_fault (b : List Byte) (l r : Block) (s : State) : (invokeCompress b l r s).fault = s.fault := rfl
@[simp] theorem invokeCompress_pending (b : List Byte) (l r : Block) (s : State) : (invokeCompress b l r s).pending = false := rfl
@[simp] theorem invokeCompress_tagT (b : List Byte) (l r : Block) (s : State) : (invokeCompress b l r s).tagT = s.tagT := rfl
@[simp] theorem invokeCompress_scratch (b : List Byte) (l r : Block) (s : State) : (invokeCompress b l r s).scratch = s.scratch := rfl
@[simp] theorem invokeCompress_script (b : List Byte) (l r : Block) (s : State) : (invokeCompress b l r s).script = s.script := rfl
@[simp] theorem invokeCompress_reads (b : List Byte) (l r : Block) (s : State) : (invokeCompress b l r s).reads = s.reads := rfl
@[simp] theorem invokeCompress_log (b : List Byte) (l r : Block) (s : State) : (invokeCompress b l r s).log = s.log ++ [.invoke .pub none] ++ [.invoke .pub none] := rfl
@[simp] theorem invokeCompress_draws (b : List Byte) (l r : Block) (s : State) : (invokeCompress b l r s).draws = s.draws := rfl

/-! ## logRead -/

@[simp] theorem logRead_cfg (sp : Space) (off n : Nat) (s : State) : (logRead sp off n s).cfg = s.cfg := by unfold logRead; split <;> rfl
@[simp] theorem logRead_key (sp : Space) (off n : Nat) (s : State) : (logRead sp off n s).key = s.key := by unfold logRead; split <;> rfl
@[simp] theorem logRead_nonce (sp : Space) (off n : Nat) (s : State) : (logRead sp off n s).nonce = s.nonce := by unfold logRead; split <;> rfl
@[simp] theorem logRead_tagin (sp : Space) (off n : Nat) (s : State) : (logRead sp off n s).tagin = s.tagin := by unfold logRead; split <;> rfl
@[simp] theorem logRead_klen (sp : Space) (off n : Nat) (s : State) : (logRead sp off n s).klen = s.klen := by unfold logRead; split <;> rfl
@[simp] theorem logRead_nlen (sp : Space) (off n : Nat) (s : State) : (logRead sp off n s).nlen = s.nlen := by unfold logRead; split <;> rfl
@[simp] theorem logRead_tglen (sp : Space) (off n : Nat) (s : State) : (logRead sp off n s).tglen = s.tglen := by unfold logRead; split <;> rfl
@[simp] theorem logRead_adlen (sp : Space) (off n : Nat) (s : State) : (logRead sp off n s).adlen = s.adlen := by unfold logRead; split <;> rfl
@[simp] theorem logRead_tlen (sp : Space) (off n : Nat) (s : State) : (logRead sp off n s).tlen = s.tlen := by unfold logRead; split <;> rfl
@[simp] theorem logRead_status (sp : Space) (off n : Nat) (s : State) : (logRead sp off n s).status = s.status := by unfold logRead; split <;> rfl
@[simp] theorem logRead_tagout (sp : Space) (off n : Nat) (s : State) : (logRead sp off n s).tagout = s.tagout := by unfold logRead; split <;> rfl
@[simp] theorem logRead_digest (sp : Space) (off n : Nat) (s : State) : (logRead sp off n s).digest = s.digest := by unfold logRead; split <;> rfl
@[simp] theorem logRead_adbuf (sp : Space) (off n : Nat) (s : State) : (logRead sp off n s).adbuf = s.adbuf := by unfold logRead; split <;> rfl
@[simp] theorem logRead_tin (sp : Space) (off n : Nat) (s : State) : (logRead sp off n s).tin = s.tin := by unfold logRead; split <;> rfl
@[simp] theorem logRead_tout (sp : Space) (off n : Nat) (s : State) : (logRead sp off n s).tout = s.tout := by unfold logRead; split <;> rfl
@[simp] theorem logRead_regS (sp : Space) (off n : Nat) (s : State) : (logRead sp off n s).regS = s.regS := by unfold logRead; split <;> rfl
@[simp] theorem logRead_regL (sp : Space) (off n : Nat) (s : State) : (logRead sp off n s).regL = s.regL := by unfold logRead; split <;> rfl
@[simp] theorem logRead_regR (sp : Space) (off n : Nat) (s : State) : (logRead sp off n s).regR = s.regR := by unfold logRead; split <;> rfl
@[simp] theorem logRead_regZ (sp : Space) (off n : Nat) (s : State) : (logRead sp off n s).regZ = s.regZ := by unfold logRead; split <;> rfl
@[simp] theorem logRead_regD (sp : Space) (off n : Nat) (s : State) : (logRead sp off n s).regD = s.regD := by unfold logRead; split <;> rfl
@[simp] theorem logRead_tk1 (sp : Space) (off n : Nat) (s : State) : (logRead sp off n s).tk1 = s.tk1 := by unfold logRead; split <;> rfl
@[simp] theorem logRead_tk2 (sp : Space) (off n : Nat) (s : State) : (logRead sp off n s).tk2 = s.tk2 := by unfold logRead; split <;> rfl
@[simp] theorem logRead_tk3 (sp : Space) (off n : Nat) (s : State) : (logRead sp off n s).tk3 = s.tk3 := by unfold logRead; split <;> rfl
@[simp] theorem logRead_rc (sp : Space) (off n : Nat) (s : State) : (logRead sp off n s).rc = s.rc := by unfold logRead; split <;> rfl
@[simp] theorem logRead_rnd (sp : Space) (off n : Nat) (s : State) : (logRead sp off n s).rnd = s.rnd := by unfold logRead; split <;> rfl
@[simp] theorem logRead_acc (sp : Space) (off n : Nat) (s : State) : (logRead sp off n s).acc = s.acc := by unfold logRead; split <;> rfl
@[simp] theorem logRead_idx (sp : Space) (off n : Nat) (s : State) : (logRead sp off n s).idx = s.idx := by unfold logRead; split <;> rfl
@[simp] theorem logRead_op (sp : Space) (off n : Nat) (s : State) : (logRead sp off n s).op = s.op := by unfold logRead; split <;> rfl
@[simp] theorem logRead_phase (sp : Space) (off n : Nat) (s : State) : (logRead sp off n s).phase = s.phase := by unfold logRead; split <;> rfl
@[simp] theorem logRead_fault (sp : Space) (off n : Nat) (s : State) : (logRead sp off n s).fault = s.fault := by unfold logRead; split <;> rfl
@[simp] theorem logRead_pending (sp : Space) (off n : Nat) (s : State) : (logRead sp off n s).pending = s.pending := by unfold logRead; split <;> rfl
@[simp] theorem logRead_tagT (sp : Space) (off n : Nat) (s : State) : (logRead sp off n s).tagT = s.tagT := by unfold logRead; split <;> rfl
@[simp] theorem logRead_scratch (sp : Space) (off n : Nat) (s : State) : (logRead sp off n s).scratch = s.scratch := by unfold logRead; split <;> rfl
@[simp] theorem logRead_script (sp : Space) (off n : Nat) (s : State) : (logRead sp off n s).script = s.script := by unfold logRead; split <;> rfl
@[simp] theorem logRead_reads (sp : Space) (off n : Nat) (s : State) : (logRead sp off n s).reads = s.reads := by unfold logRead; split <;> rfl
@[simp] theorem logRead_log (sp : Space) (off n : Nat) (s : State) : (logRead sp off n s).log = if n = 0 then s.log else s.log ++ [.read sp off n] := by unfold logRead; split <;> rfl
@[simp] theorem logRead_draws (sp : Space) (off n : Nat) (s : State) : (logRead sp off n s).draws = s.draws := by unfold logRead; split <;> rfl

/-! ## logWrite -/

@[simp] theorem logWrite_cfg (off n : Nat) (s : State) : (logWrite off n s).cfg = s.cfg := by unfold logWrite; split <;> rfl
@[simp] theorem logWrite_key (off n : Nat) (s : State) : (logWrite off n s).key = s.key := by unfold logWrite; split <;> rfl
@[simp] theorem logWrite_nonce (off n : Nat) (s : State) : (logWrite off n s).nonce = s.nonce := by unfold logWrite; split <;> rfl
@[simp] theorem logWrite_tagin (off n : Nat) (s : State) : (logWrite off n s).tagin = s.tagin := by unfold logWrite; split <;> rfl
@[simp] theorem logWrite_klen (off n : Nat) (s : State) : (logWrite off n s).klen = s.klen := by unfold logWrite; split <;> rfl
@[simp] theorem logWrite_nlen (off n : Nat) (s : State) : (logWrite off n s).nlen = s.nlen := by unfold logWrite; split <;> rfl
@[simp] theorem logWrite_tglen (off n : Nat) (s : State) : (logWrite off n s).tglen = s.tglen := by unfold logWrite; split <;> rfl
@[simp] theorem logWrite_adlen (off n : Nat) (s : State) : (logWrite off n s).adlen = s.adlen := by unfold logWrite; split <;> rfl
@[simp] theorem logWrite_tlen (off n : Nat) (s : State) : (logWrite off n s).tlen = s.tlen := by unfold logWrite; split <;> rfl
@[simp] theorem logWrite_status (off n : Nat) (s : State) : (logWrite off n s).status = s.status := by unfold logWrite; split <;> rfl
@[simp] theorem logWrite_tagout (off n : Nat) (s : State) : (logWrite off n s).tagout = s.tagout := by unfold logWrite; split <;> rfl
@[simp] theorem logWrite_digest (off n : Nat) (s : State) : (logWrite off n s).digest = s.digest := by unfold logWrite; split <;> rfl
@[simp] theorem logWrite_adbuf (off n : Nat) (s : State) : (logWrite off n s).adbuf = s.adbuf := by unfold logWrite; split <;> rfl
@[simp] theorem logWrite_tin (off n : Nat) (s : State) : (logWrite off n s).tin = s.tin := by unfold logWrite; split <;> rfl
@[simp] theorem logWrite_tout (off n : Nat) (s : State) : (logWrite off n s).tout = s.tout := by unfold logWrite; split <;> rfl
@[simp] theorem logWrite_regS (off n : Nat) (s : State) : (logWrite off n s).regS = s.regS := by unfold logWrite; split <;> rfl
@[simp] theorem logWrite_regL (off n : Nat) (s : State) : (logWrite off n s).regL = s.regL := by unfold logWrite; split <;> rfl
@[simp] theorem logWrite_regR (off n : Nat) (s : State) : (logWrite off n s).regR = s.regR := by unfold logWrite; split <;> rfl
@[simp] theorem logWrite_regZ (off n : Nat) (s : State) : (logWrite off n s).regZ = s.regZ := by unfold logWrite; split <;> rfl
@[simp] theorem logWrite_regD (off n : Nat) (s : State) : (logWrite off n s).regD = s.regD := by unfold logWrite; split <;> rfl
@[simp] theorem logWrite_tk1 (off n : Nat) (s : State) : (logWrite off n s).tk1 = s.tk1 := by unfold logWrite; split <;> rfl
@[simp] theorem logWrite_tk2 (off n : Nat) (s : State) : (logWrite off n s).tk2 = s.tk2 := by unfold logWrite; split <;> rfl
@[simp] theorem logWrite_tk3 (off n : Nat) (s : State) : (logWrite off n s).tk3 = s.tk3 := by unfold logWrite; split <;> rfl
@[simp] theorem logWrite_rc (off n : Nat) (s : State) : (logWrite off n s).rc = s.rc := by unfold logWrite; split <;> rfl
@[simp] theorem logWrite_rnd (off n : Nat) (s : State) : (logWrite off n s).rnd = s.rnd := by unfold logWrite; split <;> rfl
@[simp] theorem logWrite_acc (off n : Nat) (s : State) : (logWrite off n s).acc = s.acc := by unfold logWrite; split <;> rfl
@[simp] theorem logWrite_idx (off n : Nat) (s : State) : (logWrite off n s).idx = s.idx := by unfold logWrite; split <;> rfl
@[simp] theorem logWrite_op (off n : Nat) (s : State) : (logWrite off n s).op = s.op := by unfold logWrite; split <;> rfl
@[simp] theorem logWrite_phase (off n : Nat) (s : State) : (logWrite off n s).phase = s.phase := by unfold logWrite; split <;> rfl
@[simp] theorem logWrite_fault (off n : Nat) (s : State) : (logWrite off n s).fault = s.fault := by unfold logWrite; split <;> rfl
@[simp] theorem logWrite_pending (off n : Nat) (s : State) : (logWrite off n s).pending = s.pending := by unfold logWrite; split <;> rfl
@[simp] theorem logWrite_tagT (off n : Nat) (s : State) : (logWrite off n s).tagT = s.tagT := by unfold logWrite; split <;> rfl
@[simp] theorem logWrite_scratch (off n : Nat) (s : State) : (logWrite off n s).scratch = s.scratch := by unfold logWrite; split <;> rfl
@[simp] theorem logWrite_script (off n : Nat) (s : State) : (logWrite off n s).script = s.script := by unfold logWrite; split <;> rfl
@[simp] theorem logWrite_reads (off n : Nat) (s : State) : (logWrite off n s).reads = s.reads := by unfold logWrite; split <;> rfl
@[simp] theorem logWrite_log (off n : Nat) (s : State) : (logWrite off n s).log = if n = 0 then s.log else s.log ++ [.write .tout off n] := by unfold logWrite; split <;> rfl
@[simp] theorem logWrite_draws (off n : Nat) (s : State) : (logWrite off n s).draws = s.draws := by unfold logWrite; split <;> rfl

/-! ## logBlock -/

@[simp] theorem logBlock_cfg (sp : Space) (len i : Nat) (s : State) : (logBlock sp len i s).cfg = s.cfg := logRead_cfg _ _ _ _
@[simp] theorem logBlock_key (sp : Space) (len i : Nat) (s : State) : (logBlock sp len i s).key = s.key := logRead_key _ _ _ _
@[simp] theorem logBlock_nonce (sp : Space) (len i : Nat) (s : State) : (logBlock sp len i s).nonce = s.nonce := logRead_nonce _ _ _ _
@[simp] theorem logBlock_tagin (sp : Space) (len i : Nat) (s : State) : (logBlock sp len i s).tagin = s.tagin := logRead_tagin _ _ _ _
@[simp] theorem logBlock_klen (sp : Space) (len i : Nat) (s : State) : (logBlock sp len i s).klen = s.klen := logRead_klen _ _ _ _
@[simp] theorem logBlock_nlen (sp : Space) (len i : Nat) (s : State) : (logBlock sp len i s).nlen = s.nlen := logRead_nlen _ _ _ _
@[simp] theorem logBlock_tglen (sp : Space) (len i : Nat) (s : State) : (logBlock sp len i s).tglen = s.tglen := logRead_tglen _ _ _ _
@[simp] theorem logBlock_adlen (sp : Space) (len i : Nat) (s : State) : (logBlock sp len i s).adlen = s.adlen := logRead_adlen _ _ _ _
@[simp] theorem logBlock_tlen (sp : Space) (len i : Nat) (s : State) : (logBlock sp len i s).tlen = s.tlen := logRead_tlen _ _ _ _
@[simp] theorem logBlock_status (sp : Space) (len i : Nat) (s : State) : (logBlock sp len i s).status = s.status := logRead_status _ _ _ _
@[simp] theorem logBlock_tagout (sp : Space) (len i : Nat) (s : State) : (logBlock sp len i s).tagout = s.tagout := logRead_tagout _ _ _ _
@[simp] theorem logBlock_digest (sp : Space) (len i : Nat) (s : State) : (logBlock sp len i s).digest = s.digest := logRead_digest _ _ _ _
@[simp] theorem logBlock_adbuf (sp : Space) (len i : Nat) (s : State) : (logBlock sp len i s).adbuf = s.adbuf := logRead_adbuf _ _ _ _
@[simp] theorem logBlock_tin (sp : Space) (len i : Nat) (s : State) : (logBlock sp len i s).tin = s.tin := logRead_tin _ _ _ _
@[simp] theorem logBlock_tout (sp : Space) (len i : Nat) (s : State) : (logBlock sp len i s).tout = s.tout := logRead_tout _ _ _ _
@[simp] theorem logBlock_regS (sp : Space) (len i : Nat) (s : State) : (logBlock sp len i s).regS = s.regS := logRead_regS _ _ _ _
@[simp] theorem logBlock_regL (sp : Space) (len i : Nat) (s : State) : (logBlock sp len i s).regL = s.regL := logRead_regL _ _ _ _
@[simp] theorem logBlock_regR (sp : Space) (len i : Nat) (s : State) : (logBlock sp len i s).regR = s.regR := logRead_regR _ _ _ _
@[simp] theorem logBlock_regZ (sp : Space) (len i : Nat) (s : State) : (logBlock sp len i s).regZ = s.regZ := logRead_regZ _ _ _ _
@[simp] theorem logBlock_regD (sp : Space) (len i : Nat) (s : State) : (logBlock sp len i s).regD = s.regD := logRead_regD _ _ _ _
@[simp] theorem logBlock_tk1 (sp : Space) (len i : Nat) (s : State) : (logBlock sp len i s).tk1 = s.tk1 := logRead_tk1 _ _ _ _
@[simp] theorem logBlock_tk2 (sp : Space) (len i : Nat) (s : State) : (logBlock sp len i s).tk2 = s.tk2 := logRead_tk2 _ _ _ _
@[simp] theorem logBlock_tk3 (sp : Space) (len i : Nat) (s : State) : (logBlock sp len i s).tk3 = s.tk3 := logRead_tk3 _ _ _ _
@[simp] theorem logBlock_rc (sp : Space) (len i : Nat) (s : State) : (logBlock sp len i s).rc = s.rc := logRead_rc _ _ _ _
@[simp] theorem logBlock_rnd (sp : Space) (len i : Nat) (s : State) : (logBlock sp len i s).rnd = s.rnd := logRead_rnd _ _ _ _
@[simp] theorem logBlock_acc (sp : Space) (len i : Nat) (s : State) : (logBlock sp len i s).acc = s.acc := logRead_acc _ _ _ _
@[simp] theorem logBlock_idx (sp : Space) (len i : Nat) (s : State) : (logBlock sp len i s).idx = s.idx := logRead_idx _ _ _ _
@[simp] theorem logBlock_op (sp : Space) (len i : Nat) (s : State) : (logBlock sp len i s).op = s.op := logRead_op _ _ _ _
@[simp] theorem logBlock_phase (sp : Space) (len i : Nat) (s : State) : (logBlock sp len i s).phase = s.phase := logRead_phase _ _ _ _
@[simp] theorem logBlock_fault (sp : Space) (len i : Nat) (s : State) : (logBlock sp len i s).fault = s.fault := logRead_fault _ _ _ _
@[simp] theorem logBlock_pending (sp : Space) (len i : Nat) (s : State) : (logBlock sp len i s).pending = s.pending := logRead_pending _ _ _ _
@[simp] theorem logBlock_tagT (sp : Space) (len i : Nat) (s : State) : (logBlock sp len i s).tagT = s.tagT := logRead_tagT _ _ _ _
@[simp] theorem logBlock_scratch (sp : Space) (len i : Nat) (s : State) : (logBlock sp len i s).scratch = s.scratch := logRead_scratch _ _ _ _
@[simp] theorem logBlock_script (sp : Space) (len i : Nat) (s : State) : (logBlock sp len i s).script = s.script := logRead_script _ _ _ _
@[simp] theorem logBlock_reads (sp : Space) (len i : Nat) (s : State) : (logBlock sp len i s).reads = s.reads := logRead_reads _ _ _ _
@[simp] theorem logBlock_log (sp : Space) (len i : Nat) (s : State) : (logBlock sp len i s).log = if blockLength len i = 0 then s.log else s.log ++ [.read sp (16 * i) (blockLength len i)] := logRead_log _ _ _ _
@[simp] theorem logBlock_draws (sp : Space) (len i : Nat) (s : State) : (logBlock sp len i s).draws = s.draws := logRead_draws _ _ _ _

/-! ## writeText -/

@[simp] theorem writeText_cfg (i : Nat) (o : List Byte) (s : State) : (writeText i o s).cfg = s.cfg := logWrite_cfg _ _ _
@[simp] theorem writeText_key (i : Nat) (o : List Byte) (s : State) : (writeText i o s).key = s.key := logWrite_key _ _ _
@[simp] theorem writeText_nonce (i : Nat) (o : List Byte) (s : State) : (writeText i o s).nonce = s.nonce := logWrite_nonce _ _ _
@[simp] theorem writeText_tagin (i : Nat) (o : List Byte) (s : State) : (writeText i o s).tagin = s.tagin := logWrite_tagin _ _ _
@[simp] theorem writeText_klen (i : Nat) (o : List Byte) (s : State) : (writeText i o s).klen = s.klen := logWrite_klen _ _ _
@[simp] theorem writeText_nlen (i : Nat) (o : List Byte) (s : State) : (writeText i o s).nlen = s.nlen := logWrite_nlen _ _ _
@[simp] theorem writeText_tglen (i : Nat) (o : List Byte) (s : State) : (writeText i o s).tglen = s.tglen := logWrite_tglen _ _ _
@[simp] theorem writeText_adlen (i : Nat) (o : List Byte) (s : State) : (writeText i o s).adlen = s.adlen := logWrite_adlen _ _ _
@[simp] theorem writeText_tlen (i : Nat) (o : List Byte) (s : State) : (writeText i o s).tlen = s.tlen := logWrite_tlen _ _ _
@[simp] theorem writeText_status (i : Nat) (o : List Byte) (s : State) : (writeText i o s).status = s.status := logWrite_status _ _ _
@[simp] theorem writeText_tagout (i : Nat) (o : List Byte) (s : State) : (writeText i o s).tagout = s.tagout := logWrite_tagout _ _ _
@[simp] theorem writeText_digest (i : Nat) (o : List Byte) (s : State) : (writeText i o s).digest = s.digest := logWrite_digest _ _ _
@[simp] theorem writeText_adbuf (i : Nat) (o : List Byte) (s : State) : (writeText i o s).adbuf = s.adbuf := logWrite_adbuf _ _ _
@[simp] theorem writeText_tin (i : Nat) (o : List Byte) (s : State) : (writeText i o s).tin = s.tin := logWrite_tin _ _ _
@[simp] theorem writeText_tout (i : Nat) (o : List Byte) (s : State) : (writeText i o s).tout = s.tout.writeRange (16 * i) o := logWrite_tout _ _ _
@[simp] theorem writeText_regS (i : Nat) (o : List Byte) (s : State) : (writeText i o s).regS = s.regS := logWrite_regS _ _ _
@[simp] theorem writeText_regL (i : Nat) (o : List Byte) (s : State) : (writeText i o s).regL = s.regL := logWrite_regL _ _ _
@[simp] theorem writeText_regR (i : Nat) (o : List Byte) (s : State) : (writeText i o s).regR = s.regR := logWrite_regR _ _ _
@[simp] theorem writeText_regZ (i : Nat) (o : List Byte) (s : State) : (writeText i o s).regZ = s.regZ := logWrite_regZ _ _ _
@[simp] theorem writeText_regD (i : Nat) (o : List Byte) (s : State) : (writeText i o s).regD = s.regD := logWrite_regD _ _ _
@[simp] theorem writeText_tk1 (i : Nat) (o : List Byte) (s : State) : (writeText i o s).tk1 = s.tk1 := logWrite_tk1 _ _ _
@[simp] theorem writeText_tk2 (i : Nat) (o : List Byte) (s : State) : (writeText i o s).tk2 = s.tk2 := logWrite_tk2 _ _ _
@[simp] theorem writeText_tk3 (i : Nat) (o : List Byte) (s : State) : (writeText i o s).tk3 = s.tk3 := logWrite_tk3 _ _ _
@[simp] theorem writeText_rc (i : Nat) (o : List Byte) (s : State) : (writeText i o s).rc = s.rc := logWrite_rc _ _ _
@[simp] theorem writeText_rnd (i : Nat) (o : List Byte) (s : State) : (writeText i o s).rnd = s.rnd := logWrite_rnd _ _ _
@[simp] theorem writeText_acc (i : Nat) (o : List Byte) (s : State) : (writeText i o s).acc = s.acc := logWrite_acc _ _ _
@[simp] theorem writeText_idx (i : Nat) (o : List Byte) (s : State) : (writeText i o s).idx = s.idx := logWrite_idx _ _ _
@[simp] theorem writeText_op (i : Nat) (o : List Byte) (s : State) : (writeText i o s).op = s.op := logWrite_op _ _ _
@[simp] theorem writeText_phase (i : Nat) (o : List Byte) (s : State) : (writeText i o s).phase = s.phase := logWrite_phase _ _ _
@[simp] theorem writeText_fault (i : Nat) (o : List Byte) (s : State) : (writeText i o s).fault = s.fault := logWrite_fault _ _ _
@[simp] theorem writeText_pending (i : Nat) (o : List Byte) (s : State) : (writeText i o s).pending = s.pending := logWrite_pending _ _ _
@[simp] theorem writeText_tagT (i : Nat) (o : List Byte) (s : State) : (writeText i o s).tagT = s.tagT := logWrite_tagT _ _ _
@[simp] theorem writeText_scratch (i : Nat) (o : List Byte) (s : State) : (writeText i o s).scratch = s.scratch := logWrite_scratch _ _ _
@[simp] theorem writeText_script (i : Nat) (o : List Byte) (s : State) : (writeText i o s).script = s.script := logWrite_script _ _ _
@[simp] theorem writeText_reads (i : Nat) (o : List Byte) (s : State) : (writeText i o s).reads = s.reads := logWrite_reads _ _ _
@[simp] theorem writeText_log (i : Nat) (o : List Byte) (s : State) : (writeText i o s).log = if o.length = 0 then s.log else s.log ++ [.write .tout (16 * i) o.length] := logWrite_log _ _ _
@[simp] theorem writeText_draws (i : Nat) (o : List Byte) (s : State) : (writeText i o s).draws = s.draws := logWrite_draws _ _ _

/-! ## keepText -/

@[simp] theorem keepText_cfg (o : List Byte) (s : State) : (keepText o s).cfg = s.cfg := by unfold keepText; split <;> rfl
@[simp] theorem keepText_key (o : List Byte) (s : State) : (keepText o s).key = s.key := by unfold keepText; split <;> rfl
@[simp] theorem keepText_nonce (o : List Byte) (s : State) : (keepText o s).nonce = s.nonce := by unfold keepText; split <;> rfl
@[simp] theorem keepText_tagin (o : List Byte) (s : State) : (keepText o s).tagin = s.tagin := by unfold keepText; split <;> rfl
@[simp] theorem keepText_klen (o : List Byte) (s : State) : (keepText o s).klen = s.klen := by unfold keepText; split <;> rfl
@[simp] theorem keepText_nlen (o : List Byte) (s : State) : (keepText o s).nlen = s.nlen := by unfold keepText; split <;> rfl
@[simp] theorem keepText_tglen (o : List Byte) (s : State) : (keepText o s).tglen = s.tglen := by unfold keepText; split <;> rfl
@[simp] theorem keepText_adlen (o : List Byte) (s : State) : (keepText o s).adlen = s.adlen := by unfold keepText; split <;> rfl
@[simp] theorem keepText_tlen (o : List Byte) (s : State) : (keepText o s).tlen = s.tlen := by unfold keepText; split <;> rfl
@[simp] theorem keepText_status (o : List Byte) (s : State) : (keepText o s).status = s.status := by unfold keepText; split <;> rfl
@[simp] theorem keepText_tagout (o : List Byte) (s : State) : (keepText o s).tagout = s.tagout := by unfold keepText; split <;> rfl
@[simp] theorem keepText_digest (o : List Byte) (s : State) : (keepText o s).digest = s.digest := by unfold keepText; split <;> rfl
@[simp] theorem keepText_adbuf (o : List Byte) (s : State) : (keepText o s).adbuf = s.adbuf := by unfold keepText; split <;> rfl
@[simp] theorem keepText_tin (o : List Byte) (s : State) : (keepText o s).tin = s.tin := by unfold keepText; split <;> rfl
@[simp] theorem keepText_tout (o : List Byte) (s : State) : (keepText o s).tout = s.tout := by unfold keepText; split <;> rfl
@[simp] theorem keepText_regS (o : List Byte) (s : State) : (keepText o s).regS = s.regS := by unfold keepText; split <;> rfl
@[simp] theorem keepText_regL (o : List Byte) (s : State) : (keepText o s).regL = s.regL := by unfold keepText; split <;> rfl
@[simp] theorem keepText_regR (o : List Byte) (s : State) : (keepText o s).regR = s.regR := by unfold keepText; split <;> rfl
@[simp] theorem keepText_regZ (o : List Byte) (s : State) : (keepText o s).regZ = s.regZ := by unfold keepText; split <;> rfl
@[simp] theorem keepText_regD (o : List Byte) (s : State) : (keepText o s).regD = s.regD := by unfold keepText; split <;> rfl
@[simp] theorem keepText_tk1 (o : List Byte) (s : State) : (keepText o s).tk1 = s.tk1 := by unfold keepText; split <;> rfl
@[simp] theorem keepText_tk2 (o : List Byte) (s : State) : (keepText o s).tk2 = s.tk2 := by unfold keepText; split <;> rfl
@[simp] theorem keepText_tk3 (o : List Byte) (s : State) : (keepText o s).tk3 = s.tk3 := by unfold keepText; split <;> rfl
@[simp] theorem keepText_rc (o : List Byte) (s : State) : (keepText o s).rc = s.rc := by unfold keepText; split <;> rfl
@[simp] theorem keepText_rnd (o : List Byte) (s : State) : (keepText o s).rnd = s.rnd := by unfold keepText; split <;> rfl
@[simp] theorem keepText_acc (o : List Byte) (s : State) : (keepText o s).acc = s.acc := by unfold keepText; split <;> rfl
@[simp] theorem keepText_idx (o : List Byte) (s : State) : (keepText o s).idx = s.idx := by unfold keepText; split <;> rfl
@[simp] theorem keepText_op (o : List Byte) (s : State) : (keepText o s).op = s.op := by unfold keepText; split <;> rfl
@[simp] theorem keepText_phase (o : List Byte) (s : State) : (keepText o s).phase = s.phase := by unfold keepText; split <;> rfl
@[simp] theorem keepText_fault (o : List Byte) (s : State) : (keepText o s).fault = s.fault := by unfold keepText; split <;> rfl
@[simp] theorem keepText_pending (o : List Byte) (s : State) : (keepText o s).pending = s.pending := by unfold keepText; split <;> rfl
@[simp] theorem keepText_tagT (o : List Byte) (s : State) : (keepText o s).tagT = s.tagT := by unfold keepText; split <;> rfl
@[simp] theorem keepText_scratch (o : List Byte) (s : State) : (keepText o s).scratch = if s.decrypting = true then s.scratch else s.scratch ++ o := by unfold keepText; split <;> rfl
@[simp] theorem keepText_script (o : List Byte) (s : State) : (keepText o s).script = s.script := by unfold keepText; split <;> rfl
@[simp] theorem keepText_reads (o : List Byte) (s : State) : (keepText o s).reads = s.reads := by unfold keepText; split <;> rfl
@[simp] theorem keepText_log (o : List Byte) (s : State) : (keepText o s).log = s.log := by unfold keepText; split <;> rfl
@[simp] theorem keepText_draws (o : List Byte) (s : State) : (keepText o s).draws = s.draws := by unfold keepText; split <;> rfl

/-! ## startPairs -/

@[simp] theorem startPairs_cfg (s : State) : (startPairs s).cfg = s.cfg := rfl
@[simp] theorem startPairs_key (s : State) : (startPairs s).key = s.key := rfl
@[simp] theorem startPairs_nonce (s : State) : (startPairs s).nonce = s.nonce := rfl
@[simp] theorem startPairs_tagin (s : State) : (startPairs s).tagin = s.tagin := rfl
@[simp] theorem startPairs_klen (s : State) : (startPairs s).klen = s.klen := rfl
@[simp] theorem startPairs_nlen (s : State) : (startPairs s).nlen = s.nlen := rfl
@[simp] theorem startPairs_tglen (s : State) : (startPairs s).tglen = s.tglen := rfl
@[simp] theorem startPairs_adlen (s : State) : (startPairs s).adlen = s.adlen := rfl
@[simp] theorem startPairs_tlen (s : State) : (startPairs s).tlen = s.tlen := rfl
@[simp] theorem startPairs_status (s : State) : (startPairs s).status = s.status := rfl
@[simp] theorem startPairs_tagout (s : State) : (startPairs s).tagout = s.tagout := rfl
@[simp] theorem startPairs_digest (s : State) : (startPairs s).digest = s.digest := rfl
@[simp] theorem startPairs_adbuf (s : State) : (startPairs s).adbuf = s.adbuf := rfl
@[simp] theorem startPairs_tin (s : State) : (startPairs s).tin = s.tin := rfl
@[simp] theorem startPairs_tout (s : State) : (startPairs s).tout = s.tout := rfl
@[simp] theorem startPairs_regS (s : State) : (startPairs s).regS = some Block.zero := rfl
@[simp] theorem startPairs_regL (s : State) : (startPairs s).regL = s.regL := rfl
@[simp] theorem startPairs_regR (s : State) : (startPairs s).regR = s.regR := rfl
@[simp] theorem startPairs_regZ (s : State) : (startPairs s).regZ = s.regZ := rfl
@[simp] theorem startPairs_regD (s : State) : (startPairs s).regD = some Config.d0 := rfl
@[simp] theorem startPairs_tk1 (s : State) : (startPairs s).tk1 = s.tk1 := rfl
@[simp] theorem startPairs_tk2 (s : State) : (startPairs s).tk2 = s.tk2 := rfl
@[simp] theorem startPairs_tk3 (s : State) : (startPairs s).tk3 = s.tk3 := rfl
@[simp] theorem startPairs_rc (s : State) : (startPairs s).rc = s.rc := rfl
@[simp] theorem startPairs_rnd (s : State) : (startPairs s).rnd = s.rnd := rfl
@[simp] theorem startPairs_acc (s : State) : (startPairs s).acc = s.acc := rfl
@[simp] theorem startPairs_idx (s : State) : (startPairs s).idx = some 0 := rfl
@[simp] theorem startPairs_op (s : State) : (startPairs s).op = s.op := rfl
@[simp] theorem startPairs_phase (s : State) : (startPairs s).phase = s.phase := rfl
@[simp] theorem startPairs_fault (s : State) : (startPairs s).fault = s.fault := rfl
@[simp] theorem startPairs_pending (s : State) : (startPairs s).pending = s.pending := rfl
@[simp] theorem startPairs_tagT (s : State) : (startPairs s).tagT = s.tagT := rfl
@[simp] theorem startPairs_scratch (s : State) : (startPairs s).scratch = s.scratch := rfl
@[simp] theorem startPairs_script (s : State) : (startPairs s).script = s.script := rfl
@[simp] theorem startPairs_reads (s : State) : (startPairs s).reads = s.reads := rfl
@[simp] theorem startPairs_log (s : State) : (startPairs s).log = s.log := rfl
@[simp] theorem startPairs_draws (s : State) : (startPairs s).draws = s.draws := rfl

/-! ## logHashPart -/

@[simp] theorem logHashPart_cfg (sp : Space) (start len i : Nat) (s : State) : (logHashPart sp start len i s).cfg = s.cfg := by simp [logHashPart]
@[simp] theorem logHashPart_key (sp : Space) (start len i : Nat) (s : State) : (logHashPart sp start len i s).key = s.key := by simp [logHashPart]
@[simp] theorem logHashPart_nonce (sp : Space) (start len i : Nat) (s : State) : (logHashPart sp start len i s).nonce = s.nonce := by simp [logHashPart]
@[simp] theorem logHashPart_tagin (sp : Space) (start len i : Nat) (s : State) : (logHashPart sp start len i s).tagin = s.tagin := by simp [logHashPart]
@[simp] theorem logHashPart_klen (sp : Space) (start len i : Nat) (s : State) : (logHashPart sp start len i s).klen = s.klen := by simp [logHashPart]
@[simp] theorem logHashPart_nlen (sp : Space) (start len i : Nat) (s : State) : (logHashPart sp start len i s).nlen = s.nlen := by simp [logHashPart]
@[simp] theorem logHashPart_tglen (sp : Space) (start len i : Nat) (s : State) : (logHashPart sp start len i s).tglen = s.tglen := by simp [logHashPart]
@[simp] theorem logHashPart_adlen (sp : Space) (start len i : Nat) (s : State) : (logHashPart sp start len i s).adlen = s.adlen := by simp [logHashPart]
@[simp] theorem logHashPart_tlen (sp : Space) (start len i : Nat) (s : State) : (logHashPart sp start len i s).tlen = s.tlen := by simp [logHashPart]
@[simp] theorem logHashPart_status (sp : Space) (start len i : Nat) (s : State) : (logHashPart sp start len i s).status = s.status := by simp [logHashPart]
@[simp] theorem logHashPart_tagout (sp : Space) (start len i : Nat) (s : State) : (logHashPart sp start len i s).tagout = s.tagout := by simp [logHashPart]
@[simp] theorem logHashPart_digest (sp : Space) (start len i : Nat) (s : State) : (logHashPart sp start len i s).digest = s.digest := by simp [logHashPart]
@[simp] theorem logHashPart_adbuf (sp : Space) (start len i : Nat) (s : State) : (logHashPart sp start len i s).adbuf = s.adbuf := by simp [logHashPart]
@[simp] theorem logHashPart_tin (sp : Space) (start len i : Nat) (s : State) : (logHashPart sp start len i s).tin = s.tin := by simp [logHashPart]
@[simp] theorem logHashPart_tout (sp : Space) (start len i : Nat) (s : State) : (logHashPart sp start len i s).tout = s.tout := by simp [logHashPart]
@[simp] theorem logHashPart_regS (sp : Space) (start len i : Nat) (s : State) : (logHashPart sp start len i s).regS = s.regS := by simp [logHashPart]
@[simp] theorem logHashPart_regL (sp : Space) (start len i : Nat) (s : State) : (logHashPart sp start len i s).regL = s.regL := by simp [logHashPart]
@[simp] theorem logHashPart_regR (sp : Space) (start len i : Nat) (s : State) : (logHashPart sp start len i s).regR = s.regR := by simp [logHashPart]
@[simp] theorem logHashPart_regZ (sp : Space) (start len i : Nat) (s : State) : (logHashPart sp start len i s).regZ = s.regZ := by simp [logHashPart]
@[simp] theorem logHashPart_regD (sp : Space) (start len i : Nat) (s : State) : (logHashPart sp start len i s).regD = s.regD := by simp [logHashPart]
@[simp] theorem logHashPart_tk1 (sp : Space) (start len i : Nat) (s : State) : (logHashPart sp start len i s).tk1 = s.tk1 := by simp [logHashPart]
@[simp] theorem logHashPart_tk2 (sp : Space) (start len i : Nat) (s : State) : (logHashPart sp start len i s).tk2 = s.tk2 := by simp [logHashPart]
@[simp] theorem logHashPart_tk3 (sp : Space) (start len i : Nat) (s : State) : (logHashPart sp start len i s).tk3 = s.tk3 := by simp [logHashPart]
@[simp] theorem logHashPart_rc (sp : Space) (start len i : Nat) (s : State) : (logHashPart sp start len i s).rc = s.rc := by simp [logHashPart]
@[simp] theorem logHashPart_rnd (sp : Space) (start len i : Nat) (s : State) : (logHashPart sp start len i s).rnd = s.rnd := by simp [logHashPart]
@[simp] theorem logHashPart_acc (sp : Space) (start len i : Nat) (s : State) : (logHashPart sp start len i s).acc = s.acc := by simp [logHashPart]
@[simp] theorem logHashPart_idx (sp : Space) (start len i : Nat) (s : State) : (logHashPart sp start len i s).idx = s.idx := by simp [logHashPart]
@[simp] theorem logHashPart_op (sp : Space) (start len i : Nat) (s : State) : (logHashPart sp start len i s).op = s.op := by simp [logHashPart]
@[simp] theorem logHashPart_phase (sp : Space) (start len i : Nat) (s : State) : (logHashPart sp start len i s).phase = s.phase := by simp [logHashPart]
@[simp] theorem logHashPart_fault (sp : Space) (start len i : Nat) (s : State) : (logHashPart sp start len i s).fault = s.fault := by simp [logHashPart]
@[simp] theorem logHashPart_pending (sp : Space) (start len i : Nat) (s : State) : (logHashPart sp start len i s).pending = s.pending := by simp [logHashPart]
@[simp] theorem logHashPart_tagT (sp : Space) (start len i : Nat) (s : State) : (logHashPart sp start len i s).tagT = s.tagT := by simp [logHashPart]
@[simp] theorem logHashPart_scratch (sp : Space) (start len i : Nat) (s : State) : (logHashPart sp start len i s).scratch = s.scratch := by simp [logHashPart]
@[simp] theorem logHashPart_script (sp : Space) (start len i : Nat) (s : State) : (logHashPart sp start len i s).script = s.script := by simp [logHashPart]
@[simp] theorem logHashPart_reads (sp : Space) (start len i : Nat) (s : State) : (logHashPart sp start len i s).reads = s.reads := by simp [logHashPart]
@[simp] theorem logHashPart_draws (sp : Space) (start len i : Nat) (s : State) : (logHashPart sp start len i s).draws = s.draws := by simp [logHashPart]

/-! ## logHashBlock -/

@[simp] theorem logHashBlock_cfg (i : Nat) (s : State) : (logHashBlock i s).cfg = s.cfg := by unfold logHashBlock; split_ifs <;> simp
@[simp] theorem logHashBlock_key (i : Nat) (s : State) : (logHashBlock i s).key = s.key := by unfold logHashBlock; split_ifs <;> simp
@[simp] theorem logHashBlock_nonce (i : Nat) (s : State) : (logHashBlock i s).nonce = s.nonce := by unfold logHashBlock; split_ifs <;> simp
@[simp] theorem logHashBlock_tagin (i : Nat) (s : State) : (logHashBlock i s).tagin = s.tagin := by unfold logHashBlock; split_ifs <;> simp
@[simp] theorem logHashBlock_klen (i : Nat) (s : State) : (logHashBlock i s).klen = s.klen := by unfold logHashBlock; split_ifs <;> simp
@[simp] theorem logHashBlock_nlen (i : Nat) (s : State) : (logHashBlock i s).nlen = s.nlen := by unfold logHashBlock; split_ifs <;> simp
@[simp] theorem logHashBlock_tglen (i : Nat) (s : State) : (logHashBlock i s).tglen = s.tglen := by unfold logHashBlock; split_ifs <;> simp
@[simp] theorem logHashBlock_adlen (i : Nat) (s : State) : (logHashBlock i s).adlen = s.adlen := by unfold logHashBlock; split_ifs <;> simp
@[simp] theorem logHashBlock_tlen (i : Nat) (s : State) : (logHashBlock i s).tlen = s.tlen := by unfold logHashBlock; split_ifs <;> simp
@[simp] theorem logHashBlock_status (i : Nat) (s : State) : (logHashBlock i s).status = s.status := by unfold logHashBlock; split_ifs <;> simp
@[simp] theorem logHashBlock_tagout (i : Nat) (s : State) : (logHashBlock i s).tagout = s.tagout := by unfold logHashBlock; split_ifs <;> simp
@[simp] theorem logHashBlock_digest (i : Nat) (s : State) : (logHashBlock i s).digest = s.digest := by unfold logHashBlock; split_ifs <;> simp
@[simp] theorem logHashBlock_adbuf (i : Nat) (s : State) : (logHashBlock i s).adbuf = s.adbuf := by unfold logHashBlock; split_ifs <;> simp
@[simp] theorem logHashBlock_tin (i : Nat) (s : State) : (logHashBlock i s).tin = s.tin := by unfold logHashBlock; split_ifs <;> simp
@[simp] theorem logHashBlock_tout (i : Nat) (s : State) : (logHashBlock i s).tout = s.tout := by unfold logHashBlock; split_ifs <;> simp
@[simp] theorem logHashBlock_regS (i : Nat) (s : State) : (logHashBlock i s).regS = s.regS := by unfold logHashBlock; split_ifs <;> simp
@[simp] theorem logHashBlock_regL (i : Nat) (s : State) : (logHashBlock i s).regL = s.regL := by unfold logHashBlock; split_ifs <;> simp
@[simp] theorem logHashBlock_regR (i : Nat) (s : State) : (logHashBlock i s).regR = s.regR := by unfold logHashBlock; split_ifs <;> simp
@[simp] theorem logHashBlock_regZ (i : Nat) (s : State) : (logHashBlock i s).regZ = s.regZ := by unfold logHashBlock; split_ifs <;> simp
@[simp] theorem logHashBlock_regD (i : Nat) (s : State) : (logHashBlock i s).regD = s.regD := by unfold logHashBlock; split_ifs <;> simp
@[simp] theorem logHashBlock_tk1 (i : Nat) (s : State) : (logHashBlock i s).tk1 = s.tk1 := by unfold logHashBlock; split_ifs <;> simp
@[simp] theorem logHashBlock_tk2 (i : Nat) (s : State) : (logHashBlock i s).tk2 = s.tk2 := by unfold logHashBlock; split_ifs <;> simp
@[simp] theorem logHashBlock_tk3 (i : Nat) (s : State) : (logHashBlock i s).tk3 = s.tk3 := by unfold logHashBlock; split_ifs <;> simp
@[simp] theorem logHashBlock_rc (i : Nat) (s : State) : (logHashBlock i s).rc = s.rc := by unfold logHashBlock; split_ifs <;> simp
@[simp] theorem logHashBlock_rnd (i : Nat) (s : State) : (logHashBlock i s).rnd = s.rnd := by unfold logHashBlock; split_ifs <;> simp
@[simp] theorem logHashBlock_acc (i : Nat) (s : State) : (logHashBlock i s).acc = s.acc := by unfold logHashBlock; split_ifs <;> simp
@[simp] theorem logHashBlock_idx (i : Nat) (s : State) : (logHashBlock i s).idx = s.idx := by unfold logHashBlock; split_ifs <;> simp
@[simp] theorem logHashBlock_op (i : Nat) (s : State) : (logHashBlock i s).op = s.op := by unfold logHashBlock; split_ifs <;> simp
@[simp] theorem logHashBlock_phase (i : Nat) (s : State) : (logHashBlock i s).phase = s.phase := by unfold logHashBlock; split_ifs <;> simp
@[simp] theorem logHashBlock_fault (i : Nat) (s : State) : (logHashBlock i s).fault = s.fault := by unfold logHashBlock; split_ifs <;> simp
@[simp] theorem logHashBlock_pending (i : Nat) (s : State) : (logHashBlock i s).pending = s.pending := by unfold logHashBlock; split_ifs <;> simp
@[simp] theorem logHashBlock_tagT (i : Nat) (s : State) : (logHashBlock i s).tagT = s.tagT := by unfold logHashBlock; split_ifs <;> simp
@[simp] theorem logHashBlock_scratch (i : Nat) (s : State) : (logHashBlock i s).scratch = s.scratch := by unfold logHashBlock; split_ifs <;> simp
@[simp] theorem logHashBlock_script (i : Nat) (s : State) : (logHashBlock i s).script = s.script := by unfold logHashBlock; split_ifs <;> simp
@[simp] theorem logHashBlock_reads (i : Nat) (s : State) : (logHashBlock i s).reads = s.reads := by unfold logHashBlock; split_ifs <;> simp
@[simp] theorem logHashBlock_draws (i : Nat) (s : State) : (logHashBlock i s).draws = s.draws := by unfold logHashBlock; split_ifs <;> simp

end Sys2Proof.Machine
end

