-- ==== Sys2Proof/Laws/Ops.lean ====
section
/-! SUPPORT. Once for each shared operation, everything it can do: the cases of a next state, and the small laws of outcomes,
operand registers and `STATUS`. -/

namespace Sys2Proof.Machine

/-! ## Outcomes -/

@[simp] theorem andThen_next (s : State) (f : State → Out State) : andThen (.next s) f = f s := rfl
@[simp] theorem andThen_fault (r : Fault) (f : State → Out State) : andThen (.fault r) f = .fault r := rfl
@[simp] theorem andThen_refused (r : Refusal) (f : State → Out State) : andThen (.refused r) f = .refused r := rfl

theorem andThen_eq_next {o : Out State} {f : State → Out State} {t : State} :
    andThen o f = .next t ↔ ∃ s, o = .next s ∧ f s = .next t := by
  cases o <;> simp [andThen]

@[simp] theorem need_some {α : Type} (a : α) (f : α → Out State) : need (some a) f = f a := rfl
@[simp] theorem need_none {α : Type} (f : α → Out State) : need none f = .fault .engineUnwritten := rfl

theorem need_eq_next {α : Type} {x : Option α} {f : α → Out State} {t : State} :
    need x f = .next t ↔ ∃ a, x = some a ∧ f a = .next t := by
  cases x <;> simp [need]

/-! ## Operand registers -/

@[simp] theorem OperandReg.value_unwritten : OperandReg.unwritten.value = none := by
  unfold OperandReg.value OperandReg.unwritten
  simp

/-- A fully written register has the value it was written with (R68). -/
@[simp] theorem OperandReg.value_ofBlock (b : Block) : (OperandReg.ofBlock b).value = some b := by
  unfold OperandReg.value OperandReg.ofBlock
  have h : (Vector.map some b).toList.all Option.isSome = true := by simp
  rw [if_pos h]
  congr 1
  ext i hi
  simp

/-- What is written to a length register has `w` bits (R25, R201). -/
theorem writeLengthByte_lt (w v i : Nat) (b : Byte) : writeLengthByte w v i b < 2 ^ w := Nat.mod_lt _ (Nat.two_pow_pos w)

/-- What a length register holds after the write of a byte, bit by bit (R63). -/
theorem writeLengthByte_holds (w v i : Nat) (b : Byte) : HoldsByte w v i b (writeLengthByte w v i b) := by
  refine ⟨writeLengthByte_lt w v i b, fun k hk => ?_⟩
  have h256 : ∀ n, 256 ^ n = 2 ^ (8 * n) := fun n => by rw [Nat.pow_mul]
  have hv : writeLengthByte w v i b =
      (2 ^ (8 * i) * (2 ^ 8 * (v / 2 ^ (8 * i + 8)) + b.toNat) + v % 2 ^ (8 * i)) % 2 ^ w := by
    simp only [writeLengthByte, h256, Nat.mul_add, ← Nat.mul_assoc, ← Nat.pow_add, Nat.mul_one]
    congr 1
    omega
  rw [hv, Nat.testBit_mod_two_pow, Nat.testBit_two_pow_mul_add _ (Nat.mod_lt _ (Nat.two_pow_pos _)),
    Nat.testBit_two_pow_mul_add _ b.isLt, Nat.testBit_mod_two_pow, Nat.testBit_div_two_pow]
  simp only [hk, decide_true, Bool.true_and]
  by_cases h1 : k < 8 * i
  · simp [h1, show ¬ 8 * i ≤ k by omega]
  · by_cases h2 : k - 8 * i < 8
    · simp [h1, h2, show 8 * i ≤ k ∧ k < 8 * i + 8 by omega, BitVec.getLsbD]
    · rw [if_neg h1, if_neg h2, if_neg (by omega)]
      congr 1
      omega

/-! ## Starting a command -/

/-- Everything `START` of a primitive can do (R306, R307): the mark for a busy access, the error outcome, the running state, or
the mark for an unwritten operand. -/
theorem startPrimitive_cases (v : BitVec 8) (k : Kind) (p : Phase) (s : State) :
    (s.busy = true ∧ startPrimitive v k p s = .next (raiseFault .busyAccess s)) ∨
      (s.busy = false ∧
        ((∃ c, precheck k (latch v s) = some c ∧ startPrimitive v k p s = .next (raiseError c (latch v s))) ∨
          (precheck k (latch v s) = none ∧ operandsWritten k (latch v s) = true ∧
            startPrimitive v k p s = .next { latch v s with status := statusRunning, phase := p }) ∨
          (precheck k (latch v s) = none ∧ operandsWritten k (latch v s) = false ∧
            startPrimitive v k p s = .next (raiseFault .unwrittenOperand (latch v s))))) := by
  unfold startPrimitive
  cases s.busy
  · refine .inr ⟨rfl, ?_⟩
    cases precheck k (latch v s) with
    | some c => exact .inl ⟨c, rfl, rfl⟩
    | none => cases operandsWritten k (latch v s) <;> simp
  · exact .inl ⟨rfl, rfl⟩

/-- `START` of a primitive on a busy block sets the mark and does nothing else (R70, R306). -/
theorem startPrimitive_busy {v : BitVec 8} {k : Kind} {p : Phase} {s : State} (h : s.busy = true) :
    startPrimitive v k p s = .next (raiseFault .busyAccess s) := by
  simp [startPrimitive, h]

/-- Everything `START` of a reserved word can do: the mark for a busy access, or `BAD_OP` (R301). -/
theorem startReserved_eq (v : BitVec 8) (s : State) :
    startReserved v s =
      if s.busy = true then .next (raiseFault .busyAccess s) else .next (raiseError .badOp (latch v s)) := rfl

/-- Everything `CLEAR` can do: the mark for a busy access, or R312. -/
theorem execClear_eq (s : State) :
    execClear s =
      if s.busy = true then .next (raiseFault .busyAccess s)
      else .next { unwriteOperands (latch (encode .clear) s) with status := statusClear, phase := .idle } := rfl

/-- A read of the host returns its bytes, or sets the mark (R306). -/
@[simp] theorem returnBytes_ok (bs : List Byte) (s : State) :
    returnBytes (.ok bs) s = .next { s with reads := s.reads ++ [bs] } := rfl
@[simp] theorem returnBytes_error (r : FaultReason) (s : State) : returnBytes (.error r) s = .next (raiseFault r s) := rfl

/-! ## Invocations -/

/-- Everything an invocation with the nonce as tweak word can answer with as a next state. -/
theorem invokeNonce_eq_next {i : Instr} {s t : State} (h : invokeNonce i s = .next t) :
    ∃ k n d x, s.key.value = some k ∧ s.nonce.value = some n ∧ s.regD = some d ∧ s.regS = some x ∧
      t =
        { afterTbc .key k n (encodeIn s.cfg.domain i) d x s with
          regS := some (tbc s.cfg k n (encodeIn s.cfg.domain i) d x) } := by
  simp only [invokeNonce, need_eq_next] at h
  obtain ⟨k, hk, n, hn, d, hd, x, hx, h⟩ := h
  cases h
  exact ⟨k, n, d, x, hk, hn, hd, hx, rfl⟩

/-- Everything an invocation with a block as tweak word can answer with as a next state. -/
theorem invokeBlock_eq_next {i : Instr} {sp : Space} {len : Nat} {s t : State} (h : invokeBlock i sp len s = .next t) :
    ∃ j w k d x, s.idx = some j ∧ s.block sp len j = some w ∧ s.key.value = some k ∧ s.regD = some d ∧ s.regS = some x ∧
      t =
        { afterTbc .key k (pad16 s.cfg w) (encodeIn s.cfg.domain i) d x (logBlock sp len j s) with
          regS := some (tbc s.cfg k (pad16 s.cfg w) (encodeIn s.cfg.domain i) d x) } := by
  simp only [invokeBlock, need_eq_next] at h
  obtain ⟨j, hj, w, hw, k, hk, d, hd, x, hx, h⟩ := h
  cases h
  exact ⟨j, w, k, d, x, hj, hw, hk, hd, hx, rfl⟩

/-- Everything the end of a loop body can answer with as a next state. -/
theorem stepCounter_eq_next {s t : State} (h : stepCounter s = .next t) :
    ∃ d i, s.regD = some d ∧ s.idx = some i ∧ t = { s with regD := some (cntStep s.cfg d), idx := some (i + 1) } := by
  simp only [stepCounter, need_eq_next] at h
  obtain ⟨d, hd, i, hi, h⟩ := h
  cases h
  exact ⟨d, i, hd, hi, rfl⟩

/-- An invocation with the nonce as tweak word completes when what it reads is written. -/
theorem invokeNonce_of {i : Instr} {s : State} {k n x : Block} {d : Counter} (hk : s.key.value = some k)
    (hn : s.nonce.value = some n) (hd : s.regD = some d) (hx : s.regS = some x) :
    invokeNonce i s =
      .next
        { afterTbc .key k n (encodeIn s.cfg.domain i) d x s with
          regS := some (tbc s.cfg k n (encodeIn s.cfg.domain i) d x) } := by
  simp [invokeNonce, hk, hn, hd, hx]

/-- An invocation with a block as tweak word completes when what it reads is written. -/
theorem invokeBlock_of {i : Instr} {sp : Space} {len j : Nat} {s : State} {w : List Byte} {k x : Block} {d : Counter}
    (hj : s.idx = some j) (hw : s.block sp len j = some w) (hk : s.key.value = some k) (hd : s.regD = some d)
    (hx : s.regS = some x) :
    invokeBlock i sp len s =
      .next
        { afterTbc .key k (pad16 s.cfg w) (encodeIn s.cfg.domain i) d x (logBlock sp len j s) with
          regS := some (tbc s.cfg k (pad16 s.cfg w) (encodeIn s.cfg.domain i) d x) } := by
  simp [invokeBlock, hj, hw, hk, hd, hx]

/-- The end of a loop body completes when counter and index are written. -/
theorem stepCounter_of {s : State} {d : Counter} {i : Nat} (hd : s.regD = some d) (hi : s.idx = some i) :
    stepCounter s = .next { s with regD := some (cntStep s.cfg d), idx := some (i + 1) } := by
  simp [stepCounter, hd, hi]

/-! ## `STATUS` (R27) -/

@[simp] theorem statusBusy_clear : statusBusy statusClear = false := by decide
@[simp] theorem statusBusy_running : statusBusy statusRunning = true := by decide
@[simp] theorem statusBusy_error (c : ErrorCode) : statusBusy (statusError c) = false := by cases c <;> decide
@[simp] theorem statusBusy_finished (v : Bool) : statusBusy (statusFinished v) = false := by cases v <;> decide
theorem statusLegal_clear : statusLegal statusClear = true := by decide
theorem statusLegal_running : statusLegal statusRunning = true := by decide
theorem statusLegal_error (c : ErrorCode) : statusLegal (statusError c) = true := by cases c <;> decide
theorem statusLegal_finished (v : Bool) : statusLegal (statusFinished v) = true := by cases v <;> decide

/-- The fields of a composed `STATUS` are the fields it was composed of. -/
theorem statusOf_fields (busy done valid err : Bool) (e : BitVec 4) :
    statusBusy (statusOf busy done valid err e) = busy ∧ statusDone (statusOf busy done valid err e) = done ∧
      statusValid (statusOf busy done valid err e) = valid ∧ statusErr (statusOf busy done valid err e) = err ∧
      statusEcode (statusOf busy done valid err e) = e := by
  revert busy done valid err e
  decide

end Sys2Proof.Machine
end

