-- ==== Sys2Proof/Laws/Engine.lean ====
section
/-! SUPPORT. What a micro-operation of the engine can do, said once: everything but the publication keeps the inputs, the
configuration and the results (`Kept`); the publication ends the command. `engineMicro_cases` is what later proofs cite. -/

namespace Sys2Proof.Machine

open Sys2Proof

/-- What every micro-operation but the publication keeps: configuration, operands, lengths, `STATUS`, results, input buffers,
`OP`, `FAULT` and the host's side; `TOUT` at and beyond `TLEN`; a phase that is not `IDLE`; a round index in range; and the form
and the bound of `TOUT`. -/
structure Kept (s t : State) : Prop where
  cfg : t.cfg = s.cfg
  key : t.key = s.key
  nonce : t.nonce = s.nonce
  tagin : t.tagin = s.tagin
  klen : t.klen = s.klen
  nlen : t.nlen = s.nlen
  tglen : t.tglen = s.tglen
  adlen : t.adlen = s.adlen
  tlen : t.tlen = s.tlen
  status : t.status = s.status
  tagout : t.tagout = s.tagout
  digest : t.digest = s.digest
  adbuf : t.adbuf = s.adbuf
  tin : t.tin = s.tin
  op : t.op = s.op
  fault : t.fault = s.fault
  script : t.script = s.script
  reads : t.reads = s.reads
  draws : t.draws = s.draws
  running : s.phase ≠ .idle → t.phase ≠ .idle
  round : (∀ r, s.rnd = some r → r ≤ s.cfg.rounds) → ∀ r, t.rnd = some r → r ≤ t.cfg.rounds
  tout_beyond : ∀ a, s.tlen ≤ a → t.tout.read a = s.tout.read a
  tout_wf : s.tout.wf → t.tout.wf
  tout_below : s.tlen ≤ s.cfg.bufCap → s.tout.below s.cfg.bufCap = true → t.tout.below s.cfg.bufCap = true

/-- Nothing done is `Kept`. -/
theorem Kept.self (s : State) : Kept s s := by constructor <;> simp

/-- `Kept` composes. -/
theorem Kept.trans {s t u : State} (h : Kept s t) (g : Kept t u) : Kept s u := by
  have ht : t.tlen = s.tlen := h.tlen
  constructor
  all_goals first
    | simp only [h.cfg, h.key, h.nonce, h.tagin, h.klen, h.nlen, h.tglen, h.adlen, h.tlen, h.status, h.tagout, h.digest,
        h.adbuf, h.tin, h.op, h.fault, h.script, h.reads, h.draws, g.cfg, g.key, g.nonce, g.tagin, g.klen, g.nlen, g.tglen,
        g.adlen, g.tlen, g.status, g.tagout, g.digest, g.adbuf, g.tin, g.op, g.fault, g.script, g.reads, g.draws]
    | skip
  · exact fun hp => g.running (h.running hp)
  · intro hr; simpa only [g.cfg, h.cfg] using g.round (h.round hr)
  · intro a ha; rw [g.tout_beyond a (by omega), h.tout_beyond a ha]
  · intro w; exact g.tout_wf (h.tout_wf w)
  · intro hc hb
    have := g.tout_below (by rw [ht, h.cfg]; exact hc) (by rw [h.cfg]; exact h.tout_below hc hb)
    rwa [h.cfg] at this

/-- `stepCounter` is `Kept`. -/
theorem stepCounter_kept {s t} (h : stepCounter s = .next t) : Kept s t := by
  obtain ⟨d, i, -, -, rfl⟩ := stepCounter_eq_next h
  constructor <;> simp

/-- An invocation tweaked by the nonce is `Kept`. -/
theorem invokeNonce_kept {i s t} (h : invokeNonce i s = .next t) : Kept s t := by
  obtain ⟨k, n, d, x, -, -, -, -, rfl⟩ := invokeNonce_eq_next h
  constructor <;> simp

/-- An invocation tweaked by a block is `Kept`. -/
theorem invokeBlock_kept {i sp len s t} (h : invokeBlock i sp len s = .next t) : Kept s t := by
  obtain ⟨j, w, k, d, x, -, -, -, -, -, rfl⟩ := invokeBlock_eq_next h
  constructor <;> simp

/-- The body of a pairing loop is `Kept`. -/
theorem pairMicro_kept {sp len n tag s t} (h : pairMicro sp len n tag s = .next t) : Kept s t := by
  simp only [pairMicro, need_eq_next] at h
  obtain ⟨i, -, d, -, h⟩ := h
  split at h
  · simp only [need_eq_next] at h
    obtain ⟨w, -, x, -, h⟩ := h
    exact Kept.trans (by constructor <;> simp) (stepCounter_kept h)
  · cases h; constructor <;> simp

/-- The set-up of a pairing loop is `Kept`. -/
theorem startPairs_kept (s) : Kept s (startPairs s) := by
  constructor <;> simp

/-- Keeping ciphertext in the scratch is `Kept`. -/
theorem keepText_kept (o s) : Kept s (keepText o s) := by
  constructor <;> simp

/-- Entering a phase that is not `IDLE` is `Kept`. -/
theorem enter_kept {p : Phase} (h : p ≠ .idle) (s) : Kept s (enter p s) := by
  constructor <;> simp [h]

/-- Writing an output block that ends within `TLEN` is `Kept`. -/
theorem writeText_kept (i : Nat) (o : List Byte) (s : State) (h : o = [] ∨ 16 * i + o.length ≤ s.tlen) :
    Kept s (writeText i o s) := by
  constructor <;> try simp
  · intro a ha
    rw [Memory.read_writeRange]
    rcases h with rfl | h
    · simp
    · rw [if_neg (by omega)]
  · intro w; exact Memory.writeRange_wf w _ _
  · intro hc hb
    exact Memory.writeRange_below _ hb (h.imp id (by omega))

/-- The length of an output block (R191). -/
theorem xorPrefix_length (m : List Byte) (k : Block) : (xorPrefix m k).length = min m.length 16 := by
  simp [xorPrefix]

/-- The output block of a text block ends within `TLEN` (R65, R67). -/
theorem xorPrefix_fits {s : State} {sp : Space} {i : Nat} {m : List Byte} (h : s.block sp s.tlen i = some m) (k : Block) :
    xorPrefix m k = [] ∨ 16 * i + (xorPrefix m k).length ≤ s.tlen := by
  have := Memory.readRange_length h
  simp only [blockLength] at this
  rcases Nat.lt_or_ge (16 * i) s.tlen with hi | hi
  · right; rw [xorPrefix_length]; omega
  · left; apply List.eq_nil_of_length_eq_zero; rw [xorPrefix_length]; omega

/-- In either direction the output block is the text block exclusive-or `G(S)` (R191, R192). -/
theorem rhoBy_snd (s : State) (x : Block) (m : List Byte) : (rhoBy s x m).2 = xorPrefix m (feedback s.cfg x) := by
  unfold rhoBy; split <;> rfl

/-- A domain row's invocation is `Kept`. -/
theorem execDomain_kept {i : Instr} (hi : i.format = .domain) {s t : State} (h : exec i s = .next t) : Kept s t := by
  cases i <;> simp only [Instr.format, reduceCtorEq] at hi <;> simp only [exec] at h
  case nMsg => exact invokeNonce_kept h
  case nMsgLastFull => exact invokeNonce_kept h
  case nMsgLastPart => exact invokeNonce_kept h
  case nAdLastFull => exact invokeNonce_kept h
  case nAdLastPart => exact invokeNonce_kept h
  case mCrypt => exact invokeNonce_kept h
  case mFinal => exact invokeNonce_kept h
  case nAd => exact invokeBlock_kept h
  case mAd => exact invokeBlock_kept h
  case mMsg => exact invokeBlock_kept h
  case tKdf =>
    simp only [execTKdf, need_eq_next] at h
    obtain ⟨k, -, n, -, h⟩ := h
    cases h; constructor <;> simp
  case tKu =>
    simp only [execTKu, need_eq_next] at h
    obtain ⟨k, -, n, -, d, -, h⟩ := h
    cases h; constructor <;> simp
  case tTgf =>
    simp only [execTTgf, need_eq_next] at h
    obtain ⟨k, -, n, -, d, -, h⟩ := h
    cases h; constructor <;> simp
  case tKs =>
    simp only [execTKs, need_eq_next] at h
    obtain ⟨z, -, n, -, d, -, i, -, x, hx, h⟩ := h
    cases h
    refine Kept.trans (t := logBlock .tin s.tlen i (afterTbc .z z n (encodeIn s.cfg.domain .tKs) d Block.zero s))
      (by constructor <;> simp) (Kept.trans (writeText_kept _ _ _ ?_) (keepText_kept _ _))
    simpa using xorPrefix_fits hx _

/-- Every row of a domain table is a domain row. -/
theorem domainRows_format (t : DomainTable) : ∀ r ∈ t.rows, r.2.format = .domain := by
  simp [DomainTable.rows, Instr.format]

/-- What a domain byte decodes to is a domain row. -/
theorem decodeDomain_format {t : DomainTable} {b : Byte} {i : Instr} (h : decodeDomain t b = .ok i) : i.format = .domain := by
  unfold decodeDomain at h
  split at h
  · cases h; rfl
  · split at h
    · rename_i x hx
      cases h
      exact domainRows_format t _ (List.mem_of_find?_eq_some hx)
    · cases h

/-- The rest of a loop body is `Kept`. -/
theorem afterInvocation_kept {i : Instr} {s t : State} (h : afterInvocation i s = .next t) : Kept s t := by
  cases i <;> simp only [afterInvocation, reduceCtorEq] at h
  case nMsg => simp only [nTextNext, need_eq_next] at h; obtain ⟨i, -, h⟩ := h; cases h; constructor <;> simp
  case nAd => exact stepCounter_kept h
  case mAd => exact stepCounter_kept h
  case mMsg => exact stepCounter_kept h
  case tKu => exact stepCounter_kept h
  case mFinal =>
    simp only [mFinalNext, need_eq_next] at h
    obtain ⟨i, -, h⟩ := h
    cases h
    constructor <;> simp
    split <;> simp
  case tKs =>
    simp only [tKsNext, need_eq_next] at h
    obtain ⟨i, -, d, -, h⟩ := h
    split at h
    · cases h; constructor <;> simp
    · exact stepCounter_kept h
  case mCrypt =>
    simp only [mCryptNext, need_eq_next] at h
    obtain ⟨i, -, m, hm, x, -, h⟩ := h
    refine Kept.trans ?_ (stepCounter_kept h)
    refine Kept.trans (t := logBlock .tin s.tlen i { s with regS := some (rhoBy s x m).1 }) (by constructor <;> simp)
      (writeText_kept _ _ _ ?_)
    rw [rhoBy_snd]
    simpa using xorPrefix_fits hm _
  case tTgf =>
    cases h
    constructor <;> simp
    split <;> simp
  all_goals
    cases h
    constructor <;> simp

/-- A pending invocation with the rest of its loop body is `Kept`. -/
theorem invocationMicro_kept {s t : State} (h : invocationMicro s = .next t) : Kept s t := by
  simp only [invocationMicro, need_eq_next] at h
  obtain ⟨w, -, h⟩ := h
  split at h
  · cases h
  · split at h
    · rename_i i hi
      obtain ⟨u, h1, h2⟩ := andThen_eq_next.mp h
      exact (execDomain_kept (decodeDomain_format hi) h1).trans (afterInvocation_kept h2)
    · cases h

/-- A compression call is `Kept`. -/
theorem invokeCompress_kept (b l r s) : Kept s (invokeCompress b l r s) := by
  constructor <;> simp

/-- Every micro-operation of the sequence but the publication is `Kept`. -/
theorem sequence_kept {s t : State} (h : sequenceMicro s = .next t) (hp : s.phase ≠ .publish) : Kept s t := by
  unfold sequenceMicro at h
  split at h
  · cases h
  · split at h
    · unfold nAdMicro at h
      split at h
      · cases h; exact startPairs_kept s
      · split at h
        · exact pairMicro_kept h
        · simp only [need_eq_next] at h
          obtain ⟨d, -, h⟩ := h
          cases h; constructor <;> simp
    · unfold mAdMicro at h
      split at h
      · cases h; exact startPairs_kept s
      · split at h
        · exact pairMicro_kept h
        · cases h; exact enter_kept (by simp) s
    · cases h
    · cases h
    · cases h
  · unfold nTextMicro at h
    split at h
    · cases h; constructor <;> simp
    · rename_i i _
      simp only [need_eq_next] at h
      obtain ⟨m, hm, x, -, d, -, h⟩ := h
      cases h
      refine Kept.trans (t := writeText i (rhoBy s x m).2 (logBlock .tin s.tlen i
              { s with regS := some (rhoBy s x m).1, regD := some (cntStep s.cfg d) })) ?_ (by constructor <;> simp)
      refine Kept.trans (t := logBlock .tin s.tlen i
              { s with regS := some (rhoBy s x m).1, regD := some (cntStep s.cfg d) }) (by constructor <;> simp) ?_
      apply writeText_kept
      rw [rhoBy_snd]
      simpa using xorPrefix_fits hm _
  · unfold mMacMicro at h
    split at h
    · cases h; constructor <;> simp
    · split at h
      · exact pairMicro_kept h
      · cases h; exact enter_kept (by simp) s
  · unfold mCryptMicro at h
    split at h
    · simp only [need_eq_next] at h
      obtain ⟨d, -, h⟩ := h
      cases h; constructor <;> simp
    · simp only [need_eq_next] at h
      obtain ⟨d, -, h⟩ := h
      split at h
      · cases h; constructor <;> simp
      · cases h; constructor <;> simp
        split <;> simp
  · cases h; constructor <;> simp
  · unfold tStreamMicro at h
    split at h
    · cases h; constructor <;> simp
    · simp only [need_eq_next] at h
      obtain ⟨d, -, h⟩ := h
      split at h <;> cases h <;> constructor <;> simp
  · unfold hashMicro at h
    split at h
    · cases h; constructor <;> simp
    · simp only [need_eq_next] at h
      obtain ⟨x, -, l, -, r, -, h⟩ := h
      split at h
      · cases h; constructor <;> simp
      · cases h; constructor <;> simp
        split <;> simp
  · split at h
    · simp only [nFinalMicro, need_eq_next] at h
      obtain ⟨x, -, h⟩ := h
      cases h; constructor <;> simp
      split <;> simp
    · simp only [mFinalMicro, need_eq_next] at h
      obtain ⟨x, -, h⟩ := h
      cases h; constructor <;> simp
    · cases h; constructor <;> simp
    · cases h
    · cases h
  · simp only [compareMicro, need_eq_next] at h
    obtain ⟨x, -, y, -, h⟩ := h
    cases h; constructor <;> simp
  · exact absurd (by assumption) hp

/-- The end of a command leaves every internal register unwritten (R38). -/
theorem destroy_clean (s : State) : internalsUnwritten (destroy s) = true := by
  simp [internalsUnwritten]

/-- Everything the publication can answer with: a digest, a tag, a valid plaintext, or an invalid tag with free values. -/
theorem publishMicro_eq_next {s t : State} (h : publishMicro s = .next t) :
    (s.kind = .hash ∧ ∃ l r, s.regL = some l ∧ s.regR = some r ∧
        t = destroy { s with digest := some (l ++ r), status := statusFinished true }) ∨
      (s.kind = .encrypt ∧ ∃ g, s.tagT = some g ∧ t = destroy { s with tagout := some g, status := statusFinished true }) ∨
      (s.kind = .decrypt ∧ s.acc = some 0#8 ∧ t = destroy { s with status := statusFinished true }) ∨
      (s.kind = .decrypt ∧ (∃ a, s.acc = some a ∧ a ≠ 0#8) ∧
        t = destroy
          { s with
            status := statusFinished false, tout := s.tout.writeRange 0 (freeBytes s.draws s.tlen)
            draws := s.draws + s.tlen }) := by
  unfold publishMicro at h
  split at h
  · rename_i hk
    simp only [need_eq_next] at h
    obtain ⟨l, hl, r, hr, h⟩ := h
    cases h
    exact .inl ⟨hk, l, r, hl, hr, rfl⟩
  · rename_i hk
    simp only [need_eq_next] at h
    obtain ⟨g, hg, h⟩ := h
    cases h
    exact .inr (.inl ⟨hk, g, hg, rfl⟩)
  · rename_i hk
    simp only [need_eq_next] at h
    obtain ⟨a, ha, h⟩ := h
    split at h
    · rename_i h0
      cases h
      subst h0
      exact .inr (.inr (.inl ⟨hk, ha, rfl⟩))
    · rename_i h0
      cases h
      exact .inr (.inr (.inr ⟨hk, ⟨a, ha, h0⟩, rfl⟩))

/-- A micro-operation is `Kept`, or it is the publication. -/
theorem engineMicro_cases {s t : State} (h : engineMicro s = .next t) :
    Kept s t ∨ (s.phase = .publish ∧ s.pending = false ∧ publishMicro s = .next t) := by
  unfold engineMicro at h
  split at h
  · exact .inl (invocationMicro_kept h)
  · rename_i hr
    by_cases hp : s.phase = .publish
    · refine .inr ⟨hp, by simpa using hr, ?_⟩
      simpa only [sequenceMicro, hp] using h
    · exact .inl (sequence_kept h hp)

end Sys2Proof.Machine
end

