-- ==== Sys2Proof/Laws/PerInstr.lean ====
section
/-! SUPPORT. The per-instruction family RoundTrip: the word of an instruction is a word of its own format that decodes to it, and
no instruction is a word of the other format. -/

namespace Sys2Proof.Laws

/-- `i` is well formed in one format only, its own, and its word decodes to it there (R90, R91, R97). -/
def RoundTrip.Statement (i : Instr) : Prop :=
  (∀ f, i.wellFormed f = true ↔ f = i.format) ∧ decodeByte DomainTable.default i.format (encode i) = .ok i

theorem RoundTrip.wellFormed_iff (i : Instr) (f : Format) : i.wellFormed f = true ↔ f = i.format := by
  simp [Instr.wellFormed, eq_comm]

theorem RoundTrip.clear : RoundTrip.Statement .clear := ⟨RoundTrip.wellFormed_iff _, by rfl⟩
theorem RoundTrip.hash : RoundTrip.Statement .hash := ⟨RoundTrip.wellFormed_iff _, by rfl⟩
theorem RoundTrip.nEnc : RoundTrip.Statement .nEnc := ⟨RoundTrip.wellFormed_iff _, by rfl⟩
theorem RoundTrip.nDec : RoundTrip.Statement .nDec := ⟨RoundTrip.wellFormed_iff _, by rfl⟩
theorem RoundTrip.mEnc : RoundTrip.Statement .mEnc := ⟨RoundTrip.wellFormed_iff _, by rfl⟩
theorem RoundTrip.mDec : RoundTrip.Statement .mDec := ⟨RoundTrip.wellFormed_iff _, by rfl⟩
theorem RoundTrip.tEnc : RoundTrip.Statement .tEnc := ⟨RoundTrip.wellFormed_iff _, by rfl⟩
theorem RoundTrip.tDec : RoundTrip.Statement .tDec := ⟨RoundTrip.wellFormed_iff _, by rfl⟩
theorem RoundTrip.nMsg : RoundTrip.Statement .nMsg := ⟨RoundTrip.wellFormed_iff _, by rfl⟩
theorem RoundTrip.nAd : RoundTrip.Statement .nAd := ⟨RoundTrip.wellFormed_iff _, by rfl⟩
theorem RoundTrip.nMsgLastFull : RoundTrip.Statement .nMsgLastFull := ⟨RoundTrip.wellFormed_iff _, by rfl⟩
theorem RoundTrip.nMsgLastPart : RoundTrip.Statement .nMsgLastPart := ⟨RoundTrip.wellFormed_iff _, by rfl⟩
theorem RoundTrip.nAdLastFull : RoundTrip.Statement .nAdLastFull := ⟨RoundTrip.wellFormed_iff _, by rfl⟩
theorem RoundTrip.nAdLastPart : RoundTrip.Statement .nAdLastPart := ⟨RoundTrip.wellFormed_iff _, by rfl⟩
theorem RoundTrip.mCrypt : RoundTrip.Statement .mCrypt := ⟨RoundTrip.wellFormed_iff _, by rfl⟩
theorem RoundTrip.mAd : RoundTrip.Statement .mAd := ⟨RoundTrip.wellFormed_iff _, by rfl⟩
theorem RoundTrip.mMsg : RoundTrip.Statement .mMsg := ⟨RoundTrip.wellFormed_iff _, by rfl⟩
theorem RoundTrip.mFinal (fl : BitVec 4) : RoundTrip.Statement (.mFinal fl) :=
  ⟨RoundTrip.wellFormed_iff _, by revert fl; decide⟩
theorem RoundTrip.tKs : RoundTrip.Statement .tKs := ⟨RoundTrip.wellFormed_iff _, by rfl⟩
theorem RoundTrip.tKu : RoundTrip.Statement .tKu := ⟨RoundTrip.wellFormed_iff _, by rfl⟩
theorem RoundTrip.tKdf : RoundTrip.Statement .tKdf := ⟨RoundTrip.wellFormed_iff _, by rfl⟩
theorem RoundTrip.tTgf : RoundTrip.Statement .tTgf := ⟨RoundTrip.wellFormed_iff _, by rfl⟩

end Sys2Proof.Laws
end

