-- ==== Sys2Proof/Laws/Step.lean ====
section
/-! SUPPORT. What a step can do, said once: the fetch of a pending invocation, and the cases of a step that goes on. -/

namespace Sys2Proof.Machine

open Sys2Proof

/-- The first slot of a kind, looked up beside the bytes the slots hold, is that kind's byte. -/
theorem find_zip_map (l : List Tk1Slot) (f : Tk1Slot → Byte) (x : Tk1Slot) (h : x ∈ l) :
    ((l.zip (l.map f)).find? fun p => p.1 = x).map Prod.snd = some (f x) := by
  induction l with
  | nil => cases h
  | cons y l ih =>
    by_cases hy : y = x
    · simp [hy]
    · rcases List.mem_cons.mp h with rfl | h
      · exact absurd rfl hy
      · simpa [hy] using ih h

/-- The domain byte of an assembled `TK1` is read back where the layout has a place for it (R96). -/
theorem tagOf_aeadTk1 {c : Config} (h : c.tk1Layout.toList.contains .domain = true) (d : Counter) (b : Byte) :
    tagOf c (aeadTk1 c d b) = some b := by
  have := find_zip_map c.tk1Layout.toList (tk1Byte d b) .domain (by simpa using h)
  simpa [tagOf, aeadTk1, tk1Byte, Vector.toList_map] using this

/-- What a command word decodes to is a command row. -/
theorem decodeCommand_format {b : Byte} {i : Instr} (h : decodeCommand b = .ok i) : i.format = .cmd8 := by
  unfold decodeCommand at h
  split at h
  · cases h
  · split at h <;> cases h <;> rfl

/-- With no invocation pending the engine takes the next micro-operation of its sequence. -/
theorem engineMicro_sequence {s : State} (h : s.pending = false) : engineMicro s = sequenceMicro s := by
  unfold engineMicro
  rw [if_neg]
  simpa using h

/-- With the invocation tagged `i` pending the engine runs it and the rest of its loop body. -/
theorem engineMicro_invocation {s : State} {w : Block} {b : Byte} {i : Instr} (h : s.pending = true) (hw : s.tk1 = some w)
    (hb : tagOf s.cfg w = some b) (hi : decodeDomain s.cfg.domain b = .ok i) :
    engineMicro s = andThen (exec i s) (afterInvocation i) := by
  simp [engineMicro, h, invocationMicro, hw, hb, hi]

/-- With no fault a step is the turn of the host's next action. -/
theorem step_action {s : State} {a : HostAction} {rest : List HostAction} (hf : s.fault = none) (h : s.script = a :: rest) :
    step s = hostTurn a rest s := by
  simp only [step, hf, turn, h]

/-- With no fault and nothing to come from the host a step is the engine's turn. -/
theorem step_quiet {s : State} (hf : s.fault = none) (h : s.script = []) : step s = engineTurn s := by
  simp only [step, hf, turn, h]

/-- A step that goes on starts with the mark `FAULT` clear and is a turn, of which `turn_cases` says the rest (R11, R306). -/
theorem step_cases {s t : State} (h : step s = .next t) : s.fault = none ∧ turn s = .next t := by
  unfold step at h
  split at h
  · cases h
  · exact ⟨by assumption, h⟩

/-- Everything a turn that goes on can be, `FAULT` set or not: the engine's turn, or one of the host's eight actions. -/
theorem turn_cases {s t : State} (h : turn s = .next t) :
    (s.script = [] ∧ engineTurn s = .next t) ∨
      ∃ a rest, s.script = a :: rest ∧
        ((a = .idle ∧ engineTurn { s with script := rest } = .next t) ∨
          (∃ v, a = .start v ∧ start v { s with script := rest } = .next t) ∨
          (∃ off bs, a = .writeReg off bs ∧ writeRegisters off bs { s with script := rest } = .next t) ∨
          (∃ off n, a = .readReg off n ∧
            returnBytes (readBytes (fun o => readRegisterByte o s) off n) { s with script := rest } = .next t) ∨
          (∃ sp off bs, a = .writeBuf sp off bs ∧ writeBuffer sp off bs { s with script := rest } = .next t) ∨
          (∃ sp off n, a = .readBuf sp off n ∧
            returnBytes (readBytes (fun o => readBufferByte sp o s) off n) { s with script := rest } = .next t) ∨
          (a = .wait ∧ s.busy = true ∧ engineMicro s = .next t) ∨
          (a = .wait ∧ s.busy = false ∧ t = { s with script := rest, reads := s.reads ++ [[s.status]] }) ∨
          (a = .reset ∧ t = resetAction { s with script := rest })) := by
  unfold turn at h
  split at h
  · exact .inl ⟨by assumption, h⟩
  · rename_i a rest hs
    refine .inr ⟨a, rest, hs, ?_⟩
    cases a with
    | idle => exact .inl ⟨rfl, h⟩
    | start v => exact .inr (.inl ⟨v, rfl, h⟩)
    | writeReg off bs => exact .inr (.inr (.inl ⟨off, bs, rfl, h⟩))
    | readReg off n => exact .inr (.inr (.inr (.inl ⟨off, n, rfl, h⟩)))
    | writeBuf sp off bs => exact .inr (.inr (.inr (.inr (.inl ⟨sp, off, bs, rfl, h⟩))))
    | readBuf sp off n => exact .inr (.inr (.inr (.inr (.inr (.inl ⟨sp, off, n, rfl, h⟩)))))
    | wait =>
      simp only [hostTurn] at h
      split at h
      · exact .inr (.inr (.inr (.inr (.inr (.inr (.inl ⟨rfl, by assumption, h⟩))))))
      · cases h
        exact .inr (.inr (.inr (.inr (.inr (.inr (.inr (.inl ⟨rfl, by simp_all, rfl⟩)))))))
    | reset =>
      cases h
      exact .inr (.inr (.inr (.inr (.inr (.inr (.inr (.inr ⟨rfl, rfl⟩)))))))

end Sys2Proof.Machine
end

