-- ==== Sys2Proof/Tests/Slice0.lean ====
section
/-! SUPPORT. Tests: the WellFormed smoke, the written-out words, the spec's derived vectors (95_test_vectors.md) and hand
calculations from its rules, each on one step or one function; then, for every statement with hypotheses, a concrete state that
meets them. No expected value here was taken from the model. -/

namespace Sys2Proof.Tests

-- One theorem at a time: many kernel evaluations at once exhaust the threads Lean may start.
set_option Elab.async false

open Sys2Proof Sys2Proof.Machine

/-! ## Helpers -/

/-- `x` as `n` bytes, the leftmost two hexadecimal digits byte 0, as the vectors write strings. -/
def bytes (n x : Nat) : List Byte := (List.range n).map fun i => BitVec.ofNat 8 (x >>> (8 * (n - 1 - i)))

/-- A block from its 32 hexadecimal digits. -/
def block (x : Nat) : Block := Block.ofBytes (bytes 16 x)

/-- `seq(n)`. -/
def seqBytes (n : Nat) : List Byte := (List.range n).map fun i => BitVec.ofNat 8 i

/-- `seq(16)`. -/
def seqBlock : Block := block 0x000102030405060708090a0b0c0d0e0f

/-- The block `20 .. 2f` of V7. -/
def block2 : Block := block 0x202122232425262728292a2b2c2d2e2f

/-- The block `30 .. 3f` of V7. -/
def block3 : Block := block 0x303132333435363738393a3b3c3d3e3f

/-- The buffer with the bytes `l` from offset 0. -/
def memory (l : List Byte) : Memory := Memory.writeRange [] 0 l

/-- The operands of the vectors: lengths 16, key and nonce `seq(16)`, a tag, `seq(la)` and `seq(lt)`. -/
def loaded (la lt : Nat) : State :=
  { State.reset with
    klen := 16, nlen := 16, tglen := 16, adlen := la, tlen := lt
    key := OperandReg.ofBlock seqBlock, nonce := OperandReg.ofBlock seqBlock, tagin := OperandReg.ofBlock block3
    adbuf := memory (seqBytes la), tin := memory (seqBytes lt) }

/-- The block running the command `i`, in phase `p`. -/
def running (i : Instr) (p : Phase) (la lt : Nat) : State :=
  { loaded la lt with op := encode i, status := 0x01#8, phase := p }

/-- The default configuration with `n` rounds instead of 40. -/
def roundsOnly (n : Nat) : Config := { Config.default with rounds := n }

/-- A running block with one round, all internal registers the block `x`, counter 0, index `j`, key `k` and nonce `n`. -/
def oneRound (i : Instr) (p : Phase) (k n x : Block) (j : Nat) : State :=
  { running i p 16 16 with
    cfg := roundsOnly 1, key := OperandReg.ofBlock k, nonce := OperandReg.ofBlock n
    regS := some x, regL := some x, regR := some n, regZ := some k, regD := some 0, idx := some j }

/-- The outcome is a next state with the property `p`. -/
def goesOn (o : Out State) (p : State → Bool) : Bool :=
  match o with
  | .next t => p t
  | .fault _ => false
  | .refused _ => false

/-- The outcome is a next state with the mark `FAULT` set for the reason `r` (R306). -/
def marks (o : Out State) (r : FaultReason) : Bool := goesOn o fun t => t.fault = some r

/-- `STATUS` and `PHASE` after the host's write of `v` to `CMD`. -/
def startsIn (v : Byte) (s : State) (st : BitVec 8) (p : Phase) : Bool :=
  goesOn (start v s) fun t => t.status = st && t.phase = p

/-! ## WellFormed: the one check, and what it refuses (R90, R97) -/

theorem test_wellFormed_domain_is_no_command : Instr.nMsg.wellFormed .cmd8 = false := by decide
theorem test_wellFormed_command_is_no_domain : Instr.nEnc.wellFormed .domain = false := by decide
theorem test_wellFormed_accepts : Instr.tDec.wellFormed .cmd8 = true ∧ (Instr.mFinal 15#4).wellFormed .domain = true := by decide

/-! ## Words written out from R91 and R97: `RSV[7:4] MODE[3:1] DIR[0]`, and the column `B` of the domain table -/

theorem test_decode_control_and_hash : decodeCommand 0b00000000#8 = .ok .clear ∧ decodeCommand 0b00000010#8 = .ok .hash := by decide
theorem test_decode_romulusN : decodeCommand 0b00000100#8 = .ok .nEnc ∧ decodeCommand 0b00000101#8 = .ok .nDec := by decide
theorem test_decode_romulusM : decodeCommand 0b00000110#8 = .ok .mEnc ∧ decodeCommand 0b00000111#8 = .ok .mDec := by decide
theorem test_decode_romulusT : decodeCommand 0b00001000#8 = .ok .tEnc ∧ decodeCommand 0b00001001#8 = .ok .tDec := by decide
theorem test_decode_n_domains :
    [0b00000100#8, 0b00001000#8, 0b00010100#8, 0b00010101#8, 0b00011000#8, 0b00011010#8].map (decodeDomain DomainTable.default) =
      [.ok .nMsg, .ok .nAd, .ok .nMsgLastFull, .ok .nMsgLastPart, .ok .nAdLastFull, .ok .nAdLastPart] := by decide
theorem test_decode_m_domains :
    [0b00100100#8, 0b00101000#8, 0b00101100#8, 0b00110000#8, 0b00111011#8, 0b00111111#8].map
        (decodeDomain DomainTable.default) =
      [.ok .mCrypt, .ok .mAd, .ok .mMsg, .ok (.mFinal 0b0000#4), .ok (.mFinal 0b1011#4), .ok (.mFinal 0b1111#4)] := by decide
theorem test_decode_t_domains :
    [0b01000000#8, 0b01000001#8, 0b01000010#8, 0b01000100#8].map (decodeDomain DomainTable.default) =
      [.ok .tKs, .ok .tKu, .ok .tKdf, .ok .tTgf] := by decide
theorem test_decode_reserved_commands :
    decodeCommand 0x01#8 = .error .dirReserved ∧ decodeCommand 0x03#8 = .error .dirReserved ∧
      decodeCommand 0x0A#8 = .error .modeReserved ∧ decodeCommand 0x0F#8 = .error .modeReserved ∧
      decodeCommand 0x10#8 = .error .rsvNotZero ∧ decodeCommand 0xFF#8 = .error .rsvNotZero := by decide
theorem test_decode_unused_domains :
    [0x00#8, 0x43#8, 0x2F#8, 0x45#8].map (decodeDomain DomainTable.default) =
      List.replicate 4 (.error .domainNeverProduced) := by decide
theorem test_decode_shared_words_read_as_commands :
    decodeTableWord 8 0x04 = some .nEnc ∧ decodeTableWord 8 0x08 = some .tEnc ∧ decodeTableWord 8 0x14 = some .nMsgLastFull := by
  decide

/-! ## The cipher (V2 to V7) -/

theorem test_sbox_V5 :
    [0x00#8, 0x01#8, 0x02#8, 0x7f#8, 0x80#8, 0xac#8, 0xfe#8, 0xff#8].map (sboxLookup Config.default) =
      [0x65#8, 0x4c#8, 0x6a#8, 0xfd#8, 0x36#8, 0x00#8, 0xdf#8, 0xff#8] := by decide +kernel
theorem test_sboxByRule_V5 :
    [0x00#8, 0x01#8, 0x7f#8, 0xac#8].map sboxByRule = [0x65#8, 0x4c#8, 0xfd#8, 0x00#8] := by decide +kernel
theorem test_subCells_V4 : subCells Config.default seqBlock = block 0x654c6a424b63436b55755a7a53735b7b := by decide +kernel
theorem test_addConstants_V4 :
    addConstants 0x01#6 (block 0x654c6a424b63436b55755a7a53735b7b) = block 0x644c6a424b63436b57755a7a53735b7b := by decide +kernel
theorem test_addRoundTweakey_V4 :
    addRoundTweakey #v[0#8, 1#8, 2#8, 3#8, 4#8, 5#8, 6#8, 7#8] (block 0x644c6a424b63436b57755a7a53735b7b) =
      block 0x644d68414f66456c57755a7a53735b7b := by decide +kernel
theorem test_shiftRows_V4 :
    shiftRows Config.default (block 0x644d68414f66456c57755a7a53735b7b) = block 0x644d68416c4f66455a7a5775735b7b53 := by
  decide +kernel
theorem test_mixColumns_V4 :
    mixColumns Config.default (block 0x644d68416c4f66455a7a5775735b7b53) = block 0x4d6c4467644d6841363531303e373f34 := by
  decide +kernel
/-- The worked example of R132. -/
theorem test_cipherRound_R132 :
    cipherRound Config.default 0x01#6 #v[0#8, 1#8, 2#8, 3#8, 4#8, 5#8, 6#8, 7#8] seqBlock =
      block 0x4d6c4467644d6841363531303e373f34 := by decide +kernel
theorem test_permute_three_rounds_V3 :
    permute (roundsOnly 3)
        ⟨seqBlock, block 0x101112131415161718191a1b1c1d1e1f, block2⟩ seqBlock = block 0x469ae7b949bd8e7245e405642f3c5c30 := by
  decide +kernel
theorem test_tkUpdate_V7 :
    tkUpdate Config.default ⟨block 0x101112131415161718191a1b1c1d1e1f, block2, block3⟩ =
      ⟨block 0x191f181d1a1e1c1b1011121314151617, block 0x535f515b555d59572021222324252627,
        block 0x9c9f1c9e1d1f1e9d3031323334353637⟩ := by decide +kernel
theorem test_subtweakey_V7 :
    subtweakey ⟨block 0x101112131415161718191a1b1c1d1e1f, block2, block3⟩ = #v[0#8, 1#8, 2#8, 3#8, 4#8, 5#8, 6#8, 7#8] := by
  decide +kernel

/-! ## The engine's functions (V9 to V13) -/

theorem test_cntStep_V9 :
    cntStep Config.default 0x80#56 = 0x100#56 ∧ cntStep Config.default 0x80000000000000#56 = 0x95#56 := by decide +kernel
theorem test_feedback_V10 : feedback Config.default seqBlock = block 0x00800181028203830484058506860787 := by decide +kernel
theorem test_pad16_V11 :
    pad16 Config.default [] = Block.zero ∧
      pad16 Config.default [0xaa#8, 0xbb#8, 0xcc#8] = block 0xaabbcc00000000000000000000000003 ∧
      pad16 Config.default (List.replicate 15 0#8) = block 0x0f ∧ pad16 Config.default (seqBytes 16) = seqBlock := by decide +kernel
theorem test_ipad32_V11 :
    ipad32 [] = List.replicate 32 0#8 ∧ ipad32 [0xaa#8, 0xbb#8] = [0xaa#8, 0xbb#8] ++ List.replicate 29 0#8 ++ [2#8] := by
  decide +kernel
theorem test_ipadStar16_V11 :
    ipadStar16 [] = [] ∧ ipadStar16 (seqBytes 3) = bytes 16 0x00010200000000000000000000000003 ∧
      ipadStar16 (seqBytes 16) = seqBytes 16 ++ List.replicate 16 0#8 := by decide +kernel
theorem test_rho_V12 :
    rho Config.default seqBlock [0xff#8, 0xee#8, 0xdd#8] =
      (block 0xffefdf030405060708090a0b0c0d0e0c, [0xff#8, 0x6e#8, 0xdc#8]) := by decide +kernel
theorem test_rhoInv_V12 :
    rhoInv Config.default seqBlock [0xff#8, 0x6e#8, 0xdc#8] =
      (block 0xffefdf030405060708090a0b0c0d0e0c, [0xff#8, 0xee#8, 0xdd#8]) := by decide +kernel
theorem test_tagDifference_V13 :
    tagEqual seqBlock seqBlock = true ∧ tagDifference Block.zero (block 0x01) = 0x01#8 := by decide +kernel
theorem test_mFlags_V21 : mFlags (loaded 3 5) = 0b0011#4 ∧ mFlags (loaded 17 33) = 0b1011#4 := by decide +kernel
theorem test_authInput_V22 :
    authInput { loaded 3 5 with op := 0x08#8, scratch := bytes 5 0x423490618d, regD := some 2 } =
      some (bytes 16 0x00010200000000000000000000000003 ++ bytes 16 0x423490618d0000000000000000000005 ++ seqBytes 16
        ++ [2#8, 0#8, 0#8, 0#8, 0#8, 0#8, 0#8]) := by decide +kernel

/-! ## Commands (V50 to V73) -/

theorem test_badOp_V50 : startsIn 0x03#8 State.reset 0x1A#8 .idle = true := by decide +kernel
theorem test_badOp_latches_V51 : goesOn (start 0xFF#8 State.reset) (fun t => t.status = 0x1A#8 && t.op = 0xFF#8) = true := by
  decide +kernel
theorem test_nEnc_badKeyLen_V52 : startsIn 0x04#8 State.reset 0x2A#8 .idle = true := by decide +kernel
theorem test_mEnc_badKeyLen_V53 : startsIn 0x06#8 { State.reset with klen := 17, nlen := 16 } 0x2A#8 .idle = true := by
  decide +kernel
theorem test_tEnc_badNonceLen_V54 : startsIn 0x08#8 { State.reset with klen := 16, nlen := 12 } 0x3A#8 .idle = true := by
  decide +kernel
theorem test_nDec_badTagLen_V55 :
    startsIn 0x05#8 { State.reset with klen := 16, nlen := 16, tglen := 15 } 0x4A#8 .idle = true := by decide +kernel
theorem test_nEnc_ignores_tglen_V56 :
    marks (start 0x04#8 { State.reset with klen := 16, nlen := 16, tglen := 15 }) .unwrittenOperand = true ∧
      startsIn 0x04#8 { State.reset with klen := 16, nlen := 16, tglen := 15 } 0x00#8 .idle = true := by decide +kernel
theorem test_hash_ignores_adlen_V61 : startsIn 0x02#8 { State.reset with adlen := 65 } 0x01#8 .hashblk = true := by
  decide +kernel
theorem test_hash_unwritten_V72 : marks (start 0x02#8 { State.reset with tlen := 1 }) .unwrittenOperand = true := by
  decide +kernel
theorem test_mDec_starts : startsIn 0x07#8 (loaded 3 5) 0x01#8 .crypt = true := by decide +kernel
theorem test_mDec_badTagLen : startsIn 0x07#8 { loaded 3 5 with tglen := 15 } 0x4A#8 .idle = true := by decide +kernel
theorem test_tDec_starts : startsIn 0x09#8 (loaded 0 64) 0x01#8 .kdf = true := by decide +kernel
theorem test_tDec_busy_V74 : marks (exec .tDec (running .tDec .kdf 3 5)) .busyAccess = true := by decide +kernel
theorem test_clear_destroys_P3 :
    goesOn (exec .clear { loaded 3 5 with status := 0x02#8, tagout := some seqBlock, tout := memory (seqBytes 5) }) (fun t =>
      t.status = 0 && t.tagout = none && t.tout = [] && t.key = OperandReg.unwritten && t.tlen = 5
        && t.tin = memory (seqBytes 5)) = true := by decide +kernel
theorem test_error_entry_P4 :
    goesOn (start 0x08#8 { loaded 0 0 with klen := 17 }) (fun t =>
      t.status = 0x2A#8 && t.nonce = OperandReg.unwritten && t.klen = 17 && t.log = []) = true := by decide +kernel

/-! ## Invocations. With one round, counter 0, key and tweak word zero, the state after is V4's first round by hand: the domain
byte reaches cell 7 of the subtweakey, which `ShiftRows` and `MixColumns` take to cell 8. With key `30 .. 3f` and tweak word
`20 .. 2f` the words `TK3` and `TK2` after one round are V7's. -/

/-- One round of `seq(16)` under the domain byte `b` alone, by hand from V4. -/
def seqRound (b : Byte) : Block := (block 0x4d6d4664644c6a42313134363e363d37).set 8 (0x31#8 ^^^ b)

/-- One round of `0^16` under the domain byte `b` alone, by hand from V2. -/
def zeroRound (b : Byte) : Block := (block 0x64656765646565650000020001000200).set 8 b

/-- The invocation tagged `i` writes `S` as by hand, with all of key and tweak zero. -/
def roundOf (i : Instr) (b : Byte) : Bool :=
  goesOn (exec i (oneRound .nEnc .ad Block.zero Block.zero seqBlock 0)) fun t =>
    t.regS = some (seqRound b) && t.log = [.invoke .key (some (b, 0))]

/-- The invocation tagged `i` uses key and tweak word as V7. -/
def wordsOf (i : Instr) (s : State) : Bool :=
  goesOn (exec i s) fun t =>
    t.tk2 = some (block 0x535f515b555d59572021222324252627) && t.tk3 = some (block 0x9c9f1c9e1d1f1e9d3031323334353637)

/-- The running block of V7: key `30 .. 3f`, nonce `20 .. 2f`. -/
def wordsState (i : Instr) (p : Phase) : State := oneRound i p block3 block2 seqBlock 0

theorem test_nMsg_result : roundOf .nMsg 0x04#8 = true := by decide +kernel
theorem test_nMsg_tweakey : wordsOf .nMsg (wordsState .nEnc .text) = true := by decide +kernel
theorem test_nMsgLastFull_result : roundOf .nMsgLastFull 0x14#8 = true := by decide +kernel
theorem test_nMsgLastFull_tweakey : wordsOf .nMsgLastFull (wordsState .nEnc .text) = true := by decide +kernel
theorem test_nMsgLastPart_result : roundOf .nMsgLastPart 0x15#8 = true := by decide +kernel
theorem test_nMsgLastPart_tweakey : wordsOf .nMsgLastPart (wordsState .nEnc .text) = true := by decide +kernel
theorem test_nAdLastFull_result : roundOf .nAdLastFull 0x18#8 = true := by decide +kernel
theorem test_nAdLastFull_tweakey : wordsOf .nAdLastFull (wordsState .nEnc .ad) = true := by decide +kernel
theorem test_nAdLastPart_result : roundOf .nAdLastPart 0x1A#8 = true := by decide +kernel
theorem test_nAdLastPart_tweakey : wordsOf .nAdLastPart (wordsState .nEnc .ad) = true := by decide +kernel
theorem test_mCrypt_result : roundOf .mCrypt 0x24#8 = true := by decide +kernel
theorem test_mCrypt_tweakey : wordsOf .mCrypt (wordsState .mEnc .crypt) = true := by decide +kernel
theorem test_mFinal_result : roundOf (.mFinal 0b1011#4) 0x3B#8 = true := by decide +kernel
theorem test_mFinal_tweakey : wordsOf (.mFinal 0#4) (wordsState .mEnc .final) = true := by decide +kernel

/-- The invocation tagged `i` takes the block `20 .. 2f` at index `j` for its tweak word. -/
def blockState (i : Instr) (p : Phase) (ad text : Block) (j : Nat) : State :=
  { oneRound i p block3 seqBlock seqBlock j with adbuf := memory ad.toList, tin := memory text.toList }

/-- The invocation tagged `i` on an all-zero block writes `S` as by hand. -/
def blockRoundOf (i : Instr) (s : State) (b : Byte) : Bool :=
  goesOn (exec i { s with key := OperandReg.ofBlock Block.zero }) fun t => t.regS = some (seqRound b)

theorem test_nAd_result : blockRoundOf .nAd (blockState .nEnc .ad Block.zero seqBlock 0) 0x08#8 = true := by decide +kernel
theorem test_nAd_tweakey : wordsOf .nAd (blockState .nEnc .ad block2 seqBlock 0) = true := by decide +kernel
theorem test_mAd_result : blockRoundOf .mAd (blockState .mEnc .ad Block.zero seqBlock 0) 0x28#8 = true := by decide +kernel
theorem test_mAd_tweakey : wordsOf .mAd (blockState .mEnc .ad block2 seqBlock 0) = true := by decide +kernel
theorem test_mMsg_result : blockRoundOf .mMsg (blockState .mEnc .mac seqBlock Block.zero 0) 0x2C#8 = true := by decide +kernel
/-- For `M_DEC` the message element is in `TOUT` (R249). -/
theorem test_mMsg_reads_recovered_text :
    wordsOf .mMsg { blockState .mDec .mac seqBlock seqBlock 0 with tout := memory block2.toList } = true := by decide +kernel
theorem test_tKdf_result :
    goesOn (exec .tKdf (oneRound .tEnc .kdf Block.zero seqBlock block2 0)) (fun t => t.regZ = some (seqRound 0x42#8)) = true := by
  decide +kernel
theorem test_tKdf_key :
    goesOn (exec .tKdf (oneRound .tEnc .kdf block3 seqBlock block2 0)) (fun t =>
      t.tk2 = some Block.zero && t.tk3 = some (block 0x9c9f1c9e1d1f1e9d3031323334353637)
        && t.log = [.invoke .key (some (0x42#8, 0))]) = true := by decide +kernel
/-- The text is `0^16`, so `TOUT`, and the scratch of R199, is the keystream block. -/
theorem test_tKs_result :
    goesOn (exec .tKs { oneRound .tEnc .stream Block.zero Block.zero seqBlock 0 with tin := memory Block.zero.toList }) (fun t =>
      t.tout = memory (zeroRound 0x40#8).toList && t.scratch = (zeroRound 0x40#8).toList) = true := by decide +kernel
theorem test_tKs_tweakey : wordsOf .tKs (wordsState .tEnc .stream) = true := by decide +kernel
theorem test_tKu_result :
    goesOn (exec .tKu (oneRound .tEnc .stream Block.zero Block.zero seqBlock 0)) (fun t =>
      t.regZ = some (zeroRound 0x41#8) && t.log = [.invoke .z (some (0x41#8, 0))]) = true := by decide +kernel
theorem test_tKu_tweakey : wordsOf .tKu (wordsState .tEnc .stream) = true := by decide +kernel
theorem test_tTgf_result :
    goesOn (exec .tTgf (oneRound .tEnc .final Block.zero Block.zero seqBlock 0)) (fun t => t.tagT = some (seqRound 0x44#8)) =
      true := by decide +kernel
theorem test_tTgf_tweakey : wordsOf .tTgf (wordsState .tEnc .final) = true := by decide +kernel

/-- An invocation runs once, whatever the round count: what `RND` holds after it is not read (R144). -/
theorem test_rnd_is_not_read :
    goesOn
      (engineMicro
        { blockState .nEnc .ad block2 seqBlock 0 with
          cfg := roundsOnly 0, tk1 := some (Block.zero.set 7 0x08#8), pending := true })
      (fun t => !t.pending && t.rnd = some 0 && t.idx = some 1) = true := by decide +kernel

/-! ## The host's side (V74 to V79) -/

theorem test_busy_write_V74 : marks (writeRegisterByte 0x0C 3#8 (running .hash .hashblk 0 0)) .busyAccess = true := by
  decide +kernel
theorem test_busy_status_read : readRegisterByte 1 (running .hash .hashblk 0 0) = .ok 0x01#8 := by rfl
theorem test_read_tagout_V75 : readRegisterByte 0x40 State.reset = .error .readNoValue := by rfl
theorem test_read_key_V76 : readRegisterByte 0x10 (loaded 3 5) = .error .readNoValue := by rfl
theorem test_read_beyond_text_V78 :
    readBufferByte .tout 5 { loaded 3 5 with tout := memory (bytes 5 0x255ed813c6) } = .error .readNoValue := by rfl
theorem test_write_status_ignored_V79 : writeRegisterByte 1 0xFF#8 State.reset = .next State.reset := by rfl
/-- The message part of the first pass goes on with the counter and `S` of the associated-data part (R243; log 11). -/
theorem test_mac_goes_on :
    goesOn (engineMicro { running .mEnc .mac 17 5 with regS := some seqBlock, regD := some 4 }) (fun t =>
      t.regS = some seqBlock && t.regD = some 4 && t.idx = some 0) = true := by decide +kernel
theorem test_write_adlen_little_endian :
    goesOn (writeRegisters 8 [0x01#8, 0x02#8, 0x00#8, 0x00#8] State.reset) (fun t => t.adlen = 0x0201) = true := by
  decide +kernel

/-! ## Witnesses: for each statement with hypotheses, concrete states and operands that meet them, one for each of its clauses -/

/-- The operands of `loaded` are there, at the ends of both length ranges and between. -/
theorem test_witness_operands_0_0 : AeadOperands (loaded 0 0) seqBlock seqBlock [] [] := by constructor <;> decide +kernel
theorem test_witness_operands_64_64 :
    AeadOperands (loaded 64 64) seqBlock seqBlock (seqBytes 64) (seqBytes 64) := by constructor <;> decide +kernel
theorem test_witness_operands_3_5 :
    AeadOperands (loaded 3 5) seqBlock seqBlock [0#8, 1#8, 2#8] [0#8, 1#8, 2#8, 3#8, 4#8] := by constructor <;> decide +kernel

/-- The block with its operands loaded is at rest: with the three theorems above, the hypotheses of the runs of the six
authenticated-encryption commands and of `PrimitivesStart`. -/
theorem test_witness_run :
    AtRest (loaded 3 5) ∧ AtRest (loaded 0 0) ∧ AtRest (loaded 64 64) ∧ (loaded 3 5).cfg.admitted = true ∧
      (loaded 3 5).busy = false ∧ (loaded 3 5).tglen = 16 ∧ (loaded 3 5).tagin.value = some block3 := by
  refine ⟨⟨rfl, rfl, ?_, ?_⟩, ⟨rfl, rfl, ?_, ?_⟩, ⟨rfl, rfl, ?_, ?_⟩, ?_, ?_, ?_, ?_⟩ <;> decide +kernel
theorem test_witness_HashRunsToItsDigest :
    AtRest State.reset ∧ State.reset.cfg.admitted = true ∧ State.reset.tlen ≤ State.reset.cfg.bufCap ∧
      State.reset.tin.readRange 0 State.reset.tlen = some [] ∧
      (loaded 0 64).tin.readRange 0 (loaded 0 64).tlen = some (seqBytes 64) := by
  refine ⟨⟨rfl, rfl, ?_, ?_⟩, ?_, ?_, ?_, ?_⟩ <;> decide +kernel

/-- A domain table that is not the default, with distinct bytes. -/
def otherTable : DomainTable := { DomainTable.default with nMsg := 0xA1#8, nAd := 0x04#8, mFinal := 0x5B#8, tTgf := 0xFF#8 }

theorem test_witness_EncodeAndDecodeAgree :
    Instr.tDec.wellFormed .cmd8 = true ∧ (Instr.mFinal 15#4).wellFormed .domain = true ∧ otherTable.distinct = true ∧
      DomainTable.default.distinct = true ∧
      decode otherTable .cmd8 [0x09#8, 0xFF#8] = .ok (.tDec, [0xFF#8]) ∧
      decode DomainTable.default .domain [0x3F#8] = .ok (.mFinal 15#4, []) ∧
      decode otherTable .domain [0x04#8, 0x00#8] = .ok (.nAd, [0x00#8]) ∧
      decode otherTable .domain [0x54#8] = .ok (.mFinal 15#4, []) := by decide +kernel
theorem test_witness_ReservedWordsEndInBadOp :
    (loaded 3 5).busy = false ∧ startsIn 0x01#8 (loaded 3 5) 0x1A#8 .idle = true ∧
      startsIn 0x03#8 (loaded 3 5) 0x1A#8 .idle = true ∧ startsIn 0x0A#8 (loaded 3 5) 0x1A#8 .idle = true ∧
      startsIn 0xFF#8 (loaded 3 5) 0x1A#8 .idle = true := by decide +kernel
/-- One state for each branch of R307, those not met by the commands above; lengths at their limits (V57, V60). -/
theorem test_witness_StartChecksInOrder :
    startsIn 0x00#8 (loaded 3 5) 0x00#8 .idle = true ∧
      startsIn 0x09#8 { loaded 3 5 with nlen := 17 } 0x3A#8 .idle = true ∧
      startsIn 0x07#8 { loaded 3 5 with tglen := 17 } 0x4A#8 .idle = true ∧
      startsIn 0x08#8 { loaded 3 5 with adlen := 65 } 0x5A#8 .idle = true ∧
      startsIn 0x02#8 { State.reset with klen := 17, tlen := 65 } 0x5A#8 .idle = true ∧
      startsIn 0x04#8 { loaded 3 5 with tlen := 65 } 0x5A#8 .idle = true ∧
      marks (start 0x05#8 { loaded 3 5 with tagin := OperandReg.unwritten }) .unwrittenOperand = true ∧
      startsIn 0x06#8 (loaded 64 64) 0x01#8 .ad = true := by decide +kernel

/-- The block before a command refused for its key length meets the invariant. -/
theorem test_witness_ErrorEntryIsExact :
    Inv { loaded 3 5 with klen := 15 } ∧
      goesOn (start 0x04#8 { loaded 3 5 with klen := 15 }) (fun t => statusErr t.status) = true := by
  refine ⟨?_, by decide +kernel⟩
  constructor
  case round_index => exact fun r h => nomatch h
  all_goals decide +kernel
theorem test_witness_ClearEmptiesTheBlock : (loaded 3 5).busy = false ∧ State.reset.busy = false := by decide +kernel

/-- The host's busy accesses, at the offsets beside `STATUS` and at both ends of the register file. -/
theorem test_witness_BusyBlockAnswersStatusOnly :
    goesOn (step { running .hash .hashblk 0 0 with script := [.readReg 1 1] }) (fun t => t.reads = [[0x01#8]]) = true ∧
      (registerAt Config.default 1).map Prod.fst = some .status ∧ (registerAt Config.default 2).map Prod.fst ≠ some .status ∧
      marks (step { running .hash .hashblk 0 0 with script := [.start 0xFF#8] }) .busyAccess = true ∧
      marks (step { running .hash .hashblk 0 0 with script := [.readReg 0 1] }) .busyAccess = true ∧
      marks (step { running .hash .hashblk 0 0 with script := [.readReg 1 2] }) .busyAccess = true ∧
      marks (step { running .hash .hashblk 0 0 with script := [.writeReg 1 [0#8]] }) .busyAccess = true ∧
      marks (step { running .hash .hashblk 0 0 with script := [.writeBuf .tout 64 [0#8]] }) .busyAccess = true ∧
      marks (step { running .hash .hashblk 0 0 with script := [.readBuf .adbuf 0 1] }) .busyAccess = true ∧
      Instr.clear.format = .cmd8 := by decide +kernel
theorem test_witness_IgnoredWritesChangeNothing :
    let w (a : HostAction) : State := { State.reset with script := [a] }
    (w .idle).fault = none ∧ (w .idle).busy = false ∧ (w .idle).cfg.regMap = Config.defaultRegMap ∧
      step (w (.writeReg 1 [1#8])) = .next State.reset ∧ step (w (.writeReg 5 [1#8])) = .next State.reset ∧
      step (w (.writeReg 7 [1#8])) = .next State.reset ∧ step (w (.writeReg 0x40 [1#8])) = .next State.reset ∧
      step (w (.writeReg 0x80 [1#8])) = .next State.reset ∧ registerAt (w .idle).cfg 0x50 = none ∧
      step (w (.writeBuf .tout 0 [1#8])) = .next State.reset ∧
      step (w (.writeBuf .tin 64 [1#8])) = .next State.reset :=
  ⟨rfl, rfl, rfl, rfl, rfl, rfl, rfl, rfl, rfl, rfl, rfl⟩
/-- The ends of every register's offsets, and the offsets beside them (R68). -/
theorem test_witness_IdleReadsReturnWhatIsThere :
    let s : State := { loaded 3 5 with adlen := 0x04030201, tagout := some seqBlock, digest := some (seqBlock ++ block2) }
    s.busy = false ∧ s.cfg.regMap = Config.defaultRegMap ∧ readRegisterByte 0 s = .error .readNoValue ∧ readRegisterByte 4 s = .ok 16#8 ∧
      readRegisterByte 5 s = .error .readNoValue ∧ readRegisterByte 8 s = .ok 1#8 ∧ readRegisterByte 11 s = .ok 4#8 ∧
      readRegisterByte 12 s = .ok 5#8 ∧ readRegisterByte 15 s = .ok 0#8 ∧ readRegisterByte 0x1F s = .error .readNoValue ∧
      readRegisterByte 0x2F s = .ok 15#8 ∧ readRegisterByte 0x30 s = .ok 0x30#8 ∧ readRegisterByte 0x4F s = .ok 15#8 ∧
      readRegisterByte 0x50 s = .error .readNoValue ∧ readRegisterByte 0x60 s = .ok 0#8 ∧ readRegisterByte 0x7F s = .ok 0x2F#8 ∧
      readRegisterByte 0x80 s = .error .readNoValue ∧ readBufferByte .tin 4 s = .ok 4#8 ∧
      readBufferByte .tin 5 s = .error .readNoValue ∧ readBufferByte .tin 64 s = .error .readNoValue := by
  decide +kernel
/-- The steps that read: a range of bytes that are there, none, and one of which is not. -/
theorem test_witness_idle_reads_step :
    let s (a : HostAction) : State := { loaded 3 5 with script := [a], fault := none }
    goesOn (step (s (.readReg 0x2E 3))) (fun t => t.reads = [[14#8, 15#8, 0x30#8]] && t.script = []) = true ∧
      goesOn (step (s (.readReg 0x10 0))) (fun t => t.reads = [[]]) = true ∧
      marks (step (s (.readReg 4 2))) .readNoValue = true ∧
      goesOn (step (s (.readBuf .tin 3 2))) (fun t => t.reads = [[3#8, 4#8]]) = true ∧
      marks (step (s (.readBuf .tin 4 2))) .readNoValue = true := by decide +kernel
/-- A whole register, one byte of it at either end, a length of 32 bits and one of 7 (its top bit dropped), one byte of a length. -/
theorem test_witness_RegisterWritesLand :
    let s (c : Config) (a : HostAction) : State := { State.resetWith c with script := [a] }
    let c7 : Config := { Config.default with lenWidth := 7, bufCap := 64 }
    (s c7 .idle).busy = false ∧ c7.regMap = Config.defaultRegMap ∧ c7.lenWidth ≤ 32 ∧ Config.default.lenWidth ≤ 32 ∧
      goesOn (step (s c7 (.writeReg 0x30 seqBlock.toList))) (fun t => t.tagin.value = some seqBlock) = true ∧
      goesOn (step (s c7 (.writeReg 0x1F [7#8]))) (fun t => t.key = OperandReg.unwritten.set 15 (some 7#8)) = true ∧
      goesOn (step (s c7 (.writeReg 8 [0xC1#8]))) (fun t => t.adlen = 0x41) = true ∧
      goesOn (step { s Config.default (.writeReg 15 [0xAB#8]) with tlen := 0x04030201 }) (fun t => t.tlen = 0xAB030201) = true ∧
      goesOn (step { s Config.default (.writeReg 9 [0xAB#8]) with adlen := 0x04030201 }) (fun t => t.adlen = 0x0403AB01) = true ∧
      goesOn (step (s c7 (.writeReg 8 [0xC1#8, 0#8, 0#8, 0#8]))) (fun t => t.adlen = 0x41) = true ∧
      goesOn (step (s Config.default (.writeReg 12 [1#8, 2#8, 3#8, 0xFF#8]))) (fun t => t.tlen = 0xFF030201) = true := by
  decide +kernel
/-- The last bytes of `ADBUF`, and no byte at its end. -/
theorem test_witness_BufferWritesReadBack :
    State.reset.busy = false ∧ 60 + (seqBytes 4).length ≤ State.reset.cfg.bufCap ∧
      64 + ([] : List Byte).length ≤ State.reset.cfg.bufCap ∧
      goesOn (step { State.reset with script := [.writeBuf .adbuf 60 (seqBytes 4)] }) (fun t =>
        t.adbuf.read 63 = some 3#8 && t.script = []) = true ∧
      goesOn (step { State.reset with script := [.writeBuf .tin 64 []] }) (fun t => t.tin = []) = true := by decide +kernel

/-- The layout of R96, and one that is not it. -/
theorem test_witness_AeadTweakeyLayout :
    Config.default.tk1Layout = Config.defaultTk1Layout ∧
      tagOf { Config.default with tk1Layout := Config.defaultTk1Layout.reverse } seqBlock = some 8#8 := by decide +kernel
theorem test_witness_NonceInvocations :
    (wordsState .nEnc .text).key.value = some block3 ∧ (wordsState .nEnc .text).nonce.value = some block2 ∧
      (wordsState .nEnc .text).regD = some 0 ∧ (wordsState .nEnc .text).regS = some seqBlock := by decide +kernel
/-- A running block whose key, `S`, `D` and `IDX` are written, with `IDX = j`. -/
def atBlock (i : Instr) (p : Phase) (la lt : Nat) (j : Nat) : State :=
  { running i p la lt with regS := some seqBlock, regD := some 2, idx := some j, tout := memory (seqBytes lt) }

/-- The last, partial block of associated data, a full one, and the message block in `TIN` and in `TOUT`, and an empty one. -/
theorem test_witness_BlockInvocations :
    (atBlock .nEnc .ad 17 5 1).key.value = some seqBlock ∧
      (atBlock .nEnc .ad 17 5 1).adbuf.readRange 16 (min 16 ((atBlock .nEnc .ad 17 5 1).adlen - 16)) = some [16#8] ∧
      (atBlock .mEnc .ad 17 5 0).adbuf.readRange 0 (min 16 ((atBlock .mEnc .ad 17 5 0).adlen - 0)) = some (seqBytes 16) ∧
      (atBlock .mEnc .mac 17 5 0).op.getLsbD 0 = false ∧ (atBlock .mDec .mac 17 5 0).op.getLsbD 0 = true ∧
      (atBlock .mDec .mac 17 5 0).tout.readRange 0 (min 16 ((atBlock .mDec .mac 17 5 0).tlen - 0)) = some (seqBytes 5) ∧
      (atBlock .mEnc .mac 17 0 0).tin.readRange 0 (min 16 ((atBlock .mEnc .mac 17 0 0).tlen - 0)) = some [] := by
  decide +kernel
theorem test_witness_SessionKeyInvocations :
    (wordsState .tEnc .kdf).key.value = some block3 ∧ (wordsState .tEnc .kdf).nonce.value = some block2 ∧
      (wordsState .tEnc .stream).regZ = some block3 ∧ (wordsState .tEnc .stream).regD = some 0 := by decide +kernel
/-- A last block of one byte, and a full one. -/
theorem test_witness_KeystreamInvocation :
    let s : State := { atBlock .tEnc .stream 3 17 1 with regZ := some block3 }
    s.regZ = some block3 ∧ s.nonce.value = some seqBlock ∧ s.regD = some 2 ∧ s.idx = some 1 ∧
      s.tin.readRange 16 (min 16 (s.tlen - 16)) = some [16#8] ∧
      s.tin.readRange 0 (min 16 (s.tlen - 0)) = some (seqBytes 16) := by decide +kernel
/-- Both formats: under `KEY`, and under the session key. -/
theorem test_witness_TagGenerationInvocation :
    let s : State := wordsState .tEnc .final
    let z : State := { s with cfg := { Config.default with tFormat := .sessionTag }, regZ := some seqBlock }
    s.cfg.tFormat = .longTermTag ∧ s.key.value = some block3 ∧ s.regL = some seqBlock ∧ s.regR = some block2 ∧
      z.cfg.tFormat = .sessionTag ∧ z.tagKey = some seqBlock ∧
      goesOn (exec .tTgf { z with cfg := { z.cfg with rounds := 1 } }) (fun t =>
        t.log = [.invoke .z (some (0x44#8, 0))]) = true := by decide +kernel
theorem test_witness_ClosingDomainByte : (loaded 3 5).cfg.domain = DomainTable.default := by rfl
theorem test_witness_LongTermKeyIsUsedTwice :
    Config.default.tFormat = .longTermTag ∧ (tTrace Config.default 0 0).length = 4 := by decide +kernel

/-- What the statements on functions assume of a configuration or a length holds of the default, at the limits. -/
theorem test_witness_functions :
    Config.default.sbox = Config.default.sbox ∧ Config.default.cntPoly = 0x95#8 ∧ (seqBytes 16).length ≤ 16 ∧
      ([] : List Byte).length ≤ 16 ∧ (seqBytes 31).length ≤ 31 ∧ seqBytes 1 ≠ [] := by
  refine ⟨rfl, rfl, ?_, ?_, ?_, ?_⟩ <;> decide
/-- V12: what `rho` and `rho_inv` are said to undo. -/
theorem test_witness_RhoAndItsInverse :
    rhoInv Config.default seqBlock [0xff#8, 0x6e#8, 0xdc#8] =
        (block 0xffefdf030405060708090a0b0c0d0e0c, [0xff#8, 0xee#8, 0xdd#8]) ∧
      rho Config.default seqBlock [] = (seqBlock, []) := by decide +kernel
/-- Some tag differs from the one computed. -/
theorem test_witness_DecryptionUndoesEncryption :
    ∃ t, t ≠ (nEncrypt (roundsOnly 1) seqBlock seqBlock [] []).2 ∧ t ≠ (tEncrypt (roundsOnly 1) seqBlock seqBlock [] []).2 :=
  ⟨Block.zero, by decide +kernel, by decide +kernel⟩

/-- A running block, mid-way through its text, meets the invariant, and its step goes on. -/
theorem test_witness_StepKeepsInv :
    Inv { atBlock .nEnc .text 17 5 0 with tout := memory (seqBytes 5), rc := some 3, rnd := some 2 } ∧
      goesOn (step { atBlock .nEnc .text 17 5 0 with rc := some 3, rnd := some 2 }) (fun _ => true) = true := by
  refine ⟨?_, by decide +kernel⟩
  constructor
  case round_index => intro r h; cases h; decide
  all_goals decide +kernel
/-- Two running blocks with different keys, nonces and data and the same lengths. -/
theorem test_witness_TraceDependsOnLengthsOnly :
    SameShape (atBlock .nEnc .ad 17 5 1)
        { atBlock .nEnc .ad 17 5 1 with
          key := OperandReg.ofBlock block2, nonce := OperandReg.ofBlock block3, adbuf := memory (List.replicate 17 9#8)
          regS := some block2 } ∧
      (atBlock .nEnc .ad 17 5 1).cfg.admitted = true ∧ (atBlock .nEnc .ad 17 5 1).script = [] ∧
      goesOn (steps 1 (atBlock .nEnc .ad 17 5 1)) (fun t => t.pending) = true := by
  refine ⟨?_, by decide +kernel, rfl, by decide +kernel⟩
  constructor <;> first | rfl | exact fun _ => rfl
theorem test_witness_StartMakesTheEngineReady :
    Instr.nEnc.format = .cmd8 ∧ Inv State.reset ∧ State.reset.busy = false ∧ State.reset.cfg.admitted = true ∧
      goesOn (exec .hash State.reset) (fun t => t.busy) = true ∧ goesOn (exec .mDec (loaded 64 0)) (fun t => t.busy) = true := by
  refine ⟨rfl, ?_, rfl, by decide +kernel, by decide +kernel, by decide +kernel⟩
  constructor
  case round_index => exact fun r h => nomatch h
  all_goals decide +kernel
/-- Ready engines: at the entry of each command, inside a phase, with an invocation pending, before the publication; none has a
fault or a host action to come. -/
theorem test_witness_EngineReady :
    EngineReady (running .hash .hashblk 3 5) = true ∧ EngineReady (running .nDec .ad 3 5) = true ∧
      EngineReady (running .mEnc .ad 64 64) = true ∧ EngineReady (running .mDec .crypt 0 0) = true ∧
      EngineReady (running .tEnc .kdf 3 5) = true ∧ EngineReady (atBlock .nEnc .text 17 5 0) = true ∧
      EngineReady { atBlock .nEnc .ad 17 5 1 with tk1 := some (Block.zero.set 7 0x08#8), pending := true } = true ∧
      EngineReady { atBlock .mDec .mac 33 64 4 with regS := some seqBlock } = true ∧
      EngineReady { running .mDec .compare 3 5 with tagT := some seqBlock } = true ∧
      EngineReady { running .nEnc .publish 3 5 with tagT := some seqBlock } = true ∧
      (running .hash .hashblk 3 5).fault = none ∧ (running .hash .hashblk 3 5).script = [] := by
  refine ⟨?_, ?_, ?_, ?_, ?_, ?_, ?_, ?_, ?_, ?_, rfl, rfl⟩ <;> decide +kernel
/-- A micro-operation inside a command, and the one that ends it. -/
theorem test_witness_EngineLeavesInputsAlone :
    goesOn (engineMicro (running .nEnc .ad 3 5)) (fun t => t.busy) = true ∧
      goesOn (engineMicro { running .nEnc .publish 3 5 with tagT := some seqBlock }) (fun t => !t.busy && statusDone t.status) =
        true := by decide +kernel
theorem test_witness_FaultMarkIsNeverCleared :
    goesOn (step State.reset) (fun _ => true) = true ∧
      marks (step { State.reset with script := [.readReg 0x40 1] }) .readNoValue = true ∧
      step { State.reset with fault := some .busyAccess, script := [.reset] } = .fault (.runEnded .busyAccess) ∧
      marks (turn { State.reset with fault := some .busyAccess, script := [.reset] }) .busyAccess = true ∧
      marks (turn { State.reset with fault := some .busyAccess, script := [.start 0x04#8] }) .busyAccess = true ∧
      marks (turn { State.reset with fault := some .busyAccess, script := [.start 0x00#8] }) .busyAccess = true ∧
      Instr.nDec.format = .cmd8 ∧ marks (exec .nDec { loaded 3 5 with tagin := OperandReg.unwritten }) .unwrittenOperand = true :=
  ⟨by decide +kernel, by decide +kernel, rfl, by decide +kernel, by decide +kernel, by decide +kernel, rfl, by decide +kernel⟩
theorem test_witness_ResetActionEmptiesTheBlock :
    (running .nEnc .ad 3 5).fault = none ∧
      goesOn (step { running .nEnc .ad 3 5 with script := [.reset, .wait] }) (fun t => t.status = 0 && t.script = [.wait]) =
        true ∧
      goesOn (turn { running .nEnc .ad 3 5 with fault := some .busyAccess, script := [.reset] })
        (fun t => t.status = 0 && t.fault = some .busyAccess) = true := by decide +kernel
theorem test_witness_EndOfCommandDestroys :
    (running .nEnc .publish 3 5).busy = true ∧
      goesOn (engineMicro { running .nDec .publish 3 5 with acc := some 0 }) (fun t => !t.busy) = true ∧
      Inv { loaded 3 5 with klen := 15 } ∧
      goesOn (start 0x0A#8 { loaded 3 5 with klen := 15 }) (fun t => statusErr t.status) = true :=
  ⟨by decide +kernel, by decide +kernel, test_witness_ErrorEntryIsExact.1, by decide +kernel⟩
theorem test_witness_IdleBlockStaysIdle :
    State.reset.fault = none ∧ State.reset.busy = false ∧ State.reset.script = [] ∧
      goesOn (step { loaded 3 5 with script := [.idle] }) (fun t => t.script = []) = true ∧
      goesOn (step { loaded 3 5 with script := [.wait] }) (fun t => t.reads = [[0#8]]) = true := by decide +kernel
theorem test_witness_StepRunsTheCommand :
    registerAt Config.default 0 = some (.cmd, 0) ∧ decodeCommand 0x04#8 = .ok .nEnc ∧
      decodeCommand 0x0A#8 = .error .modeReserved ∧
      goesOn (step { loaded 3 5 with script := [.writeReg 0 [0x04#8]] }) (fun t => t.op = 0x04#8 && t.phase = .ad) = true ∧
      goesOn (step { loaded 3 5 with script := [.start 0x07#8] }) (fun t => t.op = 0x07#8 && t.phase = .crypt) = true ∧
      goesOn (step { State.reset with script := [.writeReg 2 [1#8, 2#8, 3#8]] }) (fun t => t.klen = 1 && t.tglen = 3) = true ∧
      goesOn (step { State.reset with script := [.writeBuf .tin 0 [1#8]] }) (fun t => t.tin = memory [1#8]) = true := by
  decide +kernel
/-- The pending invocation of block 2 of `N_ENC (17, 33)`: the first entry of its trace (V20). -/
theorem test_witness_StepRunsTheInvocation :
    let s : State :=
      { atBlock .nEnc .ad 17 33 1 with cfg := roundsOnly 1, tk1 := some (block 0x02000000000000080000000000000000), pending := true }
    s.busy = true ∧ tagOf s.cfg (block 0x02000000000000080000000000000000) = some 0x08#8 ∧
      decodeDomain s.cfg.domain 0x08#8 = .ok .nAd ∧ s.cfg.tk1Layout = Config.defaultTk1Layout ∧
      goesOn (step s) (fun t => traceOf t.log = [(.key, some (0x08#8, 2#56))] && t.regD = some 4 && t.idx = some 2) = true := by
  decide +kernel
theorem test_witness_PlacedWordRunsNext :
    State.reset.fault = none ∧ decodeTableWord 8 0x09 = some .tDec ∧ Instr.tDec.format = .cmd8 ∧
      decodeTableWord 8 0x44 = some .tTgf ∧ Instr.tTgf.format = .domain ∧
      State.reset.cfg.domain = DomainTable.default ∧ State.reset.cfg.tk1Layout.toList.contains .domain = true := by decide +kernel

end Sys2Proof.Tests
end

/-! Proofs for the state of the block (10_state.md): what `START` can do, the invariant, the end of a command, the values after
reset, and what the host's register writes leave. -/

namespace Sys2Proof.Machine

open Sys2Proof

/-! ## What `START` can do -/

theorem start_ok {v : Byte} {i : Instr} (h : decodeCommand v = .ok i) (s : State) : start v s = exec i s := by
  simp [start, h]

theorem start_error {v : Byte} {e : DecodeError} (h : decodeCommand v = .error e) (s : State) :
    start v s = startReserved v s := by
  simp [start, h]

/-- Everything the host's `START` of a word can leave, with the word latched `v`: the mark for a busy access, an error, `CLEAR`,
the running state, or the mark for an unwritten operand (R306, R307, R308, R312). -/
inductive Started (s : State) : State → Prop where
  | busy : s.busy = true → Started s (raiseFault .busyAccess s)
  | error (v : Byte) (c : ErrorCode) : s.busy = false → Started s (raiseError c (latch v s))
  | clear (v : Byte) : s.busy = false →
      Started s { unwriteOperands (latch v s) with status := statusClear, phase := .idle }
  | running (v : Byte) (p : Phase) : s.busy = false → p ≠ .idle → s.tlen ≤ s.cfg.bufCap →
      Started s { latch v s with status := statusRunning, phase := p }
  | unwritten (v : Byte) : s.busy = false → Started s (raiseFault .unwrittenOperand (latch v s))

/-- A command that passes the error checks of its kind has a text within `BUFCAP` (R305). -/
theorem precheck_none_fits {k : Kind} {s : State} (h : precheck k s = none) : s.tlen ≤ s.cfg.bufCap := by
  cases k <;> simp only [precheck] at h <;> split_ifs at h <;> omega

theorem startPrimitive_started {v : Byte} {k : Kind} {p : Phase} {s t : State} (hp : p ≠ .idle)
    (h : startPrimitive v k p s = .next t) : Started s t := by
  rcases startPrimitive_cases v k p s with
    ⟨hb, e⟩ | ⟨hb, ⟨c, -, e⟩ | ⟨hc, -, e⟩ | ⟨-, -, e⟩⟩ <;> rw [e] at h <;> cases h
  · exact .busy hb
  · exact .error v c hb
  · exact .running v p hb hp (precheck_none_fits hc)
  · exact .unwritten v hb

/-- A command row is `CLEAR` or a primitive, which starts in a phase that is not `IDLE` (R90, R91). -/
theorem exec_command {i : Instr} (hi : i.format = .cmd8) :
    i = .clear ∨ ∃ v k p, p ≠ .idle ∧ exec i = startPrimitive v k p := by
  cases i <;> simp only [Instr.format, reduceCtorEq] at hi
  case clear => exact .inl rfl
  all_goals exact .inr ⟨_, _, _, by decide, rfl⟩

theorem execClear_started {s t : State} (h : execClear s = .next t) : Started s t := by
  rw [execClear_eq] at h
  split at h <;> cases h
  · exact .busy (by assumption)
  · exact .clear _ (by simp_all)

theorem startReserved_started {v : Byte} {s t : State} (h : startReserved v s = .next t) : Started s t := by
  rw [startReserved_eq] at h
  split at h <;> cases h
  · exact .busy (by assumption)
  · exact .error v _ (by simp_all)

/-- `START` of any word leaves one of the cases of `Started` (R307). -/
theorem start_started {v : Byte} {s t : State} (h : start v s = .next t) : Started s t := by
  cases hd : decodeCommand v with
  | ok i =>
    rw [start_ok hd] at h
    rcases exec_command (decodeCommand_format hd) with rfl | ⟨w, k, p, hp, e⟩
    · exact execClear_started h
    · exact startPrimitive_started hp (e ▸ h)
  | error e =>
    rw [start_error hd] at h
    exact startReserved_started h

/-! ## The publication -/

/-- The publication sets `DONE`, writes results or free values, and destroys (R38, R67). -/
theorem publishMicro_destroys {s t : State} (h : publishMicro s = .next t) :
    ∃ (g : Option Block) (d : Option Digest) (v : Bool) (m : Memory) (n : Nat),
      (m = s.tout ∨ m = s.tout.writeRange 0 (freeBytes s.draws s.tlen)) ∧
        t = destroy { s with tagout := g, digest := d, status := statusFinished v, tout := m, draws := n } := by
  rcases publishMicro_eq_next h with ⟨-, l, r, -, -, rfl⟩ | ⟨-, g, -, rfl⟩ | ⟨-, -, rfl⟩ | ⟨-, -, rfl⟩
  · exact ⟨s.tagout, some (l ++ r), true, s.tout, s.draws, .inl rfl, rfl⟩
  · exact ⟨some g, s.digest, true, s.tout, s.draws, .inl rfl, rfl⟩
  · exact ⟨s.tagout, s.digest, true, s.tout, s.draws, .inl rfl, rfl⟩
  · exact ⟨s.tagout, s.digest, false, _, s.draws + s.tlen, .inr rfl, rfl⟩

@[simp] theorem freeBytes_length (k n : Nat) : (freeBytes k n).length = n := by simp [freeBytes]

/-! ## The invariant -/

/-- Right after reset the block is idle and holds nothing (R40). -/
theorem resetWith_inv (c : Config) : Inv (State.resetWith c) where
  adbuf_wf := .nil
  tin_wf := .nil
  tout_wf := .nil
  adbuf_below := rfl
  tin_below := rfl
  tout_below := rfl
  status_legal := statusLegal_clear
  adlen_width := Nat.two_pow_pos _
  tlen_width := Nat.two_pow_pos _
  busy_iff := by simp [State.busy, State.resetWith, statusBusy]
  text_fits := fun _ => Nat.zero_le _
  no_result := fun _ => ⟨rfl, rfl⟩
  idle_clean := fun _ => rfl
  round_index := by rintro r ⟨⟩

/-- An idle block is in no phase (R36). -/
theorem Inv.phase_idle {s : State} (h : Inv s) (hb : s.busy = false) : s.phase = .idle := by
  by_contra hp
  exact absurd (h.busy_iff.mpr hp) (by simp [hb])

/-- The invariant says nothing of the host's side. -/
theorem Inv.hostSide {s : State} (h : Inv s) (script : List HostAction) (reads : List (List Byte)) :
    Inv { s with script := script, reads := reads } := { h with }

/-- The invariant says nothing of the mark `FAULT`. -/
theorem raiseFault_inv {s : State} (h : Inv s) (r : FaultReason) : Inv (raiseFault r s) := { h with }

theorem resetAction_inv {s : State} : Inv (resetAction s) := { resetWith_inv s.cfg with }

theorem unwriteOperands_inv {s : State} (h : Inv s) : Inv (unwriteOperands s) := { h with }

/-- An idle block keeps the invariant under any legal `STATUS` that is not `BUSY`. -/
theorem Inv.idleStatus {s : State} (h : Inv s) (hb : s.busy = false) {v : BitVec 8} (hl : statusLegal v = true)
    (hv : statusBusy v = false) : Inv { s with status := v } :=
  { h with
    status_legal := hl
    busy_iff := by simp [State.busy, hv, h.phase_idle hb]
    text_fits := by simp [State.busy, hv]
    no_result := by simp [State.busy, hv]
    idle_clean := fun _ => h.idle_clean hb }

/-- Step 1 of `START` keeps the invariant of an idle block. -/
theorem latch_inv {s : State} (h : Inv s) (hb : s.busy = false) (v : Byte) : Inv (latch v s) :=
  { h.idleStatus hb statusLegal_clear statusBusy_clear with
    tout_wf := .nil
    tout_below := rfl
    no_result := fun _ => ⟨rfl, rfl⟩ }

theorem latch_idle (v : Byte) (s : State) : (latch v s).busy = false := statusBusy_clear

/-- Whatever `START` leaves meets the invariant. -/
theorem Started.inv {s t : State} (hs : Started s t) (h : Inv s) : Inv t := by
  cases hs with
  | busy _ => exact raiseFault_inv h _
  | error v c hb =>
    exact (unwriteOperands_inv (latch_inv h hb v)).idleStatus (latch_idle v s) (statusLegal_error c) (statusBusy_error c)
  | clear v hb =>
    exact { unwriteOperands_inv (latch_inv h hb v) with busy_iff := by simp [State.busy] }
  | running v p hb hp hf =>
    exact { latch_inv h hb v with
      status_legal := statusLegal_running
      busy_iff := by simp [State.busy, hp]
      text_fits := fun _ => hf
      no_result := fun _ => ⟨rfl, rfl⟩
      idle_clean := by simp [State.busy] }
  | unwritten v hb => exact raiseFault_inv (latch_inv h hb v) _

/-- The write of a byte of any register keeps the invariant of an idle block. -/
theorem writeIdleRegister_inv {at? : Option (RegName × Nat)} {b : Byte} {s t : State} (h : Inv s) (hb : s.busy = false)
    (ht : writeIdleRegister at? b s = .next t) : Inv t := by
  rcases at? with _ | ⟨reg, i⟩
  · cases ht; exact h
  · cases reg
    case cmd => exact (start_started ht).inv h
    case adlen => cases ht; exact { h with adlen_width := writeLengthByte_lt _ _ _ _ }
    case tlen =>
      cases ht
      exact { h with
        tlen_width := writeLengthByte_lt _ _ _ _
        text_fits := fun hbusy => absurd hbusy (by simpa [State.busy] using hb) }
    all_goals cases ht; exact { h with }

theorem writeRegisterByte_inv {off : Nat} {b : Byte} {s t : State} (h : Inv s)
    (ht : writeRegisterByte off b s = .next t) : Inv t := by
  unfold writeRegisterByte at ht
  split at ht
  · cases ht
    exact raiseFault_inv h _
  · rename_i hb
    exact writeIdleRegister_inv h (by simpa using hb) ht

theorem writeRegisters_inv {bs : List Byte} {off : Nat} {s t : State} (h : Inv s)
    (ht : writeRegisters off bs s = .next t) : Inv t := by
  induction bs generalizing off s with
  | nil => cases ht; exact h
  | cons b bs ih =>
    obtain ⟨u, hu, ht⟩ := andThen_eq_next.mp ht
    exact ih (writeRegisterByte_inv h hu) ht

theorem writeBufferByte_inv {sp : Space} {off : Nat} {b : Byte} {s t : State} (h : Inv s)
    (ht : writeBufferByte sp off b s = .next t) : Inv t := by
  unfold writeBufferByte at ht
  split at ht
  · cases ht
    exact raiseFault_inv h _
  · split at ht
    · cases ht; exact h
    · rename_i hoff
      cases sp <;> cases ht
      · exact { h with
          adbuf_wf := Memory.write_wf h.adbuf_wf _ _
          adbuf_below := Memory.write_below h.adbuf_below (Nat.lt_of_not_le hoff) _ }
      · exact { h with
          tin_wf := Memory.write_wf h.tin_wf _ _
          tin_below := Memory.write_below h.tin_below (Nat.lt_of_not_le hoff) _ }
      · exact h

theorem writeBuffer_inv {sp : Space} {bs : List Byte} {off : Nat} {s t : State} (h : Inv s)
    (ht : writeBuffer sp off bs s = .next t) : Inv t := by
  induction bs generalizing off s with
  | nil => cases ht; exact h
  | cons b bs ih =>
    obtain ⟨u, hu, ht⟩ := andThen_eq_next.mp ht
    exact ih (writeBufferByte_inv h hu) ht

theorem returnBytes_inv {r : Except FaultReason (List Byte)} {s t : State} (h : Inv s)
    (ht : returnBytes r s = .next t) : Inv t := by
  cases r <;> cases ht
  · exact raiseFault_inv h _
  · exact h.hostSide _ _

theorem Kept.busy {s t : State} (k : Kept s t) : t.busy = s.busy := congrArg statusBusy k.status

/-- A micro-operation that does not end the command keeps the invariant of a running block. -/
theorem Kept.inv {s t : State} (k : Kept s t) (h : Inv s) (hb : s.busy = true) : Inv t where
  adbuf_wf := k.adbuf ▸ h.adbuf_wf
  tin_wf := k.tin ▸ h.tin_wf
  tout_wf := k.tout_wf h.tout_wf
  adbuf_below := by rw [k.adbuf, k.cfg]; exact h.adbuf_below
  tin_below := by rw [k.tin, k.cfg]; exact h.tin_below
  tout_below := by rw [k.cfg]; exact k.tout_below (h.text_fits hb) h.tout_below
  status_legal := k.status ▸ h.status_legal
  adlen_width := by rw [k.adlen, k.cfg]; exact h.adlen_width
  tlen_width := by rw [k.tlen, k.cfg]; exact h.tlen_width
  busy_iff := by simp [k.busy, hb, k.running (h.busy_iff.mp hb)]
  text_fits := fun _ => by rw [k.tlen, k.cfg]; exact h.text_fits hb
  no_result := fun _ => by rw [k.tagout, k.digest]; exact h.no_result hb
  idle_clean := by simp [k.busy, hb]
  round_index := k.round h.round_index

/-- The publication keeps the invariant: it leaves an idle block. -/
theorem publishMicro_inv {s t : State} (h : Inv s) (hb : s.busy = true) (ht : publishMicro s = .next t) : Inv t := by
  obtain ⟨g, d, v, m, n, hm, rfl⟩ := publishMicro_destroys ht
  have hwf : m.wf := by
    rcases hm with rfl | rfl
    · exact h.tout_wf
    · exact Memory.writeRange_wf h.tout_wf _ _
  have hbelow : m.below s.cfg.bufCap = true := by
    rcases hm with rfl | rfl
    · exact h.tout_below
    · exact Memory.writeRange_below _ h.tout_below (.inr (by simpa using h.text_fits hb))
  exact { h with
    tout_wf := hwf
    tout_below := hbelow
    status_legal := statusLegal_finished v
    busy_iff := by simp [State.busy]
    text_fits := by simp [State.busy]
    no_result := by simp [State.busy]
    idle_clean := fun _ => destroy_clean _
    round_index := by simp }

/-- A micro-operation of a running block keeps the invariant. -/
theorem engineMicro_inv {s t : State} (h : Inv s) (hb : s.busy = true) (ht : engineMicro s = .next t) : Inv t := by
  rcases engineMicro_cases ht with k | ⟨-, -, hp⟩
  · exact k.inv h hb
  · exact publishMicro_inv h hb hp

theorem engineTurn_inv {s t : State} (h : Inv s) (ht : engineTurn s = .next t) : Inv t := by
  unfold engineTurn at ht
  split at ht
  · exact engineMicro_inv h (by assumption) ht
  · cases ht; exact h

/-- Settles O48: each of the engine's and the host's turns that `turn_cases` names keeps the invariant. -/
theorem stepKeepsInv : Obligations.StepKeepsInv := by
  intro s t h hstep
  rcases turn_cases (step_cases hstep).2 with ⟨-, ht⟩ | ⟨a, rest, -, hturn⟩
  · exact engineTurn_inv h ht
  · have h' : Inv { s with script := rest } := h.hostSide rest s.reads
    rcases hturn with ⟨-, ht⟩ | ⟨v, -, ht⟩ | ⟨off, bs, -, ht⟩ | ⟨off, n, -, ht⟩ | ⟨sp, off, bs, -, ht⟩ |
      ⟨sp, off, n, -, ht⟩ | ⟨-, hb, ht⟩ | ⟨-, -, rfl⟩ | ⟨-, rfl⟩
    · exact engineTurn_inv h' ht
    · exact (start_started ht).inv h'
    · exact writeRegisters_inv h' ht
    · exact returnBytes_inv h' ht
    · exact writeBuffer_inv h' ht
    · exact returnBytes_inv h' ht
    · exact engineMicro_inv h hb ht
    · exact h.hostSide _ _
    · exact resetAction_inv

/-- Settles O47: `STATUS`, the lengths and the phase of reset fit together, and nothing is written. -/
theorem resetMeetsInv : Obligations.ResetMeetsInv := ⟨resetWith_inv _, resetWith_inv⟩

/-! ## The engine's frame and the end of a command -/

/-- Settles O53: `Kept` says it of every micro-operation but the publication, which destroys and writes `TOUT` below `TLEN`
only. -/
theorem engineLeavesInputsAlone : Obligations.EngineLeavesInputsAlone := by
  intro s t h
  rcases engineMicro_cases h with k | ⟨-, -, hp⟩
  · exact ⟨k.cfg, k.klen, k.nlen, k.tglen, k.adlen, k.tlen, k.adbuf, k.tin, k.op, k.fault, k.script, k.reads,
      .inl ⟨k.key, k.nonce, k.tagin, k.status, k.tagout, k.digest, k.draws⟩, k.tout_beyond⟩
  · obtain ⟨g, d, v, m, n, hm, rfl⟩ := publishMicro_destroys hp
    have hdone : statusDone (statusFinished v) = true := (statusOf_fields _ _ _ _ _).2.1
    have hbeyond : ∀ a, s.tlen ≤ a → m.read a = s.tout.read a := by
      intro a ha
      rcases hm with rfl | rfl
      · rfl
      · rw [Memory.read_writeRange, if_neg (by rw [freeBytes_length]; omega)]
    exact ⟨rfl, rfl, rfl, rfl, rfl, rfl, rfl, rfl, rfl, rfl, rfl, rfl,
      .inr ⟨rfl, rfl, rfl, statusBusy_finished v, hdone⟩, hbeyond⟩

@[simp] theorem statusErr_clear : statusErr statusClear = false := by decide
@[simp] theorem statusErr_running : statusErr statusRunning = false := by decide

/-- A legal `STATUS` that reports an error is not `BUSY` (R27). -/
theorem statusBusy_of_err {v : BitVec 8} (h : statusLegal v = true) (he : statusErr v = true) : statusBusy v = false := by
  cases hb : statusBusy v
  · rfl
  · cases hd : statusDone v <;> simp [statusLegal, he, hb, hd] at h

/-- Settles O56: the publication ends in `destroy`; of what `START` can leave only the error outcome has `ERR`, and it comes from
an idle block, which the invariant says holds no internal value. -/
theorem endOfCommandDestroys : Obligations.EndOfCommandDestroys := by
  constructor
  · intro s t hb h hend
    rcases engineMicro_cases h with k | ⟨-, -, hp⟩
    · rw [k.busy, hb] at hend
      cases hend
    · obtain ⟨g, d, v, m, n, -, rfl⟩ := publishMicro_destroys hp
      exact ⟨rfl, rfl, rfl, destroy_clean _, rfl, rfl, rfl, rfl, rfl, rfl, rfl, rfl⟩
  · intro v s t hinv h herr
    cases start_started h with
    | busy hb => exact absurd hb (by simp [State.busy, statusBusy_of_err hinv.status_legal herr])
    | error w c hb =>
      exact ⟨rfl, rfl, rfl, hinv.idle_clean hb, hinv.phase_idle hb, rfl, rfl, rfl, rfl, rfl, rfl, rfl⟩
    | clear w hb => exact absurd herr (by simp)
    | running w p hb hp hf => exact absurd herr (by simp)
    | unwritten w hb => exact absurd herr (by simp)

/-- Settles O46: every field of the reset state, and that `resetAction` carries the mark over. -/
theorem resetValues : Obligations.ResetValues := by
  refine ⟨rfl, fun s => rfl, fun c => ?_⟩
  have hread : ∀ sp a, ((State.resetWith c).buffer sp).read a = none := by
    intro sp a
    cases sp <;> rfl
  exact ⟨rfl, rfl, rfl, rfl, rfl, rfl, rfl, rfl, rfl, rfl, rfl, rfl, rfl, hread, rfl, rfl, rfl, rfl, rfl, rfl, rfl, rfl, rfl,
    rfl, rfl, rfl, rfl⟩

/-! ## Steps that run a command or write registers -/

/-- `START` of any word on a busy block sets the mark and does nothing else (R70, R306). -/
theorem start_busy {s : State} (hb : s.busy = true) (v : Byte) : start v s = .next (raiseFault .busyAccess s) := by
  cases hd : decodeCommand v with
  | ok i =>
    rw [start_ok hd]
    rcases exec_command (decodeCommand_format hd) with rfl | ⟨w, k, p, -, e⟩
    · exact (execClear_eq s).trans (if_pos hb)
    · rw [e, startPrimitive_busy hb]
  | error e => rw [start_error hd, startReserved_eq, if_pos hb]

/-- The write of one byte is the write of a list of that byte. -/
theorem writeRegisters_singleton (off : Nat) (b : Byte) (s : State) :
    writeRegisters off [b] s = writeRegisterByte off b s := by
  simp only [writeRegisters]
  cases writeRegisterByte off b s <;> rfl

/-- While `BUSY = 0` the write of a byte is the write of the register it is in. -/
theorem writeRegisterByte_idle {s : State} (hb : s.busy = false) (off : Nat) (b : Byte) :
    writeRegisterByte off b s = writeIdleRegister (registerAt s.cfg off) b s := by
  simp [writeRegisterByte, hb]

/-- The write of a byte to `CMD` is `START` of it, also while `BUSY = 1` (R26, R70). -/
theorem writeRegisterByte_cmd {s : State} {off i : Nat} (hr : registerAt s.cfg off = some (.cmd, i)) (v : Byte) :
    writeRegisterByte off v s = start v s := by
  cases hb : s.busy
  · rw [writeRegisterByte_idle hb, hr]; rfl
  · rw [start_busy hb]; simp [writeRegisterByte, hb]

/-- In the register map of R68 every offset of a row is that byte of the row's register. -/
theorem registerAt_row {c : Config} (h : c.regMap = Config.defaultRegMap) {w : RegRow} (hw : w ∈ Config.defaultRegMap)
    {i : Nat} (hi : i < w.size) : registerAt c (w.base + i) = some (w.reg, i) := by
  have hfind : ∀ w ∈ Config.defaultRegMap, ∀ i < w.size,
      (Config.defaultRegMap.find? fun r => r.base ≤ w.base + i && w.base + i < r.base + r.size) = some w := by decide
  simp [registerAt, h, hfind w hw i hi]

/-- Settles O58: `START` by name and the write of `CMD` are both `start`, which runs what the word decodes to. -/
theorem stepRunsTheCommand : Obligations.StepRunsTheCommand := by
  intro s rest hf
  have hwrite : ∀ off bs, s.script = .writeReg off bs :: rest →
      step s = writeRegisters off bs { s with script := rest } := fun off bs hs => step_action hf hs
  refine ⟨fun v hv => ?_, fun h => registerAt_row h (w := ⟨0x00, 1, .cmd⟩) (by decide) Nat.zero_lt_one, hwrite,
    fun sp off bs hs => step_action hf hs, fun _ _ => rfl, fun _ _ _ _ => rfl, fun _ _ _ => rfl, fun _ _ _ _ _ => rfl⟩
  have hstart : step s = start v { s with script := rest } := by
    rcases hv with hs | ⟨off, hr, hs⟩
    · exact step_action hf hs
    · rw [hwrite off [v] hs, writeRegisters_singleton]
      exact writeRegisterByte_cmd (s := { s with script := rest }) hr v
  exact ⟨fun i hi => hstart.trans (start_ok hi _), fun e he => hstart.trans (start_error he _)⟩

/-! ## What register writes leave -/

/-- The value `x` with the bytes `bs` written one by one with `wr`, from place `i` on. -/
def writeFrom {α : Type} (wr : α → Nat → Byte → α) (i : Nat) : List Byte → α → α
  | [], x => x
  | b :: bs, x => writeFrom wr (i + 1) bs (wr x i b)

/-- A register of `size` bytes at `base`, whose byte writes are `wr` on its value and whose value `put` places in the state, is
written by any bytes that stay within it (log 13). -/
theorem writeRegisters_writeFrom {α : Type} {put : α → State} {wr : α → Nat → Byte → α} {base size : Nat}
    (hbyte : ∀ x i b, i < size → writeRegisterByte (base + i) b (put x) = .next (put (wr x i b)))
    (bs : List Byte) (i : Nat) (x : α) (hfit : i + bs.length ≤ size) :
    writeRegisters (base + i) bs (put x) = .next (put (writeFrom wr i bs x)) := by
  induction bs generalizing i x with
  | nil => rfl
  | cons b bs ih =>
    rw [List.length_cons] at hfit
    rw [writeRegisters, hbyte x i b (by omega), andThen_next]
    exact ih (i + 1) (wr x i b) (by omega)

/-- What the bytes written leave of an operand register: each byte in its place, the others as they were. -/
theorem getElem_writeFrom_operand (bs : List Byte) (i : Nat) (r : OperandReg) (j : Nat) (hj : j < 16) :
    (writeFrom OperandReg.writeByte i bs r)[j] = if i ≤ j ∧ j < i + bs.length then bs[j - i]? else r[j] := by
  induction bs generalizing i r with
  | nil => simp [writeFrom]
  | cons b bs ih =>
    rw [writeFrom, ih, List.length_cons]
    by_cases hlater : i + 1 ≤ j ∧ j < i + 1 + bs.length
    · rw [if_pos hlater, if_pos (by omega), show j - i = j - (i + 1) + 1 by omega, List.getElem?_cons_succ]
    · rw [if_neg hlater]
      by_cases hij : i = j
      · subst hij
        simp [OperandReg.writeByte]
      · rw [if_neg (by omega)]
        simp [OperandReg.writeByte, hij]

/-- All sixteen bytes written, whatever was there before (R68). -/
theorem writeFrom_block (x : Block) (r : OperandReg) :
    writeFrom OperandReg.writeByte 0 x.toList r = OperandReg.ofBlock x := by
  ext1 j hj
  rw [getElem_writeFrom_operand, if_pos (by simpa using hj)]
  simp [OperandReg.ofBlock, hj]

/-- Four bytes written to a length register of at most 32 bits, least significant first: each bit comes from the byte of its
place (R25, R63, log 5). -/
theorem writeFrom_length {w : Nat} (hw : w ≤ 32) (v : Nat) (b0 b1 b2 b3 : Byte) :
    writeFrom (writeLengthByte w) 0 [b0, b1, b2, b3] v = (b3 ++ b2 ++ b1 ++ b0).toNat % 2 ^ w := by
  obtain ⟨-, h0⟩ := writeLengthByte_holds w v 0 b0
  obtain ⟨-, h1⟩ := writeLengthByte_holds w (writeLengthByte w v 0 b0) 1 b1
  obtain ⟨-, h2⟩ := writeLengthByte_holds w (writeLengthByte w (writeLengthByte w v 0 b0) 1 b1) 2 b2
  obtain ⟨hlt, h3⟩ :=
    writeLengthByte_holds w (writeLengthByte w (writeLengthByte w (writeLengthByte w v 0 b0) 1 b1) 2 b2) 3 b3
  simp only [writeFrom]
  apply Nat.eq_of_testBit_eq
  intro k
  rw [Nat.testBit_mod_two_pow, BitVec.testBit_toNat]
  by_cases hk : k < w
  · rw [h3 k hk, h2 k hk, h1 k hk, h0 k hk]
    have hk32 : k < 32 := by omega
    grind
  · rw [Nat.testBit_lt_two_pow (lt_of_lt_of_le hlt (Nat.pow_le_pow_right (by omega) (by omega)))]
    simp [hk]

/-- A byte written within an operand register is that byte set (R68). -/
theorem OperandReg.writeByte_eq_set (r : OperandReg) {i : Nat} (hi : i < 16) (b : Byte) :
    r.writeByte i b = r.set i (some b) := by
  ext1 j hj
  simp [OperandReg.writeByte, Vector.getElem_set, Vector.getElem_setIfInBounds]

/-! The steps that write one register of the default map while `BUSY = 0`, the bytes staying within its row. -/

section

variable {s : State} {rest : List HostAction} (hf : s.fault = none) (hb : s.busy = false)
  (hmap : s.cfg.regMap = Config.defaultRegMap)

include hf hmap

/-- For the row `w` of a register that `put` places in the state, and whose byte writes are `wr` on its value. -/
theorem step_writeReg_row {α : Type} {put : α → State} {wr : α → Nat → Byte → α} {x : α} {w : RegRow}
    (hw : w ∈ Config.defaultRegMap) (hput : ∀ y, (put y).cfg = s.cfg ∧ (put y).busy = false)
    (hwr : ∀ y i b, writeIdleRegister (some (w.reg, i)) b (put y) = .next (put (wr y i b)))
    (hx : { s with script := rest } = put x) {i : Nat} {bs : List Byte} (hfit : i + bs.length ≤ w.size)
    (hs : s.script = .writeReg (w.base + i) bs :: rest) : step s = .next (put (writeFrom wr i bs x)) := by
  have hbyte : ∀ y i b, i < w.size → writeRegisterByte (w.base + i) b (put y) = .next (put (wr y i b)) := by
    intro y i b hi
    obtain ⟨hcfg, hidle⟩ := hput y
    rw [writeRegisterByte_idle hidle, hcfg, registerAt_row hmap hw hi, hwr]
  have hstep : step s = writeRegisters (w.base + i) bs { s with script := rest } := step_action hf hs
  rw [hstep, hx, writeRegisters_writeFrom hbyte bs i x hfit]

include hb

theorem step_writeReg_klen {b : Byte} (hs : s.script = .writeReg 0x02 [b] :: rest) :
    step s = .next { s with script := rest, klen := b } :=
  step_writeReg_row (w := ⟨0x02, 1, .klen⟩) (put := fun v => { s with script := rest, klen := v })
    (wr := fun _ _ b => b) (i := 0) hf hmap (by decide) (fun _ => ⟨rfl, hb⟩) (fun _ _ _ => rfl) rfl (by simp) hs

theorem step_writeReg_nlen {b : Byte} (hs : s.script = .writeReg 0x03 [b] :: rest) :
    step s = .next { s with script := rest, nlen := b } :=
  step_writeReg_row (w := ⟨0x03, 1, .nlen⟩) (put := fun v => { s with script := rest, nlen := v })
    (wr := fun _ _ b => b) (i := 0) hf hmap (by decide) (fun _ => ⟨rfl, hb⟩) (fun _ _ _ => rfl) rfl (by simp) hs

theorem step_writeReg_tglen {b : Byte} (hs : s.script = .writeReg 0x04 [b] :: rest) :
    step s = .next { s with script := rest, tglen := b } :=
  step_writeReg_row (w := ⟨0x04, 1, .tglen⟩) (put := fun v => { s with script := rest, tglen := v })
    (wr := fun _ _ b => b) (i := 0) hf hmap (by decide) (fun _ => ⟨rfl, hb⟩) (fun _ _ _ => rfl) rfl (by simp) hs

theorem step_writeReg_adlen {i : Nat} {bs : List Byte} (hfit : i + bs.length ≤ 4)
    (hs : s.script = .writeReg (0x08 + i) bs :: rest) :
    step s = .next { s with script := rest, adlen := writeFrom (writeLengthByte s.cfg.lenWidth) i bs s.adlen } :=
  step_writeReg_row (w := ⟨0x08, 4, .adlen⟩) (put := fun v => { s with script := rest, adlen := v }) hf hmap
    (by decide) (fun _ => ⟨rfl, hb⟩) (fun _ _ _ => rfl) rfl hfit hs

theorem step_writeReg_tlen {i : Nat} {bs : List Byte} (hfit : i + bs.length ≤ 4)
    (hs : s.script = .writeReg (0x0C + i) bs :: rest) :
    step s = .next { s with script := rest, tlen := writeFrom (writeLengthByte s.cfg.lenWidth) i bs s.tlen } :=
  step_writeReg_row (w := ⟨0x0C, 4, .tlen⟩) (put := fun v => { s with script := rest, tlen := v }) hf hmap
    (by decide) (fun _ => ⟨rfl, hb⟩) (fun _ _ _ => rfl) rfl hfit hs

theorem step_writeReg_key {i : Nat} {bs : List Byte} (hfit : i + bs.length ≤ 16)
    (hs : s.script = .writeReg (0x10 + i) bs :: rest) :
    step s = .next { s with script := rest, key := writeFrom OperandReg.writeByte i bs s.key } :=
  step_writeReg_row (w := ⟨0x10, 16, .key⟩) (put := fun r => { s with script := rest, key := r }) hf hmap
    (by decide) (fun _ => ⟨rfl, hb⟩) (fun _ _ _ => rfl) rfl hfit hs

theorem step_writeReg_nonce {i : Nat} {bs : List Byte} (hfit : i + bs.length ≤ 16)
    (hs : s.script = .writeReg (0x20 + i) bs :: rest) :
    step s = .next { s with script := rest, nonce := writeFrom OperandReg.writeByte i bs s.nonce } :=
  step_writeReg_row (w := ⟨0x20, 16, .nonce⟩) (put := fun r => { s with script := rest, nonce := r }) hf hmap
    (by decide) (fun _ => ⟨rfl, hb⟩) (fun _ _ _ => rfl) rfl hfit hs

theorem step_writeReg_tagin {i : Nat} {bs : List Byte} (hfit : i + bs.length ≤ 16)
    (hs : s.script = .writeReg (0x30 + i) bs :: rest) :
    step s = .next { s with script := rest, tagin := writeFrom OperandReg.writeByte i bs s.tagin } :=
  step_writeReg_row (w := ⟨0x30, 16, .tagin⟩) (put := fun r => { s with script := rest, tagin := r }) hf hmap
    (by decide) (fun _ => ⟨rfl, hb⟩) (fun _ _ _ => rfl) rfl hfit hs

end

/-- Settles O13: each register is a row of the default map, which a step writes byte by byte. -/
theorem registerWritesLand : Obligations.RegisterWritesLand := by
  refine ⟨fun s rest hf hb hmap => ?_, OperandReg.value_ofBlock⟩
  refine ⟨fun b => step_writeReg_klen hf hb hmap, fun b => step_writeReg_nlen hf hb hmap,
    fun b => step_writeReg_tglen hf hb hmap, ?_, ?_, ?_, ?_, ?_, ?_, ?_⟩
  · intro b0 b1 b2 b3 hwidth hs
    rw [step_writeReg_adlen hf hb hmap (i := 0) (by simp) hs, writeFrom_length hwidth]
  · intro b0 b1 b2 b3 hwidth hs
    rw [step_writeReg_tlen hf hb hmap (i := 0) (by simp) hs, writeFrom_length hwidth]
  · intro x hs
    rw [step_writeReg_key hf hb hmap (i := 0) (by simp) hs, writeFrom_block]
  · intro x hs
    rw [step_writeReg_nonce hf hb hmap (i := 0) (by simp) hs, writeFrom_block]
  · intro x hs
    rw [step_writeReg_tagin hf hb hmap (i := 0) (by simp) hs, writeFrom_block]
  · exact fun i b hi => ⟨fun hs => ⟨_, step_writeReg_adlen hf hb hmap hi hs, writeLengthByte_holds _ _ _ _⟩,
      fun hs => ⟨_, step_writeReg_tlen hf hb hmap hi hs, writeLengthByte_holds _ _ _ _⟩⟩
  · intro i h b
    refine ⟨fun hs => ?_, fun hs => ?_, fun hs => ?_⟩
    · rw [step_writeReg_key hf hb hmap h hs, writeFrom, writeFrom, s.key.writeByte_eq_set h]
    · rw [step_writeReg_nonce hf hb hmap h hs, writeFrom, writeFrom, s.nonce.writeByte_eq_set h]
    · rw [step_writeReg_tagin hf hb hmap h hs, writeFrom, writeFrom, s.tagin.writeByte_eq_set h]

end Sys2Proof.Machine

/-! Proofs for the host's accesses to the registers and the buffers (20_memory.md): the read of one byte and of a range, what a
busy block answers, and buffer writes read back. -/

namespace Sys2Proof.Machine

open Sys2Proof

/-! ## The mark -/

/-- The first fault sets the mark to its reason (R306). -/
theorem raiseFault_of_clear {s : State} (hf : s.fault = none) (r : FaultReason) :
    raiseFault r s = { s with fault := some r } := by
  simp [raiseFault, hf]

/-- A mark that is set keeps its reason (log 8). -/
theorem raiseFault_raiseFault (r q : FaultReason) (s : State) : raiseFault q (raiseFault r s) = raiseFault r s := rfl

/-! ## The register map -/

/-- An offset is in a row of the map, which names its register and the byte of it, or in none and reserved (R68). -/
theorem registerAt_cases (c : Config) (off : Nat) :
    (∃ w ∈ c.regMap, ∃ i < w.size, off = w.base + i ∧ registerAt c off = some (w.reg, i)) ∨
      registerAt c off = none ∧ ∀ w ∈ c.regMap, ¬(w.base ≤ off ∧ off < w.base + w.size) := by
  unfold registerAt
  cases hfind : c.regMap.find? fun w => w.base ≤ off && off < w.base + w.size with
  | some w =>
    have hrow : w.base ≤ off ∧ off < w.base + w.size := by simpa using List.find?_some hfind
    exact .inl ⟨w, List.mem_of_find?_eq_some hfind, off - w.base, by omega, by omega, rfl⟩
  | none => exact .inr ⟨rfl, fun w hw => by simpa using List.find?_eq_none.mp hfind w hw⟩

/-- In the register map of R68 `STATUS` is at offset 1 alone. -/
theorem registerAt_status_iff {c : Config} (h : c.regMap = Config.defaultRegMap) (off : Nat) :
    (registerAt c off).map Prod.fst = some .status ↔ off = 1 := by
  constructor
  · intro hstatus
    have honly : ∀ w ∈ Config.defaultRegMap, w.reg = .status → w.base = 1 ∧ w.size = 1 := by decide
    rcases registerAt_cases c off with ⟨w, hw, i, hi, hoff, hr⟩ | ⟨hr, -⟩
    · rw [hr] at hstatus
      obtain ⟨hbase, hsize⟩ := honly w (h ▸ hw) (by simpa using hstatus)
      omega
    · simp [hr] at hstatus
  · rintro rfl
    rw [registerAt_row h (w := ⟨0x01, 1, .status⟩) (i := 0) (by decide) Nat.zero_lt_one]
    rfl

/-! ## The read of one byte -/

/-- While `BUSY = 0` the read of a byte is the read of the register it is in. -/
theorem readRegisterByte_idle {s : State} (hb : s.busy = false) (off : Nat) :
    readRegisterByte off s = readIdleRegister (registerAt s.cfg off) s := by
  simp [readRegisterByte, hb]

/-- While `BUSY = 1` `STATUS` alone is read (R70). -/
theorem readRegisterByte_busy {s : State} (hb : s.busy = true) (off : Nat) :
    readRegisterByte off s =
      if (registerAt s.cfg off).map Prod.fst = some .status then .ok s.status else .error .busyAccess := by
  rw [readRegisterByte, if_pos hb]
  rcases registerAt s.cfg off with _ | ⟨reg, i⟩
  · rfl
  · cases reg <;> rfl

/-- While `BUSY = 0` the read of a buffer byte returns it where it is written and below `BUFCAP` (R306). -/
theorem readBufferByte_idle {s : State} (hb : s.busy = false) (sp : Space) (off : Nat) :
    readBufferByte sp off s = orNoValue (if s.cfg.bufCap ≤ off then none else (s.buffer sp).read off) := by
  simp only [readBufferByte, hb, Bool.false_eq_true, if_false]
  split <;> rfl

/-- While `BUSY = 1` no buffer byte is read (R70). -/
theorem readBufferByte_busy {s : State} (hb : s.busy = true) (sp : Space) (off : Nat) :
    readBufferByte sp off s = .error .busyAccess := by
  simp [readBufferByte, hb]

theorem orNoValue_error {x : Option Byte} {r : FaultReason} (h : orNoValue x = .error r) : r = .readNoValue := by
  cases x <;> cases h
  rfl

/-- While `BUSY = 0` a register read faults for want of a value only (R306). -/
theorem readIdleRegister_error {at? : Option (RegName × Nat)} {s : State} {r : FaultReason}
    (h : readIdleRegister at? s = .error r) : r = .readNoValue := by
  rcases at? with _ | ⟨reg, i⟩
  · cases h; rfl
  · cases reg
    case cmd | key => cases h; rfl
    case nonce | tagin | tagout | digest => exact orNoValue_error h
    all_goals cases h

theorem readRegisterByte_idle_error {s : State} (hb : s.busy = false) {off : Nat} {r : FaultReason}
    (h : readRegisterByte off s = .error r) : r = .readNoValue :=
  readIdleRegister_error (readRegisterByte_idle hb off ▸ h)

/-- While `BUSY = 0` a buffer read faults for want of a value only (R306). -/
theorem readBufferByte_idle_error {s : State} (hb : s.busy = false) {sp : Space} {off : Nat} {r : FaultReason}
    (h : readBufferByte sp off s = .error r) : r = .readNoValue :=
  orNoValue_error (readBufferByte_idle hb sp off ▸ h)

/-- While `BUSY = 1` a register read faults as a busy access only (R70, R306). -/
theorem readRegisterByte_busy_error {s : State} (hb : s.busy = true) {off : Nat} {r : FaultReason}
    (h : readRegisterByte off s = .error r) : r = .busyAccess := by
  rw [readRegisterByte_busy hb] at h
  split at h <;> cases h
  rfl

/-- Byte `i` of a length register, least significant first, is the register shifted down by `i` bytes (R63). -/
theorem lengthByte_eq_shiftRight (v i : Nat) : lengthByte v i = BitVec.ofNat 8 (v >>> (8 * i)) := by
  rw [lengthByte, Nat.shiftRight_eq_div_pow, pow_mul]
  rfl

/-! ## The read of a range -/

section

variable {rd : Nat → Except FaultReason Byte}

/-- A range each byte of which is there reads as its bytes. -/
theorem readBytes_ok {bs : List Byte} {off : Nat} (h : ∀ (i : Nat) (hi : i < bs.length), rd (off + i) = .ok bs[i]) :
    readBytes rd off bs.length = .ok bs := by
  induction bs generalizing off with
  | nil => rfl
  | cons b bs ih =>
    have hfirst : rd off = .ok b := h 0 (Nat.zero_lt_succ _)
    have hrest : readBytes rd (off + 1) bs.length = .ok bs := ih fun i hi => by
      rw [Nat.add_right_comm]
      exact h (i + 1) (Nat.succ_lt_succ hi)
    simp [readBytes, hfirst, hrest]

/-- A range with a byte whose read fails, where every read that fails does so for the reason `e`, fails for that reason. -/
theorem readBytes_error {e : FaultReason} (hreason : ∀ o r, rd o = .error r → r = e) {n i off : Nat} (hi : i < n)
    (h : rd (off + i) = .error e) : readBytes rd off n = .error e := by
  induction n generalizing off i with
  | zero => omega
  | succ n ih =>
    cases hfirst : rd off with
    | error r => simp [readBytes, hfirst, hreason off r hfirst]
    | ok b =>
      cases i with
      | zero => simp [hfirst] at h
      | succ i =>
        have hrest : readBytes rd (off + 1) n = .error e :=
          ih (Nat.lt_of_succ_lt_succ hi) (by rwa [Nat.add_right_comm])
        simp [readBytes, hfirst, hrest]

end

section

variable {s : State} {a : HostAction} {rest : List HostAction} {rd : Nat → Except FaultReason Byte} {off n : Nat}
  (hf : s.fault = none) (hs : s.script = a :: rest)
  (hread : hostTurn a rest s = returnBytes (readBytes rd off n) { s with script := rest })

include hf hs hread

/-- A step that reads a range that is there records its bytes and changes nothing else (R64, log 15). -/
theorem step_read_ok {bs : List Byte} (hn : n = bs.length)
    (h : ∀ (i : Nat) (hi : i < bs.length), rd (off + i) = .ok bs[i]) :
    step s = .next { s with script := rest, reads := s.reads ++ [bs] } := by
  rw [step_action hf hs, hread, hn, readBytes_ok h, returnBytes_ok]

/-- A step that reads a range with a byte that is not there returns nothing and sets the mark (R306, log 13). -/
theorem step_read_error {e : FaultReason} (hreason : ∀ o r, rd o = .error r → r = e) {i : Nat} (hi : i < n)
    (h : rd (off + i) = .error e) : step s = .next { s with script := rest, fault := some e } := by
  rw [step_action hf hs, hread, readBytes_error hreason hi h, returnBytes_error,
    raiseFault_of_clear (s := { s with script := rest }) hf]

end

/-! ## Writes and command words of a busy block -/

/-- A write that goes on byte by byte, each of which is a busy access, is one: the mark it sets first stays (R70, log 8). -/
theorem bytewise_busy {write : Nat → Byte → State → Out State} {writes : Nat → List Byte → State → Out State}
    (hnil : ∀ off t, writes off [] t = .next t)
    (hcons : ∀ off b bs t, writes off (b :: bs) t = andThen (write off b t) (writes (off + 1) bs))
    (hbyte : ∀ off b t, t.busy = true → write off b t = .next (raiseFault .busyAccess t))
    {s : State} (hb : s.busy = true) (off : Nat) (b : Byte) (bs : List Byte) :
    writes off (b :: bs) s = .next (raiseFault .busyAccess s) := by
  have hmarked : ∀ off, writes off bs (raiseFault .busyAccess s) = .next (raiseFault .busyAccess s) := by
    induction bs with
    | nil => exact fun off => hnil off _
    | cons c cs ih =>
      intro off
      rw [hcons, hbyte off c (raiseFault .busyAccess s) hb, raiseFault_raiseFault, andThen_next, ih]
  rw [hcons, hbyte off b s hb, andThen_next, hmarked]

theorem writeRegisters_busy {s : State} (hb : s.busy = true) (off : Nat) (b : Byte) (bs : List Byte) :
    writeRegisters off (b :: bs) s = .next (raiseFault .busyAccess s) :=
  bytewise_busy (write := writeRegisterByte) (fun _ _ => rfl) (fun _ _ _ _ => rfl) (fun _ _ _ h => if_pos h) hb off b bs

theorem writeBuffer_busy {s : State} (hb : s.busy = true) (sp : Space) (off : Nat) (b : Byte) (bs : List Byte) :
    writeBuffer sp off (b :: bs) s = .next (raiseFault .busyAccess s) :=
  bytewise_busy (write := writeBufferByte sp) (fun _ _ => rfl) (fun _ _ _ _ => rfl) (fun _ _ _ h => if_pos h) hb off b bs

/-- Every command word on a busy block sets the mark and does nothing else (R70, R306). -/
theorem exec_busy {i : Instr} (hi : i.format = .cmd8) {s : State} (hb : s.busy = true) :
    exec i s = .next (raiseFault .busyAccess s) := by
  rcases exec_command hi with rfl | ⟨v, k, p, -, e⟩
  · exact (execClear_eq s).trans (if_pos hb)
  · rw [e, startPrimitive_busy hb]

/-- Settles O10: on a busy block every action but the read of `STATUS` comes to the same mark. -/
theorem busyBlockAnswersStatusOnly : Obligations.BusyBlockAnswersStatusOnly := by
  intro s rest hf hb
  have hb' : State.busy { s with script := rest } = true := hb
  have hmark : ∀ a, hostTurn a rest s = .next (raiseFault .busyAccess { s with script := rest }) →
      s.script = a :: rest → step s = .next { s with script := rest, fault := some .busyAccess } := by
    intro a ha hs
    rw [step_action hf hs, ha, raiseFault_of_clear (s := { s with script := rest }) hf]
  refine ⟨fun off hr hs => ?_, fun off n i hi hr hs => ?_, registerAt_status_iff, fun v => hmark _ (start_busy hb' v),
    fun off b bs => hmark _ (writeRegisters_busy hb' off b bs), fun sp off b bs => hmark _ (writeBuffer_busy hb' sp off b bs),
    fun sp off n hs => ?_, fun i hi => ?_⟩
  · have hstatus : readRegisterByte off s = .ok s.status := by rw [readRegisterByte_busy hb, if_pos hr]
    exact step_read_ok hf hs rfl (bs := [s.status]) rfl (by simpa using hstatus)
  · have hother : readRegisterByte (off + i) s = .error .busyAccess := by rw [readRegisterByte_busy hb, if_neg hr]
    exact step_read_error hf hs rfl (fun _ _ => readRegisterByte_busy_error hb) (Nat.lt_succ_of_le hi) hother
  · have hrange : ∀ o r, readBufferByte sp o s = .error r → r = .busyAccess := fun o r h => by
      rw [readBufferByte_busy hb] at h
      cases h; rfl
    exact step_read_error hf hs rfl hrange n.zero_lt_succ (readBufferByte_busy hb sp off)
  · rw [exec_busy hi hb, raiseFault_of_clear hf]

/-- Settles O12: the register at each offset is a row of the map or none, and the steps read byte by byte. -/
theorem idleReadsReturnWhatIsThere : Obligations.IdleReadsReturnWhatIsThere := by
  intro s hb
  refine ⟨fun off hmap => ?_, fun sp off => readBufferByte_idle hb sp off, fun rest off hf => ⟨?_, ?_, ?_, ?_⟩⟩
  · rw [readRegisterByte_idle hb]
    rcases registerAt_cases s.cfg off with ⟨w, hw, i, hi, rfl, hr⟩ | ⟨hr, hreserved⟩
    · rw [hr]
      rw [hmap] at hw
      fin_cases hw
      all_goals
        simp only at hi
        simp (disch := omega) only [if_pos, if_neg, readIdleRegister, lengthByte_eq_shiftRight, Nat.add_sub_cancel_left]
      all_goals rfl
    · rw [hr]
      simp only [hmap, Config.defaultRegMap, List.forall_mem_cons] at hreserved
      simp (disch := omega) only [if_neg, readIdleRegister]
  · exact fun bs hs h => step_read_ok hf hs rfl rfl h
  · exact fun n i hs hi h => step_read_error hf hs rfl (fun _ _ => readRegisterByte_idle_error hb) hi h
  · exact fun sp bs hs h => step_read_ok hf hs rfl rfl h
  · exact fun sp n i hs hi h => step_read_error hf hs rfl (fun _ _ => readBufferByte_idle_error hb) hi h

/-! ## Buffer writes -/

/-- Bytes written below the capacity to a buffer whose byte writes are `Memory.write` on the memory that `put` places in the
state are written there as a range (R64). -/
theorem writeBuffer_writeRange {sp : Space} {put : Memory → State} {cap : Nat}
    (hbyte : ∀ m off b, off < cap → writeBufferByte sp off b (put m) = .next (put (m.write off b)))
    (bs : List Byte) (off : Nat) (m : Memory) (hfit : off + bs.length ≤ cap) :
    writeBuffer sp off bs (put m) = .next (put (m.writeRange off bs)) := by
  induction bs generalizing off m with
  | nil => rfl
  | cons b bs ih =>
    rw [List.length_cons] at hfit
    rw [writeBuffer, hbyte m off b (by omega), andThen_next]
    exact ih (off + 1) (m.write off b) (by omega)

section

variable {s : State} (hb : s.busy = false) {off : Nat} (hoff : off < s.cfg.bufCap) (b : Byte)

include hb hoff

/-- While `BUSY = 0` a byte below `BUFCAP` is written to `ADBUF` (R30). -/
theorem writeBufferByte_adbuf : writeBufferByte .adbuf off b s = .next { s with adbuf := s.adbuf.write off b } := by
  simp [writeBufferByte, hb, Nat.not_le_of_lt hoff]

/-- While `BUSY = 0` a byte below `BUFCAP` is written to `TIN` (R30). -/
theorem writeBufferByte_tin : writeBufferByte .tin off b s = .next { s with tin := s.tin.write off b } := by
  simp [writeBufferByte, hb, Nat.not_le_of_lt hoff]

end

/-- A range written is read back, its memory stays canonical and its other bytes read as before (R64). -/
theorem Memory.writeRange_readsBack (m : Memory) (off : Nat) (bs : List Byte) :
    (m.writeRange off bs).readRange off bs.length = some bs ∧ (m.wf → (m.writeRange off bs).wf) ∧
      ∀ a, a < off ∨ off + bs.length ≤ a → (m.writeRange off bs).read a = m.read a := by
  refine ⟨Memory.readRange_writeRange m off bs, fun hm => Memory.writeRange_wf hm off bs, fun a ha => ?_⟩
  rw [Memory.read_writeRange, if_neg (by omega)]

/-- Settles O14: the step writes the range to the buffer's memory. -/
theorem bufferWritesReadBack : Obligations.BufferWritesReadBack := by
  intro s rest off bs hf hb hfit
  constructor
  · intro hs
    refine ⟨s.adbuf.writeRange off bs, (step_action hf hs).trans ?_, Memory.writeRange_readsBack _ _ _⟩
    exact writeBuffer_writeRange (sp := .adbuf) (put := fun m => { s with script := rest, adbuf := m })
      (fun m _ b h => writeBufferByte_adbuf (s := { s with script := rest, adbuf := m }) hb h b) bs off s.adbuf hfit
  · intro hs
    refine ⟨s.tin.writeRange off bs, (step_action hf hs).trans ?_, Memory.writeRange_readsBack _ _ _⟩
    exact writeBuffer_writeRange (sp := .tin) (put := fun m => { s with script := rest, tin := m })
      (fun m _ b h => writeBufferByte_tin (s := { s with script := rest, tin := m }) hb h b) bs off s.tin hfit

end Sys2Proof.Machine

/-! Proofs for the encodings (30_encoding.md): what each decoder accepts, as one equivalence for each format; the steps that run a
decoded word; and what the words mean: the start of a primitive, `BAD_OP`, the invocations with the nonce and with a block. -/

namespace Sys2Proof

/-! ## Words -/

/-- An outcome is an error exactly when it is no value. -/
theorem exists_eq_error_iff {ε α : Type} {x : Except ε α} : (∃ e, x = .error e) ↔ ∀ a, x ≠ .ok a := by
  cases x <;> simp

/-- A byte by its fields `RSV`, `MODE` and `DIR` (R90). -/
theorem toNat_eq_fields (w : Byte) :
    w.toNat = 16 * (w.extractLsb' 4 4).toNat + 2 * (w.extractLsb' 1 3).toNat + (w.getLsbD 0).toNat := by
  have hw := w.isLt
  have hdir : (w.getLsbD 0).toNat = w.toNat % 2 := by
    rw [BitVec.getLsbD, Nat.testBit_zero]
    rcases Nat.mod_two_eq_zero_or_one w.toNat with h | h <;> simp [h]
  rw [hdir, BitVec.extractLsb'_toNat, BitVec.extractLsb'_toNat, Nat.shiftRight_eq_div_pow, Nat.shiftRight_eq_div_pow]
  omega

/-- An instruction's word decodes to it in its own format, with the table of R97. -/
theorem roundTrip (i : Instr) : Laws.RoundTrip.Statement i := by
  cases i with
  | clear => exact Laws.RoundTrip.clear
  | hash => exact Laws.RoundTrip.hash
  | nEnc => exact Laws.RoundTrip.nEnc
  | nDec => exact Laws.RoundTrip.nDec
  | mEnc => exact Laws.RoundTrip.mEnc
  | mDec => exact Laws.RoundTrip.mDec
  | tEnc => exact Laws.RoundTrip.tEnc
  | tDec => exact Laws.RoundTrip.tDec
  | nMsg => exact Laws.RoundTrip.nMsg
  | nAd => exact Laws.RoundTrip.nAd
  | nMsgLastFull => exact Laws.RoundTrip.nMsgLastFull
  | nMsgLastPart => exact Laws.RoundTrip.nMsgLastPart
  | nAdLastFull => exact Laws.RoundTrip.nAdLastFull
  | nAdLastPart => exact Laws.RoundTrip.nAdLastPart
  | mCrypt => exact Laws.RoundTrip.mCrypt
  | mAd => exact Laws.RoundTrip.mAd
  | mMsg => exact Laws.RoundTrip.mMsg
  | mFinal fl => exact Laws.RoundTrip.mFinal fl
  | tKs => exact Laws.RoundTrip.tKs
  | tKu => exact Laws.RoundTrip.tKu
  | tKdf => exact Laws.RoundTrip.tKdf
  | tTgf => exact Laws.RoundTrip.tTgf

/-! ## The command words -/

/-- What a byte decodes to as a command word has the byte as its `CMD` value: its fields fix it (R90, R91). -/
theorem eq_encode_of_decodeCommand {w : Byte} {i : Instr} (h : decodeCommand w = .ok i) : w = encode i := by
  apply BitVec.eq_of_toNat_eq
  rw [toNat_eq_fields w]
  unfold decodeCommand at h
  split at h
  · cases h
  · rename_i hrsv
    split at h <;> cases h
    all_goals
      rename_i hmode hdir
      rw [not_not.mp hrsv, hmode, hdir]
      rfl

/-- The decoder of command words inverts the encoder on the command rows, and accepts nothing else. -/
theorem decodeCommand_eq_ok_iff {w : Byte} {i : Instr} : decodeCommand w = .ok i ↔ i.format = .cmd8 ∧ w = encode i := by
  constructor
  · exact fun h => ⟨Machine.decodeCommand_format h, eq_encode_of_decodeCommand h⟩
  · rintro ⟨hf, rfl⟩
    have h := (roundTrip i).2
    rwa [hf] at h

/-- Settles O1: the command rows with their words, row by row. -/
theorem commandWordsAreTheOpcodeMap : Obligations.CommandWordsAreTheOpcodeMap := by
  intro w i
  rw [decodeCommand_eq_ok_iff]
  cases i <;> simp [Instr.format, encode, encodeIn]

/-- The bytes that are no command word (R92). -/
theorem decodeCommand_error_iff {w : Byte} :
    (∃ e, decodeCommand w = .error e) ↔ w = 0x01#8 ∨ w = 0x03#8 ∨ 0x0A ≤ w.toNat := by
  have hok : (∃ i, decodeCommand w = .ok i) ↔ w.toNat ∈ [0, 2, 4, 5, 6, 7, 8, 9] := by
    simp [commandWordsAreTheOpcodeMap w, exists_or, ← BitVec.toNat_inj]
  rw [exists_eq_error_iff, ← not_exists, hok, ← BitVec.toNat_inj, ← BitVec.toNat_inj]
  simp only [List.mem_cons, List.not_mem_nil, or_false, BitVec.toNat_ofNat]
  omega

/-! ## The domain bytes -/

/-- A byte whose high four bits are zero is its low four bits. -/
theorem setWidth_low_of_high_zero {x : Byte} (h : x.extractLsb' 4 4 = 0#4) : (x.extractLsb' 0 4).setWidth 8 = x := by
  have hhigh : x.toNat / 2 ^ 4 % 2 ^ 4 = 0 := by
    rw [← Nat.shiftRight_eq_div_pow, ← BitVec.extractLsb'_toNat, h]
    rfl
  have hx := x.isLt
  apply BitVec.eq_of_toNat_eq
  rw [BitVec.toNat_setWidth, BitVec.extractLsb'_toNat, Nat.shiftRight_zero]
  omega

/-- A byte that differs from another in its low four bits only is the other with those flipped. -/
theorem eq_xor_low_of_high_zero {b m : Byte} (h : (b ^^^ m).extractLsb' 4 4 = 0#4) :
    b = m ^^^ ((b ^^^ m).extractLsb' 0 4).setWidth 8 := by
  rw [setWidth_low_of_high_zero h, BitVec.xor_comm b, ← BitVec.xor_assoc, BitVec.xor_self, BitVec.zero_xor]

/-- Four bits widened to a byte leave its high four bits zero. -/
theorem high_of_setWidth (fl : BitVec 4) : (fl.setWidth 8).extractLsb' 4 4 = 0#4 := by
  revert fl
  decide

/-- Four bits widened to a byte are its low four bits. -/
theorem low_of_setWidth (fl : BitVec 4) : (fl.setWidth 8).extractLsb' 0 4 = fl := by
  revert fl
  decide

/-- Every row of a domain table has its instruction's byte. -/
theorem domainRows_encode (t : DomainTable) : ∀ r ∈ t.rows, r.1 = encodeIn t r.2 := by
  simp [DomainTable.rows, encodeIn]

/-- Every domain row but `M_FINAL` is in the rows of the table, with its byte (R97). -/
theorem mem_domainRows (t : DomainTable) {i : Instr} (hi : i.format = .domain) :
    (∃ fl, i = .mFinal fl) ∨ (encodeIn t i, i) ∈ t.rows := by
  cases i <;> simp [Instr.format, DomainTable.rows, encodeIn] at hi ⊢

/-- What a byte decodes to as a domain byte has the byte as its domain byte, in every table (R97). -/
theorem eq_encodeIn_of_decodeDomain {t : DomainTable} {b : Byte} {i : Instr} (h : decodeDomain t b = .ok i) :
    b = encodeIn t i := by
  unfold decodeDomain at h
  split at h
  · rename_i hflags
    cases h
    exact eq_xor_low_of_high_zero hflags
  · split at h
    · rename_i c j hrow
      cases h
      have hb : c = b := by simpa using List.find?_some hrow
      exact hb ▸ domainRows_encode t _ (List.mem_of_find?_eq_some hrow)
    · cases h

/-- A byte of `M_FINAL` decodes to it with its flags, in every table. -/
theorem decodeDomain_mFinal (t : DomainTable) (fl : BitVec 4) :
    decodeDomain t (t.mFinal ^^^ fl.setWidth 8) = .ok (.mFinal fl) := by
  have hflags : t.mFinal ^^^ fl.setWidth 8 ^^^ t.mFinal = fl.setWidth 8 := by
    rw [BitVec.xor_comm, ← BitVec.xor_assoc, BitVec.xor_self, BitVec.zero_xor]
  rw [decodeDomain, hflags, if_pos (high_of_setWidth fl), low_of_setWidth]

/-- The bytes of a table are those of its rows and the sixteen of `M_FINAL`. -/
theorem domainBytes_eq (t : DomainTable) :
    t.bytes = t.rows.map Prod.fst ++ (List.range 16).map fun n => t.mFinal ^^^ BitVec.ofNat 8 n := rfl

/-- Each byte of `M_FINAL` is among the sixteen. -/
theorem mem_mFinalBytes (t : DomainTable) (fl : BitVec 4) :
    t.mFinal ^^^ fl.setWidth 8 ∈ (List.range 16).map fun n => t.mFinal ^^^ BitVec.ofNat 8 n :=
  List.mem_map.mpr ⟨fl.toNat, List.mem_range.mpr fl.isLt, by rw [BitVec.ofNat_toNat]⟩

/-- Where no two rows share a byte, the byte of a row decodes to the row. -/
theorem decodeDomain_row {t : DomainTable} (ht : t.distinct = true) {b : Byte} {i : Instr} (hr : (b, i) ∈ t.rows) :
    decodeDomain t b = .ok i := by
  have hnodup : t.bytes.Nodup := by simpa [DomainTable.distinct] using ht
  rw [domainBytes_eq] at hnodup
  obtain ⟨hrows, -, hapart⟩ := List.nodup_append.mp hnodup
  have hflags : (b ^^^ t.mFinal).extractLsb' 4 4 ≠ 0#4 := fun hzero =>
    hapart b (List.mem_map_of_mem hr) _ (mem_mFinalBytes t _) (eq_xor_low_of_high_zero hzero)
  have hfind : (t.rows.find? fun q => q.1 = b) = some (b, i) := by
    have hsome : (t.rows.find? fun q => q.1 = b).isSome = true := List.find?_isSome.mpr ⟨(b, i), hr, by simp⟩
    obtain ⟨q, hq⟩ := Option.isSome_iff_exists.mp hsome
    have hkey : q.1 = b := by simpa using List.find?_some hq
    rw [hq, List.inj_on_of_nodup_map hrows (List.mem_of_find?_eq_some hq) hr hkey]
  rw [decodeDomain, if_neg hflags, hfind]

/-- Where no two rows share a byte, the decoder of domain bytes inverts the encoder on the domain rows, and accepts nothing
else. -/
theorem decodeDomain_eq_ok_iff {t : DomainTable} (ht : t.distinct = true) {b : Byte} {i : Instr} :
    decodeDomain t b = .ok i ↔ i.format = .domain ∧ b = encodeIn t i := by
  constructor
  · exact fun h => ⟨Machine.decodeDomain_format h, eq_encodeIn_of_decodeDomain h⟩
  · rintro ⟨hf, rfl⟩
    rcases mem_domainRows t hf with ⟨fl, rfl⟩ | hrow
    · exact decodeDomain_mFinal t fl
    · exact decodeDomain_row ht hrow

/-- The default domain bytes are distinct (R97). -/
theorem defaultDomain_distinct : DomainTable.default.distinct = true := by decide

/-! ## Both formats -/

/-- A sequence decodes to the instruction of its first byte, with the bytes after it. -/
theorem decode_cons_eq_ok_iff {t : DomainTable} {f : Format} {b : Byte} {rest tail : List Byte} {i : Instr} :
    decode t f (b :: rest) = .ok (i, tail) ↔ decodeByte t f b = .ok i ∧ tail = rest := by
  cases h : decodeByte t f b <;> simp [decode, h, eq_comm]

/-- A command row has the same word in every table. -/
theorem encodeIn_command (t : DomainTable) {i : Instr} (hi : i.format = .cmd8) : encodeIn t i = encode i := by
  cases i <;> simp only [Instr.format, reduceCtorEq] at hi
  all_goals rfl

/-- Settles O3: in either format the decoder inverts the encoder. -/
theorem encodeAndDecodeAgree : Obligations.EncodeAndDecodeAgree := by
  refine ⟨fun t f i rest ht hi => ?_, fun t f b rest tail i h => ?_, defaultDomain_distinct⟩
  · obtain rfl : f = i.format := (Laws.RoundTrip.wellFormed_iff i f).mp hi
    rw [decode_cons_eq_ok_iff]
    refine ⟨?_, rfl⟩
    cases hf : i.format with
    | cmd8 => exact decodeCommand_eq_ok_iff.mpr ⟨hf, encodeIn_command t hf⟩
    | domain => exact (decodeDomain_eq_ok_iff ht).mpr ⟨hf, rfl⟩
  · obtain ⟨hbyte, htail⟩ := decode_cons_eq_ok_iff.mp h
    rw [Laws.RoundTrip.wellFormed_iff]
    cases f with
    | cmd8 =>
      obtain ⟨hf, hb⟩ := decodeCommand_eq_ok_iff.mp hbyte
      exact ⟨hb.trans (encodeIn_command t hf).symm, htail, hf.symm⟩
    | domain => exact ⟨eq_encodeIn_of_decodeDomain hbyte, htail, (Machine.decodeDomain_format hbyte).symm⟩

/-- The default bytes of `M_FINAL`, flag by flag (R97). -/
theorem eq_mFinal_default_iff {b : Byte} {fl : BitVec 4} :
    b = encodeIn DomainTable.default (.mFinal fl) ↔ b.toNat = 48 + fl.toNat := by
  have hfl : (encodeIn DomainTable.default (.mFinal fl)).toNat = 48 + fl.toNat := by
    revert fl
    decide
  rw [← BitVec.toNat_inj, hfl]

/-- The sixteen values of the flags above 48. -/
theorem exists_mFinal_byte_iff {n : Nat} : (∃ fl : BitVec 4, n = 48 + fl.toNat) ↔ 48 ≤ n ∧ n ≤ 63 := by
  constructor
  · rintro ⟨fl, rfl⟩
    have := fl.isLt
    omega
  · rintro ⟨hlow, hhigh⟩
    refine ⟨BitVec.ofNat 4 (n - 48), ?_⟩
    rw [BitVec.toNat_ofNat]
    omega

/-- Settles O2: the domain rows with their bytes, row by row; a byte is refused when it is in no row. -/
theorem domainBytesAreAClosedEnumeration : Obligations.DomainBytesAreAClosedEnumeration := by
  refine (and_iff_left_of_imp fun hok b => ?_).mpr fun b i => ?_
  · have hdomain : (∃ i, decodeDomain DomainTable.default b = .ok i) ↔
        b.toNat ∈ [4, 8, 20, 21, 24, 26, 36, 40, 44, 64, 65, 66, 68] ∨ 48 ≤ b.toNat ∧ b.toNat ≤ 63 := by
      rw [← exists_mFinal_byte_iff]
      simp [hok, exists_or, ← BitVec.toNat_inj]
    rw [exists_eq_error_iff, ← not_exists, hdomain]
    simp only [List.mem_cons, List.not_mem_nil, or_false]
    omega
  · rw [decodeDomain_eq_ok_iff defaultDomain_distinct]
    cases i
    case mFinal fl => simp [Instr.format, eq_mFinal_default_iff]
    all_goals simp [Instr.format, encodeIn, DomainTable.default]

/-- Settles O4: each byte is evaluated. -/
theorem writtenOutWordsDecode : Obligations.WrittenOutWordsDecode := by
  unfold Obligations.WrittenOutWordsDecode
  decide

end Sys2Proof

namespace Sys2Proof.Machine

open Sys2Proof

/-! ## `START` of a reserved word and of a primitive -/

/-- Settles O5: a reserved word is refused by the decoder, and `START` of it takes the error `BAD_OP`. -/
theorem reservedWordsEndInBadOp : Obligations.ReservedWordsEndInBadOp := by
  refine ⟨fun v => decodeCommand_error_iff, fun v s hb hv => ⟨[], rfl, ?_⟩⟩
  obtain ⟨e, he⟩ := decodeCommand_error_iff.mpr hv
  have hstatus : statusError .badOp = 0x1A#8 := by decide
  rw [start_error he, startReserved_eq, if_neg (by simp [hb]), raiseError, hstatus]
  rfl

/-- `START` of a primitive that passes its checks starts it: `BUSY`, and the first phase (R307 step 7). -/
theorem startPrimitive_running {k : Kind} {s : State} (hb : s.busy = false) (hc : precheck k s = none)
    (hw : operandsWritten k s = true) (v : Byte) (p : Phase) :
    startPrimitive v k p s =
      .next { s with op := v, status := 0x01#8, tagout := none, digest := none, tout := [], log := [], phase := p } := by
  have hc' : precheck k (latch v s) = none := by rw [← hc]; cases k <;> rfl
  have hw' : operandsWritten k (latch v s) = true := by rw [← hw]; cases k <;> rfl
  have hstatus : statusRunning = 0x01#8 := by decide
  rw [startPrimitive, if_neg (by simp [hb]), hc']
  simp only [hw', if_true, hstatus]
  rfl

namespace AeadOperands

variable {s : State} {k n : Block} {a x : List Byte}

/-- The operands of an encrypt command pass its checks (R302, R303, R305, R93). -/
theorem encrypt_checks (h : AeadOperands s k n a x) :
    precheck .encrypt s = none ∧ operandsWritten .encrypt s = true := by
  simp [precheck, operandsWritten, Memory.writtenTo, h.klen, h.nlen, Nat.not_lt.mpr h.ad_fits, Nat.not_lt.mpr h.text_fits,
    h.key, h.nonce, h.ad, h.text]

/-- The operands of a decrypt command pass its checks when the tag is there too (R304). -/
theorem decrypt_checks (h : AeadOperands s k n a x) (ht : s.tglen = 16) {t : Block} (htag : s.tagin.value = some t) :
    precheck .decrypt s = none ∧ operandsWritten .decrypt s = true := by
  simp [precheck, operandsWritten, Memory.writtenTo, h.klen, h.nlen, Nat.not_lt.mpr h.ad_fits, Nat.not_lt.mpr h.text_fits,
    h.key, h.nonce, h.ad, h.text, ht, htag]

end AeadOperands

/-- Settles O8: the operands of each kind pass its checks, and each command is `START` of its kind. -/
theorem primitivesStart : Obligations.PrimitivesStart := by
  refine ⟨fun s x hb hfit hx => ?_, fun s k n a x hb h i v p hrow => ?_, fun s k n t a x hb h ht htag i v p hrow => ?_⟩
  · exact startPrimitive_running hb (by simp [precheck, hfit]) (by simp [operandsWritten, Memory.writtenTo, hx]) 0x02#8 _
  · obtain ⟨hc, hw⟩ := h.encrypt_checks
    have hexec : exec i = startPrimitive v .encrypt p := by fin_cases hrow <;> rfl
    rw [hexec, startPrimitive_running hb hc hw]
  · obtain ⟨hc, hw⟩ := h.decrypt_checks ht htag
    have hexec : exec i = startPrimitive v .decrypt p := by fin_cases hrow <;> rfl
    rw [hexec, startPrimitive_running hb hc hw]

/-! ## Invocations -/

/-- Settles O16: each of the rows is `invokeNonce` of its own instruction, tagged with its byte. -/
theorem nonceInvocations : Obligations.NonceInvocations := by
  intro s k n x d hk hn hd hx fl i b t hrow
  obtain ⟨hexec, rfl⟩ : exec i = invokeNonce i ∧ encodeIn s.cfg.domain i = b := by
    fin_cases hrow <;> exact ⟨rfl, rfl⟩
  rw [hexec, invokeNonce_of hk hn hd hx]
  rfl

/-- The read of a block is recorded by the length of what it gives (R349). -/
theorem logBlock_of_block {s : State} {sp : Space} {len j : Nat} {w : List Byte} (hw : s.block sp len j = some w) :
    logBlock sp len j s = { s with log := s.log ++ (if w = [] then [] else [.read sp (16 * j) w.length]) } := by
  have hlen : w.length = blockLength len j := Memory.readRange_length hw
  rw [logBlock, ← hlen, logRead]
  cases w with
  | nil => simp
  | cons b bs => simp [logEvent]

/-- Settles O17: each of the rows is `invokeBlock` of its own instruction, on the block the model computes. -/
theorem blockInvocations : Obligations.BlockInvocations := by
  intro s k x d j w hk hd hx hj done
  have hinvoke : ∀ (i : Instr) (sp : Space) (len : Nat), s.block sp len j = some w →
      invokeBlock i sp len s = done (encodeIn s.cfg.domain i) sp := by
    intro i sp len hw
    rw [invokeBlock_of hj hw hk hd hx, logBlock_of_block hw]
    rfl
  have hmsg : ∀ sp, macSpace s = sp → s.block sp s.tlen j = some w → exec .mMsg s = done s.cfg.domain.mMsg sp := by
    rintro sp rfl hw
    exact hinvoke .mMsg _ _ hw
  have hspace : macSpace s = if s.op.getLsbD 0 = true then .tout else .tin := rfl
  exact ⟨fun hw => ⟨hinvoke .nAd _ _ hw, hinvoke .mAd _ _ hw⟩, fun hdir => hmsg .tin (by rw [hspace, hdir]; rfl),
    fun hdir => hmsg .tout (by rw [hspace, hdir]; rfl)⟩

/-! ## Steps that run a decoded word -/

/-- In the layout of R96 the domain byte is byte 7 of `TK1`. -/
theorem tagOf_defaultLayout {c : Config} (h : c.tk1Layout = Config.defaultTk1Layout) (w : Block) : tagOf c w = some w[7] := by
  have hslots : ∀ j (hj : j < 16), Config.defaultTk1Layout.toList[j]'(by simpa using hj) = .domain ↔ j = 7 := by decide
  have hfind : ((Config.defaultTk1Layout.toList.zip w.toList).find? fun p => p.1 = .domain) = some (.domain, w[7]) := by
    refine List.find?_eq_some_iff_getElem.mpr ⟨by simp, 7, by simp, ?_, fun j hj => ?_⟩
    · rw [List.getElem_zip, (hslots 7 (by omega)).mpr rfl, Vector.getElem_toList]
    · rw [List.getElem_zip]
      simpa using mt (hslots j (by omega)).mp (by omega)
  rw [tagOf, h, hfind]
  rfl

/-- Settles O59: the engine's turn, on the script's `idle`, on a `WAIT` and on an empty script, is its pending invocation. -/
theorem stepRunsTheInvocation : Obligations.StepRunsTheInvocation := by
  intro s w b i hf hb hp hw htag hi
  refine ⟨fun hs => ?_, fun rest hs => ?_, fun rest hs => ?_, fun hlayout => ?_⟩
  · rw [step_quiet hf hs, engineTurn, if_pos hb, engineMicro_invocation hp hw htag hi]
  · have hb' : State.busy { s with script := rest } = true := hb
    rw [step_action hf hs, hostTurn, engineTurn, if_pos hb']
    exact engineMicro_invocation (s := { s with script := rest }) hp hw htag hi
  · rw [step_action hf hs, hostTurn, if_pos hb, engineMicro_invocation hp hw htag hi]
  · rw [tagOf_defaultLayout hlayout] at htag
    exact (Option.some.inj htag).symm

/-! ## Placed words -/

/-- A word placed is the byte of its bits. -/
theorem withFetchWord_toNat (s : State) (w : Byte) : s.withFetchWord 8 w.toNat = placeWord w s := by
  rw [State.withFetchWord, Nat.mod_eq_of_lt w.isLt, BitVec.ofNat_toNat, BitVec.setWidth_eq]

/-- The bits of a row read as a command word, or as a domain byte where that is refused (log 3). -/
theorem decodeTableWord_toNat {w : Byte} {i : Instr} (h : decodeTableWord 8 w.toNat = some i) :
    decodeCommand w = .ok i ∨ (∃ e, decodeCommand w = .error e) ∧ decodeDomain DomainTable.default w = .ok i := by
  rw [decodeTableWord, if_pos rfl, BitVec.ofNat_toNat, BitVec.setWidth_eq] at h
  simp only [decode, decodeByte] at h
  cases hc : decodeCommand w with
  | ok j => exact .inl (by simpa [hc] using h)
  | error e =>
    refine .inr ⟨⟨e, rfl⟩, ?_⟩
    cases hd : decodeDomain DomainTable.default w with
    | ok j => simpa [hc, hd] using h
    | error e' => simp [hc, hd] at h

/-- The step after a command word is placed runs it. -/
theorem step_placeWord_command {s : State} (hf : s.fault = none) {w : Byte} {i : Instr} (h : decodeCommand w = .ok i) :
    step (placeWord w s) = exec i s := by
  have hplace : placeWord w s = { s with script := .start w :: s.script } := by simp [placeWord, h]
  rw [hplace]
  exact (step_action (s := { s with script := .start w :: s.script }) hf rfl).trans (start_ok h s)

/-- A domain byte that is no command word is placed as the engine's pending invocation. -/
theorem placeWord_domain {s : State} {w : Byte} {i : Instr} {e : DecodeError} (hc : decodeCommand w = .error e)
    (hd : decodeDomain s.cfg.domain w = .ok i) : placeWord w s = placeInvocation i s := by
  simp [placeWord, hc, hd]

/-- The step after an invocation is placed runs it and the rest of its loop body. -/
theorem step_placeInvocation {s : State} (hf : s.fault = none) (hdistinct : s.cfg.domain.distinct = true)
    (hlayout : s.cfg.tk1Layout.toList.contains .domain = true) {i : Instr} (hi : i.format = .domain) :
    step (placeInvocation i s) =
      andThen (exec i { placeInvocation i s with script := s.script }) (afterInvocation i) := by
  obtain ⟨-, hidle, -, -⟩ := stepRunsTheInvocation (placeInvocation i s) _ _ i hf statusBusy_running rfl rfl
    (tagOf_aeadTk1 hlayout _ _) ((decodeDomain_eq_ok_iff hdistinct).mpr ⟨hi, rfl⟩)
  exact hidle s.script rfl

/-- A command row goes on in every state (R306, R307). -/
theorem exec_command_next {i : Instr} (hi : i.format = .cmd8) (s : State) : ∃ t, exec i s = .next t := by
  rcases exec_command hi with rfl | ⟨v, k, p, -, e⟩
  · rw [show exec .clear s = execClear s from rfl, execClear_eq]
    split <;> exact ⟨_, rfl⟩
  · rw [e]
    rcases startPrimitive_cases v k p s with ⟨-, h⟩ | ⟨-, ⟨c, -, h⟩ | ⟨-, -, h⟩ | ⟨-, -, h⟩⟩ <;> exact ⟨_, h⟩

/-- Everything an invocation and the rest of its loop body read is written, the texts being empty. -/
structure FilledEmptyText (s : State) : Prop where
  key : s.key.value.isSome = true
  nonce : s.nonce.value.isSome = true
  adlen : s.adlen = 0
  tlen : s.tlen = 0
  regS : s.regS.isSome = true
  regL : s.regL.isSome = true
  regR : s.regR.isSome = true
  regZ : s.regZ.isSome = true
  regD : s.regD.isSome = true
  idx : s.idx.isSome = true

/-- A block of an empty text is there, with no byte (R65). -/
theorem block_of_empty (s : State) (sp : Space) (j : Nat) : s.block sp 0 j = some [] := by
  simp [State.block, blockLength, Memory.readRange]

/-- A filled register has a value. -/
theorem OperandReg.value_filled (r : OperandReg) : r.filled.value.isSome = true := by
  simp [OperandReg.value, OperandReg.filled]

/-- An invocation placed at reset finds its registers filled and its texts empty (log 4). -/
theorem placeInvocation_filled {c : Config} {i : Instr} (script : List HostAction) :
    FilledEmptyText { placeInvocation i (State.resetWith c) with script := script } where
  key := OperandReg.value_filled _
  nonce := OperandReg.value_filled _
  adlen := rfl
  tlen := rfl
  regS := rfl
  regL := rfl
  regR := rfl
  regZ := rfl
  regD := rfl
  idx := rfl

section

variable {s : State} (h : FilledEmptyText s) {i : Instr}

include h

/-- With what it reads written an invocation completes, and leaves what the rest of its loop body reads written. -/
theorem FilledEmptyText.exec_next (hi : i.format = .domain) : ∃ t, exec i s = .next t ∧ FilledEmptyText t := by
  obtain ⟨k, hk⟩ := Option.isSome_iff_exists.mp h.key
  obtain ⟨n, hn⟩ := Option.isSome_iff_exists.mp h.nonce
  obtain ⟨x, hx⟩ := Option.isSome_iff_exists.mp h.regS
  obtain ⟨l, hl⟩ := Option.isSome_iff_exists.mp h.regL
  obtain ⟨r, hr⟩ := Option.isSome_iff_exists.mp h.regR
  obtain ⟨z, hz⟩ := Option.isSome_iff_exists.mp h.regZ
  obtain ⟨d, hd⟩ := Option.isSome_iff_exists.mp h.regD
  obtain ⟨j, hj⟩ := Option.isSome_iff_exists.mp h.idx
  have hnonce : ∀ i, ∃ t, invokeNonce i s = .next t ∧ FilledEmptyText t := fun i =>
    ⟨_, invokeNonce_of hk hn hd hx, { h with regS := rfl }⟩
  have hblock : ∀ i sp len, len = 0 → ∃ t, invokeBlock i sp len s = .next t ∧ FilledEmptyText t := by
    rintro i sp len rfl
    have hw := block_of_empty s sp j
    refine ⟨_, invokeBlock_of hj hw hk hd hx, ?_⟩
    rw [logBlock_of_block hw]
    exact { h with regS := rfl }
  cases i with
  | nMsg | nMsgLastFull | nMsgLastPart | nAdLastFull | nAdLastPart | mCrypt | mFinal => exact hnonce _
  | nAd | mAd => exact hblock _ _ _ h.adlen
  | mMsg => exact hblock _ _ _ h.tlen
  | tKdf =>
    simp only [exec, execTKdf, hk, hn, need_some]
    exact ⟨_, rfl, { h with regZ := rfl }⟩
  | tKu =>
    simp only [exec, execTKu, hz, hn, hd, need_some]
    exact ⟨_, rfl, { h with regZ := rfl }⟩
  | tKs =>
    simp only [exec, execTKs, hz, hn, hd, hj, h.tlen, block_of_empty, need_some]
    exact ⟨_, rfl, by constructor <;> simp [h.key, h.nonce, h.adlen, h.tlen, hx, hl, hr, hz, hd, hj]⟩
  | tTgf =>
    obtain ⟨g, hg⟩ : ∃ g, s.tagKey = some g := by
      unfold State.tagKey
      split
      · exact ⟨k, hk⟩
      · exact ⟨z, hz⟩
    simp only [exec, execTTgf, hg, hr, hl, need_some]
    exact ⟨_, rfl, { h with }⟩
  | clear | hash | nEnc | nDec | mEnc | mDec | tEnc | tDec => cases hi

/-- With what it reads written the rest of a loop body completes. -/
theorem FilledEmptyText.afterInvocation_next (hi : i.format = .domain) : ∃ t, afterInvocation i s = .next t := by
  obtain ⟨x, hx⟩ := Option.isSome_iff_exists.mp h.regS
  obtain ⟨d, hd⟩ := Option.isSome_iff_exists.mp h.regD
  obtain ⟨j, hj⟩ := Option.isSome_iff_exists.mp h.idx
  cases i with
  | nAd | mAd | mMsg | tKu => exact ⟨_, stepCounter_of hd hj⟩
  | nAdLastFull | nAdLastPart | nMsgLastFull | nMsgLastPart | tKdf | tTgf => exact ⟨_, rfl⟩
  | nMsg => simp [afterInvocation, nTextNext, hj]
  | mFinal => simp [afterInvocation, mFinalNext, hx]
  | mCrypt => simp [afterInvocation, mCryptNext, stepCounter, h.tlen, block_of_empty, hx, hd, hj]
  | tKs =>
    simp only [afterInvocation, tKsNext, hj, hd, need_some]
    split
    · exact ⟨_, rfl⟩
    · exact ⟨_, stepCounter_of hd hj⟩
  | clear | hash | nEnc | nDec | mEnc | mDec | tEnc | tDec => cases hi

end

/-- Settles O60: a command word is run by `START`, a domain byte by the pending invocation; from reset the invocation finds
everything it reads filled and its texts empty. -/
theorem placedWordRunsNext : Obligations.PlacedWordRunsNext := by
  refine ⟨fun s w i hf h => ?_, fun w i h => ?_⟩
  · rw [withFetchWord_toNat]
    rcases decodeTableWord_toNat h with hc | ⟨⟨e, hc⟩, hd⟩
    · refine ⟨fun _ => step_placeWord_command hf hc, fun hi => ?_⟩
      rw [decodeCommand_format hc] at hi
      cases hi
    · refine ⟨fun hi => ?_, fun hi htable hlayout => ?_⟩
      · rw [decodeDomain_format hd] at hi
        cases hi
      · rw [placeWord_domain hc (htable ▸ hd)]
        exact step_placeInvocation hf (htable ▸ defaultDomain_distinct) hlayout hi
  · rw [withFetchWord_toNat]
    rcases decodeTableWord_toNat h with hc | ⟨⟨e, hc⟩, hd⟩
    · rw [step_placeWord_command rfl hc]
      exact exec_command_next (decodeCommand_format hc) _
    · have hi := decodeDomain_format hd
      rw [placeWord_domain (s := State.reset) hc hd, step_placeInvocation rfl defaultDomain_distinct (by decide) hi]
      obtain ⟨t, ht, hfilled⟩ := (placeInvocation_filled (c := Config.default) (i := i) []).exec_next hi
      obtain ⟨u, hu⟩ := hfilled.afterInvocation_next hi
      exact ⟨u, andThen_eq_next.mpr ⟨t, ht, hu⟩⟩

end Sys2Proof.Machine

/-! Proofs for the cipher core (40_cipher_core.md): the S-box and its rule, the five steps of a round cell by cell, the round
constants, and that `permute` is a bijection on blocks. -/

namespace Sys2Proof.Machine

open Sys2Proof

/-! ## The S-box -/

/-- Bit by bit, a byte written as eight bits. -/
theorem ofBools_getLsbD (b7 b6 b5 b4 b3 b2 b1 b0 : Bool) {i : Nat} (hi : i < 8) :
    (BitVec.ofBool b7 ++ BitVec.ofBool b6 ++ BitVec.ofBool b5 ++ BitVec.ofBool b4 ++ BitVec.ofBool b3 ++ BitVec.ofBool b2
      ++ BitVec.ofBool b1 ++ BitVec.ofBool b0).getLsbD i = [b0, b1, b2, b3, b4, b5, b6, b7][i] := by
  simp only [BitVec.getLsbD_append, BitVec.getLsbD_ofBool]
  interval_cases i <;> simp

theorem pickBits_getLsbD (x : Byte) (b7 b6 b5 b4 b3 b2 b1 b0 : Nat) {i : Nat} (hi : i < 8) :
    (pickBits x b7 b6 b5 b4 b3 b2 b1 b0).getLsbD i = x.getLsbD ([b0, b1, b2, b3, b4, b5, b6, b7][i]) := by
  rw [pickBits, ofBools_getLsbD _ _ _ _ _ _ _ _ hi]
  interval_cases i <;> rfl

/-- A pass of R133 exclusive-ors into bits 4 and 0 what bits 7, 6, 3 and 2 decide, and keeps those four: a second one undoes
it. -/
theorem sboxMix_involutive : Function.Involutive sboxMix := by
  intro x
  ext i hi
  interval_cases i <;> simp [sboxMix]

/-- The bit permutation of the first three passes (R133) is undone by its inverse. -/
theorem pickBits_pass_injective : Function.Injective fun x : Byte => pickBits x 2 1 7 6 4 0 3 5 := by
  refine Function.LeftInverse.injective (g := fun y => pickBits y 5 4 0 3 1 7 6 2) fun x => ?_
  refine BitVec.eq_of_getLsbD_eq fun i hi => ?_
  rw [pickBits_getLsbD _ _ _ _ _ _ _ _ _ hi]
  interval_cases i <;> exact pickBits_getLsbD x 2 1 7 6 4 0 3 5 (by simp)

/-- The swap of bits 2 and 1 in the last pass (R133) is its own inverse. -/
theorem pickBits_swap_injective : Function.Injective fun x : Byte => pickBits x 7 6 5 4 3 1 2 0 := by
  refine Function.LeftInverse.injective (g := fun y => pickBits y 7 6 5 4 3 1 2 0) fun x => ?_
  refine BitVec.eq_of_getLsbD_eq fun i hi => ?_
  rw [pickBits_getLsbD _ _ _ _ _ _ _ _ _ hi]
  interval_cases i <;> exact pickBits_getLsbD x 7 6 5 4 3 1 2 0 (by simp)

theorem sboxByRule_injective : Function.Injective sboxByRule := by
  have hmix := sboxMix_involutive.injective
  have hpass := pickBits_pass_injective.comp hmix
  exact (pickBits_swap_injective.comp hmix).comp (hpass.comp (hpass.comp hpass))

/-- R134: the table is generated by the rule. -/
theorem sboxLookup_default : sboxLookup Config.default = sboxByRule := by
  have h : ∀ x : Byte, sboxLookup Config.default x = sboxByRule x := by decide +kernel
  exact funext h

/-- Settles O22: the table is compared with the rule at each of the 256 bytes; the rule is injective since each of its passes is. -/
theorem sboxTableFollowsItsRule : Obligations.SboxTableFollowsItsRule := by
  unfold Obligations.SboxTableFollowsItsRule
  rw [sboxLookup_default]
  exact ⟨fun _ => rfl, fun _ _ h => sboxByRule_injective h⟩

/-- With the spec's table the substitution is a bijection on bytes (R134). -/
theorem sboxLookup_bijective {c : Config} (h : c.sbox = Config.default.sbox) : Function.Bijective (sboxLookup c) := by
  have hc : sboxLookup c = sboxByRule := by
    funext x
    rw [← sboxLookup_default]
    simp only [sboxLookup, h]
  exact Finite.injective_iff_bijective.mp (hc ▸ sboxByRule_injective)

/-! ## The five steps, cell by cell -/

theorem subCells_getElem (c : Config) (x : Block) {i : Nat} (h : i < 16) : (subCells c x)[i] = sboxLookup c x[i] := by
  simp [subCells]

theorem addConstants_getElem (r : BitVec 6) (x : Block) {i : Nat} (h : i < 16) :
    (addConstants r x)[i] =
      if i = 0 then x[0] ^^^ (r.setWidth 8 &&& 0x0F#8)
      else if i = 4 then x[4] ^^^ ((r.setWidth 8 >>> 4) &&& 0x03#8)
      else if i = 8 then x[8] ^^^ 0x02#8
      else x[i] := by
  obtain rfl | h0 := eq_or_ne i 0
  · simp [addConstants]
  obtain rfl | h4 := eq_or_ne i 4
  · simp [addConstants]
  obtain rfl | h8 := eq_or_ne i 8
  · simp [addConstants]
  simp [addConstants, h0, h4, h8, h0.symm, h4.symm, h8.symm]

theorem addRoundTweakey_getElem (stk : Vector Byte 8) (x : Block) {i : Nat} (h : i < 16) :
    (addRoundTweakey stk x)[i] = if h8 : i < 8 then x[i] ^^^ stk[i] else x[i] := by
  simp [addRoundTweakey]

theorem shiftRows_getElem (c : Config) (x : Block) {i : Nat} (h : i < 16) : (shiftRows c x)[i] = x[c.sr[i].val] := by
  simp [shiftRows]

/-- R140: each column of the new block is the matrix applied to that column of the old one. -/
theorem mixColumns_column (c : Config) (x : Block) {i : Nat} (h : i < 4) :
    (mixColumns c x)[i] = mixCell c.mc[0] x[i] x[4 + i] x[8 + i] x[12 + i] ∧
      (mixColumns c x)[4 + i] = mixCell c.mc[1] x[i] x[4 + i] x[8 + i] x[12 + i] ∧
      (mixColumns c x)[8 + i] = mixCell c.mc[2] x[i] x[4 + i] x[8 + i] x[12 + i] ∧
      (mixColumns c x)[12 + i] = mixCell c.mc[3] x[i] x[4 + i] x[8 + i] x[12 + i] := by
  interval_cases i <;> simp [mixColumns]

/-- The rows that the spec's matrix gives (R140). -/
theorem mixColumns_of_default {c : Config} (hc : c.mc = Config.default.mc) (x : Block) {i : Nat} (h : i < 4) :
    (mixColumns c x)[i] = x[i] ^^^ x[8 + i] ^^^ x[12 + i] ∧ (mixColumns c x)[4 + i] = x[i] ∧
      (mixColumns c x)[8 + i] = x[4 + i] ^^^ x[8 + i] ∧ (mixColumns c x)[12 + i] = x[i] ^^^ x[8 + i] := by
  have hcol := mixColumns_column c x h
  simpa [hc, Config.default, mixCell] using hcol

/-- Settles O23: the five steps as the model writes them, and the equation of each for a cell or a column. -/
theorem roundStepsCellByCell : Obligations.RoundStepsCellByCell := by
  refine ⟨fun _ _ _ _ => rfl, fun c x i h => subCells_getElem c x h, fun r x i h => addConstants_getElem r x h,
    fun stk x i h => addRoundTweakey_getElem stk x h, fun x => ?_, fun x i h => mixColumns_of_default rfl x h⟩
  ext1 i hi
  rw [shiftRows_getElem _ _ hi]
  interval_cases i <;> rfl

/-! ## The round constants -/

/-- Settles O24: the register of R136 evaluated for forty rounds. -/
theorem roundConstants : Obligations.RoundConstants := by
  unfold Obligations.RoundConstants
  decide

/-! ## `permute` is a bijection (R141) -/

/-- Every cell is mapped by a bijection. -/
theorem subCells_bijective {c : Config} (h : Function.Bijective (sboxLookup c)) : Function.Bijective (subCells c) := by
  obtain ⟨g, hleft, hright⟩ := Function.bijective_iff_has_inverse.mp h
  refine Function.bijective_iff_has_inverse.mpr ⟨Vector.map g, fun x => ?_, fun x => ?_⟩
  · ext1 i hi
    simp [subCells, hleft x[i]]
  · ext1 i hi
    simp [subCells, hright x[i]]

theorem addConstants_involutive (r : BitVec 6) : Function.Involutive (addConstants r) := by
  intro x
  ext1 i hi
  simp only [addConstants_getElem _ _ hi]
  split_ifs with h0 h4 h8
  · subst h0; simp [addConstants_getElem]
  · subst h4; simp [addConstants_getElem]
  · subst h8; simp [addConstants_getElem]
  · rfl

theorem addRoundTweakey_involutive (stk : Vector Byte 8) : Function.Involutive (addRoundTweakey stk) := by
  intro x
  ext1 i hi
  by_cases h8 : i < 8 <;> simp [addRoundTweakey_getElem _ _ hi, h8]

/-- A cell permutation is undone by one whose table is the inverse. -/
theorem shiftRows_shiftRows {c d : Config} (h : ∀ i : Fin 16, c.sr[d.sr[i]] = i) (x : Block) :
    shiftRows d (shiftRows c x) = x := by
  ext1 i hi
  have hinv : c.sr[d.sr[i].val] = ⟨i, hi⟩ := h ⟨i, hi⟩
  simp [shiftRows_getElem, hinv]

/-- The rows rotated to the left: the inverse of R139's table. -/
def unshift : Vector (Fin 16) 16 := #v[0, 1, 2, 3, 5, 6, 7, 4, 10, 11, 8, 9, 15, 12, 13, 14]

theorem shiftRows_bijective {c : Config} (h : c.sr = Config.default.sr) : Function.Bijective (shiftRows c) := by
  have hc : shiftRows c = shiftRows Config.default := by
    funext x
    simp only [shiftRows, h]
  rw [hc]
  exact Function.bijective_iff_has_inverse.mpr ⟨shiftRows { Config.default with sr := unshift },
    shiftRows_shiftRows (by decide), shiftRows_shiftRows (by decide)⟩

/-- Blocks that agree column by column are equal. -/
theorem block_eq_of_columns {x y : Block}
    (h : ∀ (i : Nat) (hi : i < 4), x[i] = y[i] ∧ x[4 + i] = y[4 + i] ∧ x[8 + i] = y[8 + i] ∧ x[12 + i] = y[12 + i]) :
    x = y := by
  ext1 i hi
  obtain ⟨h0, h4, h8, h12⟩ := h (i % 4) (by omega)
  rcases (by omega : i = i % 4 ∨ i = 4 + i % 4 ∨ i = 8 + i % 4 ∨ i = 12 + i % 4) with hr | hr | hr | hr
  · simpa only [← hr] using h0
  · simpa only [← hr] using h4
  · simpa only [← hr] using h8
  · simpa only [← hr] using h12

/-- The inverse of R140's matrix, which solves for the old rows as R141 does. -/
def unmix : Vector (Vector Bool 4) 4 :=
  #v[#v[false, true, false, false], #v[false, true, true, true], #v[false, true, false, true], #v[true, false, false, true]]

/-- The old rows from the new ones (R141). -/
theorem mixColumns_of_unmix {d : Config} (hd : d.mc = unmix) (y : Block) {i : Nat} (h : i < 4) :
    (mixColumns d y)[i] = y[4 + i] ∧ (mixColumns d y)[4 + i] = y[4 + i] ^^^ y[8 + i] ^^^ y[12 + i] ∧
      (mixColumns d y)[8 + i] = y[4 + i] ^^^ y[12 + i] ∧ (mixColumns d y)[12 + i] = y[i] ^^^ y[12 + i] := by
  have hcol := mixColumns_column d y h
  simpa [hd, unmix, mixCell] using hcol

theorem mixColumns_bijective {c : Config} (h : c.mc = Config.default.mc) : Function.Bijective (mixColumns c) := by
  refine Function.bijective_iff_has_inverse.mpr ⟨mixColumns { c with mc := unmix }, fun x => ?_, fun y => ?_⟩
  · refine block_eq_of_columns fun i hi => ?_
    obtain ⟨h0, h1, h2, h3⟩ := mixColumns_of_default h x hi
    obtain ⟨g0, g1, g2, g3⟩ := mixColumns_of_unmix (d := { c with mc := unmix }) rfl (mixColumns c x) hi
    rw [g0, g1, g2, g3, h0, h1, h2, h3]
    refine ⟨rfl, ?_, ?_, ?_⟩ <;> grind
  · refine block_eq_of_columns fun i hi => ?_
    obtain ⟨g0, g1, g2, g3⟩ := mixColumns_of_unmix (d := { c with mc := unmix }) rfl y hi
    obtain ⟨h0, h1, h2, h3⟩ := mixColumns_of_default h (mixColumns { c with mc := unmix } y) hi
    rw [h0, h1, h2, h3, g0, g1, g2, g3]
    refine ⟨?_, rfl, ?_, ?_⟩ <;> grind

/-- R132: a round is the composition of its five steps. -/
theorem cipherRound_bijective {c : Config} (hsbox : c.sbox = Config.default.sbox) (hsr : c.sr = Config.default.sr)
    (hmc : c.mc = Config.default.mc) (r : BitVec 6) (stk : Vector Byte 8) : Function.Bijective (cipherRound c r stk) :=
  (mixColumns_bijective hmc).comp <| (shiftRows_bijective hsr).comp <| (addRoundTweakey_involutive stk).bijective.comp <|
    (addConstants_involutive r).bijective.comp <| subCells_bijective (sboxLookup_bijective hsbox)

/-- The round constants and the tweakey words do not depend on the cells, so `n` rounds are `n` bijections. -/
theorem cipherRounds_bijective {c : Config} (h : ∀ r stk, Function.Bijective (cipherRound c r stk)) (n : Nat) (r : BitVec 6)
    (t : Tweakey) : Function.Bijective fun x => (cipherRounds c n ⟨x, r, t⟩).cells := by
  induction n generalizing r t with
  | zero => exact Function.bijective_id
  | succ n ih => exact (ih (rcNext c r) (tkUpdate c t)).comp (h (rcNext c r) (subtweakey t))

/-- Settles O25, by induction on the number of rounds; a round is the composition of five bijections. -/
theorem permuteIsABijection : Obligations.PermuteIsABijection :=
  fun c t hsbox hsr hmc => cipherRounds_bijective (cipherRound_bijective hsbox hsr hmc) c.rounds 0#6 t

end Sys2Proof.Machine

/-! Proofs for the tweakey schedule (41_tweakey_schedule.md): the update cell by cell and bit by bit, that the schedule is linear
over exclusive-or, the order of `P_PT`, and that the subtweakeys may be computed ahead of the rounds. -/

namespace Sys2Proof.Machine

open Sys2Proof

/-! ## The feedback functions, bit by bit -/

/-- Each bit of the image of a byte under a byte map is the exclusive-or of the bits that the map lists for it. -/
theorem applyMap_getLsbD (m : ByteMap) (x : Byte) {i : Nat} (hi : i < 8) : (applyMap m x).getLsbD i = bitSum m[i] x := by
  rw [applyMap, ofBools_getLsbD _ _ _ _ _ _ _ _ hi]
  interval_cases i <;> rfl

/-- R165. -/
theorem lfsr2_default_getLsbD (x : Byte) {i : Nat} (hi : i < 8) :
    (lfsr2 Config.default x).getLsbD i = if i = 0 then x.getLsbD 7 ^^ x.getLsbD 5 else x.getLsbD (i - 1) := by
  rw [lfsr2, applyMap_getLsbD _ _ hi]
  interval_cases i <;> simp [Config.default, bitSum]

/-- R166. -/
theorem lfsr3_default_getLsbD (x : Byte) {i : Nat} (hi : i < 8) :
    (lfsr3 Config.default x).getLsbD i = if i = 7 then x.getLsbD 0 ^^ x.getLsbD 6 else x.getLsbD (i + 1) := by
  rw [lfsr3, applyMap_getLsbD _ _ hi]
  interval_cases i <;> simp [Config.default, bitSum]

/-- R166: the right shift undoes the left one, and the bit that `lfsr2` shifts out comes back as `x7 ⊕ x5 ⊕ x5`. -/
theorem lfsr3_lfsr2_default (x : Byte) : lfsr3 Config.default (lfsr2 Config.default x) = x := by
  refine BitVec.eq_of_getLsbD_eq fun i hi => ?_
  rw [lfsr3_default_getLsbD _ hi]
  split_ifs with h7
  · rw [lfsr2_default_getLsbD _ (by decide), lfsr2_default_getLsbD _ (by decide), h7]
    simp
  · simp [lfsr2_default_getLsbD _ (by omega : i + 1 < 8)]

/-! ## The subtweakey and the update, cell by cell -/

theorem subtweakey_getElem (t : Tweakey) {i : Nat} (h : i < 8) : (subtweakey t)[i] = t.tk1[i] ^^^ t.tk2[i] ^^^ t.tk3[i] := by
  simp [subtweakey]

theorem permuteCells_getElem (c : Config) (w : Block) {i : Nat} (h : i < 16) : (permuteCells c w)[i] = w[c.pt[i].val] := by
  simp [permuteCells]

theorem topRows_getElem (f : Byte → Byte) (w : Block) {i : Nat} (h : i < 16) :
    (topRows f w)[i] = if i < 8 then f w[i] else w[i] := by
  simp [topRows]

/-- Settles O28: the cell equations of R161 and R162, with the table of R163, and the bit equations of R165 and R166. -/
theorem tweakeyUpdate : Obligations.TweakeyUpdate := by
  refine ⟨fun t i h => subtweakey_getElem t h, fun t i h => ?_, fun x i hi => lfsr2_default_getLsbD x hi,
    fun x i hi => lfsr3_default_getLsbD x hi⟩
  have hpt : Config.default.pt[i] = ([9, 15, 8, 13, 10, 14, 12, 11, 0, 1, 2, 3, 4, 5, 6, 7] : List (Fin 16))[i] := by
    interval_cases i <;> rfl
  simp only [tkUpdate, topRows_getElem _ _ h, permuteCells_getElem _ _ h, hpt]
  exact ⟨rfl, rfl, rfl⟩

/-! ## The schedule is linear over exclusive-or (R168) -/

/-- The model's fold runs over the listed bits as naturals; over the bits' values it is a fold of the associative `xor`. -/
theorem bitSum_eq_foldl_map {w n : Nat} (l : List (Fin n)) (x : BitVec w) :
    bitSum l x = (l.map fun i => x.getLsbD i.val).foldl xor false := by
  simp [bitSum, ← List.map_eq_flatMap, List.foldl_map]

theorem bitSum_cons {w n : Nat} (i : Fin n) (l : List (Fin n)) (x : BitVec w) :
    bitSum (i :: l) x = (x.getLsbD i ^^ bitSum l x) := by
  rw [bitSum_eq_foldl_map, bitSum_eq_foldl_map, List.map_cons, List.foldl_cons, Bool.xor_comm, List.foldl_assoc]

theorem bitSum_xor {w n : Nat} (l : List (Fin n)) (x y : BitVec w) : bitSum l (x ^^^ y) = (bitSum l x ^^ bitSum l y) := by
  induction l with
  | nil => rfl
  | cons i l ih =>
    rw [bitSum_cons, bitSum_cons, bitSum_cons, ih, BitVec.getLsbD_xor, Bool.xor_assoc, Bool.xor_assoc,
      Bool.xor_left_comm (y.getLsbD i)]

theorem applyMap_xor (m : ByteMap) (x y : Byte) : applyMap m (x ^^^ y) = applyMap m x ^^^ applyMap m y := by
  refine BitVec.eq_of_getLsbD_eq fun i hi => ?_
  simp only [BitVec.getLsbD_xor, applyMap_getLsbD _ _ hi, bitSum_xor]

theorem block_xor_getElem (a b : Block) {i : Nat} (h : i < 16) : (a.xor b)[i] = a[i] ^^^ b[i] := by
  simp [Block.xor]

theorem permuteCells_xor (c : Config) (v w : Block) : permuteCells c (v.xor w) = (permuteCells c v).xor (permuteCells c w) := by
  ext1 i hi
  simp only [block_xor_getElem, permuteCells_getElem _ _ hi]

theorem topRows_xor {f : Byte → Byte} (hf : ∀ x y, f (x ^^^ y) = f x ^^^ f y) (v w : Block) :
    topRows f (v.xor w) = (topRows f v).xor (topRows f w) := by
  ext1 i hi
  simp only [block_xor_getElem, topRows_getElem _ _ hi, hf]
  split_ifs <;> rfl

/-- The exclusive-or of two tweakeys, word by word (R168). -/
def Tweakey.xor (t u : Tweakey) : Tweakey := ⟨t.tk1.xor u.tk1, t.tk2.xor u.tk2, t.tk3.xor u.tk3⟩

theorem subtweakey_xor_getElem (t u : Tweakey) {i : Nat} (h : i < 8) :
    (subtweakey (t.xor u))[i] = (subtweakey t)[i] ^^^ (subtweakey u)[i] := by
  simp only [subtweakey_getElem _ h, Tweakey.xor, block_xor_getElem]
  ac_rfl

theorem tkUpdate_xor (c : Config) (t u : Tweakey) : tkUpdate c (t.xor u) = (tkUpdate c t).xor (tkUpdate c u) := by
  simp only [tkUpdate, Tweakey.xor, permuteCells_xor, topRows_xor (f := lfsr2 c) (applyMap_xor c.lfsr2),
    topRows_xor (f := lfsr3 c) (applyMap_xor c.lfsr3)]

theorem tweakeyAfter_xor (c : Config) (t u : Tweakey) (r : Nat) :
    tweakeyAfter c (t.xor u) r = (tweakeyAfter c t r).xor (tweakeyAfter c u r) := by
  induction r with
  | zero => rfl
  | succ r ih => simp only [tweakeyAfter, ih, tkUpdate_xor]

theorem subtweakey_tweakeyAfter_xor (c : Config) (t u : Tweakey) (r : Nat) {i : Nat} (h : i < 8) :
    (subtweakey (tweakeyAfter c (t.xor u) r))[i] =
      (subtweakey (tweakeyAfter c t r))[i] ^^^ (subtweakey (tweakeyAfter c u r))[i] := by
  rw [tweakeyAfter_xor, subtweakey_xor_getElem _ _ h]

/-- The zero tweakey is its own exclusive-or with itself, so by linearity each byte of its subtweakeys is too. -/
theorem subtweakey_tweakeyAfter_zero (c : Config) (r : Nat) {i : Nat} (h : i < 8) :
    (subtweakey (tweakeyAfter c ⟨Block.zero, Block.zero, Block.zero⟩ r))[i] = 0#8 := by
  have hzero : Block.zero.xor Block.zero = Block.zero := by decide +kernel
  have hself := subtweakey_tweakeyAfter_xor c ⟨Block.zero, Block.zero, Block.zero⟩
    ⟨Block.zero, Block.zero, Block.zero⟩ r h
  rwa [Tweakey.xor, hzero, BitVec.xor_self] at hself

/-! ## The order of `P_PT` (R163) -/

/-- `n` permutations of the cells look a cell up where `n` look-ups in the table lead. -/
theorem permuteCells_iterate_get (c : Config) (n : Nat) (w : Block) (i : Fin 16) :
    ((permuteCells c)^[n] w).get i = w.get (c.pt.get^[n] i) := by
  induction n generalizing i with
  | zero => rfl
  | succ n ih =>
    rw [Function.iterate_succ_apply', Function.iterate_succ_apply, ← ih]
    exact permuteCells_getElem c _ i.isLt

/-- Sixteen look-ups in the table bring every cell back to itself. -/
theorem permuteCells_default_iterate_sixteen (w : Block) : (permuteCells Config.default)^[16] w = w := by
  have hcycle : ∀ i : Fin 16, Config.default.pt.get^[16] i = i := by decide +kernel
  ext1 i hi
  have hcell := permuteCells_iterate_get Config.default 16 w ⟨i, hi⟩
  rwa [hcycle] at hcell

/-- The table is one cycle of the sixteen cells: it brings cell 0 back to itself only after sixteen look-ups. A block that has its
one nonzero byte there shows it. -/
theorem permuteCells_default_iterate_ne {j : Nat} (h0 : 0 < j) (h16 : j < 16) :
    ∃ w : Block, (permuteCells Config.default)^[j] w ≠ w := by
  have hmoved : ∀ k : Fin 16, 0 < k.val → Config.default.pt.get^[k.val] 0 ≠ 0 := by decide +kernel
  have hbyte : ∀ k : Fin 16, (Block.ofBytes [1#8]).get k = 1#8 → k = 0 := by decide +kernel
  refine ⟨Block.ofBytes [1#8], fun hfix => hmoved ⟨j, h16⟩ h0 (hbyte _ ?_)⟩
  rw [← permuteCells_iterate_get, hfix]
  rfl

/-- Settles O26: linearity by induction on the rounds, the zero tweakey from it, the cycle of `P_PT` and the bits of the two
feedback functions. -/
theorem scheduleIsLinearAndItsPartsInvert : Obligations.ScheduleIsLinearAndItsPartsInvert :=
  ⟨fun c t u r _ h => subtweakey_tweakeyAfter_xor c t u r h, fun c r _ h => subtweakey_tweakeyAfter_zero c r h,
    permuteCells_default_iterate_sixteen, fun _ h0 h16 => permuteCells_default_iterate_ne h0 h16, lfsr3_lfsr2_default⟩

/-! ## The subtweakeys computed ahead (R160) -/

/-- The last of `n + 1` rounds, split off. -/
theorem cipherRounds_succ (c : Config) (n : Nat) (q : CipherState) :
    cipherRounds c (n + 1) q = cipherStep c (cipherRounds c n q) := by
  induction n generalizing q with
  | zero => rfl
  | succ n ih => exact ih (cipherStep c q)

/-- Neither the round constant nor the tweakey depends on the cells: after `n` rounds they are those of the two schedules alone,
and the cells are the rounds applied with the values these have given. -/
theorem cipherRounds_eq_foldl (c : Config) (t : Tweakey) (x : Block) (n : Nat) :
    cipherRounds c n ⟨x, 0#6, t⟩ =
      ⟨(List.range n).foldl
          (fun y r => cipherRound c ((rcNext c)^[r + 1] 0#6) (subtweakey (tweakeyAfter c t r)) y) x,
        (rcNext c)^[n] 0#6, tweakeyAfter c t n⟩ := by
  induction n with
  | zero => rfl
  | succ n ih =>
    rw [cipherRounds_succ, ih, List.range_succ, List.foldl_concat, Function.iterate_succ_apply']
    rfl

/-- Settles O27, by induction on the number of rounds. -/
theorem subtweakeysMayBeComputedAhead : Obligations.SubtweakeysMayBeComputedAhead :=
  fun c t x => congrArg CipherState.cells (cipherRounds_eq_foldl c t x c.rounds)

end Sys2Proof.Machine

/-! Proofs for the functions of the duplex engine (42_duplex_engine.md): tweakey assembly, block counter, `G`, padding, `rho`
and its inverse, and the tag comparison. -/

namespace Sys2Proof.Machine

open Sys2Proof

/-! ## The tweakey of an invocation -/

theorem aeadTk1_defaultLayout {c : Config} (h : c.tk1Layout = Config.defaultTk1Layout) (d : Counter) (b : Byte) :
    aeadTk1 c d b =
      #v[d.extractLsb' 0 8, d.extractLsb' 8 8, d.extractLsb' 16 8, d.extractLsb' 24 8, d.extractLsb' 32 8,
        d.extractLsb' 40 8, d.extractLsb' 48 8, b, 0#8, 0#8, 0#8, 0#8, 0#8, 0#8, 0#8, 0#8] := by
  simp [aeadTk1, h, Config.defaultTk1Layout, tk1Byte]

/-- Settles O15: `TK1` is the default layout filled in, and `TK2` and `TK3` are the tweak word and the key as they are. -/
theorem aeadTweakeyLayout : Obligations.AeadTweakeyLayout := by
  intro c k t x b d h
  rw [tbc, aeadTweakey, aeadTk1_defaultLayout h]

/-! ## The block counter -/

/-- Bit by bit, the counter step is a shift with feedback from bit 55 (R185). -/
theorem cntStep_getLsbD (c : Config) (d : Counter) {i : Nat} (hi : i < 56) :
    (cntStep c d).getLsbD i = ((decide (0 < i) && d.getLsbD (i - 1)) ^^ (d.getLsbD 55 && c.cntPoly.getLsbD i)) := by
  have hshift : (d <<< 1).getLsbD i = (decide (0 < i) && d.getLsbD (i - 1)) := by
    rw [BitVec.getLsbD_shiftLeft]
    simp [hi, Nat.pos_iff_ne_zero]
  rw [cntStep, BitVec.getLsbD_xor, hshift]
  cases d.getLsbD 55 <;> simp [hi]

/-- Settles O29: the bit equation of the step, and the two worked examples of R185. -/
theorem counterStep : Obligations.CounterStep :=
  ⟨fun c d i hi hpoly => hpoly ▸ cntStep_getLsbD c d hi, by decide +kernel, by decide +kernel⟩

/-! ## The output feedback -/

theorem feedback_getElem (c : Config) (s : Block) {i : Nat} (h : i < 16) : (feedback c s)[i] = gByte c s[i] := by
  simp [feedback]

/-- R188. -/
theorem gByte_default_getLsbD (x : Byte) {j : Nat} (hj : j < 8) :
    (gByte Config.default x).getLsbD j = if j = 7 then x.getLsbD 0 ^^ x.getLsbD 7 else x.getLsbD (j + 1) := by
  rw [gByte, applyMap_getLsbD _ _ hj]
  interval_cases j <;> simp [Config.default, bitSum]

/-- Settles O30: `G` maps each byte alone, and a byte bit by bit. -/
theorem outputFeedback : Obligations.OutputFeedback := by
  intro s i j h hj
  rw [feedback_getElem _ _ h, gByte_default_getLsbD _ hj]

/-! ## Padding -/

theorem Block.ofBytes_getElem (l : List Byte) {i : Nat} (h : i < 16) : (Block.ofBytes l)[i] = l.getD i 0#8 := by
  simp [Block.ofBytes]

/-- A byte of a block that is not full, padded with zeros and its length byte (R190). -/
theorem getD_lenByte {b : List Byte} (hb : b.length < 16) {i : Nat} (hi : i < 16) :
    (b ++ List.replicate (15 - b.length) 0#8 ++ [BitVec.ofNat 8 b.length]).getD i 0#8 =
      if h : i < b.length then b[i] else if i = 15 then BitVec.ofNat 8 b.length else 0#8 := by
  have hlen : (b ++ List.replicate (15 - b.length) 0#8).length = 15 := by simp; omega
  rw [List.getD_eq_getElem?_getD]
  split_ifs with h h15
  · rw [List.getElem?_append_left (by omega), List.getElem?_append_left h]
    simp [h]
  · rw [List.getElem?_append_right (by omega), hlen, h15]
    rfl
  · rw [List.getElem?_append_left (by omega), List.getElem?_append_right (by omega), List.getElem?_replicate,
      if_pos (by omega)]
    rfl

/-- A byte of a block that is not full, padded with the byte `80` and zeros (R190). -/
theorem getD_oneZero (b : List Byte) (i : Nat) :
    (b ++ [0x80#8]).getD i 0#8 = if h : i < b.length then b[i] else if i = b.length then 0x80#8 else 0#8 := by
  rw [List.getD_eq_getElem?_getD]
  split_ifs with h he
  · rw [List.getElem?_append_left h]
    simp [h]
  · simp [he]
  · rw [List.getElem?_eq_none (by simp; omega)]
    rfl

/-- Settles O31, by the cases of R190: a full block, and the two rules for one that is not. -/
theorem paddingKeepsTheBytes : Obligations.PaddingKeepsTheBytes := by
  intro c b i h hb
  unfold pad16
  split
  · simp [Block.ofBytes_getElem _ h, show i < b.length by omega]
  · cases c.pad <;> dsimp only <;> rw [Block.ofBytes_getElem _ h]
    · exact getD_lenByte (by omega) h
    · exact getD_oneZero b i

/-! ## State feedback -/

/-- Exclusive-or with the same first bytes a second time gives a sequence of at most 16 bytes back. -/
theorem xorPrefix_xorPrefix {m : List Byte} (hm : m.length ≤ 16) (k : Block) : xorPrefix (xorPrefix m k) k = m := by
  refine List.ext_getElem (by simp [xorPrefix, hm]) fun i _ _ => ?_
  simp [xorPrefix]

/-- For a block of at most 16 bytes, `rho_inv` gives exactly the block that `rho` gives the output of, and the same state
(R192). -/
theorem rhoInv_eq_iff (c : Config) (s s' : Block) {m x : List Byte} (hm : m.length ≤ 16) :
    rhoInv c s x = (s', m) ∧ x.length ≤ 16 ↔ rho c s m = (s', x) := by
  simp only [rhoInv, rho, Prod.mk.injEq]
  constructor
  · rintro ⟨⟨rfl, rfl⟩, hx⟩
    exact ⟨rfl, xorPrefix_xorPrefix hx _⟩
  · rintro ⟨rfl, rfl⟩
    rw [xorPrefix_xorPrefix hm]
    exact ⟨⟨rfl, rfl⟩, by rw [xorPrefix_length]; omega⟩

/-- Settles O32: the equations of R191 and R192, and the equivalence of the two. -/
theorem rhoAndItsInverse : Obligations.RhoAndItsInverse :=
  fun c s s' _ _ hm => ⟨rfl, rfl, rfl, rhoInv_eq_iff c s s' hm⟩

/-! ## The tag comparison -/

/-- A bit of an OR over a list is set where one of the list has it set. -/
theorem getLsbD_foldl_or {w : Nat} (l : List (BitVec w)) (a : BitVec w) (j : Nat) :
    (l.foldl (· ||| ·) a).getLsbD j = (a.getLsbD j || l.any fun x => x.getLsbD j) := by
  induction l generalizing a with
  | nil => simp
  | cons x l ih => rw [List.foldl_cons, ih, BitVec.getLsbD_or, List.any_cons, Bool.or_assoc]

/-- The bytewise difference, as the list of its 16 bytes. -/
theorem xor_toList (t u : Block) : (t.xor u).toList = (List.range 16).map fun i => t.getD i 0#8 ^^^ u.getD i 0#8 := by
  refine List.ext_getElem (by simp) fun i hi _ => ?_
  have hi : i < 16 := by simpa using hi
  simp [Block.xor, Vector.getD, hi]

/-- R196: the accumulator, bit by bit. -/
theorem tagDifference_getLsbD (t u : Block) (j : Nat) :
    (tagDifference t u).getLsbD j = (List.range 16).any fun i => (t.getD i 0#8 ^^^ u.getD i 0#8).getLsbD j := by
  simp [tagDifference, getLsbD_foldl_or, xor_toList, Function.comp_def]

/-- No bit of the accumulator is set exactly where no byte differs (R196). -/
theorem tagEqual_iff (t u : Block) : tagEqual t u = true ↔ t = u := by
  rw [tagEqual, decide_eq_true_iff]
  constructor
  · intro h
    ext1 i hi
    refine BitVec.xor_eq_zero_iff.mp (BitVec.eq_of_getLsbD_eq fun j _ => ?_)
    have hnone := tagDifference_getLsbD t u j
    rw [h, BitVec.getLsbD_zero] at hnone
    simpa [Vector.getD, hi] using List.any_eq_false.mp hnone.symm i (List.mem_range.mpr hi)
  · rintro rfl
    refine BitVec.eq_of_getLsbD_eq fun j _ => ?_
    simp [tagDifference_getLsbD]

/-- Settles O33. -/
theorem tagComparisonIsExact : Obligations.TagComparisonIsExact :=
  fun t u => ⟨tagEqual_iff t u, fun j _ => tagDifference_getLsbD t u j⟩

end Sys2Proof.Machine

/-! Proof that the place of the engine, its invocations and its buffer accesses depend on `OP`, `ADLEN` and `TLEN` only
(R198, R349): each named update keeps two states in the same shape, so each micro-operation does, and so do any number of
steps. -/

namespace Sys2Proof.Machine

open Sys2Proof

/-! ## Outcomes of the same shape -/

/-- Where both outcomes go on, they go on from states of the same shape. -/
def AgreeOut (o p : Out State) : Prop := ∀ s' t', o = .next s' → p = .next t' → SameShape s' t'

theorem AgreeOut.of_next {s t : State} (h : SameShape s t) : AgreeOut (.next s) (.next t) := by
  rintro _ _ ⟨⟩ ⟨⟩
  exact h

theorem AgreeOut.of_refused (r : Refusal) (p : Out State) : AgreeOut (.refused r) p := by
  rintro _ _ ⟨⟩

/-- Two values that are both read may differ: what goes on from them agrees for every pair. -/
theorem AgreeOut.of_need {α : Type} {x y : Option α} {f g : α → Out State}
    (h : ∀ a b, x = some a → y = some b → AgreeOut (f a) (g b)) : AgreeOut (need x f) (need y g) := by
  intro s' t' hs ht
  obtain ⟨a, ha, hs⟩ := need_eq_next.mp hs
  obtain ⟨b, hb, ht⟩ := need_eq_next.mp ht
  exact h a b ha hb s' t' hs ht

/-- The same value is read on both sides. -/
theorem AgreeOut.of_need_eq {α : Type} {x y : Option α} {f g : α → Out State} (e : x = y)
    (h : ∀ a, AgreeOut (f a) (g a)) : AgreeOut (need x f) (need y g) :=
  .of_need fun a b ha hb => by
    obtain rfl : a = b := Option.some.inj (by rw [← ha, e, hb])
    exact h a

/-- The same branch is taken on both sides. -/
theorem AgreeOut.of_ite {p q : Prop} [Decidable p] [Decidable q] {a b c d : Out State} (e : p ↔ q) (h1 : AgreeOut a c)
    (h2 : AgreeOut b d) : AgreeOut (if p then a else b) (if q then c else d) := by
  by_cases hp : p
  · rw [if_pos hp, if_pos (e.mp hp)]
    exact h1
  · rw [if_neg hp, if_neg (mt e.mpr hp)]
    exact h2

theorem AgreeOut.of_andThen {o p : Out State} {f g : State → Out State} (h : AgreeOut o p)
    (hfg : ∀ s t, SameShape s t → AgreeOut (f s) (g t)) : AgreeOut (andThen o f) (andThen p g) := by
  intro s' t' hs ht
  obtain ⟨s, hs1, hs2⟩ := andThen_eq_next.mp hs
  obtain ⟨t, ht1, ht2⟩ := andThen_eq_next.mp ht
  exact hfg s t (h s t hs1 ht1) s' t' hs2 ht2

/-! ## Lengths that data do not change -/

theorem ipadStar16_length (x : List Byte) : (ipadStar16 x).length = ipadStarLength x.length := by
  unfold ipadStar16 ipadStarLength
  split
  · rfl
  · simp
    omega

theorem authString_length (a x : List Byte) (n : Block) (d : Counter) :
    (authString a x n d).length = authLength a.length x.length := by
  simp [authString, authLength, ipadStar16_length, counterBytes, Nat.add_assoc]

/-- The ciphertext that Romulus-T authenticates is all of `TIN`, or what the scratch holds (R264, R199). -/
theorem cipherText_length {s : State} {x : List Byte} (h : cipherText s = some x) :
    x.length = if s.decrypting then s.tlen else s.scratch.length := by
  unfold cipherText at h
  split at h
  · rw [if_pos ‹_›, Memory.readRange_length h]
  · cases h
    rw [if_neg ‹_›]

/-- The length of the hashed string is given by the lengths, and for `T_ENC` that of the scratch (R280, R264). -/
theorem hashInput_length {s : State} {x : List Byte} (h : hashInput s = some x) :
    x.length =
      if s.mode = some .romulusH then s.tlen
      else authLength s.adlen (if s.decrypting then s.tlen else s.scratch.length) := by
  unfold hashInput at h
  split at h
  · rw [if_pos ‹_›, Memory.readRange_length h]
  · unfold authInput at h
    split at h
    · rename_i ha hx _ _
      cases h
      rw [if_neg ‹_›, authString_length, Memory.readRange_length ha, cipherText_length hx]
    · cases h

/-! ## What is decoded from `OP` and the lengths -/

section
variable {s t : State} (h : SameShape s t)
include h

theorem SameShape.mode : s.mode = t.mode := by simp only [State.mode, h.op]

theorem SameShape.decrypting : s.decrypting = t.decrypting := by simp only [State.decrypting, h.op]

theorem nAdLast_congr : nAdLast s = nAdLast t := by simp only [nAdLast, h.adlen]

theorem nTextTag_congr (i : Nat) : nTextTag s i = nTextTag t i := by simp only [nTextTag, h.tlen]

theorem mFlags_congr : mFlags s = mFlags t := by simp only [mFlags, h.adlen, h.tlen]

theorem macSpace_congr : macSpace s = macSpace t := by simp only [macSpace, h.decrypting]

theorem block_length_congr {sp : Space} {i : Nat} {m m' : List Byte} (hm : s.block sp s.tlen i = some m)
    (hm' : t.block sp t.tlen i = some m') : m.length = m'.length := by
  rw [Memory.readRange_length hm, Memory.readRange_length hm', h.tlen]

theorem hashInput_length_congr {x y : List Byte} (hx : hashInput s = some x) (hy : hashInput t = some y) :
    x.length = y.length := by
  rw [hashInput_length hx, hashInput_length hy, h.mode, h.tlen, h.adlen, h.decrypting, h.scratch]

/-! ## The named updates -/

/-- The shape says nothing of the registers that hold data. -/
theorem setData_sameShape {x x' z z' g g' : Option Block} {a a' : Option Byte} {m m' : Memory} :
    SameShape { s with regS := x, regZ := z, tagT := g, acc := a, tout := m }
      { t with regS := x', regZ := z', tagT := g', acc := a', tout := m' } :=
  { h with }

theorem setPlace_sameShape {x x' : Option Block} {d d' : Option Counter} (hd : d = d') {i j : Option Nat} (hi : i = j) :
    SameShape { s with regS := x, regD := d, idx := i } { t with regS := x', regD := d', idx := j } :=
  { h with regD := hd, idx := hi }

theorem setIdx_sameShape {i j : Option Nat} (hi : i = j) : SameShape { s with idx := i } { t with idx := j } :=
  { h with idx := hi }

theorem logEvent_sameShape (e : Event) : SameShape (logEvent e s) (logEvent e t) :=
  { h with log := by rw [logEvent_log, logEvent_log, h.log] }

theorem logRead_sameShape (sp : Space) (off n : Nat) : SameShape (logRead sp off n s) (logRead sp off n t) := by
  unfold logRead
  split
  · exact h
  · exact logEvent_sameShape h _

theorem logBlock_sameShape (sp : Space) {len len' : Nat} (hlen : len = len') (i : Nat) :
    SameShape (logBlock sp len i s) (logBlock sp len' i t) :=
  hlen ▸ logRead_sameShape h sp _ _

theorem writeText_sameShape (i : Nat) {o o' : List Byte} (ho : o.length = o'.length) :
    SameShape (writeText i o s) (writeText i o' t) := by
  unfold writeText logWrite
  rw [ho]
  split
  · exact setData_sameShape h
  · exact logEvent_sameShape (setData_sameShape h) _

theorem keepText_sameShape {o o' : List Byte} (ho : o.length = o'.length) : SameShape (keepText o s) (keepText o' t) := by
  unfold keepText
  rw [h.decrypting]
  split
  · exact h
  · exact { h with scratch := by simp only [List.length_append, h.scratch, ho] }

theorem enter_sameShape {p q : Phase} (hp : p = q) : SameShape (enter p s) (enter q t) :=
  { h with phase := hp, idx := rfl }

theorem startPairs_sameShape : SameShape (startPairs s) (startPairs t) := { h with regD := rfl, idx := rfl }

theorem issue_sameShape {i j : Instr} (hi : i = j) {d e : Counter} (hd : d = e) : SameShape (issue i d s) (issue j e t) :=
  { h with tk1 := fun _ => by rw [issue_tk1, issue_tk1, h.cfg, hi, hd], pending := rfl }

theorem leaveCipher_sameShape (q r : CipherState) : SameShape (leaveCipher q s) (leaveCipher r t) :=
  { h with rnd := by rw [leaveCipher_rnd, leaveCipher_rnd, h.cfg], tk1 := nofun, pending := rfl }

theorem afterTbc_sameShape {src src' : KeySource} (hsrc : src = src') {b b' : Byte} (hb : b = b') (d : Counter)
    (k u x k' u' x' : Block) : SameShape (afterTbc src k u b d x s) (afterTbc src' k' u' b' d x' t) := by
  subst hsrc hb
  exact logEvent_sameShape (leaveCipher_sameShape h _ _) _

/-- Whatever the hashed bytes are, a compression call logs two invocations of the hash layout (R99, R198). -/
theorem invokeCompress_sameShape (b l r b' l' r') : SameShape (invokeCompress b l r s) (invokeCompress b' l' r' t) :=
  { logEvent_sameShape (logEvent_sameShape (leaveCipher_sameShape h _ _) (.invoke .pub none)) (.invoke .pub none) with }

theorem logHashBlock_sameShape (i : Nat) : SameShape (logHashBlock i s) (logHashBlock i t) := by
  unfold logHashBlock logHashPart
  rw [h.mode, h.decrypting, h.tlen, h.adlen]
  split_ifs
  · exact logRead_sameShape h _ _ _
  · exact logRead_sameShape (logRead_sameShape h _ _ _) _ _ _
  · exact logRead_sameShape h _ _ _

/-! ## The invocations -/

theorem stepCounter_agree : AgreeOut (stepCounter s) (stepCounter t) :=
  .of_need_eq h.regD fun _ => .of_need_eq h.idx fun _ => .of_next { h with regD := by rw [h.cfg], idx := rfl }

theorem invokeNonce_agree (i : Instr) : AgreeOut (invokeNonce i s) (invokeNonce i t) :=
  .of_need fun _ _ _ _ => .of_need fun _ _ _ _ => .of_need_eq h.regD fun d => .of_need fun _ _ _ _ =>
    .of_next (setData_sameShape (afterTbc_sameShape h rfl (by rw [h.cfg]) d _ _ _ _ _ _))

theorem invokeBlock_agree (i : Instr) (sp : Space) {len len' : Nat} (hlen : len = len') :
    AgreeOut (invokeBlock i sp len s) (invokeBlock i sp len' t) :=
  .of_need_eq h.idx fun j => .of_need fun _ _ _ _ => .of_need fun _ _ _ _ => .of_need_eq h.regD fun d =>
    .of_need fun _ _ _ _ =>
      .of_next (setData_sameShape
        (afterTbc_sameShape (logBlock_sameShape h sp hlen j) rfl (by rw [h.cfg]) d _ _ _ _ _ _))

theorem execTKs_agree : AgreeOut (execTKs s) (execTKs t) :=
  .of_need fun _ _ _ _ => .of_need fun _ _ _ _ => .of_need_eq h.regD fun d => .of_need_eq h.idx fun i =>
    .of_need fun m m' hm hm' => by
      have ho : ∀ k k', (xorPrefix m k).length = (xorPrefix m' k').length := fun k k' => by
        rw [xorPrefix_length, xorPrefix_length, block_length_congr h hm hm']
      exact .of_next (keepText_sameShape (writeText_sameShape (logBlock_sameShape
        (afterTbc_sameShape h rfl (by rw [h.cfg]) d _ _ _ _ _ _) .tin h.tlen i) i (ho _ _)) (ho _ _))

/-- A domain row's invocation logs the same on both sides, whatever key, tweak word and data it has (R198). -/
theorem exec_agree {i : Instr} (hi : i.format = .domain) : AgreeOut (exec i s) (exec i t) := by
  cases i <;> simp only [Instr.format, reduceCtorEq] at hi <;> simp only [exec]
  case nMsg => exact invokeNonce_agree h _
  case nMsgLastFull => exact invokeNonce_agree h _
  case nMsgLastPart => exact invokeNonce_agree h _
  case nAdLastFull => exact invokeNonce_agree h _
  case nAdLastPart => exact invokeNonce_agree h _
  case mCrypt => exact invokeNonce_agree h _
  case mFinal => exact invokeNonce_agree h _
  case nAd => exact invokeBlock_agree h _ _ h.adlen
  case mAd => exact invokeBlock_agree h _ _ h.adlen
  case mMsg =>
    rw [execMMsg, execMMsg, macSpace_congr h]
    exact invokeBlock_agree h _ _ h.tlen
  case tKs => exact execTKs_agree h
  case tKu =>
    exact .of_need fun _ _ _ _ => .of_need fun _ _ _ _ => .of_need_eq h.regD fun d =>
      .of_next (setData_sameShape (afterTbc_sameShape h rfl (by rw [h.cfg]) d _ _ _ _ _ _))
  case tKdf =>
    exact .of_need fun _ _ _ _ => .of_need fun _ _ _ _ =>
      .of_next (setData_sameShape (afterTbc_sameShape h rfl (by rw [h.cfg]) Config.dz _ _ _ _ _ _))
  case tTgf =>
    exact .of_need fun _ _ _ _ => .of_need fun _ _ _ _ => .of_need fun _ _ _ _ =>
      .of_next (setData_sameShape (afterTbc_sameShape h (by rw [h.cfg]) (by rw [h.cfg]) Config.dz _ _ _ _ _ _))

/-! ## The micro-operations -/

/-- The body of a pairing loop takes the branch that the number of its element gives (R222, R243). -/
theorem pairMicro_agree (sp : Space) {len len' : Nat} (hlen : len = len') {n n' : Nat} (hn : n = n') (tag : Instr) :
    AgreeOut (pairMicro sp len n tag s) (pairMicro sp len' n' tag t) :=
  .of_need_eq h.idx fun i => .of_need_eq h.regD fun _ => .of_ite (by rw [hn])
    (.of_need fun _ _ _ _ => .of_need fun _ _ _ _ =>
      stepCounter_agree (logBlock_sameShape (setData_sameShape h) sp hlen i))
    (.of_next (issue_sameShape h rfl rfl))

/-- In either direction the output block is as long as the text block (R191, R192). -/
theorem rhoBy_length_congr {i : Nat} {m m' : List Byte} (hm : s.block .tin s.tlen i = some m)
    (hm' : t.block .tin t.tlen i = some m') (x x' : Block) : (rhoBy s x m).2.length = (rhoBy t x' m').2.length := by
  rw [rhoBy_snd, rhoBy_snd, xorPrefix_length, xorPrefix_length, block_length_congr h hm hm']

theorem nAdMicro_agree : AgreeOut (nAdMicro s) (nAdMicro t) := by
  rw [nAdMicro, nAdMicro, h.idx]
  cases t.idx with
  | none => exact .of_next (startPairs_sameShape h)
  | some i =>
    exact .of_ite (by rw [h.adlen]) (pairMicro_agree h _ h.adlen rfl _)
      (.of_need_eq h.regD fun _ => .of_next (issue_sameShape h (nAdLast_congr h) rfl))

theorem nTextMicro_agree : AgreeOut (nTextMicro s) (nTextMicro t) := by
  rw [nTextMicro, nTextMicro, h.idx]
  cases t.idx with
  | none => exact .of_next { h with regD := rfl, idx := rfl }
  | some i =>
    have hstep : ∀ d, cntStep s.cfg d = cntStep t.cfg d := fun d => by rw [h.cfg]
    exact .of_need fun _ _ hm hm' => .of_need fun _ _ _ _ => .of_need_eq h.regD fun d => .of_next
      (issue_sameShape (writeText_sameShape (logBlock_sameShape
        (setPlace_sameShape h (congrArg some (hstep d)) rfl) .tin h.tlen i) i (rhoBy_length_congr h hm hm' _ _))
        (nTextTag_congr h i) (hstep d))

theorem nFinalMicro_agree : AgreeOut (nFinalMicro s) (nFinalMicro t) :=
  .of_need fun _ _ _ _ => .of_next (enter_sameShape (setData_sameShape h) (by rw [h.decrypting]))

theorem mAdMicro_agree : AgreeOut (mAdMicro s) (mAdMicro t) := by
  rw [mAdMicro, mAdMicro, h.idx]
  cases t.idx with
  | none => exact .of_next (startPairs_sameShape h)
  | some i =>
    exact .of_ite (by rw [h.adlen]) (pairMicro_agree h _ h.adlen rfl _) (.of_next (enter_sameShape h rfl))

theorem mMacMicro_agree : AgreeOut (mMacMicro s) (mMacMicro t) := by
  rw [mMacMicro, mMacMicro, h.idx, macSpace_congr h]
  cases t.idx with
  | none => exact .of_next { h with idx := rfl }
  | some i =>
    exact .of_ite (by rw [h.tlen]) (pairMicro_agree h _ h.tlen (by rw [h.adlen]) _)
      (.of_next (enter_sameShape h rfl))

theorem mFinalMicro_agree : AgreeOut (mFinalMicro s) (mFinalMicro t) :=
  .of_need_eq h.regD fun _ => .of_next (issue_sameShape h (by rw [mFlags_congr h]) rfl)

theorem mCryptMicro_agree : AgreeOut (mCryptMicro s) (mCryptMicro t) := by
  rw [mCryptMicro, mCryptMicro, h.idx]
  cases t.idx with
  | none => exact .of_need fun _ _ _ _ => .of_next { h with regD := rfl, idx := rfl }
  | some i =>
    exact .of_need_eq h.regD fun _ => .of_ite (by rw [h.tlen]) (.of_next (issue_sameShape h rfl rfl))
      (.of_next (enter_sameShape h (by rw [h.decrypting])))

theorem mCryptNext_agree : AgreeOut (mCryptNext s) (mCryptNext t) :=
  .of_need_eq h.idx fun i => .of_need fun _ _ hm hm' => .of_need fun _ _ _ _ =>
    stepCounter_agree (writeText_sameShape (logBlock_sameShape (setData_sameShape h) .tin h.tlen i) i
      (rhoBy_length_congr h hm hm' _ _))

theorem tStreamMicro_agree : AgreeOut (tStreamMicro s) (tStreamMicro t) := by
  rw [tStreamMicro, tStreamMicro, h.idx]
  cases t.idx with
  | none => exact .of_next { h with regD := rfl, idx := rfl, scratch := rfl }
  | some i =>
    exact .of_need_eq h.regD fun _ => .of_ite (by rw [h.tlen]) (.of_next (issue_sameShape h rfl rfl))
      (.of_next (enter_sameShape h rfl))

theorem tKsNext_agree : AgreeOut (tKsNext s) (tKsNext t) :=
  .of_need_eq h.idx fun _ => .of_need_eq h.regD fun _ => .of_ite (by rw [h.tlen]) (.of_next (issue_sameShape h rfl rfl))
    (stepCounter_agree h)

/-- The number of blocks hashed depends on the length of the hashed string only (R280, R266). -/
theorem hashMicro_agree : AgreeOut (hashMicro s) (hashMicro t) := by
  rw [hashMicro, hashMicro, h.idx]
  cases t.idx with
  | none => exact .of_next { h with idx := rfl }
  | some i =>
    have hlog := logHashBlock_sameShape h i
    exact .of_need fun _ _ hx hy => .of_need fun _ _ _ _ => .of_need fun _ _ _ _ =>
      .of_ite (by rw [hashInput_length_congr h hx hy])
        (.of_next (setIdx_sameShape (invokeCompress_sameShape hlog _ _ _ _ _ _) rfl))
        (.of_next (enter_sameShape (invokeCompress_sameShape hlog _ _ _ _ _ _) (by rw [h.mode])))

theorem compareMicro_agree : AgreeOut (compareMicro s) (compareMicro t) :=
  .of_need fun _ _ _ _ => .of_need fun _ _ _ _ => .of_next (enter_sameShape (setData_sameShape h) rfl)

/-- Of the publication only validity, results and free values depend on data, and the shape holds none of them. -/
theorem publishMicro_agree : AgreeOut (publishMicro s) (publishMicro t) := by
  intro s' t' hs ht
  obtain ⟨g, d, v, m, n, -, rfl⟩ := publishMicro_destroys hs
  obtain ⟨g', d', v', m', n', -, rfl⟩ := publishMicro_destroys ht
  exact
    { h with
      busy := by simp [State.busy]
      phase := rfl, idx := rfl, regD := rfl, rnd := rfl, pending := rfl, tk1 := nofun, scratch := rfl }

/-- The rest of a loop body goes on the same way on both sides. -/
theorem afterInvocation_agree (i : Instr) : AgreeOut (afterInvocation i s) (afterInvocation i t) := by
  cases i <;> simp only [afterInvocation]
  case nAd => exact stepCounter_agree h
  case mAd => exact stepCounter_agree h
  case mMsg => exact stepCounter_agree h
  case tKu => exact stepCounter_agree h
  case nAdLastFull => exact .of_next (enter_sameShape h rfl)
  case nAdLastPart => exact .of_next (enter_sameShape h rfl)
  case nMsgLastFull => exact .of_next (enter_sameShape h rfl)
  case nMsgLastPart => exact .of_next (enter_sameShape h rfl)
  case tKdf => exact .of_next (enter_sameShape h rfl)
  case nMsg => exact .of_need_eq h.idx fun _ => .of_next { h with idx := rfl }
  case mFinal => exact .of_need fun _ _ _ _ => .of_next (enter_sameShape (setData_sameShape h) (by rw [h.decrypting]))
  case mCrypt => exact mCryptNext_agree h
  case tKs => exact tKsNext_agree h
  case tTgf => exact .of_next (enter_sameShape h (by rw [h.decrypting]))
  all_goals exact .of_refused _ _

/-- The tag of the pending invocation is in `TK1`, which both sides have in common (R96). -/
theorem invocationMicro_agree (hp : s.pending = true) : AgreeOut (invocationMicro s) (invocationMicro t) := by
  refine .of_need_eq (h.tk1 hp) fun w => ?_
  rw [h.cfg]
  cases tagOf t.cfg w with
  | none => exact .of_refused _ _
  | some b =>
    dsimp only
    cases hd : decodeDomain t.cfg.domain b with
    | ok i => exact (exec_agree h (decodeDomain_format hd)).of_andThen fun _ _ g => afterInvocation_agree g i
    | error _ => exact .of_refused _ _

/-- `PHASE` and the mode of `OP` name the same micro-operation on both sides (R36, R316). -/
theorem sequenceMicro_agree : AgreeOut (sequenceMicro s) (sequenceMicro t) := by
  rw [sequenceMicro, sequenceMicro, h.phase, h.mode]
  cases t.phase with
  | idle => exact .of_refused _ _
  | ad =>
    rcases t.mode with _ | _ | _ | _ | _
    case some.romulusN => exact nAdMicro_agree h
    case some.romulusM => exact mAdMicro_agree h
    all_goals exact .of_refused _ _
  | text => exact nTextMicro_agree h
  | mac => exact mMacMicro_agree h
  | crypt => exact mCryptMicro_agree h
  | kdf => exact .of_next (issue_sameShape h rfl rfl)
  | stream => exact tStreamMicro_agree h
  | hashblk => exact hashMicro_agree h
  | final =>
    rcases t.mode with _ | _ | _ | _ | _
    case some.romulusN => exact nFinalMicro_agree h
    case some.romulusM => exact mFinalMicro_agree h
    case some.romulusT => exact .of_next (issue_sameShape h rfl rfl)
    all_goals exact .of_refused _ _
  | compare => exact compareMicro_agree h
  | publish => exact publishMicro_agree h

theorem engineMicro_agree : AgreeOut (engineMicro s) (engineMicro t) := by
  cases hp : s.pending with
  | true =>
    rw [engineMicro, engineMicro, ← h.pending, if_pos hp, if_pos hp]
    exact invocationMicro_agree h hp
  | false =>
    rw [engineMicro_sequence hp, engineMicro_sequence (h.pending ▸ hp)]
    exact sequenceMicro_agree h

theorem engineTurn_agree : AgreeOut (engineTurn s) (engineTurn t) :=
  .of_ite (by rw [h.busy]) (engineMicro_agree h) (.of_next h)

/-! ## Steps -/

theorem step_quiet_agree (hs : s.script = []) (ht : t.script = []) : AgreeOut (step s) (step t) := by
  intro s' t' es et
  rw [step_quiet (step_cases es).1 hs] at es
  rw [step_quiet (step_cases et).1 ht] at et
  exact engineTurn_agree h s' t' es et

end

/-- A step of the engine gives the host nothing to do. -/
theorem step_quiet_script {s t : State} (hs : s.script = []) (h : step s = .next t) : t.script = [] := by
  rw [step_quiet (step_cases h).1 hs, engineTurn] at h
  split at h
  · rcases engineMicro_cases h with hk | ⟨-, -, hp⟩
    · rw [hk.script, hs]
    · obtain ⟨_, _, _, _, _, -, rfl⟩ := publishMicro_destroys hp
      exact hs
  · cases h
    exact hs

/-- Any number of engine steps keeps two blocks in the same shape, by induction on the number. -/
theorem steps_agree (j : Nat) {s t : State} (h : SameShape s t) (hs : s.script = []) (ht : t.script = []) :
    AgreeOut (steps j s) (steps j t) := by
  induction j generalizing s t with
  | zero => exact .of_next h
  | succ j ih =>
    intro s' t' es et
    obtain ⟨u, hu, es⟩ := andThen_eq_next.mp es
    obtain ⟨v, hv, et⟩ := andThen_eq_next.mp et
    exact ih (step_quiet_agree h hs ht u v hu hv) (step_quiet_script hs hu) (step_quiet_script ht hv) s' t' es et

/-- Settles O49: the shape is kept, and the trace is part of the log, which the shape holds. -/
theorem traceDependsOnLengthsOnly : Obligations.TraceDependsOnLengthsOnly := by
  intro j s t s' t' h hs ht es et
  have h' := steps_agree j h hs ht s' t' es et
  exact ⟨h', by rw [h'.log]⟩

end Sys2Proof.Machine

/-! Proofs for Romulus-N (43_romulus_n.md) and for the modes together: how many invocations the traces hold, that decryption
undoes encryption, and that the runs of `N_ENC` and `N_DEC` compute Romulus-N. -/

namespace Sys2Proof.Machine

open Sys2Proof

/-! ## How many invocations the traces hold -/

/-- Half the numbers below `n`, rounded down, are odd. -/
theorem length_filter_odd_range (n : Nat) : ((List.range n).filter fun i => i % 2 = 1).length = n / 2 := by
  induction n with
  | zero => rfl
  | succ n ih =>
    rw [List.range_succ, List.filter_append, List.length_append, ih]
    rcases Nat.mod_two_eq_zero_or_one n with h | h <;> simp [h] <;> omega

/-- A list with one value before its last place and another at it. -/
theorem map_range_last {α : Type} (x y : α) {n : Nat} (h : 0 < n) :
    ((List.range n).map fun i => if i + 1 < n then x else y) = List.replicate (n - 1) x ++ [y] := by
  obtain ⟨m, rfl⟩ : ∃ m, n = m + 1 := ⟨n - 1, by omega⟩
  have hbefore : ((List.range m).map fun i => if i < m then x else y) = List.replicate m x :=
    List.eq_replicate_iff.mpr ⟨by simp, by simp +contextual⟩
  simp [List.range_succ, hbefore]

/-- One entry for each place and one more for each but the last. -/
theorem length_flatMap_range_last {α : Type} (x y : Nat → α) (n : Nat) :
    ((List.range n).flatMap fun i => x i :: if i + 1 < n then [y i] else []).length = n + (n - 1) := by
  cases n with
  | zero => rfl
  | succ m =>
    have hbefore : ((List.range m).map fun i => (x i :: if i + 1 < m + 1 then [y i] else []).length) = List.replicate m 2 :=
      List.eq_replicate_iff.mpr ⟨by simp, by simp +contextual⟩
    rw [List.range_succ, List.flatMap_append, List.length_append, List.length_flatMap, hbefore]
    simp
    omega

theorem blockCount_pos (n : Nat) : 0 < blockCount n := by simp [blockCount]

/-- The invocations of Romulus-N in order, all under `KEY`, with their domain bytes (R229). -/
theorem nTrace_tags (c : Config) (la lm : Nat) :
    (nTrace c la lm).map (fun e => (e.1, e.2.map Prod.fst)) =
      (List.replicate (blockCount la / 2) c.domain.nAd
        ++ [if lastBlockFull la then c.domain.nAdLastFull else c.domain.nAdLastPart]
        ++ List.replicate (blockCount lm - 1) c.domain.nMsg
        ++ [if lastBlockFull lm then c.domain.nMsgLastFull else c.domain.nMsgLastPart]).map
        (fun b => (KeySource.key, some b)) := by
  have htext := congrArg (List.map fun b : Byte => (KeySource.key, some b))
    (map_range_last c.domain.nMsg (if lastBlockFull lm then c.domain.nMsgLastFull else c.domain.nMsgLastPart)
      (blockCount_pos lm))
  simp only [List.map_map, List.map_append] at htext
  simp only [nTrace, List.map_append, List.map_map, List.append_assoc, ← htext]
  simp [Function.comp_def, length_filter_odd_range]

theorem nTrace_length (c : Config) (la lm : Nat) : (nTrace c la lm).length = blockCount la / 2 + 1 + blockCount lm := by
  simp [nTrace, length_filter_odd_range]
  omega

theorem mTrace_length (c : Config) (la lm : Nat) :
    (mMacTrace c la lm ++ mCryptTrace c lm).length = (blockCount la + blockCount lm) / 2 + 1 + textBlockCount lm := by
  simp [mMacTrace, mCryptTrace, length_filter_odd_range]
  omega

/-- Every invocation of Romulus-M is made under `KEY` (R252). -/
theorem mTrace_key (c : Config) (la lm : Nat) : ∀ e ∈ mMacTrace c la lm ++ mCryptTrace c lm, e.1 = .key := by
  simp only [mMacTrace, mCryptTrace, List.mem_append, List.mem_map, List.mem_singleton]
  rintro e ((⟨i, -, rfl⟩ | rfl) | ⟨i, -, rfl⟩) <;> rfl

theorem tTrace_length (c : Config) (la lm : Nat) :
    (tTrace c la lm).length =
      1 + textBlockCount lm + (textBlockCount lm - 1) + 2 * (authLength la lm / 32 + 1) + 1 := by
  simp only [tTrace, hTrace, List.length_append, length_flatMap_range_last, List.length_replicate, List.length_singleton]
  omega

/-- Settles O44: half the elements of a pairing loop are the tweak word of an invocation, and each block of a text has its own. -/
theorem invocationCounts : Obligations.InvocationCounts := by
  intro c la lm a m m' pl h
  refine ⟨nTrace_length c la lm, ?_, mTrace_length c la lm, mTrace_key c la lm, tTrace_length c la lm, rfl⟩
  have htags := nTrace_tags c la lm
  simp only [lastBlockFull, Bool.and_eq_true, decide_eq_true_eq] at htags
  exact htags

/-! ## Decryption undoes encryption -/

/-- A text taken through a mode block by block: from block `i` on, `m` blocks, where `f r q b` is what block `b` makes of `q`
with `r` blocks to follow, and the block that is put out. -/
def overBlocks {σ : Type} (f : Nat → σ → List Byte → σ × List Byte) (x : List Byte) : Nat → Nat → σ → σ × List Byte
  | 0, _, q => (q, [])
  | m + 1, i, q =>
    ((overBlocks f x m (i + 1) (f m q (blockOf 16 x i)).1).1,
      (f m q (blockOf 16 x i)).2 ++ (overBlocks f x m (i + 1) (f m q (blockOf 16 x i)).1).2)

theorem blockOf_length_le (k : Nat) (x : List Byte) (i : Nat) : (blockOf k x i).length ≤ k := by
  simp [blockOf]

/-- A block and what follows it. -/
theorem blockOf_append_drop (k : Nat) (x : List Byte) (i : Nat) : blockOf k x i ++ x.drop (k * (i + 1)) = x.drop (k * i) := by
  rw [blockOf, Nat.mul_add_one, ← List.drop_drop, List.take_append_drop]

/-- Two texts of one length have their blocks at the same places: what `y` holds from block `i` on is cut where `x` is. -/
theorem blockOf_of_drop {x y o w : List Byte} {k i : Nat} (hlen : y.length = x.length) (ho : o.length = (blockOf k x i).length)
    (h : y.drop (k * i) = o ++ w) : blockOf k y i = o ∧ y.drop (k * (i + 1)) = w := by
  have hl : (y.drop (k * i)).length = o.length + w.length := by rw [h, List.length_append]
  simp only [blockOf, List.length_take, List.length_drop] at ho hl
  rw [blockOf, Nat.mul_add_one, ← List.drop_drop, h]
  rcases Nat.lt_or_ge o.length k with hk | hk
  · obtain rfl : w = [] := List.eq_nil_of_length_eq_zero (by omega)
    simp [hk.le]
  · obtain rfl : o.length = k := by omega
    simp

section
variable {σ : Type} {f g : Nat → σ → List Byte → σ × List Byte} {x y : List Byte}

/-- A mode whose output blocks are as long as their blocks puts out as much as it takes. -/
theorem overBlocks_length (hf : ∀ r q b, b.length ≤ 16 → (f r q b).2.length = b.length) {m i : Nat} (q : σ)
    (hm : x.length ≤ 16 * (i + m)) : (overBlocks f x m i q).2.length = (x.drop (16 * i)).length := by
  induction m generalizing i q with
  | zero => simp [overBlocks, List.drop_eq_nil_of_le (show x.length ≤ 16 * i from hm)]
  | succ m ih =>
    rw [overBlocks, List.length_append, hf _ _ _ (blockOf_length_le _ _ _), ih _ (by omega), ← List.length_append,
      blockOf_append_drop]

/-- A mode that gives back each block of the other from the same state gives back the whole text (R192). -/
theorem overBlocks_undo (hf : ∀ r q b, b.length ≤ 16 → (f r q b).2.length = b.length)
    (hg : ∀ r q b, b.length ≤ 16 → g r q (f r q b).2 = ((f r q b).1, b)) {m i : Nat} (q : σ) (hlen : y.length = x.length)
    (hm : x.length ≤ 16 * (i + m)) (hy : y.drop (16 * i) = (overBlocks f x m i q).2) :
    overBlocks g y m i q = ((overBlocks f x m i q).1, x.drop (16 * i)) := by
  induction m generalizing i q with
  | zero => simp [overBlocks, List.drop_eq_nil_of_le (show x.length ≤ 16 * i from hm)]
  | succ m ih =>
    obtain ⟨hblock, hrest⟩ := blockOf_of_drop hlen (hf m q _ (blockOf_length_le _ _ _)) hy
    rw [overBlocks, hblock, hg _ _ _ (blockOf_length_le _ _ _), ih _ (by omega) hrest, blockOf_append_drop]
    rfl

end

/-- The blocks of a text cover it (R189). -/
theorem le_blockCount (n : Nat) : n ≤ 16 * (0 + blockCount n) := by
  simp only [blockCount]
  omega

/-- So they do where an empty text has none (R247). -/
theorem le_textBlockCount (n : Nat) : n ≤ 16 * (0 + textBlockCount n) := by
  simp only [textBlockCount]
  omega

/-- `rho` or `rho_inv` by the direction (R191, R192). -/
def rhoDir (c : Config) (dec : Bool) (s : Block) (m : List Byte) : Block × List Byte := if dec then rhoInv c s m else rho c s m

theorem rhoDir_length (c : Config) (dec : Bool) (s : Block) {b : List Byte} (hb : b.length ≤ 16) :
    (rhoDir c dec s b).2.length = b.length := by
  have hout : (rhoDir c dec s b).2 = xorPrefix b (feedback c s) := by cases dec <;> rfl
  rw [hout, xorPrefix_length]
  omega

theorem rhoDir_undo (c : Config) (s : Block) {b : List Byte} (hb : b.length ≤ 16) :
    rhoDir c true s (rhoDir c false s b).2 = ((rhoDir c false s b).1, b) :=
  ((rhoInv_eq_iff c s _ hb).mpr rfl).1

/-- The domain byte after a text block with `r` blocks to follow, in a text of `len` bytes (R224, R225). -/
def nTextByte (c : Config) (len r : Nat) : Byte :=
  if r ≠ 0 then c.domain.nMsg else if lastBlockFull len then c.domain.nMsgLastFull else c.domain.nMsgLastPart

/-- One block of the text phase of Romulus-N (R224). -/
def nTextBlock (c : Config) (k n : Block) (dec : Bool) (len r : Nat) (q : Block × Counter) (b : List Byte) :
    (Block × Counter) × List Byte :=
  ((tbc c k n (nTextByte c len r) (cntStep c q.2) (rhoDir c dec q.1 b).1, cntStep c q.2), (rhoDir c dec q.1 b).2)

theorem nTextLoop_eq (c : Config) (k n : Block) (dec : Bool) (x : List Byte) (m i : Nat) (q : Block × Counter) :
    nTextLoop c k n dec x m i q =
      ((overBlocks (nTextBlock c k n dec x.length) x m i q).1.1, (overBlocks (nTextBlock c k n dec x.length) x m i q).2) := by
  induction m generalizing i q with
  | zero => rfl
  | succ m ih =>
    obtain ⟨s, d⟩ := q
    simp only [nTextLoop, ih]
    rfl

theorem nTextLoop_length (c : Config) (k n : Block) (dec : Bool) (x : List Byte) {m i : Nat} (q : Block × Counter)
    (hm : x.length ≤ 16 * (i + m)) : (nTextLoop c k n dec x m i q).2.length = (x.drop (16 * i)).length := by
  rw [nTextLoop_eq]
  exact overBlocks_length (fun _ q _ hb => rhoDir_length c dec q.1 hb) q hm

theorem nCore_length (c : Config) (k n : Block) (dec : Bool) (a x : List Byte) : (nCore c k n dec a x).1.length = x.length :=
  nTextLoop_length c k n dec x _ (le_blockCount _)

/-- The text phase of Romulus-N in the decrypting direction recovers text and state (R227). -/
theorem nCore_undo (c : Config) (k n : Block) (a m : List Byte) :
    nCore c k n true a (nEncrypt c k n a m).1 = (m, (nEncrypt c k n a m).2) := by
  have hlen : (nEncrypt c k n a m).1.length = m.length := nCore_length c k n false a m
  have hundo := overBlocks_undo (f := nTextBlock c k n false m.length) (g := nTextBlock c k n true m.length)
    (fun _ q _ hb => rhoDir_length c false q.1 hb)
    (fun r q b hb => by simp only [nTextBlock, rhoDir_undo c q.1 hb]) (nAdState c k n a, Config.d0) hlen (le_blockCount _)
    (by simp only [nEncrypt, nCore, nTextLoop_eq]; rfl)
  simp only [nCore, nTextLoop_eq, hlen, hundo]
  simp [nEncrypt, nCore, nTextLoop_eq]

/-- One block of the encryption pass of Romulus-M (R246). -/
def mCryptBlock (c : Config) (k n : Block) (dec : Bool) (q : Block × Counter) (b : List Byte) :
    (Block × Counter) × List Byte :=
  (((rhoDir c dec (tbc c k n c.domain.mCrypt q.2 q.1) b).1, cntStep c q.2),
    (rhoDir c dec (tbc c k n c.domain.mCrypt q.2 q.1) b).2)

theorem mCryptLoop_eq (c : Config) (k n : Block) (dec : Bool) (x : List Byte) (m i : Nat) (q : Block × Counter) :
    mCryptLoop c k n dec x m i q = (overBlocks (fun _ => mCryptBlock c k n dec) x m i q).2 := by
  induction m generalizing i q with
  | zero => rfl
  | succ m ih =>
    obtain ⟨s, d⟩ := q
    simp only [mCryptLoop, ih]
    rfl

/-- The encryption pass of Romulus-M from the same tag recovers the text (R248). -/
theorem mCrypt_undo (c : Config) (k n t : Block) (m : List Byte) : mCrypt c k n t true (mCrypt c k n t false m) = m := by
  have hlength : ∀ (_ : Nat) (q : Block × Counter) (b : List Byte), b.length ≤ 16 →
      (mCryptBlock c k n false q b).2.length = b.length := fun _ _ _ hb => rhoDir_length c false _ hb
  have hlen : (mCrypt c k n t false m).length = m.length := by
    rw [mCrypt, mCryptLoop_eq]
    exact overBlocks_length hlength _ (le_textBlockCount _)
  have hundo := overBlocks_undo (g := fun _ => mCryptBlock c k n true) hlength
    (fun r q b hb => by simp only [mCryptBlock, rhoDir_undo c _ hb]) (t, Config.d0) hlen (le_textBlockCount _)
    (by rw [mCrypt, mCryptLoop_eq]; rfl)
  rw [mCrypt, mCryptLoop_eq, hlen, hundo]
  rfl

/-- One block of the keystream of Romulus-T, with `r` blocks to follow (R262, R263). -/
def tStreamBlock (c : Config) (n : Block) (r : Nat) (q : Block × Counter) (b : List Byte) : (Block × Counter) × List Byte :=
  ((if r ≠ 0 then tbc c q.1 n c.domain.tKu q.2 Block.zero else q.1, cntStep c q.2),
    xorPrefix b (tbc c q.1 n c.domain.tKs q.2 Block.zero))

theorem tStreamLoop_eq (c : Config) (n : Block) (x : List Byte) (m i : Nat) (q : Block × Counter) :
    tStreamLoop c n x m i q = (overBlocks (tStreamBlock c n) x m i q).swap := by
  induction m generalizing i q with
  | zero => rfl
  | succ m ih =>
    obtain ⟨z, d⟩ := q
    simp only [tStreamLoop, ih]
    rfl

/-- The keystream of Romulus-T applied twice gives the text back, and the same session key and counter (R262, R268). -/
theorem tStream_undo (c : Config) (k n : Block) (m : List Byte) :
    tStream c k n (tStream c k n m).1 = (m, (tStream c k n m).2) := by
  have hlength : ∀ (r : Nat) (q : Block × Counter) (b : List Byte), b.length ≤ 16 →
      (tStreamBlock c n r q b).2.length = b.length := fun _ _ _ hb => by
    simp only [tStreamBlock, xorPrefix_length]
    omega
  have hlen : (tStream c k n m).1.length = m.length := by
    rw [tStream, tStreamLoop_eq]
    exact overBlocks_length hlength _ (le_textBlockCount _)
  have hundo := overBlocks_undo (g := tStreamBlock c n) hlength
    (fun r q b hb => by simp only [tStreamBlock, xorPrefix_xorPrefix hb]) (tKdf c k n, Config.d0) hlen (le_textBlockCount _)
    (by rw [tStream, tStreamLoop_eq]; rfl)
  rw [tStream, tStreamLoop_eq, hlen, hundo, tStream, tStreamLoop_eq]
  rfl

theorem nDecrypt_nEncrypt (c : Config) (k n t : Block) (a m : List Byte) :
    nDecrypt c k n t a (nEncrypt c k n a m).1 = (tagEqual (nEncrypt c k n a m).2 t, m) := by
  rw [nDecrypt, nCore_undo]

theorem mDecrypt_mEncrypt (c : Config) (k n : Block) (a m : List Byte) :
    mDecrypt c k n (mEncrypt c k n a m).2 a (mEncrypt c k n a m).1 = (true, m) := by
  simp only [mDecrypt, mEncrypt, mCrypt_undo, (tagEqual_iff _ _).mpr rfl]

theorem tDecrypt_tEncrypt (c : Config) (k n t : Block) (a m : List Byte) :
    tDecrypt c k n t a (tEncrypt c k n a m).1 = (tagEqual (tEncrypt c k n a m).2 t, m) := by
  simp only [tDecrypt, tEncrypt, tStream_undo]

/-- Settles O43: each mode's text pass is undone block by block, and the tag comparison is exact. -/
theorem decryptionUndoesEncryption : Obligations.DecryptionUndoesEncryption := by
  intro c k n a m
  have hself : ∀ t, tagEqual t t = true := fun t => (tagEqual_iff t t).mpr rfl
  have hother : ∀ {t u : Block}, u ≠ t → tagEqual t u = false := fun hne =>
    Bool.eq_false_iff.mpr fun h => hne ((tagEqual_iff _ _).mp h).symm
  refine ⟨?_, mDecrypt_mEncrypt c k n a m, ?_, fun t ht => ?_, fun t ht => ?_⟩
  · rw [nDecrypt_nEncrypt, hself]
  · rw [tDecrypt_tEncrypt, hself]
  · rw [nDecrypt_nEncrypt, hother ht]
  · rw [tDecrypt_tEncrypt, hother ht]

/-! ## Runs of the engine -/

theorem steps_add (i j : Nat) (s : State) : steps (i + j) s = andThen (steps i s) (steps j) := by
  induction i generalizing s with
  | zero => simp [steps]
  | succ i ih =>
    rw [Nat.succ_add]
    simp only [steps]
    cases step s with
    | next t => exact ih t
    | fault r => rfl
    | refused r => rfl

/-- The engine runs a command and nothing disturbs it: no mark, and no host action to come. -/
structure Running (s : State) : Prop where
  fault : s.fault = none
  script : s.script = []
  busy : s.busy = true

/-- Some steps of the engine, none of them the publication, lead from `s` to `t`. -/
structure Runs (s t : State) : Prop where
  reaches : ∃ j, steps j s = .next t
  kept : Kept s t

theorem Runs.self (s : State) : Runs s s := ⟨⟨0, rfl⟩, .self s⟩

theorem Runs.trans {s t u : State} (h : Runs s t) (g : Runs t u) : Runs s u := by
  obtain ⟨i, hi⟩ := h.reaches
  obtain ⟨j, hj⟩ := g.reaches
  exact ⟨⟨i + j, by rw [steps_add, hi, andThen_next, hj]⟩, h.kept.trans g.kept⟩

theorem Running.kept {s t : State} (h : Running s) (k : Kept s t) : Running t :=
  ⟨k.fault.trans h.fault, k.script.trans h.script, k.busy.trans h.busy⟩

theorem Running.step_eq {s : State} (h : Running s) : step s = engineMicro s := by
  rw [step_quiet h.fault h.script, engineTurn, if_pos h.busy]

/-- A micro-operation that is not the publication is one step. -/
theorem Runs.micro {s t : State} (h : Running s) (hp : s.phase = .publish → s.pending = true) (ht : engineMicro s = .next t) :
    Runs s t := by
  refine ⟨⟨1, ?_⟩, (engineMicro_cases ht).resolve_right fun ⟨hphase, hpending, _⟩ => ?_⟩
  · rw [steps, h.step_eq, ht]
    rfl
  · rw [hp hphase] at hpending
    cases hpending

/-- A micro-operation that issues the invocation tagged `i`, the invocation, and the rest of its loop body (R96, R97). -/
theorem Runs.invocation {s q r t : State} {i : Instr} {d : Counter} (h : Running s) (hc : s.cfg.admitted = true)
    (hp : s.phase ≠ .publish) (hi : i.format = .domain) (hissue : engineMicro s = .next (issue i d q))
    (hexec : exec i (issue i d q) = .next r) (hnext : afterInvocation i r = .next t) : Runs s t := by
  have hrun := Runs.micro h (absurd · hp) hissue
  have hcfg : q.cfg = s.cfg := hrun.kept.cfg
  rw [← hcfg] at hc
  simp only [Config.admitted, Bool.and_eq_true] at hc
  obtain ⟨⟨⟨⟨-, hslot⟩, hdistinct⟩, -⟩, -⟩ := hc
  have htag := tagOf_aeadTk1 hslot d (encodeIn q.cfg.domain i)
  have hdecode := (decodeDomain_eq_ok_iff hdistinct).mpr ⟨hi, rfl⟩
  have hmicro : engineMicro (issue i d q) = .next t := by
    rw [engineMicro_invocation (s := issue i d q) rfl rfl htag hdecode, hexec, andThen_next, hnext]
  exact hrun.trans (Runs.micro (h.kept hrun.kept) (fun _ => rfl) hmicro)

theorem Kept.mode {s t : State} (k : Kept s t) : t.mode = s.mode := by simp only [State.mode, k.op]

theorem Kept.decrypting {s t : State} (k : Kept s t) : t.decrypting = s.decrypting := by simp only [State.decrypting, k.op]

theorem Kept.kind {s t : State} (k : Kept s t) : t.kind = s.kind := by simp only [State.kind, k.mode, k.decrypting]

/-! ## The invocation trace of a run -/

/-- The invocation trace of R198. -/
abbrev Trace := List (KeySource × Option (Byte × Counter))

@[simp] theorem traceOf_append (l m : List Event) : traceOf (l ++ m) = traceOf l ++ traceOf m := List.filterMap_append

@[simp] theorem traceOf_invoke (k : KeySource) (t : Option (Byte × Counter)) : traceOf [.invoke k t] = [(k, t)] := rfl

/-- The trace leaves out the accesses of the engine to its buffers, recorded or not (R349). -/
@[simp] theorem traceOf_ite_read (p : Prop) [Decidable p] (l : List Event) (sp : Space) (off n : Nat) :
    traceOf (if p then l else l ++ [.read sp off n]) = traceOf l := by
  split <;> simp [traceOf]

@[simp] theorem traceOf_ite_write (p : Prop) [Decidable p] (l : List Event) (sp : Space) (off n : Nat) :
    traceOf (if p then l else l ++ [.write sp off n]) = traceOf l := by
  split <;> simp [traceOf]

/-! ## Blocks of the buffers -/

/-- A block of a text that has been written is the block of the bytes read from it (R65). -/
theorem Memory.readRange_block {m : Memory} {n : Nat} {x : List Byte} (h : m.readRange 0 n = some x) (i : Nat) :
    m.readRange (16 * i) (blockLength n i) = some (blockOf 16 x i) := by
  have hlen := Memory.readRange_length h
  obtain ⟨w, hw, hwlen⟩ := Memory.block_of_writtenTo (m := m) (n := n) (by simp [Memory.writtenTo, h]) i
  rw [hw]
  congr 1
  refine List.ext_getElem? fun j => ?_
  simp only [blockOf, List.getElem?_take, List.getElem?_drop]
  by_cases hj : j < blockLength n i
  · have hj' : j < 16 ∧ 16 * i + j < n := by
      simp only [blockLength] at hj
      omega
    rw [if_pos hj'.1, Memory.readRange_get hw hj, Memory.readRange_get h hj'.2, Nat.zero_add]
  · rw [List.getElem?_eq_none (by omega)]
    simp only [blockLength] at hj
    split
    · rw [List.getElem?_eq_none (by omega)]
    · rfl

/-- Two ranges written one after the other are one range. -/
theorem Memory.writeRange_append (m : Memory) (off : Nat) (x y : List Byte) :
    m.writeRange off (x ++ y) = (m.writeRange off x).writeRange (off + x.length) y := by
  induction x generalizing m off with
  | nil => rfl
  | cons b x ih =>
    rw [List.cons_append, Memory.writeRange, ih, Memory.writeRange, List.length_cons]
    congr 1
    omega

/-! ## The place of the engine -/

/-- What a run up to the tag changes from one block to the next: where the engine is, the state and the counter, the text
written, and the invocations made. -/
structure Place where
  phase : Phase
  idx : Option Nat
  regS : Option Block
  regD : Option Counter
  tout : Memory
  trace : Trace

/-- The place of the engine in a state. -/
def State.place (s : State) : Place := ⟨s.phase, s.idx, s.regS, s.regD, s.tout, traceOf s.log⟩

/-- The engine has come from `u` to `s`, which is at the place `p` and has no invocation pending. -/
structure At (u : State) (p : Place) (s : State) : Prop where
  runs : Runs u s
  pending : s.pending = false
  place : s.place = p

namespace At

variable {u s : State} {p : Place} (h : At u p s)
include h

theorem phase : s.phase = p.phase := congrArg Place.phase h.place
theorem idx : s.idx = p.idx := congrArg Place.idx h.place
theorem regS : s.regS = p.regS := congrArg Place.regS h.place
theorem regD : s.regD = p.regD := congrArg Place.regD h.place
theorem tout : s.tout = p.tout := congrArg Place.tout h.place
theorem trace : traceOf s.log = p.trace := congrArg Place.trace h.place

/-- With no invocation pending the next micro-operation is that of the phase. -/
theorem sequence : engineMicro s = sequenceMicro s := engineMicro_sequence h.pending

end At

@[simp] theorem block_issue (i : Instr) (d : Counter) (s : State) (sp : Space) (len j : Nat) :
    (issue i d s).block sp len j = s.block sp len j := by
  cases sp <;> rfl

/-- One element of a pairing loop (R222, R243): injected where its number `num` is even, counted from 0, and the tweak word of an
invocation under `KEY` where it is odd. -/
theorem At.pair {u s : State} {p : Phase} {i len num : Nat} {k x : Block} {d : Counter} {m : Memory} {tr : Trace} {sp : Space}
    {tag : Instr} {w : List Byte} (hrun : Running u) (hc : u.cfg.admitted = true) (hk : u.key.value = some k)
    (h : At u ⟨p, some i, some x, some d, m, tr⟩ s) (hp : p ≠ .publish)
    (hmicro : engineMicro s = pairMicro sp len num tag s)
    (hw : s.block sp len i = some w) (htag : tag.format = .domain)
    (hexec : exec tag (issue tag d s) = invokeBlock tag sp len (issue tag d s)) (hnext : afterInvocation tag = stepCounter) :
    ∃ t, At u
      ⟨p, some (i + 1),
        some (if num % 2 = 0 then x.xor (pad16 u.cfg w) else tbc u.cfg k (pad16 u.cfg w) (encodeIn u.cfg.domain tag) d x),
        some (cntStep u.cfg d), m, tr ++ if num % 2 = 0 then [] else [(.key, some (encodeIn u.cfg.domain tag, d))]⟩ t := by
  have hs := hrun.kept h.runs.kept
  have hcfg : s.cfg = u.cfg := h.runs.kept.cfg
  have hkey : s.key.value = some k := by rw [h.runs.kept.key, hk]
  have hphase : s.phase ≠ .publish := h.phase ▸ hp
  simp only [pairMicro, h.idx, h.regD, need_some] at hmicro
  by_cases heven : num % 2 = 0
  · simp only [if_pos heven, hw, h.regS, need_some] at hmicro
    rw [stepCounter_of (d := d) (i := i) (by simp) (by simp)] at hmicro
    refine ⟨_, h.runs.trans (Runs.micro hs (absurd · hphase) hmicro), by simpa using h.pending, ?_⟩
    simp [State.place, heven, h.phase, h.tout, h.trace, hcfg]
  · rw [if_neg heven] at hmicro
    rw [invokeBlock_of (j := i) (w := w) (k := k) (d := d) (x := x) (by simpa using h.idx) (by simpa using hw)
      (by simpa using hkey) (by simpa using h.regD) (by simpa using h.regS)] at hexec
    have hstep := congrFun hnext
      { afterTbc .key k (pad16 s.cfg w) (encodeIn s.cfg.domain tag) d x (logBlock sp len i (issue tag d s)) with
        regS := some (tbc s.cfg k (pad16 s.cfg w) (encodeIn s.cfg.domain tag) d x) }
    rw [stepCounter_of (d := d) (i := i) (by simpa using h.regD) (by simpa using h.idx)] at hstep
    refine ⟨_, h.runs.trans (Runs.invocation hs (hcfg ▸ hc) hphase htag hmicro hexec hstep), by simp, ?_⟩
    simp [State.place, heven, h.phase, h.tout, h.trace, hcfg]

theorem cntSteps_succ (c : Config) (n : Nat) (d : Counter) : cntSteps c (n + 1) d = cntStep c (cntSteps c n d) := by
  induction n generalizing d with
  | zero => rfl
  | succ n ih => exact ih (cntStep c d)

/-- A pairing loop steps the counter once for each element. -/
theorem absorbLoop_counter (c : Config) (k : Block) (tag : Nat → Byte) (elt : Nat → List Byte) (n i : Nat)
    (q : Block × Counter) : (absorbLoop c k tag elt n i q).2 = cntSteps c n q.2 := by
  induction n generalizing i q with
  | zero => rfl
  | succ n ih => exact ih _ _

/-! ## The micro-operations of Romulus-N -/

/-- The state after the invocation tagged `i` under the key `k` and with the tweak word `n`, issued in `s` (R97). -/
def nonceInvoked (i : Instr) (k n : Block) (d : Counter) (x : Block) (s : State) : State :=
  { afterTbc .key k n (encodeIn s.cfg.domain i) d x (issue i d s) with
    regS := some (tbc s.cfg k n (encodeIn s.cfg.domain i) d x) }

theorem nonceInvoked_place (i : Instr) (k n : Block) (d : Counter) (x : Block) (s : State) :
    (nonceInvoked i k n d x s).place =
      { s.place with
        regS := some (tbc s.cfg k n (encodeIn s.cfg.domain i) d x)
        trace := s.place.trace ++ [(.key, some (encodeIn s.cfg.domain i, d))] } := by
  simp [State.place, nonceInvoked]

theorem enter_place (p : Phase) (s : State) : (enter p s).place = { s.place with phase := p, idx := none } := rfl

/-- An invocation tweaked by the nonce, from its issue to the rest of its loop body. -/
theorem Runs.nonceInvocation {s q t : State} {i : Instr} {k n x : Block} {d : Counter} (h : Running s)
    (hc : s.cfg.admitted = true) (hp : s.phase ≠ .publish) (hi : i.format = .domain) (hexec : exec i = invokeNonce i)
    (hissue : engineMicro s = .next (issue i d q)) (hk : q.key.value = some k) (hn : q.nonce.value = some n)
    (hd : q.regD = some d) (hx : q.regS = some x)
    (hnext : afterInvocation i (nonceInvoked i k n d x q) = .next t) : Runs s t := by
  refine Runs.invocation h hc hp hi hissue ?_ hnext
  rw [hexec]
  exact invokeNonce_of hk hn hd hx

/-- The closing tag of the associated-data phase is a nonce invocation that leads to the text phase. -/
theorem nAdLast_invocation (s : State) :
    (nAdLast s).format = .domain ∧ exec (nAdLast s) = invokeNonce (nAdLast s) ∧
      ∀ t, afterInvocation (nAdLast s) t = .next (enter .text t) := by
  unfold nAdLast
  split <;> exact ⟨rfl, rfl, fun _ => rfl⟩

theorem encodeIn_nAdLast (t : DomainTable) (s : State) :
    encodeIn t (nAdLast s) = if lastBlockFull s.adlen then t.nAdLastFull else t.nAdLastPart := by
  unfold nAdLast
  split <;> rfl

/-- The tag after a text block is a nonce invocation; it leads to the next block or out of the text phase. -/
theorem nTextTag_invocation (s : State) (i : Nat) :
    (nTextTag s i).format = .domain ∧ exec (nTextTag s i) = invokeNonce (nTextTag s i) ∧
      ∀ t, afterInvocation (nTextTag s i) t = if i + 1 < blockCount s.tlen then nTextNext t else .next (enter .final t) := by
  unfold nTextTag
  split
  · exact ⟨rfl, rfl, fun _ => rfl⟩
  · split <;> exact ⟨rfl, rfl, fun _ => rfl⟩

theorem encodeIn_nTextTag (c : Config) (s : State) {i r : Nat} (h : i + (r + 1) = blockCount s.tlen) :
    encodeIn c.domain (nTextTag s i) = nTextByte c s.tlen r := by
  have hr : i + 1 < blockCount s.tlen ↔ r ≠ 0 := by omega
  simp only [nTextTag, nTextByte, hr]
  split
  · rfl
  · split <;> rfl

/-- The state after the injection and the output of text block `i`, whose bytes are `m` (R224). -/
def textInjected (i : Nat) (y : Block) (d : Counter) (m : List Byte) (s : State) : State :=
  writeText i (rhoBy s y m).2 (logBlock .tin s.tlen i { s with regS := some (rhoBy s y m).1, regD := some d })

theorem textInjected_place (i : Nat) (y : Block) (d : Counter) (m : List Byte) (s : State) :
    (textInjected i y d m s).place =
      { s.place with
        regS := some (rhoBy s y m).1, regD := some d, tout := s.tout.writeRange (16 * i) (rhoBy s y m).2 } := by
  simp [State.place, textInjected]

theorem textInjected_cfg (i : Nat) (y : Block) (d : Counter) (m : List Byte) (s : State) :
    (textInjected i y d m s).cfg = s.cfg := by
  simp [textInjected]

/-- The state after the injection and the output of text block `i` and the invocation that follows it. -/
def nTextInvoked (k n : Block) (i : Nat) (q : Block × Counter) (m : List Byte) (s : State) : State :=
  nonceInvoked (nTextTag s i) k n (cntStep s.cfg q.2) (rhoBy s q.1 m).1 (textInjected i q.1 (cntStep s.cfg q.2) m s)

/-- A micro-operation of the text phase injects a block and issues the invocation after it (R224). -/
theorem nTextMicro_of {s : State} {i : Nat} {m : List Byte} {y : Block} {d : Counter} (hi : s.idx = some i)
    (hm : s.block .tin s.tlen i = some m) (hy : s.regS = some y) (hd : s.regD = some d) :
    nTextMicro s = .next (issue (nTextTag s i) (cntStep s.cfg d) (textInjected i y (cntStep s.cfg d) m s)) := by
  simp [nTextMicro, textInjected, hi, hm, hy, hd]

/-- The end of the loop body of the text phase completes when the index is written. -/
theorem nTextNext_of {s : State} {i : Nat} (hi : s.idx = some i) : nTextNext s = .next { s with idx := some (i + 1) } := by
  simp [nTextNext, hi]

theorem nTextLoop_succ (c : Config) (k n : Block) (dec : Bool) (x : List Byte) (m i : Nat) (q : Block × Counter) :
    nTextLoop c k n dec x (m + 1) i q =
      ((nTextLoop c k n dec x m (i + 1) (nTextBlock c k n dec x.length m q (blockOf 16 x i)).1).1,
        (nTextBlock c k n dec x.length m q (blockOf 16 x i)).2 ++
          (nTextLoop c k n dec x m (i + 1) (nTextBlock c k n dec x.length m q (blockOf 16 x i)).1).2) := by
  simp only [nTextLoop_eq]
  rfl

/-- A block that is not the last has 16 bytes (R189). -/
theorem blockOf_length_of_next {x : List Byte} {i : Nat} (h : i + 1 < blockCount x.length) : (blockOf 16 x i).length = 16 := by
  simp only [blockCount, blockOf, List.length_take, List.length_drop] at *
  omega

/-- The invocations of the associated-data phase of Romulus-N (R222, R223). -/
def nAdTrace (c : Config) (la : Nat) : Trace :=
  ((List.range (blockCount la)).filter fun i => i % 2 = 1).map (fun i => (.key, some (c.domain.nAd, cntSteps c i Config.d0)))
    ++ [(.key, some (if lastBlockFull la then c.domain.nAdLastFull else c.domain.nAdLastPart,
          cntSteps c (blockCount la) Config.d0))]

/-- The invocation after text block `i` of Romulus-N (R224, R225). -/
def nTextEntry (c : Config) (lm i : Nat) : KeySource × Option (Byte × Counter) :=
  (.key, some (if i + 1 < blockCount lm then c.domain.nMsg
      else if lastBlockFull lm then c.domain.nMsgLastFull else c.domain.nMsgLastPart,
    cntSteps c (i + 1) Config.d0))

theorem nTrace_eq (c : Config) (la lm : Nat) :
    nTrace c la lm = nAdTrace c la ++ (List.range (blockCount lm)).map (nTextEntry c lm) := rfl

theorem nTextEntry_of {c : Config} {lm i r : Nat} (h : i + (r + 1) = blockCount lm) :
    nTextEntry c lm i = (.key, some (nTextByte c lm r, cntStep c (cntSteps c i Config.d0))) := by
  have hr : i + 1 < blockCount lm ↔ r ≠ 0 := by omega
  simp only [nTextEntry, nTextByte, hr, cntSteps_succ]

/-! ## The runs of Romulus-N -/

/-- What a command of Romulus-N finds when it starts, `dec` being its direction: operands, nothing written, nothing logged
(R220, R227). -/
structure NCommand (u : State) (dec : Bool) (k n : Block) (a x : List Byte) : Prop where
  running : Running u
  admitted : u.cfg.admitted = true
  mode : u.mode = some .romulusN
  dir : u.decrypting = dec
  operands : AeadOperands u k n a x
  start : ∃ y d, At u ⟨.ad, none, y, d, [], []⟩ u

section
variable {u s : State} {dec : Bool} {k n : Block} {a x : List Byte} (hN : NCommand u dec k n a x)
include hN

theorem NCommand.adlen : u.adlen = a.length := (Memory.readRange_length hN.operands.ad).symm

theorem NCommand.tlen : u.tlen = x.length := (Memory.readRange_length hN.operands.text).symm

theorem NCommand.mode_kept (hk : Kept u s) : s.mode = some .romulusN := hk.mode.trans hN.mode

theorem NCommand.key_kept (hk : Kept u s) : s.key.value = some k := by rw [hk.key, hN.operands.key]

theorem NCommand.nonce_kept (hk : Kept u s) : s.nonce.value = some n := by rw [hk.nonce, hN.operands.nonce]

theorem NCommand.adBlock (hk : Kept u s) (i : Nat) : s.block .adbuf s.adlen i = some (blockOf 16 a i) := by
  rw [State.block, State.buffer, hk.adbuf, hk.adlen]
  exact Memory.readRange_block hN.operands.ad i

theorem NCommand.textBlock (hk : Kept u s) (i : Nat) : s.block .tin s.tlen i = some (blockOf 16 x i) := by
  rw [State.block, State.buffer, hk.tin, hk.tlen]
  exact Memory.readRange_block hN.operands.text i

/-- In the associated-data phase the engine takes the micro-operations of Romulus-N (R221 to R223). -/
theorem NCommand.adMicro {p : Place} (h : At u p s) (hp : p.phase = .ad) : engineMicro s = nAdMicro s := by
  simp [h.sequence, sequenceMicro, h.phase, hp, hN.mode_kept h.runs.kept]

/-- The pairing loop of the associated-data phase from block `i` on, `m` blocks (R222). -/
theorem nAdLoop_runs {m i : Nat} {y : Block} {tm : Memory} {tr : Trace}
    (h : At u ⟨.ad, some i, some y, some (cntSteps u.cfg i Config.d0), tm, tr⟩ s) (him : i + m = blockCount a.length) :
    ∃ t, At u
      ⟨.ad, some (i + m),
        some (absorbLoop u.cfg k (fun _ => u.cfg.domain.nAd) (blockOf 16 a) m i (y, cntSteps u.cfg i Config.d0)).1,
        some (cntSteps u.cfg (i + m) Config.d0), tm,
        tr ++ ((List.range' i m).filter fun j => j % 2 = 1).map
          fun j => (.key, some (u.cfg.domain.nAd, cntSteps u.cfg j Config.d0))⟩ t := by
  induction m generalizing i y tr s with
  | zero => exact ⟨s, by simpa [absorbLoop] using h⟩
  | succ m ih =>
    have hmicro : engineMicro s = pairMicro .adbuf s.adlen i .nAd s := by
      have hi : i < blockCount s.adlen := by
        rw [h.runs.kept.adlen, hN.adlen]
        omega
      simp only [hN.adMicro h rfl, nAdMicro, h.idx, if_pos hi]
    obtain ⟨t, ht⟩ := h.pair hN.running hN.admitted hN.operands.key (by decide) hmicro (hN.adBlock h.runs.kept i) rfl rfl rfl
    rw [← cntSteps_succ] at ht
    obtain ⟨t', ht'⟩ := ih ht (by omega)
    have htrace : (if i % 2 = 0 then [] else [(KeySource.key, some (u.cfg.domain.nAd, cntSteps u.cfg i Config.d0))]) =
        ([i].filter fun j => j % 2 = 1).map fun j => (.key, some (u.cfg.domain.nAd, cntSteps u.cfg j Config.d0)) := by
      rcases Nat.mod_two_eq_zero_or_one i with hi | hi <;> simp [hi]
    refine ⟨t', ?_⟩
    rw [List.range'_succ, ← List.singleton_append, List.filter_append, List.map_append, ← htrace, ← List.append_assoc,
      absorbLoop, ← cntSteps_succ, ← Nat.add_assoc, Nat.add_right_comm]
    exact ht'

/-- The associated-data phase (R221 to R223). -/
theorem nAd_runs :
    ∃ t d, At u ⟨.text, none, some (nAdState u.cfg k n a), some d, [], nAdTrace u.cfg a.length⟩ t := by
  obtain ⟨y, d, hstart⟩ := hN.start
  have hsetup : At u ⟨.ad, some 0, some Block.zero, some Config.d0, [], []⟩ (startPairs u) := by
    refine ⟨Runs.micro hN.running (by simp [hstart.phase]) ?_, by simpa using hstart.pending, ?_⟩
    · simp only [hN.adMicro hstart rfl, nAdMicro, hstart.idx]
    · simp [State.place, hstart.phase, hstart.tout, hstart.trace]
  obtain ⟨s, hs⟩ := nAdLoop_runs hN (i := 0) hsetup (Nat.zero_add _)
  rw [Nat.zero_add, ← List.range_eq_range', List.nil_append] at hs
  obtain ⟨hformat, hexec, hnext⟩ := nAdLast_invocation s
  have hk := hs.runs.kept
  have hadlen : s.adlen = a.length := by rw [hk.adlen, hN.adlen]
  have hissue : engineMicro s = .next (issue (nAdLast s) (cntSteps u.cfg (blockCount a.length) Config.d0) s) := by
    simp only [hN.adMicro hs rfl, nAdMicro, hs.idx, hadlen, lt_irrefl, if_false, hs.regD, need_some]
  refine ⟨_, cntSteps u.cfg (blockCount a.length) Config.d0,
    hs.runs.trans (Runs.nonceInvocation (hN.running.kept hk) (hk.cfg ▸ hN.admitted) (by simp [hs.phase]) hformat hexec hissue
      (hN.key_kept hk) (hN.nonce_kept hk) hs.regD hs.regS (hnext _)), rfl, ?_⟩
  rw [enter_place, nonceInvoked_place, hs.place, encodeIn_nAdLast, hadlen, hk.cfg, nAdState, absorbLoop_counter]
  rfl

/-- In the text phase the engine takes in block `i` and issues the invocation after it, which leads on to what its loop body
leads to (R224). -/
theorem nTextInvoked_runs {t : State} {i : Nat} {q : Block × Counter} {tm : Memory} {tr : Trace}
    (h : At u ⟨.text, some i, some q.1, some q.2, tm, tr⟩ s)
    (hnext : afterInvocation (nTextTag s i) (nTextInvoked k n i q (blockOf 16 x i) s) = .next t) : Runs u t := by
  have hk := h.runs.kept
  obtain ⟨hformat, hexec, -⟩ := nTextTag_invocation s i
  have hissue : engineMicro s = .next
      (issue (nTextTag s i) (cntStep s.cfg q.2) (textInjected i q.1 (cntStep s.cfg q.2) (blockOf 16 x i) s)) := by
    simp only [h.sequence, sequenceMicro, h.phase]
    exact nTextMicro_of h.idx (hN.textBlock hk i) h.regS h.regD
  exact h.runs.trans (Runs.nonceInvocation (hN.running.kept hk) (hk.cfg ▸ hN.admitted) (by simp [h.phase]) hformat hexec hissue
    (by simpa [textInjected] using hN.key_kept hk) (by simpa [textInjected] using hN.nonce_kept hk) (by simp [textInjected])
    (by simp [textInjected]) hnext)

/-- What block `i` of the text, with `r` blocks to follow, and its invocation make of the place of the engine (R224, R225). -/
theorem nTextInvoked_place {i r : Nat} {q : Block × Counter} {out : List Byte} {tr : Trace}
    (h : At u ⟨.text, some i, some q.1, some q.2, Memory.writeRange [] 0 out, tr⟩ s) (hi : i + (r + 1) = blockCount x.length)
    (hout : out.length = 16 * i) :
    (nTextInvoked k n i q (blockOf 16 x i) s).place =
      ⟨.text, some i, some (nTextBlock u.cfg k n dec x.length r q (blockOf 16 x i)).1.1, some (cntStep u.cfg q.2),
        Memory.writeRange [] 0 (out ++ (nTextBlock u.cfg k n dec x.length r q (blockOf 16 x i)).2),
        tr ++ [(.key, some (nTextByte u.cfg x.length r, cntStep u.cfg q.2))]⟩ := by
  have hk := h.runs.kept
  have htlen : s.tlen = x.length := by rw [hk.tlen, hN.tlen]
  have hbyte : encodeIn u.cfg.domain (nTextTag s i) = nTextByte u.cfg x.length r := by
    rw [encodeIn_nTextTag u.cfg s (by rw [htlen, hi]), htlen]
  have hrho : rhoBy s q.1 (blockOf 16 x i) = rhoDir u.cfg dec q.1 (blockOf 16 x i) := by
    simp only [rhoBy, rhoDir, hk.cfg, hk.decrypting, hN.dir]
  have hmem : (Memory.writeRange [] 0 out).writeRange (16 * i) (rhoDir u.cfg dec q.1 (blockOf 16 x i)).2 =
      Memory.writeRange [] 0 (out ++ (rhoDir u.cfg dec q.1 (blockOf 16 x i)).2) := by
    rw [Memory.writeRange_append, hout, Nat.zero_add]
  rw [nTextInvoked, nonceInvoked_place, textInjected_place, textInjected_cfg, h.place, h.tout, hk.cfg, hbyte, hrho, hmem]
  rfl

/-- One block of the text phase with `r` blocks to follow leads to the next block, or out of the phase (R224, R225). -/
theorem nTextBlock_runs {i r : Nat} {q : Block × Counter} {out : List Byte} {tr : Trace}
    (h : At u ⟨.text, some i, some q.1, some q.2, Memory.writeRange [] 0 out, tr⟩ s) (hi : i + (r + 1) = blockCount x.length)
    (hout : out.length = 16 * i) :
    ∃ t, At u
      ⟨if r = 0 then .final else .text, if r = 0 then none else some (i + 1),
        some (nTextBlock u.cfg k n dec x.length r q (blockOf 16 x i)).1.1, some (cntStep u.cfg q.2),
        Memory.writeRange [] 0 (out ++ (nTextBlock u.cfg k n dec x.length r q (blockOf 16 x i)).2),
        tr ++ [(.key, some (nTextByte u.cfg x.length r, cntStep u.cfg q.2))]⟩ t := by
  have htlen : s.tlen = x.length := by rw [h.runs.kept.tlen, hN.tlen]
  obtain ⟨-, -, hnext⟩ := nTextTag_invocation s i
  have hplace := nTextInvoked_place hN h hi hout
  have hnext := htlen ▸ hnext (nTextInvoked k n i q (blockOf 16 x i) s)
  by_cases hr : r = 0
  · rw [if_neg (by omega)] at hnext
    exact ⟨_, nTextInvoked_runs hN h hnext, rfl, by simp [enter_place, hplace, hr]⟩
  · rw [if_pos (by omega), nTextNext_of (congrArg Place.idx hplace)] at hnext
    refine ⟨_, nTextInvoked_runs hN h hnext, rfl, ?_⟩
    rw [if_neg hr, if_neg hr]
    exact congrArg (fun p : Place => { p with idx := some (i + 1) }) hplace

/-- The text phase from block `i` on, `r + 1` blocks (R224, R225). -/
theorem nTextLoop_runs {i r : Nat} {q : Block × Counter} {out : List Byte} {tr : Trace}
    (h : At u ⟨.text, some i, some q.1, some q.2, Memory.writeRange [] 0 out, tr⟩ s) (hq : q.2 = cntSteps u.cfg i Config.d0)
    (hi : i + (r + 1) = blockCount x.length) (hout : out.length = 16 * i) :
    ∃ t d, At u
      ⟨.final, none, some (nTextLoop u.cfg k n dec x (r + 1) i q).1, d,
        Memory.writeRange [] 0 (out ++ (nTextLoop u.cfg k n dec x (r + 1) i q).2),
        tr ++ (List.range' i (r + 1)).map (nTextEntry u.cfg x.length)⟩ t := by
  induction r generalizing i q out tr s with
  | zero =>
    obtain ⟨t, ht⟩ := nTextBlock_runs hN h hi hout
    refine ⟨t, some (cntStep u.cfg q.2), ?_⟩
    rw [nTextLoop_succ, List.range'_one, List.map_singleton, nTextEntry_of hi, ← hq]
    simpa [nTextLoop] using ht
  | succ r ih =>
    obtain ⟨t, ht⟩ := nTextBlock_runs hN h hi hout
    have hlen := rhoDir_length u.cfg dec q.1 (blockOf_length_le 16 x i)
    rw [blockOf_length_of_next (by omega)] at hlen
    obtain ⟨t', d, ht'⟩ := ih (q := (nTextBlock u.cfg k n dec x.length (r + 1) q (blockOf 16 x i)).1) ht
      (by rw [cntSteps_succ, ← hq]; rfl) (by omega) (by rw [List.length_append, hout, nTextBlock, hlen]; omega)
    refine ⟨t', d, ?_⟩
    rw [nTextLoop_succ, List.range'_succ, List.map_cons, nTextEntry_of hi, ← hq, List.append_cons, ← List.append_assoc]
    exact ht'

/-- From its start to its tag Romulus-N writes its output text and makes the invocations of R229, in either direction. -/
theorem nCore_runs :
    ∃ t y d, At u
      ⟨.final, none, some y, d, Memory.writeRange [] 0 (nCore u.cfg k n dec a x).1, nTrace u.cfg a.length x.length⟩ t ∧
        feedback u.cfg y = (nCore u.cfg k n dec a x).2 := by
  obtain ⟨s, d, hs⟩ := nAd_runs hN
  have hsetup : At u
      ⟨.text, some 0, some (nAdState u.cfg k n a), some Config.d0, Memory.writeRange [] 0 [], nAdTrace u.cfg a.length⟩
      { s with regD := some Config.d0, idx := some 0 } := by
    refine ⟨hs.runs.trans (Runs.micro (hN.running.kept hs.runs.kept) (by simp [hs.phase]) ?_), hs.pending,
      congrArg (fun p : Place => { p with regD := some Config.d0, idx := some 0 }) hs.place⟩
    simp only [hs.sequence, sequenceMicro, hs.phase, nTextMicro, hs.idx]
  have hcount : blockCount x.length = blockCount x.length - 1 + 1 := (Nat.sub_add_cancel (blockCount_pos _)).symm
  obtain ⟨t, d', ht⟩ := nTextLoop_runs hN (q := (nAdState u.cfg k n a, Config.d0)) hsetup rfl
    (by rw [Nat.zero_add, ← hcount]) rfl
  rw [← hcount, ← List.range_eq_range', ← nTrace_eq, List.nil_append] at ht
  exact ⟨t, _, _, ht, rfl⟩

end

/-! ## The end of a command -/

/-- Where the publication is next, the command ends in one more step. -/
theorem Runs.publish {u s e : State} (hu : Running u) (h : Runs u s) (hp : s.phase = .publish) (hpending : s.pending = false)
    (he : publishMicro s = .next e) : ∃ j, steps j u = .next e := by
  obtain ⟨j, hj⟩ := h.reaches
  refine ⟨j + 1, ?_⟩
  rw [steps_add, hj, andThen_next, steps, (hu.kept h.kept).step_eq, engineMicro_sequence hpending]
  simp only [sequenceMicro, hp, he]
  rfl

/-- What the publication leaves, when `out` is all that is in `TOUT` (R9, R38, R67). -/
theorem Kept.finished {u s : State} (hu : Running u) (k : Kept u s) {g : Option Block} {d : Option Digest} {m : Memory} {n : Nat}
    {out : List Byte} (v : Bool) (htext : m.readRange 0 out.length = some out)
    (hbeyond : ∀ a, out.length ≤ a → m.read a = none) :
    FinishedWith u (destroy { s with tagout := g, digest := d, status := statusFinished v, tout := m, draws := n }) u.op
      (statusFinished v) out where
  rest := ⟨k.fault.trans hu.fault, k.script.trans hu.script, statusBusy_finished v, destroy_clean _⟩
  op := k.op
  status := rfl
  text := htext
  beyond := hbeyond
  key := rfl
  nonce := rfl
  tagin := rfl
  adbuf := k.adbuf
  tin := k.tin
  klen := k.klen
  nlen := k.nlen
  tglen := k.tglen
  adlen := k.adlen
  tlen := k.tlen

/-- What is written to an empty memory from its start is read back, and nothing beyond it (R64). -/
theorem Memory.writeRange_nil_beyond {out : List Byte} {a : Nat} (h : out.length ≤ a) :
    (Memory.writeRange [] 0 out).read a = none := by
  rw [Memory.read_writeRange, if_neg (by omega)]
  rfl

/-- An encrypt with its tag computed publishes text and tag (R38, R67). -/
theorem encrypt_ends {u s : State} {g : Block} {out : List Byte} (hu : Running u) (h : Runs u s) (hkind : u.kind = .encrypt)
    (hp : s.phase = .publish) (hpending : s.pending = false) (htag : s.tagT = some g)
    (hout : s.tout = Memory.writeRange [] 0 out) :
    ∃ e j, steps j u = .next e ∧ e.tagout = some g ∧ e.digest = u.digest ∧ e.log = s.log ∧
      FinishedWith u e u.op 0x06#8 out := by
  have he : publishMicro s = .next (destroy { s with tagout := some g, status := statusFinished true }) := by
    simp only [publishMicro, h.kept.kind, hkind, htag, need_some]
  obtain ⟨j, hj⟩ := h.publish hu hp hpending he
  refine ⟨_, j, hj, rfl, h.kept.digest, rfl, h.kept.finished hu true ?_ ?_⟩
  · rw [hout, Memory.readRange_writeRange]
  · exact fun a ha => hout ▸ Memory.writeRange_nil_beyond ha

theorem publishMicro_valid {s : State} (hkind : s.kind = .decrypt) (ha : s.acc = some 0#8) :
    publishMicro s = .next (destroy { s with status := statusFinished true }) := by
  simp [publishMicro, hkind, ha]

theorem publishMicro_invalid {s : State} {a : Byte} (hkind : s.kind = .decrypt) (ha : s.acc = some a) (hne : a ≠ 0#8) :
    publishMicro s = .next
      (destroy
        { s with
          status := statusFinished false, tout := s.tout.writeRange 0 (freeBytes s.draws s.tlen)
          draws := s.draws + s.tlen }) := by
  have hne : ¬ a = 0 := hne
  simp only [publishMicro, hkind, ha, need_some, if_neg hne]

/-- A decrypt with its tag computed compares it, and publishes the text where it is the supplied one, and free values where it
is not (R196, R67, R309). -/
theorem decrypt_ends {u s : State} {g t : Block} {out : List Byte} (hu : Running u) (h : Runs u s) (hkind : u.kind = .decrypt)
    (hp : s.phase = .compare) (hpending : s.pending = false) (htag : s.tagT = some g) (htagin : u.tagin.value = some t)
    (hout : s.tout = Memory.writeRange [] 0 out) (hlen : out.length = u.tlen) :
    ∃ e j, steps j u = .next e ∧ e.tagout = u.tagout ∧ e.digest = u.digest ∧ e.log = s.log ∧
      if tagEqual g t then FinishedWith u e u.op 0x06#8 out
      else FinishedWith u e u.op 0x02#8 (freeBytes u.draws u.tlen) := by
  have hmicro : engineMicro s = .next (enter .publish { s with acc := some (tagDifference g t) }) := by
    simp only [engineMicro_sequence hpending, sequenceMicro, hp, compareMicro, htag, h.kept.tagin, htagin, need_some]
  have hc := h.trans (Runs.micro (hu.kept h.kept) (by simp [hp]) hmicro)
  have hk := hc.kept.kind.trans hkind
  by_cases hzero : tagDifference g t = 0#8
  · obtain ⟨j, hj⟩ := hc.publish hu rfl hpending (publishMicro_valid hk (congrArg some hzero))
    refine ⟨_, j, hj, h.kept.tagout, h.kept.digest, rfl, ?_⟩
    rw [if_pos (by simpa [tagEqual] using hzero)]
    refine hc.kept.finished hu true ?_ fun a ha => ?_
    · exact hout ▸ Memory.readRange_writeRange _ _ _
    · exact hout ▸ Memory.writeRange_nil_beyond ha
  · obtain ⟨j, hj⟩ := hc.publish hu rfl hpending (publishMicro_invalid hk rfl hzero)
    refine ⟨_, j, hj, h.kept.tagout, h.kept.digest, rfl, ?_⟩
    rw [if_neg (by simpa [tagEqual] using hzero), ← h.kept.draws, ← h.kept.tlen]
    refine hc.kept.finished hu false ?_ fun a ha => ?_
    · exact Memory.readRange_writeRange _ _ _
    · rw [freeBytes_length, h.kept.tlen, ← hlen] at ha
      rw [Memory.read_writeRange, if_neg (by simp [h.kept.tlen]; omega)]
      exact hout ▸ Memory.writeRange_nil_beyond ha

/-! ## `N_ENC` and `N_DEC` -/

theorem NCommand.kind {u : State} {dec : Bool} {k n : Block} {a x : List Byte} (hN : NCommand u dec k n a x) :
    u.kind = if dec then .decrypt else .encrypt := by
  simp [State.kind, hN.mode, hN.dir]

/-- Romulus-N comes to the comparison of a decrypt or the publication of an encrypt with its tag computed (R226, R227). -/
theorem nTag_runs {u : State} {dec : Bool} {k n : Block} {a x : List Byte} (hN : NCommand u dec k n a x) :
    ∃ s, Runs u s ∧ s.phase = (if dec then .compare else .publish) ∧ s.pending = false ∧
      s.tagT = some (nCore u.cfg k n dec a x).2 ∧ s.tout = Memory.writeRange [] 0 (nCore u.cfg k n dec a x).1 ∧
      traceOf s.log = nTrace u.cfg a.length x.length := by
  obtain ⟨t, y, d, ht, htag⟩ := nCore_runs hN
  have hk := ht.runs.kept
  have hmicro : engineMicro t = .next
      (enter (if dec then .compare else .publish) { t with tagT := some (feedback t.cfg y) }) := by
    simp only [ht.sequence, sequenceMicro, ht.phase, hN.mode_kept hk, nFinalMicro, ht.regS, need_some, hk.decrypting, hN.dir]
  exact ⟨_, ht.runs.trans (Runs.micro (hN.running.kept hk) (by simp [ht.phase]) hmicro), rfl, ht.pending,
    by rw [← htag, ← hk.cfg]; rfl, ht.tout, ht.trace⟩

/-- The block right after `START` of the command word `v`, whose first phase is `p` (R307 step 7). -/
def State.started (s : State) (v : BitVec 8) (p : Phase) : State :=
  { s with op := v, status := 0x01#8, tagout := none, digest := none, tout := [], log := [], phase := p }

/-- What a started command leaves is what it leaves from the state before `START`. -/
theorem FinishedWith.of_started {s e : State} {v st : BitVec 8} {p : Phase} {out : List Byte}
    (h : FinishedWith (s.started v p) e v st out) : FinishedWith s e v st out := { h with }

/-- A command of Romulus-N that has started finds what its run asks for (R307 step 7). -/
theorem NCommand.of_started {s : State} {k n : Block} {a x : List Byte} {v : BitVec 8} {dec : Bool} (hrest : AtRest s)
    (hc : s.cfg.admitted = true) (h : AeadOperands s k n a x) (hmode : (s.started v .ad).mode = some .romulusN)
    (hdir : (s.started v .ad).decrypting = dec) : NCommand (s.started v .ad) dec k n a x := by
  obtain ⟨hfault, hscript, -, hclean⟩ := hrest
  have hidle : s.idx = none ∧ s.pending = false := by
    simp only [internalsUnwritten, Bool.and_eq_true, Option.isNone_iff_eq_none] at hclean
    simp_all
  exact
    { running := ⟨hfault, hscript, statusBusy_running⟩
      admitted := hc
      mode := hmode
      dir := hdir
      operands := { h with }
      start := ⟨s.regS, s.regD, .self _, hidle.2, by simp [State.place, State.started, hidle.1, traceOf]⟩ }

/-- Settles O37: the run to the tag, then the publication. -/
theorem nEncRunsToItsResult : Obligations.NEncRunsToItsResult := by
  intro s k n a m hrest hc h
  have hexec : exec .nEnc s = .next (s.started 0x04#8 .ad) :=
    primitivesStart.2.1 s k n a m hrest.2.2.1 h .nEnc 0x04#8 .ad (by simp)
  have hN : NCommand (s.started 0x04#8 .ad) false k n a m :=
    .of_started hrest hc h (by simp [State.mode, State.started]) (by simp [State.decrypting, State.started])
  obtain ⟨t, ht, hphase, hpending, htag, hout, htrace⟩ := nTag_runs hN
  obtain ⟨e, j, he, hetag, hedigest, helog, hfinished⟩ := encrypt_ends hN.running ht hN.kind hphase hpending htag hout
  exact ⟨_, e, j, hexec, he, hetag, hedigest, hfinished.of_started, by rw [helog, htrace]; rfl⟩

/-- Settles O38: the run to the tag, then the comparison and the publication. -/
theorem nDecRunsToItsResult : Obligations.NDecRunsToItsResult := by
  intro s k n t a x hrest hc h htglen htagin
  have hexec : exec .nDec s = .next (s.started 0x05#8 .ad) :=
    primitivesStart.2.2 s k n t a x hrest.2.2.1 h htglen htagin .nDec 0x05#8 .ad (by simp)
  have hN : NCommand (s.started 0x05#8 .ad) true k n a x :=
    .of_started hrest hc h (by simp [State.mode, State.started]) (by simp [State.decrypting, State.started])
  obtain ⟨r, hr, hphase, hpending, htag, hout, htrace⟩ := nTag_runs hN
  obtain ⟨e, j, he, hetag, hedigest, helog, hfinished⟩ := decrypt_ends hN.running hr hN.kind hphase hpending htag htagin hout
    (by rw [nCore_length, hN.tlen])
  refine ⟨_, e, j, hexec, he, hetag, hedigest, by rw [helog, htrace]; rfl, ?_⟩
  rw [hN.tlen] at hfinished
  by_cases hvalid : tagEqual (nCore s.cfg k n true a x).2 t = true
  · rw [nDecrypt, if_pos hvalid]
    exact ((if_pos hvalid).mp hfinished).of_started
  · rw [nDecrypt, if_neg hvalid]
    exact ((if_neg hvalid).mp hfinished).of_started

end Sys2Proof.Machine

/-! Proofs for Romulus-M (44_romulus_m.md): the closing domain byte of the first pass, the runs of both passes, and that `M_ENC`
and `M_DEC` compute Romulus-M. -/

namespace Sys2Proof.Machine

open Sys2Proof

/-! ## The closing domain byte -/

/-- The four flags of `M_FINAL` as a byte, one bit each (R97). -/
theorem flags_setWidth (evenA evenM partA partM : Bool) :
    (BitVec.ofBool evenA ++ BitVec.ofBool evenM ++ BitVec.ofBool partA ++ BitVec.ofBool partM).setWidth 8 =
      (if partA then 2#8 else 0#8) ^^^ (if partM then 1#8 else 0#8) ^^^ (if evenA then 8#8 else 0#8)
        ^^^ (if evenM then 4#8 else 0#8) := by
  revert evenA evenM partA partM
  decide

/-- The engine's closing tag carries the closing domain byte of R242. -/
theorem encodeIn_mFlags (t : DomainTable) (s : State) : encodeIn t (.mFinal (mFlags s)) = mClosing t s.adlen s.tlen := by
  simp only [encodeIn, mFlags, flags_setWidth, mClosing, ← BitVec.xor_assoc, Bool.not_eq_true', decide_eq_true_eq]
  cases lastBlockFull s.adlen <;> cases lastBlockFull s.tlen <;> rfl

/-- The last block is partial when fewer than 16 bytes are left for it (R189, R190). -/
theorem last_block_lt_iff (n : Nat) : n - 16 * (blockCount n - 1) < 16 ↔ lastBlockFull n = false := by
  simp only [blockCount, lastBlockFull, Bool.and_eq_false_iff, decide_eq_false_iff_not]
  omega

/-- Settles O21: the flags are those of the closing byte, and the table has 48 for `M_FINAL`. -/
theorem closingDomainByteOfTheFirstPass : Obligations.ClosingDomainByteOfTheFirstPass := by
  intro s hdomain a m lastA lastM
  have hA : lastA < 16 ↔ lastBlockFull s.adlen = false := last_block_lt_iff s.adlen
  have hM : lastM < 16 ↔ lastBlockFull s.tlen = false := last_block_lt_iff s.tlen
  rw [encodeIn_mFlags, hdomain, mClosing]
  simp only [hA, hM]
  cases lastBlockFull s.adlen <;> cases lastBlockFull s.tlen <;> rfl

/-! ## What a started command finds -/

section
variable {u s : State} {k n : Block} {a x : List Byte} (h : AeadOperands u k n a x)
include h

theorem AeadOperands.adlen_eq : u.adlen = a.length := (Memory.readRange_length h.ad).symm

theorem AeadOperands.tlen_eq : u.tlen = x.length := (Memory.readRange_length h.text).symm

theorem AeadOperands.kept (hk : Kept u s) : AeadOperands s k n a x where
  klen := hk.klen.trans h.klen
  nlen := hk.nlen.trans h.nlen
  ad_fits := by rw [hk.adlen, hk.cfg]; exact h.ad_fits
  text_fits := by rw [hk.tlen, hk.cfg]; exact h.text_fits
  key := by rw [hk.key, h.key]
  nonce := by rw [hk.nonce, h.nonce]
  ad := by rw [hk.adbuf, hk.adlen, h.ad]
  text := by rw [hk.tin, hk.tlen, h.text]

end

/-- A command of Romulus-M in the direction `dec` with its operands (R240, R248). -/
structure MCommand (u : State) (dec : Bool) (k n : Block) (a x : List Byte) : Prop where
  running : Running u
  admitted : u.cfg.admitted = true
  mode : u.mode = some .romulusM
  dir : u.decrypting = dec
  operands : AeadOperands u k n a x

theorem MCommand.kept {u s : State} {dec : Bool} {k n : Block} {a x : List Byte} (h : MCommand u dec k n a x) (hk : Kept u s) :
    MCommand s dec k n a x :=
  ⟨h.running.kept hk, hk.cfg ▸ h.admitted, hk.mode.trans h.mode, hk.decrypting.trans h.dir, h.operands.kept hk⟩

/-! ## The joint sequence of the first pass -/

/-- The domain byte of an even-numbered element of the joint sequence (R243); `i` counts from 0. -/
def mPassTag (c : Config) (la i : Nat) : Byte := if i < blockCount la then c.domain.mAd else c.domain.mMsg

/-- Element `i` of the joint sequence: the associated-data blocks, then the message blocks (R243). -/
def mPassBlock (a m : List Byte) (i : Nat) : List Byte :=
  if i < blockCount a.length then blockOf 16 a i else blockOf 16 m (i - blockCount a.length)

/-- `S` and `D` after the first `j` elements of the joint sequence (R241, R243). -/
def mPassState (c : Config) (k : Block) (a m : List Byte) (j : Nat) : Block × Counter :=
  absorbLoop c k (mPassTag c a.length) (mPassBlock a m) j 0 (Block.zero, Config.d0)

/-- The invocations of the first `j` elements of the joint sequence. -/
def mPassTrace (c : Config) (la j : Nat) : Trace :=
  ((List.range j).filter fun i => i % 2 = 1).map fun i => (.key, some (mPassTag c la i, cntSteps c i Config.d0))

theorem mMac_eq (c : Config) (k n : Block) (a m : List Byte) :
    mMac c k n a m = feedback c (tbc c k n (mClosing c.domain a.length m.length)
      (mPassState c k a m (blockCount a.length + blockCount m.length)).2
      (mPassState c k a m (blockCount a.length + blockCount m.length)).1) := rfl

theorem mMacTrace_eq (c : Config) (la lm : Nat) :
    mMacTrace c la lm = mPassTrace c la (blockCount la + blockCount lm)
      ++ [(.key, some (mClosing c.domain la lm, cntSteps c (blockCount la + blockCount lm) Config.d0))] := rfl

/-- A pairing loop of one element more takes that element last. -/
theorem absorbLoop_last (c : Config) (k : Block) (tag : Nat → Byte) (elt : Nat → List Byte) (n i : Nat)
    (q : Block × Counter) :
    absorbLoop c k tag elt (n + 1) i q = absorbLoop c k tag elt 1 (i + n) (absorbLoop c k tag elt n i q) := by
  induction n generalizing i q with
  | zero => rfl
  | succ n ih =>
    rw [absorbLoop, ih, Nat.add_right_comm]
    rfl

theorem mPassState_counter (c : Config) (k : Block) (a m : List Byte) (j : Nat) :
    (mPassState c k a m j).2 = cntSteps c j Config.d0 := absorbLoop_counter ..

/-- The state after element `j`: injected where `j` is even, the tweak word of an invocation where it is odd (R243). -/
theorem mPassState_succ (c : Config) (k : Block) (a m : List Byte) (j : Nat) :
    (mPassState c k a m (j + 1)).1 =
      if j % 2 = 0 then (mPassState c k a m j).1.xor (pad16 c (mPassBlock a m j))
      else tbc c k (pad16 c (mPassBlock a m j)) (mPassTag c a.length j) (cntSteps c j Config.d0) (mPassState c k a m j).1 := by
  rw [← mPassState_counter c k a m j, mPassState, absorbLoop_last, Nat.zero_add]
  rfl

theorem mPassTrace_succ (c : Config) (la j : Nat) :
    mPassTrace c la (j + 1) =
      mPassTrace c la j ++ if j % 2 = 0 then [] else [(.key, some (mPassTag c la j, cntSteps c j Config.d0))] := by
  rw [mPassTrace, List.range_succ, List.filter_append, List.map_append]
  rcases Nat.mod_two_eq_zero_or_one j with hj | hj <;> simp [hj, mPassTrace]

/-! ## What an invocation tweaked by the nonce leaves unchanged -/

section
variable (i : Instr) (k n : Block) (d : Counter) (x : Block) (s : State)

@[simp] theorem nonceInvoked_cfg : (nonceInvoked i k n d x s).cfg = s.cfg := by simp [nonceInvoked]

@[simp] theorem nonceInvoked_tlen : (nonceInvoked i k n d x s).tlen = s.tlen := by simp [nonceInvoked]

@[simp] theorem nonceInvoked_tin : (nonceInvoked i k n d x s).tin = s.tin := by simp [nonceInvoked]

@[simp] theorem nonceInvoked_tout : (nonceInvoked i k n d x s).tout = s.tout := by simp [nonceInvoked]

@[simp] theorem nonceInvoked_idx : (nonceInvoked i k n d x s).idx = s.idx := by simp [nonceInvoked]

@[simp] theorem nonceInvoked_regD : (nonceInvoked i k n d x s).regD = s.regD := by simp [nonceInvoked]

@[simp] theorem nonceInvoked_op : (nonceInvoked i k n d x s).op = s.op := by simp [nonceInvoked]

@[simp] theorem nonceInvoked_tagT : (nonceInvoked i k n d x s).tagT = s.tagT := by simp [nonceInvoked]

@[simp] theorem nonceInvoked_regS :
    (nonceInvoked i k n d x s).regS = some (tbc s.cfg k n (encodeIn s.cfg.domain i) d x) := rfl

@[simp] theorem nonceInvoked_pending : (nonceInvoked i k n d x s).pending = false := rfl

@[simp] theorem nonceInvoked_decrypting : (nonceInvoked i k n d x s).decrypting = s.decrypting := by
  rw [State.decrypting, nonceInvoked_op, State.decrypting]

end

/-! ## The runs of the first pass -/

/-- A micro-operation that issues no invocation takes the engine to the place of the state it leads to. -/
theorem At.micro {u s t : State} {p q : Place} (hu : Running u) (h : At u p s) (hp : p.phase ≠ .publish)
    (hmicro : engineMicro s = .next t) (hpending : t.pending = s.pending) (hplace : t.place = q) : At u q t :=
  ⟨h.runs.trans (Runs.micro (hu.kept h.runs.kept) (fun hs => absurd (h.phase ▸ hs) hp) hmicro), hpending.trans h.pending,
    hplace⟩

/-- A micro-operation that enters the phase `f` and does nothing else. -/
theorem At.enter {u s : State} {p : Place} {f : Phase} (hu : Running u) (h : At u p s) (hp : p.phase ≠ .publish)
    (hmicro : engineMicro s = .next (enter f s)) : At u { p with phase := f, idx := none } (enter f s) :=
  h.micro hu hp hmicro rfl (by rw [enter_place, h.place])

section
variable (c : Config) (k : Block) (a m : List Byte) (tm : Memory) (tr : Trace) (p : Phase) (i : Option Nat) (j : Nat)

/-- The place of the engine in the phase `p` of the first pass at the index `i`, after `j` elements of the joint sequence, when
it entered the pass with the text `tm` in `TOUT` and the invocations `tr` made. -/
def mPassPlace : Place :=
  ⟨p, i, some (mPassState c k a m j).1, some (cntSteps c j Config.d0), tm, tr ++ mPassTrace c a.length j⟩

@[simp] theorem mPassPlace_phase : (mPassPlace c k a m tm tr p i j).phase = p := rfl

@[simp] theorem mPassPlace_idx : (mPassPlace c k a m tm tr p i j).idx = i := rfl

end

/-- What follows the closing invocation completes when its result is written (R245). -/
theorem mFinalNext_of {s : State} {c : Config} {dec : Bool} {y : Block} (hc : s.cfg = c) (hdir : s.decrypting = dec)
    (hy : s.regS = some y) :
    mFinalNext s = .next (enter (if dec then .compare else .crypt) { s with tagT := some (feedback c y) }) := by
  simp [mFinalNext, hc, hdir, hy]

section
variable {u s : State} {dec : Bool} {k n : Block} {a x m : List Byte} {tm : Memory} {tr : Trace}
  (hM : MCommand u dec k n a x)
include hM

/-- One element of the joint sequence (R243). -/
theorem mPassElement_runs {p : Phase} {sp : Space} {len i j : Nat} {tag : Instr}
    (h : At u (mPassPlace u.cfg k a m tm tr p (some i) j) s) (hp : p ≠ .publish)
    (hmicro : engineMicro s = pairMicro sp len j tag s) (hblock : s.block sp len i = some (mPassBlock a m j))
    (hbyte : encodeIn u.cfg.domain tag = mPassTag u.cfg a.length j) (htag : tag.format = .domain)
    (hexec : exec tag (issue tag (cntSteps u.cfg j Config.d0) s) =
      invokeBlock tag sp len (issue tag (cntSteps u.cfg j Config.d0) s))
    (hnext : afterInvocation tag = stepCounter) :
    ∃ t, At u (mPassPlace u.cfg k a m tm tr p (some (i + 1)) (j + 1)) t := by
  obtain ⟨t, ht⟩ := h.pair hM.running hM.admitted hM.operands.key hp hmicro hblock htag hexec hnext
  rw [hbyte, ← mPassState_succ, ← cntSteps_succ, List.append_assoc, ← mPassTrace_succ] at ht
  exact ⟨t, ht⟩

/-- In the associated-data part the engine takes the micro-operations of Romulus-M (R243). -/
theorem MCommand.adMicro {p : Place} (h : At u p s) (hp : p.phase = .ad) : engineMicro s = mAdMicro s := by
  simp only [h.sequence, sequenceMicro, h.phase, hp, (hM.kept h.runs.kept).mode]

/-- The first `i` blocks of the associated-data part (R241, R243). -/
theorem mAdBlocks_run {y : Option Block} {d : Option Counter} (h : At u ⟨.ad, none, y, d, tm, tr⟩ s) {i : Nat}
    (hi : i ≤ blockCount a.length) : ∃ t, At u (mPassPlace u.cfg k a m tm tr .ad (some i) i) t := by
  induction i with
  | zero =>
    have hmicro : engineMicro s = .next (startPairs s) := by simp only [hM.adMicro h rfl, mAdMicro, h.idx]
    refine ⟨_, h.micro hM.running (by simp) hmicro (by simp) ?_⟩
    simp [State.place, h.phase, h.tout, h.trace, mPassPlace, mPassState, mPassTrace, absorbLoop, cntSteps]
  | succ i ih =>
    have hlt : i < blockCount a.length := hi
    obtain ⟨t, ht⟩ := ih hlt.le
    have hop := (hM.kept ht.runs.kept).operands
    have hmicro : engineMicro t = pairMicro .adbuf t.adlen i .mAd t := by
      simp only [hM.adMicro ht rfl, mAdMicro, ht.idx, mPassPlace_idx, hop.adlen_eq, if_pos hlt]
    have hblock : t.block .adbuf t.adlen i = some (mPassBlock a m i) := by
      rw [mPassBlock, if_pos hlt]
      exact Memory.readRange_block hop.ad i
    exact mPassElement_runs hM ht (by decide) hmicro hblock (if_pos hlt).symm rfl rfl rfl

/-- The associated-data part of the first pass; the message part follows (R243). -/
theorem mAd_runs {y : Option Block} {d : Option Counter} (h : At u ⟨.ad, none, y, d, tm, tr⟩ s) :
    ∃ t, At u (mPassPlace u.cfg k a m tm tr .mac none (blockCount a.length)) t := by
  obtain ⟨t, ht⟩ := mAdBlocks_run hM (m := m) h le_rfl
  have hmicro : engineMicro t = .next (enter .mac t) := by
    simp only [hM.adMicro ht rfl, mAdMicro, ht.idx, mPassPlace_idx, (hM.kept ht.runs.kept).operands.adlen_eq, lt_irrefl,
      if_false]
  exact ⟨_, ht.enter hM.running (by simp) hmicro⟩

/-- The first `i` blocks of the message part, the message being in `TIN` or in `TOUT` by the direction (R243, R249). -/
theorem mMacBlocks_run {y : Option Block} {d : Option Counter} (h : At u ⟨.ad, none, y, d, tm, tr⟩ s)
    (hm : (if dec then tm else u.tin).readRange 0 u.tlen = some m) {i : Nat} (hi : i ≤ blockCount m.length) :
    ∃ t, At u (mPassPlace u.cfg k a m tm tr .mac (some i) (blockCount a.length + i)) t := by
  induction i with
  | zero =>
    obtain ⟨t, ht⟩ := mAd_runs hM (m := m) h
    have hmicro : engineMicro t = .next { t with idx := some 0 } := by
      simp only [ht.sequence, sequenceMicro, ht.phase, mPassPlace_phase, mMacMicro, ht.idx, mPassPlace_idx]
    exact ⟨_, ht.micro hM.running (by simp) hmicro rfl (congrArg (fun p : Place => { p with idx := some 0 }) ht.place)⟩
  | succ i ih =>
    obtain ⟨t, ht⟩ := ih (Nat.le_of_succ_le hi)
    have hMt := hM.kept ht.runs.kept
    have htlen : t.tlen = u.tlen := ht.runs.kept.tlen
    have hmicro : engineMicro t = pairMicro (macSpace t) t.tlen (blockCount a.length + i) .mMsg t := by
      have hlt : i < blockCount t.tlen := by rwa [htlen, ← Memory.readRange_length hm]
      simp only [ht.sequence, sequenceMicro, ht.phase, mPassPlace_phase, mMacMicro, ht.idx, mPassPlace_idx,
        hMt.operands.adlen_eq, if_pos hlt]
    have hbuffer : t.buffer (macSpace t) = if dec then tm else u.tin := by
      rw [macSpace, hMt.dir]
      cases dec
      · exact ht.runs.kept.tin
      · exact ht.tout
    have hblock : t.block (macSpace t) t.tlen i = some (mPassBlock a m (blockCount a.length + i)) := by
      rw [State.block, hbuffer, htlen, Memory.readRange_block hm, mPassBlock, if_neg (by omega), Nat.add_sub_cancel_left]
    exact mPassElement_runs hM (j := blockCount a.length + i) ht (by decide) hmicro hblock (if_neg (by omega)).symm rfl rfl rfl

/-- The first pass up to its closing invocation (R243). -/
theorem mPass_runs {y : Option Block} {d : Option Counter} (h : At u ⟨.ad, none, y, d, tm, tr⟩ s)
    (hm : (if dec then tm else u.tin).readRange 0 u.tlen = some m) :
    ∃ t, At u (mPassPlace u.cfg k a m tm tr .final none (blockCount a.length + blockCount m.length)) t := by
  obtain ⟨t, ht⟩ := mMacBlocks_run hM h hm le_rfl
  have htlen : t.tlen = m.length := by rw [ht.runs.kept.tlen, Memory.readRange_length hm]
  have hmicro : engineMicro t = .next (enter .final t) := by
    simp only [ht.sequence, sequenceMicro, ht.phase, mPassPlace_phase, mMacMicro, ht.idx, mPassPlace_idx, htlen, lt_irrefl,
      if_false]
  exact ⟨_, ht.enter hM.running (by simp) hmicro⟩

/-- An invocation tweaked by the nonce that is issued with nothing else done, and the rest of its loop body (R97). -/
theorem MCommand.nonceInvocation {t : State} {p : Place} {i : Instr} {y : Block} {d : Counter} (h : At u p s)
    (hp : p.phase ≠ .publish) (hi : i.format = .domain) (hexec : exec i = invokeNonce i)
    (hissue : engineMicro s = .next (issue i d s)) (hd : p.regD = some d) (hy : p.regS = some y)
    (hnext : afterInvocation i (nonceInvoked i k n d y s) = .next t) : Runs u t := by
  have hMs := hM.kept h.runs.kept
  exact h.runs.trans (Runs.nonceInvocation hMs.running hMs.admitted (h.phase ▸ hp) hi hexec hissue hMs.operands.key
    hMs.operands.nonce (h.regD.trans hd) (h.regS.trans hy) hnext)

/-- The closing invocation (R244, R245): its result gives the tag, and the engine goes on with the encryption pass or the
comparison. -/
theorem mFinal_runs {y : Block} {d : Counter} (h : At u ⟨.final, none, some y, some d, tm, tr⟩ s)
    (hm : m.length = u.tlen) {w : Byte} (hw : mClosing u.cfg.domain a.length m.length = w) :
    ∃ t, At u
      ⟨if dec then .compare else .crypt, none, some (tbc u.cfg k n w d y), some d, tm, tr ++ [(.key, some (w, d))]⟩ t ∧
      t.tagT = some (feedback u.cfg (tbc u.cfg k n w d y)) := by
  have hMs := hM.kept h.runs.kept
  have hcfg : s.cfg = u.cfg := h.runs.kept.cfg
  have hbyte : encodeIn u.cfg.domain (.mFinal (mFlags s)) = w := by
    rw [encodeIn_mFlags, hMs.operands.adlen_eq, h.runs.kept.tlen, ← hm, hw]
  have hissue : engineMicro s = .next (issue (.mFinal (mFlags s)) d s) := by
    simp only [h.sequence, sequenceMicro, h.phase, hMs.mode, mFinalMicro, h.regD, need_some]
  have hplace : (nonceInvoked (.mFinal (mFlags s)) k n d y s).place =
      ⟨.final, none, some (tbc u.cfg k n w d y), some d, tm, tr ++ [(.key, some (w, d))]⟩ := by
    rw [nonceInvoked_place, h.place, hcfg, hbyte]
  have hnext : afterInvocation (.mFinal (mFlags s)) (nonceInvoked (.mFinal (mFlags s)) k n d y s) = .next
      (enter (if dec then .compare else .crypt)
        { nonceInvoked (.mFinal (mFlags s)) k n d y s with tagT := some (feedback u.cfg (tbc u.cfg k n w d y)) }) := by
    refine mFinalNext_of ((nonceInvoked_cfg ..).trans hcfg) ((nonceInvoked_decrypting ..).trans hMs.dir) ?_
    rw [nonceInvoked_regS, hcfg, hbyte]
  exact ⟨_, ⟨hM.nonceInvocation h (by simp) rfl rfl hissue rfl rfl hnext, rfl,
    congrArg (fun p : Place => { p with phase := if dec then .compare else .crypt, idx := none }) hplace⟩, rfl⟩

/-- The first pass: its tag is computed, and the engine goes on with the encryption pass or the comparison (R241 to R245). -/
theorem mMac_runs {y : Option Block} {d : Option Counter} (h : At u ⟨.ad, none, y, d, tm, tr⟩ s)
    (hm : (if dec then tm else u.tin).readRange 0 u.tlen = some m) :
    ∃ t y' d', At u ⟨if dec then .compare else .crypt, none, y', d', tm, tr ++ mMacTrace u.cfg a.length m.length⟩ t ∧
      t.tagT = some (mMac u.cfg k n a m) := by
  obtain ⟨s', hs'⟩ := mPass_runs hM h hm
  obtain ⟨t, ht, htag⟩ := mFinal_runs hM hs' (Memory.readRange_length hm) rfl
  rw [List.append_assoc, ← mMacTrace_eq] at ht
  exact ⟨t, _, _, ht, by rw [htag, mMac_eq, mPassState_counter]⟩

end

/-! ## The runs of the encryption pass -/

theorem mCrypt_length (c : Config) (k n t : Block) (dec : Bool) (x : List Byte) : (mCrypt c k n t dec x).length = x.length := by
  rw [mCrypt, mCryptLoop_eq]
  exact overBlocks_length (f := fun _ => mCryptBlock c k n dec) (fun _ _ _ hb => rhoDir_length c dec _ hb) _
    (le_textBlockCount _)

theorem mCryptLoop_succ (c : Config) (k n : Block) (dec : Bool) (x : List Byte) (m i : Nat) (q : Block × Counter) :
    mCryptLoop c k n dec x (m + 1) i q =
      (mCryptBlock c k n dec q (blockOf 16 x i)).2 ++
        mCryptLoop c k n dec x m (i + 1) (mCryptBlock c k n dec q (blockOf 16 x i)).1 := by
  simp only [mCryptLoop_eq]
  rfl

/-- The rest of the loop body of R246 after its invocation completes when what it reads is written. -/
theorem mCryptNext_of {s : State} {c : Config} {i : Nat} {m : List Byte} {y : Block} {d : Counter} (hc : s.cfg = c)
    (hi : s.idx = some i) (hm : s.block .tin s.tlen i = some m) (hy : s.regS = some y) (hd : s.regD = some d) :
    mCryptNext s = .next { textInjected i y d m s with regD := some (cntStep c d), idx := some (i + 1) } := by
  simp [mCryptNext, stepCounter, textInjected, hc, hi, hm, hy, hd]

/-- The state after the invocation for block `i` of the encryption pass, whose bytes are `m`, the injection and the output
(R246). -/
def mCryptInjected (k n : Block) (i : Nat) (q : Block × Counter) (m : List Byte) (s : State) : State :=
  textInjected i (tbc s.cfg k n s.cfg.domain.mCrypt q.2 q.1) q.2 m (nonceInvoked .mCrypt k n q.2 q.1 s)

theorem mCryptInjected_pending (k n : Block) (i : Nat) (q : Block × Counter) (m : List Byte) (s : State) :
    (mCryptInjected k n i q m s).pending = false := by
  simp [mCryptInjected, textInjected]

theorem mCryptInjected_tagT (k n : Block) (i : Nat) (q : Block × Counter) (m : List Byte) (s : State) :
    (mCryptInjected k n i q m s).tagT = s.tagT := by
  simp [mCryptInjected, textInjected]

section
variable {u s : State} {dec : Bool} {k n : Block} {a x : List Byte} {tr : Trace} (hM : MCommand u dec k n a x)
include hM

/-- What a block of the encryption pass makes of the place of the engine (R246). -/
theorem mCryptInjected_place {i : Nat} {q : Block × Counter} {out : List Byte}
    (h : At u ⟨.crypt, some i, some q.1, some q.2, Memory.writeRange [] 0 out, tr⟩ s) (hout : out.length = 16 * i) :
    (mCryptInjected k n i q (blockOf 16 x i) s).place =
      ⟨.crypt, some i, some (mCryptBlock u.cfg k n dec q (blockOf 16 x i)).1.1, some q.2,
        Memory.writeRange [] 0 (out ++ (mCryptBlock u.cfg k n dec q (blockOf 16 x i)).2),
        tr ++ [(.key, some (u.cfg.domain.mCrypt, q.2))]⟩ := by
  have hcfg : s.cfg = u.cfg := h.runs.kept.cfg
  have hrho : rhoBy (nonceInvoked .mCrypt k n q.2 q.1 s) (tbc s.cfg k n s.cfg.domain.mCrypt q.2 q.1) (blockOf 16 x i) =
      rhoDir u.cfg dec (tbc u.cfg k n u.cfg.domain.mCrypt q.2 q.1) (blockOf 16 x i) := by
    rw [rhoBy, nonceInvoked_decrypting, nonceInvoked_cfg, (hM.kept h.runs.kept).dir, hcfg, rhoDir]
  rw [mCryptInjected, textInjected_place, nonceInvoked_place, h.place, nonceInvoked_tout, h.tout, hrho, hcfg, mCryptBlock,
    Memory.writeRange_append, hout, Nat.zero_add, encodeIn]

/-- A block of the encryption pass: the invocation, the injection and the output (R246). -/
theorem mCryptBlock_runs {i : Nat} {q : Block × Counter} {out : List Byte}
    (h : At u ⟨.crypt, some i, some q.1, some q.2, Memory.writeRange [] 0 out, tr⟩ s) (hi : i < textBlockCount x.length)
    (hout : out.length = 16 * i) :
    ∃ t, At u
      ⟨.crypt, some (i + 1), some (mCryptBlock u.cfg k n dec q (blockOf 16 x i)).1.1, some (cntStep u.cfg q.2),
        Memory.writeRange [] 0 (out ++ (mCryptBlock u.cfg k n dec q (blockOf 16 x i)).2),
        tr ++ [(.key, some (u.cfg.domain.mCrypt, q.2))]⟩ t ∧ t.tagT = s.tagT := by
  have hMs := hM.kept h.runs.kept
  have hcfg : s.cfg = u.cfg := h.runs.kept.cfg
  have hissue : engineMicro s = .next (issue .mCrypt q.2 s) := by
    simp only [h.sequence, sequenceMicro, h.phase, mCryptMicro, h.idx, h.regD, need_some, hMs.operands.tlen_eq, if_pos hi]
  have hblock : (nonceInvoked .mCrypt k n q.2 q.1 s).block .tin (nonceInvoked .mCrypt k n q.2 q.1 s).tlen i =
      some (blockOf 16 x i) := by
    rw [State.block, State.buffer, nonceInvoked_tin, nonceInvoked_tlen]
    exact Memory.readRange_block hMs.operands.text i
  have hnext : afterInvocation .mCrypt (nonceInvoked .mCrypt k n q.2 q.1 s) = .next
      { mCryptInjected k n i q (blockOf 16 x i) s with regD := some (cntStep u.cfg q.2), idx := some (i + 1) } :=
    mCryptNext_of ((nonceInvoked_cfg ..).trans hcfg) ((nonceInvoked_idx ..).trans h.idx) hblock (nonceInvoked_regS ..)
      ((nonceInvoked_regD ..).trans h.regD)
  have hrun := hM.nonceInvocation h (by simp) rfl rfl hissue rfl rfl hnext
  exact ⟨_, ⟨hrun, mCryptInjected_pending .., congrArg (fun p : Place => { p with
    regD := some (cntStep u.cfg q.2), idx := some (i + 1) }) (mCryptInjected_place hM h hout)⟩, mCryptInjected_tagT ..⟩

/-- The encryption pass from block `i` on, `m` blocks (R246). -/
theorem mCryptLoop_runs {m i : Nat} {q : Block × Counter} {out : List Byte}
    (h : At u ⟨.crypt, some i, some q.1, some q.2, Memory.writeRange [] 0 out, tr⟩ s) (hq : q.2 = cntSteps u.cfg i Config.d0)
    (hi : i + m = textBlockCount x.length) (hout : out.length = min (16 * i) x.length) :
    ∃ t y d, At u
      ⟨.crypt, some (textBlockCount x.length), y, some d, Memory.writeRange [] 0 (out ++ mCryptLoop u.cfg k n dec x m i q),
        tr ++ (List.range' i m).map fun j => (.key, some (u.cfg.domain.mCrypt, cntSteps u.cfg j Config.d0))⟩ t ∧
      t.tagT = s.tagT := by
  induction m generalizing i q out tr s with
  | zero => exact ⟨s, _, _, by simpa [mCryptLoop, ← hi] using h, rfl⟩
  | succ m ih =>
    have hlt : 16 * i < x.length := by
      simp only [textBlockCount] at hi
      omega
    obtain ⟨t, ht, htag⟩ := mCryptBlock_runs hM h (by omega) (by omega)
    have hlen : (mCryptBlock u.cfg k n dec q (blockOf 16 x i)).2.length = min 16 (x.length - 16 * i) := by
      rw [mCryptBlock, rhoDir_length u.cfg dec _ (blockOf_length_le 16 x i), blockOf, List.length_take, List.length_drop]
    obtain ⟨t', y, d, ht', htag'⟩ := ih (q := (mCryptBlock u.cfg k n dec q (blockOf 16 x i)).1) ht
      (by rw [cntSteps_succ, ← hq]; rfl) (by omega) (by rw [List.length_append, hlen]; omega)
    rw [List.append_assoc, List.append_assoc, ← mCryptLoop_succ, hq, List.singleton_append] at ht'
    exact ⟨t', y, d, ht', htag'.trans htag⟩

/-- The encryption pass from the tag `g` (R246, R247). -/
theorem mCrypt_runs {y : Option Block} {d : Option Counter} {g : Block} (h : At u ⟨.crypt, none, y, d, [], tr⟩ s)
    (hg : cryptStart s = some g) :
    ∃ t y' d', At u
      ⟨if dec then .ad else .publish, none, y', d', Memory.writeRange [] 0 (mCrypt u.cfg k n g dec x),
        tr ++ mCryptTrace u.cfg x.length⟩ t ∧ t.tagT = s.tagT := by
  have hsetup : engineMicro s = .next { s with regS := some g, regD := some Config.d0, idx := some 0 } := by
    simp only [h.sequence, sequenceMicro, h.phase, mCryptMicro, h.idx, hg, need_some]
  obtain ⟨t, y', d', ht, htag⟩ := mCryptLoop_runs hM (q := (g, Config.d0)) (out := []) (i := 0)
    (h.micro hM.running (by simp) hsetup rfl
      (congrArg (fun p : Place => { p with regS := some g, regD := some Config.d0, idx := some 0 }) h.place))
    rfl (Nat.zero_add _) rfl
  have hMt := hM.kept ht.runs.kept
  have hleave : engineMicro t = .next (enter (if dec then .ad else .publish) t) := by
    simp only [ht.sequence, sequenceMicro, ht.phase, mCryptMicro, ht.idx, ht.regD, need_some, hMt.operands.tlen_eq, lt_irrefl,
      if_false, hMt.dir]
  rw [← List.range_eq_range'] at ht
  exact ⟨_, _, _, ht.enter hM.running (by simp) hleave, htag⟩

end

/-! ## `M_ENC` and `M_DEC` -/

/-- The block right after `START` is running (R307 step 7). -/
theorem AtRest.running {s : State} (h : AtRest s) (v : BitVec 8) (p : Phase) : Running (s.started v p) := by
  obtain ⟨hfault, hscript, -⟩ := h
  exact ⟨hfault, hscript, statusBusy_running⟩

/-- Nothing has been written and no invocation made right after `START` (R307 step 7). -/
theorem AtRest.started_at {s : State} (h : AtRest s) (v : BitVec 8) (p : Phase) :
    At (s.started v p) ⟨p, none, s.regS, s.regD, [], []⟩ (s.started v p) := by
  obtain ⟨-, -, -, hclean⟩ := h
  have hidle : s.idx = none ∧ s.pending = false := by simp_all [internalsUnwritten]
  exact ⟨.self _, hidle.2, by simp [State.place, State.started, hidle.1, traceOf]⟩

theorem MCommand.kind {u : State} {dec : Bool} {k n : Block} {a x : List Byte} (hM : MCommand u dec k n a x) :
    u.kind = if dec then .decrypt else .encrypt := by
  simp [State.kind, hM.mode, hM.dir]

/-- Settles O39: the first pass, then the encryption pass from its tag, then the publication. -/
theorem mEncRunsToItsResult : Obligations.MEncRunsToItsResult := by
  intro s k n a m hrest hc h
  have hexec : exec .mEnc s = .next (s.started 0x06#8 .ad) :=
    primitivesStart.2.1 s k n a m hrest.2.2.1 h .mEnc 0x06#8 .ad (by simp)
  have hM : MCommand (s.started 0x06#8 .ad) false k n a m :=
    ⟨hrest.running _ _, hc, by simp [State.mode, State.started], by simp [State.decrypting, State.started], { h with }⟩
  obtain ⟨r, y, d, hr, htag⟩ := mMac_runs hM (hrest.started_at 0x06#8 .ad) hM.operands.text
  have hstart : cryptStart r = some (mMac s.cfg k n a m) := by
    rw [cryptStart, (hM.kept hr.runs.kept).dir]
    exact htag
  obtain ⟨t, y', d', ht, htagt⟩ := mCrypt_runs hM hr hstart
  obtain ⟨e, j, he, hetag, hedigest, helog, hfinished⟩ :=
    encrypt_ends hM.running ht.runs hM.kind ht.phase ht.pending (htagt.trans htag) ht.tout
  exact ⟨_, e, j, hexec, he, hetag, hedigest, hfinished.of_started, by rw [helog, ht.trace]; rfl⟩

/-- Settles O40: the keystream pass from the supplied tag, the first pass over the text it recovers, the comparison, the
publication. -/
theorem mDecRunsToItsResult : Obligations.MDecRunsToItsResult := by
  intro s k n t a x hrest hc h htglen htagin
  have hexec : exec .mDec s = .next (s.started 0x07#8 .crypt) :=
    primitivesStart.2.2 s k n t a x hrest.2.2.1 h htglen htagin .mDec 0x07#8 .crypt (by simp)
  have hM : MCommand (s.started 0x07#8 .crypt) true k n a x :=
    ⟨hrest.running _ _, hc, by simp [State.mode, State.started], by simp [State.decrypting, State.started], { h with }⟩
  have hstart : cryptStart (s.started 0x07#8 .crypt) = some t := by
    rw [cryptStart, hM.dir]
    exact htagin
  obtain ⟨r, y, d, hr, -⟩ := mCrypt_runs hM (hrest.started_at 0x07#8 .crypt) hstart
  have hlen : (mCrypt s.cfg k n t true x).length = x.length := mCrypt_length ..
  have htext : (Memory.writeRange [] 0 (mCrypt s.cfg k n t true x)).readRange 0 s.tlen = some (mCrypt s.cfg k n t true x) := by
    rw [h.tlen_eq, ← hlen, Memory.readRange_writeRange]
  obtain ⟨q, y', d', hq, htag⟩ := mMac_runs hM hr htext
  obtain ⟨e, j, he, hetag, hedigest, helog, hfinished⟩ :=
    decrypt_ends hM.running hq.runs hM.kind hq.phase hq.pending htag htagin hq.tout (hlen.trans h.tlen_eq.symm)
  refine ⟨_, e, j, hexec, he, hetag, hedigest, by rw [helog, hq.trace, hlen]; rfl, ?_⟩
  rw [hM.operands.tlen_eq] at hfinished
  by_cases hvalid : tagEqual (mMac s.cfg k n a (mCrypt s.cfg k n t true x)) t = true
  · rw [mDecrypt, if_pos hvalid]
    exact ((if_pos hvalid).mp hfinished).of_started
  · rw [mDecrypt, if_neg hvalid]
    exact ((if_neg hvalid).mp hfinished).of_started

end Sys2Proof.Machine

/-! Proofs for Romulus-T (45_romulus_t.md): its invocations, its authentication input, where the long-term key is used, and that
`T_ENC` and `T_DEC` compute Romulus-T. -/

namespace Sys2Proof.Machine

open Sys2Proof

/-! ## The invocations -/

/-- The state after an invocation of Romulus-T that writes the session key (R261, R263). -/
def sessionKeyed (src : KeySource) (k t : Block) (b : Byte) (d : Counter) (x : Block) (s : State) : State :=
  { afterTbc src k t b d x s with regZ := some (tbc s.cfg k t b d x) }

/-- The state after the keystream invocation for text block `i`, whose bytes are `x`, under the session key `z` (R262). -/
def streamed (z n : Block) (d : Counter) (i : Nat) (x : List Byte) (s : State) : State :=
  keepText (xorPrefix x (tbc s.cfg z n s.cfg.domain.tKs d Block.zero))
    (writeText i (xorPrefix x (tbc s.cfg z n s.cfg.domain.tKs d Block.zero))
      (logBlock .tin s.tlen i (afterTbc .z z n s.cfg.domain.tKs d Block.zero s)))

section
variable {s : State} {k n z l r : Block} {d : Counter} {i : Nat} {x : List Byte}

/-- The session-key derivation completes when `KEY` and `NONCE` are written (R261). -/
theorem execTKdf_of (hk : s.key.value = some k) (hn : s.nonce.value = some n) :
    execTKdf s = .next (sessionKeyed .key k Block.zero s.cfg.domain.tKdf Config.dz n s) := by
  simp only [execTKdf, hk, hn, need_some]
  rfl

/-- The key update completes when the session key, `NONCE` and the counter are written (R263). -/
theorem execTKu_of (hz : s.regZ = some z) (hn : s.nonce.value = some n) (hd : s.regD = some d) :
    execTKu s = .next (sessionKeyed .z z n s.cfg.domain.tKu d Block.zero s) := by
  simp only [execTKu, hz, hn, hd, need_some]
  rfl

/-- The keystream invocation completes when its block is written as well (R262). -/
theorem execTKs_of (hz : s.regZ = some z) (hn : s.nonce.value = some n) (hd : s.regD = some d) (hi : s.idx = some i)
    (hx : s.block .tin s.tlen i = some x) : execTKs s = .next (streamed z n d i x s) := by
  simp only [execTKs, hz, hn, hd, hi, hx, need_some]
  rfl

/-- The tag generation completes when its key and the hash are written (R267). -/
theorem execTTgf_of (hk : s.tagKey = some k) (hl : s.regL = some l) (hr : s.regR = some r) :
    execTTgf s = .next
      { afterTbc (tagSource s.cfg) k r s.cfg.domain.tTgf Config.dz l s with
        tagT := some (tbc s.cfg k r s.cfg.domain.tTgf Config.dz l) } := by
  simp only [execTTgf, hk, hl, hr, need_some]
  rfl

end

/-- Settles O18: both invocations leave the new session key and what every invocation leaves. -/
theorem sessionKeyInvocations : Obligations.SessionKeyInvocations :=
  ⟨fun _ _ _ hk hn => execTKdf_of hk hn, fun _ _ _ _ hz hn hd => execTKu_of hz hn hd⟩

/-- Settles O20: the format decides the key and its source together (R267, conflict C6). -/
theorem tagGenerationInvocation : Obligations.TagGenerationInvocation := by
  intro s k l r src hformat hl hr b q
  have hkey : s.tagKey = some k ∧ tagSource s.cfg = src := by
    rcases hformat with ⟨hf, hk, rfl⟩ | ⟨hf, hk, rfl⟩ <;> simp [State.tagKey, tagSource, hf, hk]
  obtain ⟨hk, rfl⟩ := hkey
  exact execTTgf_of hk hl hr

/-- Writing an output block as long as its text block changes `TOUT`, and is recorded unless there is nothing to write (R67,
R349). -/
theorem writeText_of_length {o x : List Byte} (h : o.length = x.length) (i : Nat) (s : State) :
    writeText i o s =
      { s with
        tout := s.tout.writeRange (16 * i) o
        log := s.log ++ if x = [] then [] else [.write .tout (16 * i) x.length] } := by
  rw [writeText, h, logWrite]
  cases x <;> simp [logEvent]

/-- Keeping an output block changes the scratch of `T_ENC` only (R199). -/
theorem keepText_eq (o : List Byte) (s : State) :
    keepText o s = { s with scratch := if s.op.getLsbD 0 then s.scratch else s.scratch ++ o } := by
  unfold keepText State.decrypting
  split <;> rfl

/-- The output block is as long as its text block (R262). -/
theorem xorPrefix_length_block {s : State} {sp : Space} {len i : Nat} {x : List Byte} (hx : s.block sp len i = some x)
    (k : Block) : (xorPrefix x k).length = x.length := by
  have hlen : x.length = blockLength len i := Memory.readRange_length hx
  rw [xorPrefix_length, hlen, blockLength]
  omega

/-- What a keystream invocation changes besides what every invocation does: `TOUT`, the scratch and the log (R262). -/
theorem streamed_eq {s : State} {z n : Block} {d : Counter} {i : Nat} {x : List Byte}
    (hx : s.block .tin s.tlen i = some x) :
    streamed z n d i x s =
      { afterTbc .z z n s.cfg.domain.tKs d Block.zero s with
        tout := s.tout.writeRange (16 * i) (xorPrefix x (tbc s.cfg z n s.cfg.domain.tKs d Block.zero))
        scratch :=
          if s.op.getLsbD 0 then s.scratch
          else s.scratch ++ xorPrefix x (tbc s.cfg z n s.cfg.domain.tKs d Block.zero)
        log :=
          s.log ++ [.invoke .z (some (s.cfg.domain.tKs, d))]
            ++ if x = [] then [] else [.read .tin (16 * i) x.length, .write .tout (16 * i) x.length] } := by
  have hblock : (afterTbc .z z n s.cfg.domain.tKs d Block.zero s).block .tin s.tlen i = some x := hx
  have hlen := xorPrefix_length_block hx (tbc s.cfg z n s.cfg.domain.tKs d Block.zero)
  rw [streamed, logBlock_of_block hblock, writeText_of_length hlen, keepText_eq]
  by_cases hempty : x = [] <;> simp [hempty]

/-- Settles O19: the output block is as long as its text block, and `TOUT` changes where it is written. -/
theorem keystreamInvocation : Obligations.KeystreamInvocation := by
  intro s z n d j x hz hn hd hj hx
  have hblock : s.block .tin s.tlen j = some x := hx
  have hlen := xorPrefix_length_block hblock (tbc s.cfg z n s.cfg.domain.tKs d Block.zero)
  refine ⟨_, _, (execTKs_of hz hn hd hj hblock).trans (congrArg _ (streamed_eq hblock)), ?_, fun a ha => ?_,
    fun hwf => Memory.writeRange_wf hwf _ _, rfl⟩
  · rw [← hlen]
    exact Memory.readRange_writeRange _ _ _
  · exact (Memory.read_writeRange _ _ _ _).trans (if_neg (by omega))

/-! ## The authentication input -/

/-- Settles O34: the length is that of the padded parts. -/
theorem authenticationInput : Obligations.AuthenticationInput :=
  ⟨rfl, fun _ hx => if_neg (mt List.length_eq_zero_iff.mp hx), fun a x n d => ⟨rfl, authString_length a x n d⟩⟩

/-! ## Where the long-term key is used -/

/-- The invocations for text block `i`: its keystream, and the key update that follows it unless it is the last (R262, R263). -/
def tStreamEntries (c : Config) (lm i : Nat) : Trace :=
  (.z, some (c.domain.tKs, cntSteps c i Config.d0))
    :: if i + 1 < textBlockCount lm then [(.z, some (c.domain.tKu, cntSteps c i Config.d0))] else []

/-- The invocations between the session-key derivation and the tag generation (R263, R266). -/
def tInnerTrace (c : Config) (la lm : Nat) : Trace :=
  (List.range (textBlockCount lm)).flatMap (tStreamEntries c lm) ++ hTrace (authLength la lm)

theorem tTrace_eq (c : Config) (la lm : Nat) :
    tTrace c la lm =
      (.key, some (c.domain.tKdf, Config.dz)) :: (tInnerTrace c la lm ++ [(tagSource c, some (c.domain.tTgf, Config.dz))]) := by
  simp only [tTrace, tInnerTrace, List.append_assoc]
  rfl

/-- Between the two an invocation is a keystream or a key update under the session key, or one of the hash (R270). -/
theorem tInnerTrace_sources {c : Config} {la lm : Nat} {e : KeySource × Option (Byte × Counter)}
    (he : e ∈ tInnerTrace c la lm) :
    (e.1 = .z ∧ ∃ d, e.2 = some (c.domain.tKs, d) ∨ e.2 = some (c.domain.tKu, d)) ∨ e = (.pub, none) := by
  rcases List.mem_append.mp he with he | he
  · obtain ⟨i, -, he⟩ := List.mem_flatMap.mp he
    rcases List.mem_cons.mp he with rfl | he
    · exact .inl ⟨rfl, _, .inl rfl⟩
    · split at he
      · rw [List.mem_singleton.mp he]
        exact .inl ⟨rfl, _, .inr rfl⟩
      · cases he
  · exact .inr (List.eq_of_mem_replicate he)

/-- Settles O45: the default format has the tag generated under `KEY`, and no invocation in between is. -/
theorem longTermKeyIsUsedTwice : Obligations.LongTermKeyIsUsedTwice := by
  intro c la lm hformat
  have hsource : tagSource c = .key := by rw [tagSource, hformat]
  have hinner : (tInnerTrace c la lm).filter (fun e => e.1 = .key) = [] := by
    refine List.filter_eq_nil_iff.mpr fun e he => ?_
    rcases tInnerTrace_sources he with ⟨hz, -⟩ | rfl
    · simp [hz]
    · simp
  rw [tTrace_eq, hsource]
  refine ⟨rfl, ?_, ?_, fun e he => ?_⟩
  · rw [← List.cons_append, List.getLast?_concat]
  · rw [List.filter_cons_of_pos (by simp), List.filter_append, hinner]
    simp
  · rcases List.mem_cons.mp he with rfl | he
    · exact .inl rfl
    · rcases List.mem_append.mp he with he | he
      · exact .inr (tInnerTrace_sources he)
      · rw [List.mem_singleton.mp he]
        exact .inl rfl

/-! ## Invocations of a run -/

/-- A pending invocation and the rest of its loop body (R96, R97). -/
theorem Runs.issued {q r t : State} {i : Instr} {d : Counter} (h : Running (issue i d q)) (hc : q.cfg.admitted = true)
    (hi : i.format = .domain) (hexec : exec i (issue i d q) = .next r) (hnext : afterInvocation i r = .next t) :
    Runs (issue i d q) t := by
  simp only [Config.admitted, Bool.and_eq_true] at hc
  obtain ⟨⟨⟨⟨-, hslot⟩, hdistinct⟩, -⟩, -⟩ := hc
  have hmicro : engineMicro (issue i d q) = .next t := by
    rw [engineMicro_invocation (s := issue i d q) rfl rfl (tagOf_aeadTk1 hslot d (encodeIn q.cfg.domain i))
      ((decodeDomain_eq_ok_iff hdistinct).mpr ⟨hi, rfl⟩), hexec, andThen_next, hnext]
  exact Runs.micro h (fun _ => rfl) hmicro

/-- What the engine reaches from a place it has reached. -/
theorem At.trans {u s t : State} {p q : Place} (h : At u p s) (g : At s q t) : At u q t :=
  ⟨h.runs.trans g.runs, g.pending, g.place⟩

theorem issue_place (i : Instr) (d : Counter) (s : State) : (issue i d s).place = s.place := rfl

theorem sessionKeyed_place (src : KeySource) (k t : Block) (b : Byte) (d : Counter) (x : Block) (s : State) :
    (sessionKeyed src k t b d x s).place = { s.place with trace := s.place.trace ++ [(src, some (b, d))] } := by
  simp [State.place, sessionKeyed]

theorem streamed_place (z n : Block) (d : Counter) (i : Nat) (x : List Byte) (s : State) :
    (streamed z n d i x s).place =
      { s.place with
        tout := s.tout.writeRange (16 * i) (xorPrefix x (tbc s.cfg z n s.cfg.domain.tKs d Block.zero))
        trace := s.place.trace ++ [(.z, some (s.cfg.domain.tKs, d))] } := by
  simp [State.place, streamed, -List.append_assoc]

/-! ## The hash phase -/

theorem logRead_trace (sp : Space) (off n : Nat) (s : State) : traceOf (logRead sp off n s).log = traceOf s.log := by
  rw [logRead_log, traceOf_ite_read]

/-- The reads of a hashed block are no invocations (R349). -/
theorem logHashBlock_trace (i : Nat) (s : State) : traceOf (logHashBlock i s).log = traceOf s.log := by
  unfold logHashBlock
  split_ifs <;> simp only [logHashPart, logRead_trace]

/-- What a compression call makes of the place of the engine: two invocations of the hash layout (R282). -/
theorem invokeCompress_place (b : List Byte) (l r : Block) (i : Nat) (s : State) :
    (invokeCompress b l r (logHashBlock i s)).place =
      { s.place with trace := s.place.trace ++ List.replicate 2 (.pub, none) } := by
  have htwo : traceOf [.invoke .pub none, .invoke .pub none] = List.replicate 2 (.pub, none) := rfl
  simp [State.place, logHashBlock_trace, htwo]

/-- A loop of one full block more takes that block last (R280). -/
theorem hashLoop_last (c : Config) (x : List Byte) (q i : Nat) (h : Block × Block) :
    hashLoop c x (q + 1) i h =
      compress c (hashLoop c x q i h).1 (hashLoop c x q i h).2 (blockOf 32 x (i + q)) := by
  induction q generalizing i h with
  | zero => rfl
  | succ q ih =>
    rw [hashLoop, ih, Nat.add_right_comm]
    rfl

/-- From `s`, where it entered the hash phase, the engine has come to `t` by `m` compression calls; `L` and `R` are `h` there, and
what is hashed, the session key and the rest of its place are as they were. -/
structure HashAt (s : State) (p : Phase) (i : Option Nat) (m : Nat) (h : Block × Block) (t : State) : Prop extends
    At s { s.place with phase := p, idx := i, trace := s.place.trace ++ List.replicate (2 * m) (.pub, none) } t where
  left : t.regL = some h.1
  right : t.regR = some h.2
  session : t.regZ = s.regZ
  scratch : t.scratch = s.scratch

/-- What is hashed depends on what a command keeps, on the counter and on the scratch (R264, R280). -/
theorem hashInput_kept {s t : State} (hk : Kept s t) (hd : t.regD = s.regD) (hw : t.scratch = s.scratch) :
    hashInput t = hashInput s := by
  simp only [hashInput, authInput, cipherText, hk.mode, hk.decrypting, hk.tin, hk.tlen, hk.adbuf, hk.adlen, hk.nonce, hd, hw]

section
variable {s t : State} {x : List Byte} {i m : Nat} {h : Block × Block}

theorem HashAt.input {p : Phase} {j : Option Nat} (ht : HashAt s p j m h t) : hashInput t = hashInput s :=
  hashInput_kept ht.runs.kept ht.regD ht.scratch

/-- A compression call of the hash phase, after which the engine is at `IDX` `j` of the phase `p`. -/
theorem HashAt.compressed {p : Phase} {j : Option Nat} {b : List Byte} {l : Block} (hs : Running s)
    (ht : HashAt s .hashblk (some i) m h t)
    (hmicro : engineMicro t = .next { invokeCompress b l h.2 (logHashBlock i t) with phase := p, idx := j }) :
    HashAt s p j (m + 1) (compress s.cfg l h.2 b)
      { invokeCompress b l h.2 (logHashBlock i t) with phase := p, idx := j } where
  runs := (ht.toAt.micro hs (by simp) hmicro (by simp [ht.pending]) rfl).runs
  pending := rfl
  place := by
    refine (congrArg (fun q : Place => { q with phase := p, idx := j }) (invokeCompress_place b l h.2 i t)).trans ?_
    rw [ht.place, Nat.mul_succ, List.replicate_add, List.append_assoc]
  left := by simp [ht.runs.kept.cfg]
  right := by simp [ht.runs.kept.cfg]
  session := by simp [ht.session]
  scratch := by simp [ht.scratch]

variable (hs : Running s) (hphase : s.phase = .hashblk) (hidx : s.idx = none) (hpending : s.pending = false)
  (hx : hashInput s = some x)
include hs hphase hidx hpending hx

/-- The first `i` full blocks of the hash phase (R280, R281). -/
theorem hashBlocks_run (hi : i ≤ x.length / 32) :
    ∃ t, HashAt s .hashblk (some i) i (hashLoop s.cfg x i 0 (Block.zero, Block.zero)) t := by
  induction i with
  | zero =>
    have hmicro : engineMicro s = .next { s with regL := some Block.zero, regR := some Block.zero, idx := some 0 } := by
      simp only [engineMicro_sequence hpending, sequenceMicro, hphase, hashMicro, hidx]
    exact ⟨_, ⟨⟨Runs.micro hs (by simp [hphase]) hmicro, hpending, by simp [State.place, hphase]⟩, rfl, rfl, rfl, rfl⟩⟩
  | succ i ih =>
    obtain ⟨t, ht⟩ := ih (Nat.le_of_succ_le hi)
    have hlt : i < x.length / 32 := hi
    have hmicro : engineMicro t = .next
        { invokeCompress (blockOf 32 x i) (hashLoop s.cfg x i 0 (Block.zero, Block.zero)).1
            (hashLoop s.cfg x i 0 (Block.zero, Block.zero)).2 (logHashBlock i t) with
          phase := .hashblk, idx := some (i + 1) } := by
      simp only [ht.sequence, sequenceMicro, ht.phase, hashMicro, ht.idx, ht.input, hx, ht.left, ht.right, need_some, if_pos hlt]
      simp [invokeCompress, ht.phase]
    rw [hashLoop_last, Nat.zero_add]
    exact ⟨_, ht.compressed hs hmicro⟩

/-- The hash phase: `L` and `R` are the halves of the hash, and the publication or the tag generation is next (R280 to R284,
R266). -/
theorem hashCore_runs :
    ∃ t, HashAt s (if s.mode = some .romulusH then .publish else .final) none (x.length / 32 + 1) (hashCore s.cfg x) t := by
  obtain ⟨t, ht⟩ := hashBlocks_run hs hphase hidx hpending hx le_rfl
  refine ⟨_, ht.compressed hs ?_⟩
  simp only [ht.sequence, sequenceMicro, ht.phase, hashMicro, ht.idx, ht.input, hx, ht.left, ht.right, need_some, lt_irrefl,
    if_false, ht.runs.kept.mode, ht.runs.kept.cfg]
  rfl

end

/-! ## The session key and the keystream -/

/-- A command of Romulus-T in the direction `dec` with its operands (R260, R268). -/
structure TCommand (u : State) (dec : Bool) (k n : Block) (a x : List Byte) : Prop where
  running : Running u
  admitted : u.cfg.admitted = true
  mode : u.mode = some .romulusT
  dir : u.decrypting = dec
  operands : AeadOperands u k n a x

theorem TCommand.kept {u s : State} {dec : Bool} {k n : Block} {a x : List Byte} (h : TCommand u dec k n a x) (hk : Kept u s) :
    TCommand s dec k n a x :=
  ⟨h.running.kept hk, hk.cfg ▸ h.admitted, hk.mode.trans h.mode, hk.decrypting.trans h.dir, h.operands.kept hk⟩

/-- In the keystream phase at block `i` the session key and the counter are `q`, and the text written is `out`, which an encrypt
keeps in the scratch (R199, R263). -/
structure StreamAt (u : State) (i : Nat) (q : Block × Counter) (out : List Byte) (tr : Trace) (s : State) : Prop extends
    At u ⟨.stream, some i, u.regS, some q.2, Memory.writeRange [] 0 out, tr⟩ s where
  session : s.regZ = some q.1
  scratch : s.scratch = if u.decrypting then [] else out

/-- After a keystream invocation the key update is issued unless the block is the last, and then the loop body ends (R263). -/
theorem tKsNext_of {s : State} {i : Nat} {d : Counter} (hi : s.idx = some i) (hd : s.regD = some d) :
    tKsNext s =
      if i + 1 < textBlockCount s.tlen then .next (issue .tKu d s)
      else .next { s with regD := some (cntStep s.cfg d), idx := some (i + 1) } := by
  simp only [tKsNext, hi, hd, need_some, stepCounter]

theorem tStreamLoop_succ (c : Config) (n : Block) (x : List Byte) (m i : Nat) (q : Block × Counter) :
    tStreamLoop c n x (m + 1) i q =
      ((tStreamBlock c n m q (blockOf 16 x i)).2 ++ (tStreamLoop c n x m (i + 1) (tStreamBlock c n m q (blockOf 16 x i)).1).1,
        (tStreamLoop c n x m (i + 1) (tStreamBlock c n m q (blockOf 16 x i)).1).2) := by
  simp only [tStreamLoop_eq]
  rfl

theorem tStream_length (c : Config) (k n : Block) (x : List Byte) : (tStream c k n x).1.length = x.length := by
  rw [tStream, tStreamLoop_eq]
  exact overBlocks_length (f := tStreamBlock c n)
    (fun _ _ b hb => by rw [tStreamBlock, xorPrefix_length, Nat.min_eq_left hb]) _ (le_textBlockCount _)

theorem tStreamEntries_of {c : Config} {lm i r : Nat} (h : i + (r + 1) = textBlockCount lm) :
    tStreamEntries c lm i =
      [(.z, some (c.domain.tKs, cntSteps c i Config.d0))]
        ++ if r = 0 then [] else [(.z, some (c.domain.tKu, cntSteps c i Config.d0))] := by
  have hr : i + 1 < textBlockCount lm ↔ ¬ r = 0 := by omega
  simp only [tStreamEntries, hr, ite_not]
  rfl

section
variable {u s : State} {dec : Bool} {k n : Block} {a x : List Byte} {tr : Trace} (hT : TCommand u dec k n a x)
include hT

/-- The session-key derivation; the keystream phase follows (R261). -/
theorem tKdf_runs {y : Option Block} {e : Option Counter} {tm : Memory} (h : At u ⟨.kdf, none, y, e, tm, tr⟩ s) :
    ∃ t, At u ⟨.stream, none, y, e, tm, tr ++ [(.key, some (u.cfg.domain.tKdf, Config.dz))]⟩ t ∧
      t.regZ = some (tKdf u.cfg k n) := by
  have hTs := hT.kept h.runs.kept
  have hcfg : s.cfg = u.cfg := h.runs.kept.cfg
  have hissue : engineMicro s = .next (issue .tKdf Config.dz s) := by
    simp only [h.sequence, sequenceMicro, h.phase, tKdfMicro]
  have hexec := execTKdf_of (s := issue .tKdf Config.dz s) hTs.operands.key hTs.operands.nonce
  refine ⟨_, ⟨h.runs.trans (Runs.invocation hTs.running hTs.admitted (by simp [h.phase]) rfl hissue hexec rfl), rfl, ?_⟩, ?_⟩
  · rw [enter_place, sessionKeyed_place, issue_place, h.place, issue_cfg, hcfg]
  · simp [sessionKeyed, tKdf, hcfg]

/-- What follows the keystream invocation of block `i`, with `r` blocks to follow: the key update unless the block is the last,
and the counter step (R263). -/
theorem tKsNext_runs {i r : Nat} {z : Block} {d : Counter} (hs : ∀ t, tKsNext s = .next t → Runs u t) (hk : Kept u s)
    (hpending : s.pending = false) (hidx : s.idx = some i) (hz : s.regZ = some z) (hd : s.regD = some d)
    (hi : i + (r + 1) = textBlockCount x.length) :
    ∃ t, Runs u t ∧ t.pending = false ∧ t.scratch = s.scratch ∧
      t.regZ = some (if r ≠ 0 then tbc u.cfg z n u.cfg.domain.tKu d Block.zero else z) ∧
      t.place =
        { s.place with
          regD := some (cntStep u.cfg d), idx := some (i + 1)
          trace := s.place.trace ++ if r = 0 then [] else [(.z, some (u.cfg.domain.tKu, d))] } := by
  have hTs := hT.kept hk
  have hcfg : s.cfg = u.cfg := hk.cfg
  have hnext := tKsNext_of hidx hd
  rw [hTs.operands.tlen_eq] at hnext
  by_cases hr : r = 0
  · rw [if_neg (by omega)] at hnext
    refine ⟨_, hs _ hnext, hpending, rfl, ?_, ?_⟩
    · simp [hr, hz]
    · simp [hr, hcfg, State.place]
  · rw [if_pos (by omega)] at hnext
    have hrun := hs _ hnext
    have hexec : exec .tKu (issue .tKu d s) = .next (sessionKeyed .z z n s.cfg.domain.tKu d Block.zero (issue .tKu d s)) :=
      execTKu_of (s := issue .tKu d s) hz hTs.operands.nonce hd
    have hstep := stepCounter_of (s := sessionKeyed .z z n s.cfg.domain.tKu d Block.zero (issue .tKu d s)) (d := d) (i := i)
      (by simpa [sessionKeyed] using hd) (by simpa [sessionKeyed] using hidx)
    have hupdate := Runs.issued (hT.running.kept hrun.kept) hTs.admitted rfl hexec hstep
    refine ⟨_, hrun.trans hupdate, by simp [sessionKeyed], by simp [sessionKeyed], ?_, ?_⟩
    · simp [sessionKeyed, hr, hcfg]
    · simp [sessionKeyed, hr, hcfg, State.place]

/-- A block of the keystream phase with `r` blocks to follow (R262, R263). -/
theorem tStreamBlock_runs {i r : Nat} {q : Block × Counter} {out : List Byte} (h : StreamAt u i q out tr s)
    (hq : q.2 = cntSteps u.cfg i Config.d0) (hi : i + (r + 1) = textBlockCount x.length) (hout : out.length = 16 * i) :
    ∃ t, StreamAt u (i + 1) (tStreamBlock u.cfg n r q (blockOf 16 x i)).1
      (out ++ (tStreamBlock u.cfg n r q (blockOf 16 x i)).2) (tr ++ tStreamEntries u.cfg x.length i) t := by
  have hTs := hT.kept h.runs.kept
  have hcfg : s.cfg = u.cfg := h.runs.kept.cfg
  have hissue : engineMicro s = .next (issue .tKs q.2 s) := by
    simp only [h.sequence, sequenceMicro, h.phase, tStreamMicro, h.idx, h.regD, need_some, hTs.operands.tlen_eq,
      if_pos (show i < textBlockCount x.length by omega)]
  have hblock : (issue .tKs q.2 s).block .tin (issue .tKs q.2 s).tlen i = some (blockOf 16 x i) :=
    Memory.readRange_block hTs.operands.text i
  have hexec : exec .tKs (issue .tKs q.2 s) = .next (streamed q.1 n q.2 i (blockOf 16 x i) (issue .tKs q.2 s)) :=
    execTKs_of (s := issue .tKs q.2 s) h.session hTs.operands.nonce h.regD h.idx hblock
  have hk := h.runs.kept.trans ((Runs.micro hTs.running (by simp [h.phase]) hissue).kept.trans (execDomain_kept rfl hexec))
  obtain ⟨t, ht, hpending, hscratch, hsession, hplace⟩ := tKsNext_runs hT
    (fun t ht => h.runs.trans (Runs.invocation hTs.running hTs.admitted (by simp [h.phase]) rfl hissue hexec ht)) hk
    (by simp [streamed]) (by simpa [streamed] using h.idx) (by simpa [streamed] using h.session)
    (by simpa [streamed] using h.regD) hi
  refine ⟨t, ⟨⟨ht, hpending, ?_⟩, hsession, ?_⟩⟩
  · rw [hplace, streamed_place, issue_place, h.place, issue_tout, h.tout, issue_cfg, hcfg, tStreamEntries_of hi, ← hq,
      Memory.writeRange_append, hout, Nat.zero_add, ← List.append_assoc]
    rfl
  · have hdir : (issue .tKs q.2 s).op.getLsbD 0 = u.decrypting := h.runs.kept.decrypting
    simp only [hscratch, streamed_eq hblock, hdir, issue_scratch, h.scratch, issue_cfg, hcfg]
    cases u.decrypting <;> rfl

/-- The keystream phase from block `i` on, `m` blocks (R263). -/
theorem tStreamLoop_runs {m i : Nat} {q : Block × Counter} {out : List Byte} (h : StreamAt u i q out tr s)
    (hq : q.2 = cntSteps u.cfg i Config.d0) (hi : i + m = textBlockCount x.length) (hout : out.length = min (16 * i) x.length) :
    ∃ t, StreamAt u (textBlockCount x.length) (tStreamLoop u.cfg n x m i q).2 (out ++ (tStreamLoop u.cfg n x m i q).1)
      (tr ++ (List.range' i m).flatMap (tStreamEntries u.cfg x.length)) t := by
  induction m generalizing i q out tr s with
  | zero =>
    obtain rfl : i = textBlockCount x.length := hi
    exact ⟨s, by simpa [tStreamLoop] using h⟩
  | succ m ih =>
    have hlt : 16 * i < x.length := by
      simp only [textBlockCount] at hi
      omega
    obtain ⟨t, ht⟩ := tStreamBlock_runs hT h hq hi (by omega)
    have hlen : (tStreamBlock u.cfg n m q (blockOf 16 x i)).2.length = min 16 (x.length - 16 * i) := by
      rw [tStreamBlock, xorPrefix_length, blockOf, List.length_take, List.length_drop]
      omega
    obtain ⟨t', ht'⟩ := ih ht (by rw [cntSteps_succ, ← hq]; rfl) (by omega) (by rw [List.length_append, hlen]; omega)
    rw [List.append_assoc, List.append_assoc] at ht'
    rw [tStreamLoop_succ, List.range'_succ, List.flatMap_cons]
    exact ⟨t', ht'⟩

/-- The keystream phase: the text is written, and the hash phase follows with the last session key and counter (R262, R263). -/
theorem tStream_runs {e : Option Counter} (h : At u ⟨.stream, none, u.regS, e, [], tr⟩ s)
    (hz : s.regZ = some (tKdf u.cfg k n)) :
    ∃ t, At u
      ⟨.hashblk, none, u.regS, some (tStream u.cfg k n x).2.2, Memory.writeRange [] 0 (tStream u.cfg k n x).1,
        tr ++ (List.range (textBlockCount x.length)).flatMap (tStreamEntries u.cfg x.length)⟩ t ∧
      t.regZ = some (tStream u.cfg k n x).2.1 ∧ t.scratch = if u.decrypting then [] else (tStream u.cfg k n x).1 := by
  have hsetup : engineMicro s = .next { s with regD := some Config.d0, idx := some 0, scratch := [] } := by
    simp only [h.sequence, sequenceMicro, h.phase, tStreamMicro, h.idx]
  have hstart : StreamAt u 0 (tKdf u.cfg k n, Config.d0) [] tr { s with regD := some Config.d0, idx := some 0, scratch := [] } :=
    { toAt := h.micro hT.running (by simp) hsetup rfl
        (congrArg (fun p : Place => { p with regD := some Config.d0, idx := some 0 }) h.place)
      session := hz
      scratch := by simp }
  obtain ⟨t, ht⟩ := tStreamLoop_runs hT hstart rfl (Nat.zero_add _) (Nat.zero_min _).symm
  rw [← List.range_eq_range'] at ht
  have hleave : engineMicro t = .next (enter .hashblk t) := by
    simp only [ht.sequence, sequenceMicro, ht.phase, tStreamMicro, ht.idx, ht.regD, need_some,
      (hT.kept ht.runs.kept).operands.tlen_eq, lt_irrefl, if_false]
  exact ⟨_, ht.enter hT.running (by simp) hleave, ht.session, ht.scratch⟩

/-! ## The tag -/

/-- The ciphertext that is authenticated is what the command writes or what it reads, by its direction (R264, R268). -/
theorem tHashInput {d : Counter} {out : List Byte} (hk : Kept u s) (hd : s.regD = some d)
    (hw : s.scratch = if dec then [] else out) : hashInput s = some (authString a (if dec then x else out) n d) := by
  have hTs := hT.kept hk
  have hcipher : cipherText s = some (if dec then x else out) := by
    rw [cipherText, hTs.dir, hTs.operands.text, hw]
    cases dec <;> rfl
  have hmode : s.mode ≠ some .romulusH := by simp [hTs.mode]
  rw [hashInput, if_neg hmode, authInput]
  simp only [hTs.operands.ad, hcipher, hTs.operands.nonce, hd]

/-- The tag generation: the comparison or the publication follows (R267). -/
theorem tTgf_runs {p : Place} {g l r : Block} (h : At u p s) (hp : p.phase = .final) (hg : s.tagKey = some g)
    (hl : s.regL = some l) (hr : s.regR = some r) :
    ∃ t, At u
      { p with
        phase := if dec then .compare else .publish, idx := none
        trace := p.trace ++ [(tagSource u.cfg, some (u.cfg.domain.tTgf, Config.dz))] } t ∧
      t.tagT = some (tbc u.cfg g r u.cfg.domain.tTgf Config.dz l) := by
  have hTs := hT.kept h.runs.kept
  have hcfg : s.cfg = u.cfg := h.runs.kept.cfg
  have hissue : engineMicro s = .next (issue .tTgf Config.dz s) := by
    simp only [h.sequence, sequenceMicro, h.phase, hp, hTs.mode, tFinalMicro]
  have hexec := execTTgf_of (s := issue .tTgf Config.dz s) hg hl hr
  refine ⟨_, ⟨h.runs.trans (Runs.invocation hTs.running hTs.admitted (by simp [h.phase, hp]) rfl hissue hexec rfl), rfl, ?_⟩, ?_⟩
  · have hdir : s.op[0] = dec := hTs.dir
    rw [← h.place]
    simp [State.place, State.decrypting, hcfg, hdir]
  · simp [hcfg]

end

/-- The tag of Romulus-T over the ciphertext, which is the output of an encrypt and the input of a decrypt (R260, R268). -/
def tTagBy (c : Config) (k n : Block) (dec : Bool) (a x : List Byte) : Block :=
  tTag c (tagKeyOf c k (tStream c k n x).2.1) n a (if dec then x else (tStream c k n x).1) (tStream c k n x).2.2

theorem tEncrypt_eq (c : Config) (k n : Block) (a m : List Byte) :
    tEncrypt c k n a m = ((tStream c k n m).1, tTagBy c k n false a m) := rfl

theorem tDecrypt_eq (c : Config) (k n t : Block) (a x : List Byte) :
    tDecrypt c k n t a x = (tagEqual (tTagBy c k n true a x) t, (tStream c k n x).1) := rfl

/-- The key of the tag generation, by the format (R267, conflict C6). -/
theorem tagKey_of {s : State} {k z : Block} (hk : s.key.value = some k) (hz : s.regZ = some z) :
    s.tagKey = some (tagKeyOf s.cfg k z) := by
  cases hf : s.cfg.tFormat with
  | longTermTag => simp only [State.tagKey, tagKeyOf, hf, hk]
  | sessionTag => simp only [State.tagKey, tagKeyOf, hf, hz]

/-- Romulus-T comes to the comparison of a decrypt or the publication of an encrypt with its text written and its tag computed
(R260, R268). -/
theorem tTag_runs {u : State} {dec : Bool} {k n : Block} {a x : List Byte} (hT : TCommand u dec k n a x) {e : Option Counter}
    (h : At u ⟨.kdf, none, u.regS, e, [], []⟩ u) :
    ∃ t y d, At u
      ⟨if dec then .compare else .publish, none, y, d, Memory.writeRange [] 0 (tStream u.cfg k n x).1,
        tTrace u.cfg a.length x.length⟩ t ∧
      t.tagT = some (tTagBy u.cfg k n dec a x) := by
  obtain ⟨r, hr, hz⟩ := tKdf_runs hT h
  obtain ⟨s, hs, hz, hw⟩ := tStream_runs hT hr hz
  have hk := hs.runs.kept
  rw [hT.dir] at hw
  have hinput := tHashInput hT hk hs.regD hw
  obtain ⟨t, ht⟩ := hashCore_runs (hT.running.kept hk) hs.phase hs.idx hs.pending hinput
  have hat := hs.trans ht.toAt
  rw [hs.place] at hat
  have hTt := hT.kept hat.runs.kept
  have hmode : s.mode ≠ some .romulusH := by simp [(hT.kept hk).mode]
  have hkey := tagKey_of hTt.operands.key (ht.session.trans hz)
  rw [hat.runs.kept.cfg] at hkey
  obtain ⟨q, hq, htag⟩ := tTgf_runs hT hat (if_neg hmode) hkey ht.left ht.right
  have hlen : (if dec then x else (tStream u.cfg k n x).1).length = x.length := by
    cases dec
    · exact tStream_length ..
    · rfl
  rw [authString_length, hlen] at hq
  exact ⟨q, _, _, hq, by rw [htag, hk.cfg]; rfl⟩

/-! ## `T_ENC` and `T_DEC` -/

theorem TCommand.kind {u : State} {dec : Bool} {k n : Block} {a x : List Byte} (hT : TCommand u dec k n a x) :
    u.kind = if dec then .decrypt else .encrypt := by
  simp [State.kind, hT.mode, hT.dir]

/-- Settles O41: the run to the tag, then the publication. -/
theorem tEncRunsToItsResult : Obligations.TEncRunsToItsResult := by
  intro s k n a m hrest hc h
  have hexec : exec .tEnc s = .next (s.started 0x08#8 .kdf) :=
    primitivesStart.2.1 s k n a m hrest.2.2.1 h .tEnc 0x08#8 .kdf (by simp)
  have hT : TCommand (s.started 0x08#8 .kdf) false k n a m :=
    ⟨hrest.running _ _, hc, by simp [State.mode, State.started], by simp [State.decrypting, State.started], { h with }⟩
  obtain ⟨t, y, d, ht, htag⟩ := tTag_runs hT (hrest.started_at 0x08#8 .kdf)
  obtain ⟨e, j, he, hetag, hedigest, helog, hfinished⟩ :=
    encrypt_ends hT.running ht.runs hT.kind ht.phase ht.pending htag ht.tout
  rw [tEncrypt_eq]
  exact ⟨_, e, j, hexec, he, hetag, hedigest, hfinished.of_started, by rw [helog, ht.trace]; rfl⟩

/-- Settles O42: the run to the tag, then the comparison and the publication. -/
theorem tDecRunsToItsResult : Obligations.TDecRunsToItsResult := by
  intro s k n t a x hrest hc h htglen htagin
  have hexec : exec .tDec s = .next (s.started 0x09#8 .kdf) :=
    primitivesStart.2.2 s k n t a x hrest.2.2.1 h htglen htagin .tDec 0x09#8 .kdf (by simp)
  have hT : TCommand (s.started 0x09#8 .kdf) true k n a x :=
    ⟨hrest.running _ _, hc, by simp [State.mode, State.started], by simp [State.decrypting, State.started], { h with }⟩
  obtain ⟨r, y, d, hr, htag⟩ := tTag_runs hT (hrest.started_at 0x09#8 .kdf)
  obtain ⟨e, j, he, hetag, hedigest, helog, hfinished⟩ :=
    decrypt_ends hT.running hr.runs hT.kind hr.phase hr.pending htag htagin hr.tout
      ((tStream_length ..).trans h.tlen_eq.symm)
  refine ⟨_, e, j, hexec, he, hetag, hedigest, by rw [helog, hr.trace]; rfl, ?_⟩
  rw [hT.operands.tlen_eq] at hfinished
  rw [tDecrypt_eq]
  by_cases hvalid : tagEqual (tTagBy s.cfg k n true a x) t = true
  · rw [if_pos hvalid]
    exact ((if_pos hvalid).mp hfinished).of_started
  · rw [if_neg hvalid]
    exact ((if_neg hvalid).mp hfinished).of_started

end Sys2Proof.Machine

/-! Proofs for Romulus-H (46_romulus_h.md): the compression function, its padding and its separating constants, and that `HASH`
computes Romulus-H. -/

namespace Sys2Proof.Machine

open Sys2Proof

/-! ## The compression function -/

/-- A block is given back by its bytes. -/
theorem Block.ofBytes_toList (b : Block) : Block.ofBytes b.toList = b := by
  refine Vector.ext fun i hi => ?_
  rw [Block.ofBytes_getElem _ hi, List.getD_eq_getElem?_getD]
  simp [hi]

/-- The tweakey of a compression call has the two halves of its 32-byte block as `TK2` and `TK3` (R99, R282). -/
theorem compressTweakey_append (r b1 b2 : Block) : compressTweakey r (b1.toList ++ b2.toList) = ⟨r, b1, b2⟩ := by
  have hlen : b1.toList.length = 16 := b1.length_toList
  rw [compressTweakey, List.take_left' hlen, List.drop_left' hlen, Block.ofBytes_toList, Block.ofBytes_toList]

/-- `ipad32` makes a 32-byte block of a message part shorter than one (R283). -/
theorem ipad32_length {x : List Byte} (hx : x.length ≤ 31) : (ipad32 x).length = 32 := by
  simp only [ipad32, List.length_append, List.length_replicate, List.length_singleton]
  omega

/-- Flipping a zero block in byte 0 sets that byte (R281, R284). -/
theorem flipByte0_zero (v : Byte) : flipByte0 v Block.zero = Block.zero.set 0 v := by
  simp [flipByte0, Block.zero]

/-- A message with no full block is hashed by the last compression call alone (R280). -/
theorem hashCore_of_short (c : Config) {x : List Byte} (hx : x.length < 32) :
    hashCore c x = compress c (flipByte0 c.hash.last Block.zero) Block.zero (ipad32 x) := by
  have hblock : blockOf 32 x 0 = x := List.take_of_length_le hx.le
  simp only [hashCore, Nat.div_eq_of_lt hx, hashLoop, hblock]

/-- Settles O35: the tweakey of a call, the padded length, and the hash of a message with no full block. -/
theorem compressionFunction : Obligations.CompressionFunction := by
  refine ⟨fun c l r b1 b2 => ?_, fun x hx => ⟨rfl, ipad32_length hx⟩, fun c x hx => ?_, rfl, rfl⟩
  · rw [compress, compressTweakey_append]
    rfl
  · rw [hashCore_of_short c hx, flipByte0_zero]

/-! ## `HASH` -/

/-- A hash with its halves computed publishes its digest (R285, R38). -/
theorem hash_ends {u s : State} {l r : Block} (hu : Running u) (h : Runs u s) (hkind : u.kind = .hash)
    (hp : s.phase = .publish) (hpending : s.pending = false) (hl : s.regL = some l) (hr : s.regR = some r)
    (hout : s.tout = []) :
    ∃ e j, steps j u = .next e ∧ e.digest = some (l ++ r) ∧ e.tagout = u.tagout ∧ e.log = s.log ∧
      FinishedWith u e u.op 0x06#8 [] := by
  have he : publishMicro s = .next (destroy { s with digest := some (l ++ r), status := statusFinished true }) := by
    simp only [publishMicro, h.kept.kind, hkind, hl, hr, need_some]
  obtain ⟨j, hj⟩ := h.publish hu hp hpending he
  exact ⟨_, j, hj, rfl, h.kept.tagout, rfl, h.kept.finished hu true rfl fun _ _ => hout ▸ rfl⟩

/-- Settles O36: the hash phase over `TIN`, then the publication. -/
theorem hashRunsToItsDigest : Obligations.HashRunsToItsDigest := by
  intro s x hrest _ hfit hx
  have ⟨_, _, hidle, _⟩ := hrest
  have hexec : exec .hash s = .next (s.started 0x02#8 .hashblk) := primitivesStart.1 s x hidle hfit hx
  have hrunning := hrest.running 0x02#8 .hashblk
  have hstart := hrest.started_at 0x02#8 .hashblk
  have hmode : (s.started 0x02#8 .hashblk).mode = some .romulusH := by simp [State.mode, State.started]
  have hinput : hashInput (s.started 0x02#8 .hashblk) = some x := (if_pos hmode).trans hx
  obtain ⟨t, ht⟩ := hashCore_runs hrunning rfl hstart.idx hstart.pending hinput
  rw [if_pos hmode] at ht
  obtain ⟨e, j, he, hdigest, htagout, hlog, hfinished⟩ :=
    hash_ends hrunning ht.runs (by simp [State.kind, hmode]) ht.phase ht.pending ht.left ht.right ht.tout
  exact ⟨_, e, j, hexec, he, hdigest, htagout, hfinished.of_started, by rw [hlog, ht.trace]; rfl⟩

end Sys2Proof.Machine

/-! Proof that a ready engine never stops (60_exceptions.md, R310, with R36 and R39): what readiness says in each phase, that a
micro-operation is possible there and leads to a state that is ready again or ends the command, and the bound of `IDX`. -/

namespace Sys2Proof.Machine

open Sys2Proof

/-! ## What `EngineReady` says -/

theorem engineReady_iff (s : State) :
    EngineReady s = true ↔
      s.busy = true ∧ s.cfg.admitted = true ∧ precheck s.kind s = none ∧ operandsWritten s.kind s = true ∧
        phaseReady s = true := by
  simp [EngineReady, and_assoc]

/-- What the spec asks of a configuration, apart (R7, R95 to R97). -/
theorem admitted_iff (c : Config) :
    c.admitted = true ↔
      c.tweakeyBits = 384 ∧ c.tk1Layout.toList.contains .domain = true ∧ c.domain.distinct = true ∧ 0 < c.lenWidth ∧
        c.bufCap < 2 ^ c.lenWidth := by
  simp [Config.admitted, and_assoc]

theorem kind_hash {s : State} (hm : s.mode = some .romulusH) : s.kind = .hash := by simp [State.kind, hm]

/-- In the modes of authenticated encryption the direction of the command is its kind (R90). -/
theorem kind_aead {s : State} (hm : s.mode ≠ some .romulusH) : s.kind = if s.decrypting then .decrypt else .encrypt := by
  simp [State.kind, hm]

/-- The operands of an authenticated-encryption command are written (R93). -/
structure AeadWritten (s : State) : Prop where
  key : ∃ k, s.key.value = some k
  nonce : ∃ n, s.nonce.value = some n
  tagin : s.decrypting = true → ∃ t, s.tagin.value = some t
  ad : s.adbuf.writtenTo s.adlen = true
  text : s.tin.writtenTo s.tlen = true

theorem aeadWritten_of_operandsWritten {s : State} (hm : s.mode ≠ some .romulusH) (h : operandsWritten s.kind s = true) :
    AeadWritten s := by
  rw [kind_aead hm] at h
  cases hd : s.decrypting <;> simp [hd, operandsWritten, Option.isSome_iff_exists, and_assoc] at h
  · obtain ⟨hk, hn, ha, ht⟩ := h
    exact ⟨hk, hn, by simp [hd], ha, ht⟩
  · obtain ⟨hk, hn, hg, ha, ht⟩ := h
    exact ⟨hk, hn, fun _ => hg, ha, ht⟩

/-! ## The pending invocation -/

theorem pendingIs_of_not_pending {s : State} (h : s.pending = false) (i : Instr) : pendingIs i s = true := by
  simp [pendingIs, h]

/-- An invocation that is issued is the one pending (R96, R97). -/
theorem pendingIs_issue {s : State} {i : Instr} (hc : s.cfg.admitted = true) (hi : i.format = .domain) (d : Counter) :
    pendingIs i (issue i d s) = true := by
  obtain ⟨-, hslot, hdistinct, -, -⟩ := (admitted_iff _).mp hc
  simp [pendingIs, tagOf_aeadTk1 hslot, (decodeDomain_eq_ok_iff hdistinct).mpr ⟨hi, rfl⟩]

/-- The engine runs the invocation that is pending, and the rest of its loop body. -/
theorem engineMicro_pendingIs {s : State} {i : Instr} (hp : s.pending = true) (h : pendingIs i s = true) :
    engineMicro s = andThen (exec i s) (afterInvocation i) := by
  simp only [pendingIs, hp, Bool.not_true, Bool.false_or] at h
  split at h
  · rename_i b hb
    obtain ⟨w, hw, htag⟩ := Option.bind_eq_some_iff.mp hb
    exact engineMicro_invocation hp hw htag (by simpa using h)
  · cases h

/-! ## Readiness, phase by phase -/

/-- The phase has just been entered and no invocation is pending, or `P` holds of its index. -/
def AtBlock (s : State) (P : Nat → Prop) : Prop := (s.idx = none ∧ s.pending = false) ∨ ∃ i, s.idx = some i ∧ P i

theorem atIndex_iff (s : State) (p : Nat → Bool) : atIndex s p = true ↔ AtBlock s fun i => p i = true := by
  cases hi : s.idx <;> simp [atIndex, AtBlock, hi]

section

variable {s : State}

theorem phaseReady_nAd (hp : s.phase = .ad) (hm : s.mode = some .romulusN) :
    phaseReady s = true ↔ AtBlock s fun i =>
      (∃ x, s.regS = some x) ∧ (∃ d, s.regD = some d) ∧ i ≤ blockCount s.adlen ∧
        pendingIs (if i < blockCount s.adlen then .nAd else nAdLast s) s = true := by
  simp [phaseReady, hp, hm, atIndex_iff, Option.isSome_iff_exists, and_assoc]

theorem phaseReady_mAd (hp : s.phase = .ad) (hm : s.mode = some .romulusM) :
    phaseReady s = true ↔ (s.decrypting = true → s.tout.writtenTo s.tlen = true) ∧ AtBlock s fun i =>
      (∃ x, s.regS = some x) ∧ (∃ d, s.regD = some d) ∧ i ≤ blockCount s.adlen ∧
        (s.pending = true → i < blockCount s.adlen) ∧ pendingIs .mAd s = true := by
  cases hd : s.decrypting <;> simp [phaseReady, hp, hm, hd, atIndex_iff, Option.isSome_iff_exists, and_assoc, imp_iff_not_or]

theorem phaseReady_text (hp : s.phase = .text) (hm : s.mode = some .romulusN) :
    phaseReady s = true ↔ (∃ x, s.regS = some x) ∧ AtBlock s fun i =>
      (∃ d, s.regD = some d) ∧ i < blockCount s.tlen ∧ pendingIs (nTextTag s i) s = true := by
  simp [phaseReady, hp, hm, atIndex_iff, Option.isSome_iff_exists, and_assoc]

theorem phaseReady_mac (hp : s.phase = .mac) (hm : s.mode = some .romulusM) :
    phaseReady s = true ↔ (s.decrypting = true → s.tout.writtenTo s.tlen = true) ∧ (∃ x, s.regS = some x) ∧
      (∃ d, s.regD = some d) ∧ AtBlock s fun i =>
        i ≤ blockCount s.tlen ∧ (s.pending = true → i < blockCount s.tlen) ∧ pendingIs .mMsg s = true := by
  cases hd : s.decrypting <;> simp [phaseReady, hp, hm, hd, atIndex_iff, Option.isSome_iff_exists, and_assoc, imp_iff_not_or]

theorem phaseReady_crypt (hp : s.phase = .crypt) (hm : s.mode = some .romulusM) :
    phaseReady s = true ↔ (s.decrypting = false → ∃ t, s.tagT = some t) ∧ AtBlock s fun i =>
      (∃ x, s.regS = some x) ∧ (∃ d, s.regD = some d) ∧ i ≤ textBlockCount s.tlen ∧
        s.tout.writtenTo (min (16 * i) s.tlen) = true ∧ (s.pending = true → i < textBlockCount s.tlen) ∧
          pendingIs .mCrypt s = true := by
  cases hd : s.decrypting <;> simp [phaseReady, hp, hm, hd, atIndex_iff, Option.isSome_iff_exists, and_assoc, imp_iff_not_or]

theorem phaseReady_kdf (hp : s.phase = .kdf) (hm : s.mode = some .romulusT) :
    phaseReady s = true ↔ s.idx = none ∧ pendingIs .tKdf s = true := by
  simp [phaseReady, hp, hm]

theorem phaseReady_stream (hp : s.phase = .stream) (hm : s.mode = some .romulusT) :
    phaseReady s = true ↔ (∃ z, s.regZ = some z) ∧ AtBlock s fun i =>
      (∃ d, s.regD = some d) ∧ i ≤ textBlockCount s.tlen ∧
        if s.pending then
          i < textBlockCount s.tlen ∧
            (pendingIs .tKs s = true ∧ keptTo s (min (16 * i) s.tlen) = true ∨
              pendingIs .tKu s = true ∧ keptTo s (min (16 * (i + 1)) s.tlen) = true)
        else keptTo s (min (16 * i) s.tlen) = true := by
  cases hpend : s.pending <;> simp [phaseReady, hp, hm, hpend, atIndex_iff, Option.isSome_iff_exists, and_assoc]

theorem phaseReady_hash (hp : s.phase = .hashblk) (hm : s.mode = some .romulusH) :
    phaseReady s = true ↔ s.pending = false ∧ AtBlock s fun i =>
      (∃ l, s.regL = some l) ∧ (∃ r, s.regR = some r) ∧ i ≤ hashLength s / 32 := by
  simp [phaseReady, hp, hm, atIndex_iff, Option.isSome_iff_exists, and_assoc]

theorem phaseReady_tHash (hp : s.phase = .hashblk) (hm : s.mode = some .romulusT) :
    phaseReady s = true ↔ s.pending = false ∧ (∃ d, s.regD = some d) ∧ (∃ k, s.tagKey = some k) ∧
      keptTo s s.tlen = true ∧ AtBlock s fun i =>
        (∃ l, s.regL = some l) ∧ (∃ r, s.regR = some r) ∧ i ≤ hashLength s / 32 := by
  simp [phaseReady, hp, hm, atIndex_iff, Option.isSome_iff_exists, and_assoc]

theorem phaseReady_nFinal (hp : s.phase = .final) (hm : s.mode = some .romulusN) :
    phaseReady s = true ↔ s.idx = none ∧ (∃ x, s.regS = some x) ∧ s.pending = false := by
  simp [phaseReady, hp, hm, Option.isSome_iff_exists]

theorem phaseReady_mFinal (hp : s.phase = .final) (hm : s.mode = some .romulusM) :
    phaseReady s = true ↔ s.idx = none ∧ (∃ x, s.regS = some x) ∧ (∃ d, s.regD = some d) ∧
      pendingIs (.mFinal (mFlags s)) s = true := by
  simp [phaseReady, hp, hm, Option.isSome_iff_exists, and_assoc]

theorem phaseReady_tFinal (hp : s.phase = .final) (hm : s.mode = some .romulusT) :
    phaseReady s = true ↔ s.idx = none ∧ (∃ l, s.regL = some l) ∧ (∃ r, s.regR = some r) ∧ (∃ k, s.tagKey = some k) ∧
      pendingIs .tTgf s = true := by
  simp [phaseReady, hp, hm, Option.isSome_iff_exists, and_assoc]

theorem phaseReady_compare (hp : s.phase = .compare) :
    phaseReady s = true ↔ s.mode.isSome = true ∧ s.mode ≠ some .romulusH ∧ s.decrypting = true ∧ s.idx = none ∧
      (∃ t, s.tagT = some t) ∧ s.pending = false := by
  simp [phaseReady, hp, Option.isSome_iff_exists, and_assoc]

theorem phaseReady_publish (hp : s.phase = .publish) :
    phaseReady s = true ↔ s.mode.isSome = true ∧ s.idx = none ∧ s.pending = false ∧
      (s.kind = .hash → (∃ l, s.regL = some l) ∧ ∃ r, s.regR = some r) ∧ (s.kind = .encrypt → ∃ t, s.tagT = some t) ∧
      (s.kind = .decrypt → ∃ a, s.acc = some a) := by
  cases hk : s.kind <;> simp [phaseReady, hp, hk, Option.isSome_iff_exists, and_assoc]

end
/-! ## Moving forward -/

/-- The engine's micro-operation goes on to a state in which it is ready, `PHASE` and `IDX` moved forward. -/
def Advances (s : State) : Prop := ∃ t, engineMicro s = .next t ∧ phaseReady t = true ∧ MovesForward s t

theorem engineMicro_kept {s t : State} (hp : s.phase ≠ .publish) (h : engineMicro s = .next t) : Kept s t :=
  (engineMicro_cases h).resolve_right fun ⟨hpublish, _⟩ => hp hpublish

/-- Within a phase `IDX` stays, is written 0, or counts up. -/
theorem Advances.within {s t : State} (hp : s.phase ≠ .publish) (h : engineMicro s = .next t) (hphase : t.phase = s.phase)
    (hi : t.idx = s.idx ∨ t.idx = some (s.idx.elim 0 (· + 1))) (hr : Kept s t → phaseReady t = true) : Advances s :=
  ⟨t, h, hr (engineMicro_kept hp h), .inl ⟨hphase, hi⟩⟩

/-- Out of a phase into the next of the command. -/
theorem Advances.toNext {s t : State} (hp : s.phase ≠ .publish) (h : engineMicro s = .next t)
    (hphase : (s.phase, t.phase) ∈ (phasesOf s).zip (phasesOf s).tail) (hi : t.idx = none)
    (hr : Kept s t → phaseReady t = true) : Advances s :=
  ⟨t, h, hr (engineMicro_kept hp h), .inr ⟨hphase, hi⟩⟩

/-! ## The pairing loops -/

theorem block_of_writtenTo {s : State} {sp : Space} {len : Nat} (h : (s.buffer sp).writtenTo len = true) (i : Nat) :
    ∃ w, s.block sp len i = some w ∧ w.length = blockLength len i :=
  Memory.block_of_writtenTo h i

/-- The engine has ended the loop body of block `i` of a pairing loop. -/
structure PairDone (i : Nat) (s t : State) : Prop extends Kept s t where
  phase : t.phase = s.phase
  idx : t.idx = some (i + 1)
  pending : t.pending = false
  regS : ∃ x, t.regS = some x
  regD : ∃ d, t.regD = some d
  tout : t.tout = s.tout

/-- A pairing loop advances when its block is written and its invocation, if one is pending, is that of the loop (R222, R243). -/
theorem pair_advances {s : State} {i len n : Nat} {k x : Block} {d : Counter} {w : List Byte} {sp : Space} {tag : Instr}
    (hp : s.phase ≠ .publish) (hk : s.key.value = some k) (hi : s.idx = some i) (hx : s.regS = some x) (hd : s.regD = some d)
    (hw : s.block sp len i = some w) (hpending : pendingIs tag s = true)
    (hmicro : s.pending = false → engineMicro s = pairMicro sp len n tag s)
    (hexec : exec tag s = invokeBlock tag sp len s) (hnext : afterInvocation tag = stepCounter)
    (hissue : phaseReady (issue tag d s) = true) (hdone : ∀ t, PairDone i s t → phaseReady t = true) : Advances s := by
  cases hpend : s.pending with
  | false =>
    have hmicro := hmicro hpend
    simp only [pairMicro, hi, hd, need_some] at hmicro
    split at hmicro
    · simp only [hw, hx, need_some] at hmicro
      rw [stepCounter_of (d := d) (i := i) (by simp) (by simp)] at hmicro
      refine .within hp hmicro (by simp) (.inr (by simp [hi])) fun hkept => hdone _ ⟨hkept, ?_, rfl, ?_, ?_, ⟨_, rfl⟩, ?_⟩
      all_goals simp [hpend]
    · exact .within hp hmicro rfl (.inl rfl) fun _ => hissue
  | true =>
    have hmicro := engineMicro_pendingIs hpend hpending
    rw [hexec, invokeBlock_of hi hw hk hd hx, andThen_next, hnext,
      stepCounter_of (d := d) (i := i) (by simpa) (by simpa)] at hmicro
    refine .within hp hmicro (by simp) (.inr (by simp [hi])) fun hkept => hdone _ ⟨hkept, ?_, rfl, ?_, ?_, ⟨_, rfl⟩, ?_⟩
    all_goals simp

/-! ## Invocations tweaked by the nonce -/

/-- What an invocation tweaked by the nonce leaves, as far as readiness speaks of it. -/
structure NonceInvoked (s u : State) : Prop extends Kept s u where
  phase : u.phase = s.phase
  idx : u.idx = s.idx
  regD : u.regD = s.regD
  tout : u.tout = s.tout
  tagT : u.tagT = s.tagT
  pending : u.pending = false
  regS : ∃ x, u.regS = some x

/-- A pending invocation tweaked by the nonce completes, and the rest of its loop body follows. -/
theorem nonceInvocation_micro {s : State} {i : Instr} {x : Block} {d : Counter} (ho : AeadWritten s) (hp : s.pending = true)
    (hpending : pendingIs i s = true) (hexec : exec i = invokeNonce i) (hx : s.regS = some x) (hd : s.regD = some d) :
    ∃ u, engineMicro s = afterInvocation i u ∧ NonceInvoked s u := by
  obtain ⟨k, hk⟩ := ho.key
  obtain ⟨n, hn⟩ := ho.nonce
  have hinvoke := invokeNonce_of (i := i) hk hn hd hx
  refine ⟨_, ?_, invokeNonce_kept hinvoke, ?_, ?_, ?_, ?_, ?_, ?_, ⟨_, rfl⟩⟩
  · rw [engineMicro_pendingIs hp hpending, hexec, hinvoke, andThen_next]
  all_goals simp

/-! ## The injection of a text block -/

section

variable (i : Nat) (y : Block) (d : Counter) (m : List Byte) (s : State)

theorem textInjected_phase : (textInjected i y d m s).phase = s.phase := by simp [textInjected]

theorem textInjected_idx : (textInjected i y d m s).idx = s.idx := by simp [textInjected]

theorem textInjected_regS : (textInjected i y d m s).regS = some (rhoBy s y m).1 := by simp [textInjected]

theorem textInjected_regD : (textInjected i y d m s).regD = some d := by simp [textInjected]

theorem textInjected_pending : (textInjected i y d m s).pending = s.pending := by simp [textInjected]

theorem textInjected_tagT : (textInjected i y d m s).tagT = s.tagT := by simp [textInjected]

theorem textInjected_tout : (textInjected i y d m s).tout = s.tout.writeRange (16 * i) (rhoBy s y m).2 := by
  simp [textInjected]

end

/-! ## The end of a command -/

/-- The tag of a decrypt is compared once it is computed (R227, R248, R268). -/
theorem advances_to_compare {s u : State} (hp : s.phase = .final) (hsome : s.mode.isSome = true) (hm : s.mode ≠ some .romulusH)
    (hd : s.decrypting = true) (hmicro : engineMicro s = .next (enter .compare u)) (ht : ∃ t, u.tagT = some t)
    (hpend : u.pending = false) : Advances s := by
  refine .toNext (by simp [hp]) hmicro ?_ rfl fun hkept => ?_
  · obtain ⟨m, hmode⟩ := Option.isSome_iff_exists.mp hsome
    cases m <;> simp_all [phasesOf]
  · exact Iff.mpr (phaseReady_compare rfl)
      ⟨hkept.mode ▸ hsome, hkept.mode ▸ hm, hkept.decrypting.trans hd, rfl, ht, hpend⟩

/-- The results of an encrypt are published once they are there (R226, R260). -/
theorem advances_to_publish {s u : State} (hphase : (s.phase, Phase.publish) ∈ (phasesOf s).zip (phasesOf s).tail)
    (hsome : s.mode.isSome = true) (hm : s.mode ≠ some .romulusH) (hd : s.decrypting = false)
    (hmicro : engineMicro s = .next (enter .publish u)) (ht : ∃ t, u.tagT = some t)
    (hpend : u.pending = false) (hp : s.phase ≠ .publish) : Advances s := by
  refine .toNext hp hmicro hphase rfl fun hkept => ?_
  refine Iff.mpr (phaseReady_publish rfl) ⟨hkept.mode ▸ hsome, rfl, hpend, ?_⟩
  rw [hkept.kind, kind_aead hm, hd]
  exact ⟨by simp, fun _ => ht, by simp⟩

/-- From the tag of Romulus-N or Romulus-T on: the comparison of a decrypt, the publication of an encrypt (R226, R260, R268). -/
theorem advances_from_tag {s u : State} (hp : s.phase = .final) (hm : s.mode = some .romulusN ∨ s.mode = some .romulusT)
    (hmicro : engineMicro s = .next (enter (if s.decrypting then .compare else .publish) u)) (ht : ∃ t, u.tagT = some t)
    (hpend : u.pending = false) : Advances s := by
  have hsome : s.mode.isSome = true := by rcases hm with hm | hm <;> simp [hm]
  have hm' : s.mode ≠ some .romulusH := by rcases hm with hm | hm <;> simp [hm]
  cases hd : s.decrypting with
  | false =>
    rw [hd] at hmicro
    refine advances_to_publish ?_ hsome hm' hd hmicro ht hpend (by simp [hp])
    rcases hm with hm | hm <;> simp [hp, phasesOf, hm, hd]
  | true =>
    rw [hd] at hmicro
    exact advances_to_compare hp hsome hm' hd hmicro ht hpend

/-! ## Romulus-N -/

theorem nTextTag_of_tlen {s t : State} (h : t.tlen = s.tlen) (i : Nat) : nTextTag t i = nTextTag s i := by
  simp only [nTextTag, h]

section

variable {s : State} (hr : phaseReady s = true) (hm : s.mode = some .romulusN)

include hr hm

/-- In the associated-data phase of Romulus-N (R221 to R223). -/
theorem nAd_advances (hc : s.cfg.admitted = true) (ho : AeadWritten s) (hp : s.phase = .ad) : Advances s := by
  have hp' : s.phase ≠ .publish := by simp [hp]
  rcases (phaseReady_nAd hp hm).mp hr with ⟨hi, hpend⟩ | ⟨i, hi, ⟨x, hx⟩, ⟨d, hd⟩, hle, hpending⟩
  · refine .within (t := startPairs s) hp' ?_ rfl (.inr (by simp [hi])) fun hkept => ?_
    · simp [engineMicro_sequence hpend, sequenceMicro, hp, hm, nAdMicro, hi]
    · exact Iff.mpr (phaseReady_nAd hp (hkept.mode.trans hm))
        (.inr ⟨0, rfl, ⟨_, rfl⟩, ⟨_, rfl⟩, Nat.zero_le _, pendingIs_of_not_pending hpend _⟩)
  by_cases hlt : i < blockCount s.adlen
  · rw [if_pos hlt] at hpending
    obtain ⟨k, hk⟩ := ho.key
    obtain ⟨w, hw, -⟩ := block_of_writtenTo (s := s) (sp := .adbuf) ho.ad i
    refine pair_advances (n := i) hp' hk hi hx hd hw hpending (fun hpend => ?_) rfl rfl ?_ fun t ht => ?_
    · simp [engineMicro_sequence hpend, sequenceMicro, hp, hm, nAdMicro, hi, hlt]
    · refine Iff.mpr (phaseReady_nAd hp hm) (.inr ⟨i, hi, ⟨x, hx⟩, ⟨d, hd⟩, hle, ?_⟩)
      rw [issue_adlen, if_pos hlt]
      exact pendingIs_issue hc rfl d
    · exact (phaseReady_nAd (ht.phase.trans hp) (ht.mode.trans hm)).mpr
        (.inr ⟨i + 1, ht.idx, ht.regS, ht.regD, ht.adlen ▸ hlt, pendingIs_of_not_pending ht.pending _⟩)
  rw [if_neg hlt] at hpending
  obtain ⟨htag, hexec, hnext⟩ := nAdLast_invocation s
  cases hpend : s.pending with
  | false =>
    refine .within (t := issue (nAdLast s) d s) hp' ?_ rfl (.inl rfl) fun _ => ?_
    · simp [engineMicro_sequence hpend, sequenceMicro, hp, hm, nAdMicro, hi, hlt, hd]
    · refine Iff.mpr (phaseReady_nAd hp hm) (.inr ⟨i, hi, ⟨x, hx⟩, ⟨d, hd⟩, hle, ?_⟩)
      rw [issue_adlen, if_neg hlt]
      exact pendingIs_issue hc htag d
  | true =>
    obtain ⟨u, hmicro, hu⟩ := nonceInvocation_micro ho hpend hpending hexec hx hd
    rw [hnext] at hmicro
    refine .toNext hp' hmicro ?_ rfl fun hkept => ?_
    · cases hd : s.decrypting <;> simp [hp, phasesOf, hm, hd]
    · exact Iff.mpr (phaseReady_text rfl (hkept.mode.trans hm)) ⟨hu.regS, .inl ⟨rfl, hu.pending⟩⟩

/-- In the text phase of Romulus-N (R224, R225). -/
theorem text_advances (hc : s.cfg.admitted = true) (ho : AeadWritten s) (hp : s.phase = .text) : Advances s := by
  have hp' : s.phase ≠ .publish := by simp [hp]
  obtain ⟨⟨x, hx⟩, ⟨hi, hpend⟩ | ⟨i, hi, ⟨d, hd⟩, hlt, hpending⟩⟩ := (phaseReady_text hp hm).mp hr
  · refine .within (t := { s with regD := some Config.d0, idx := some 0 }) hp' ?_ rfl (.inr (by simp [hi])) fun hkept => ?_
    · simp [engineMicro_sequence hpend, sequenceMicro, hp, nTextMicro, hi]
    · exact Iff.mpr (phaseReady_text hp (hkept.mode.trans hm))
        ⟨⟨x, hx⟩, .inr ⟨0, rfl, ⟨_, rfl⟩, blockCount_pos _, pendingIs_of_not_pending hpend _⟩⟩
  obtain ⟨htag, hexec, hnext⟩ := nTextTag_invocation s i
  cases hpend : s.pending with
  | false =>
    obtain ⟨m, hblock, -⟩ := block_of_writtenTo (s := s) (sp := .tin) ho.text i
    have hmicro : engineMicro s = nTextMicro s := by simp only [engineMicro_sequence hpend, sequenceMicro, hp]
    rw [nTextMicro_of hi hblock hx hd] at hmicro
    refine .within hp' hmicro (textInjected_phase ..) (.inl (textInjected_idx ..)) fun hkept => ?_
    refine Iff.mpr (phaseReady_text ((textInjected_phase ..).trans hp) (hkept.mode.trans hm))
      ⟨⟨_, textInjected_regS ..⟩, .inr ⟨i, (textInjected_idx ..).trans hi, ⟨_, textInjected_regD ..⟩, hkept.tlen ▸ hlt, ?_⟩⟩
    rw [nTextTag_of_tlen hkept.tlen]
    exact pendingIs_issue ((textInjected_cfg ..).symm ▸ hc) htag _
  | true =>
    obtain ⟨u, hmicro, hu⟩ := nonceInvocation_micro ho hpend hpending hexec hx hd
    rw [hnext] at hmicro
    split at hmicro
    case isTrue hnotLast =>
      rw [nTextNext_of (hu.idx.trans hi)] at hmicro
      refine .within hp' hmicro hu.phase (.inr (by simp [hi])) fun hkept => ?_
      exact Iff.mpr (phaseReady_text (hu.phase.trans hp) (hkept.mode.trans hm))
        ⟨hu.regS, .inr ⟨i + 1, rfl, ⟨d, hu.regD.trans hd⟩, hkept.tlen ▸ hnotLast, pendingIs_of_not_pending hu.pending _⟩⟩
    case isFalse =>
      refine .toNext hp' hmicro ?_ rfl fun hkept => ?_
      · cases hd : s.decrypting <;> simp [hp, phasesOf, hm, hd]
      · exact Iff.mpr (phaseReady_nFinal rfl (hkept.mode.trans hm)) ⟨rfl, hu.regS, hu.pending⟩

/-- At the end of Romulus-N (R226). -/
theorem nFinal_advances (hp : s.phase = .final) : Advances s := by
  obtain ⟨-, ⟨x, hx⟩, hpend⟩ := (phaseReady_nFinal hp hm).mp hr
  have hmicro : engineMicro s = nFinalMicro s := by simp only [engineMicro_sequence hpend, sequenceMicro, hp, hm]
  simp only [nFinalMicro, hx, need_some] at hmicro
  exact advances_from_tag hp (.inl hm) hmicro ⟨_, rfl⟩ hpend

end

/-! ## Romulus-M -/

/-- The text of the first pass is written: the plaintext in `TIN`, or the one recovered in `TOUT` (R249). -/
theorem macText_written {s : State} (ho : AeadWritten s) (h : s.decrypting = true → s.tout.writtenTo s.tlen = true) :
    (s.buffer (macSpace s)).writtenTo s.tlen = true := by
  cases hd : s.decrypting <;> simp only [macSpace, hd, Bool.false_eq_true, if_false, if_true]
  · exact ho.text
  · exact h hd

/-- A text written up to block `i` is written up to the next once block `i` is (R65, R67). -/
theorem Memory.writtenTo_block {m : Memory} {n i : Nat} {o : List Byte} (h : m.writtenTo (min (16 * i) n) = true)
    (ho : o.length = blockLength n i) : (m.writeRange (16 * i) o).writtenTo (min (16 * (i + 1)) n) = true := by
  rw [Memory.writtenTo, Memory.readRange_isSome] at h ⊢
  intro j hj
  rw [Memory.read_writeRange]
  split
  case isTrue hin => rw [List.getElem?_eq_getElem (by omega), Option.isSome_some]
  case isFalse hout =>
    simp only [blockLength] at ho
    exact h j (by omega)

theorem min_textBlockCount (n : Nat) : min (16 * textBlockCount n) n = n := by
  simp only [textBlockCount]
  omega

section

variable {s : State} (hr : phaseReady s = true) (hm : s.mode = some .romulusM)

include hr hm

/-- In the associated-data part of the first pass (R241, R243). -/
theorem mAd_advances (hc : s.cfg.admitted = true) (ho : AeadWritten s) (hp : s.phase = .ad) : Advances s := by
  have hp' : s.phase ≠ .publish := by simp [hp]
  obtain ⟨htext, ⟨hi, hpend⟩ | ⟨i, hi, ⟨x, hx⟩, ⟨d, hd⟩, hle, hin, hpending⟩⟩ := (phaseReady_mAd hp hm).mp hr
  · refine .within (t := startPairs s) hp' ?_ rfl (.inr (by simp [hi])) fun _ => ?_
    · simp [engineMicro_sequence hpend, sequenceMicro, hp, hm, mAdMicro, hi]
    · exact Iff.mpr (phaseReady_mAd hp hm) ⟨htext, .inr ⟨0, rfl, ⟨_, rfl⟩, ⟨_, rfl⟩, Nat.zero_le _, by simp [hpend],
        pendingIs_of_not_pending hpend _⟩⟩
  by_cases hlt : i < blockCount s.adlen
  · obtain ⟨k, hk⟩ := ho.key
    obtain ⟨w, hw, -⟩ := block_of_writtenTo (s := s) (sp := .adbuf) ho.ad i
    refine pair_advances (n := i) hp' hk hi hx hd hw hpending (fun hpend => ?_) rfl rfl ?_ fun t ht => ?_
    · simp [engineMicro_sequence hpend, sequenceMicro, hp, hm, mAdMicro, hi, hlt]
    · exact Iff.mpr (phaseReady_mAd hp hm)
        ⟨htext, .inr ⟨i, hi, ⟨x, hx⟩, ⟨d, hd⟩, hle, fun _ => hlt, pendingIs_issue hc rfl d⟩⟩
    · refine (phaseReady_mAd (ht.phase.trans hp) (ht.mode.trans hm)).mpr ⟨?_, .inr ⟨i + 1, ht.idx, ht.regS, ht.regD,
        ht.adlen ▸ hlt, by simp [ht.pending], pendingIs_of_not_pending ht.pending _⟩⟩
      rw [ht.decrypting, ht.tout, ht.tlen]
      exact htext
  · have hpend : s.pending = false := Bool.eq_false_iff.mpr (mt hin hlt)
    refine .toNext (t := enter .mac s) hp' ?_ ?_ rfl fun _ => ?_
    · simp [engineMicro_sequence hpend, sequenceMicro, hp, hm, mAdMicro, hi, hlt]
    · cases hdec : s.decrypting <;> simp [hp, phasesOf, hm, hdec]
    · exact Iff.mpr (phaseReady_mac rfl hm) ⟨htext, ⟨x, hx⟩, ⟨d, hd⟩, .inl ⟨rfl, hpend⟩⟩

/-- In the message part of the first pass (R243). -/
theorem mac_advances (hc : s.cfg.admitted = true) (ho : AeadWritten s) (hp : s.phase = .mac) : Advances s := by
  have hp' : s.phase ≠ .publish := by simp [hp]
  obtain ⟨htext, ⟨x, hx⟩, ⟨d, hd⟩, ⟨hi, hpend⟩ | ⟨i, hi, hle, hin, hpending⟩⟩ := (phaseReady_mac hp hm).mp hr
  · refine .within (t := { s with idx := some 0 }) hp' ?_ rfl (.inr (by simp [hi])) fun _ => ?_
    · simp [engineMicro_sequence hpend, sequenceMicro, hp, mMacMicro, hi]
    · exact Iff.mpr (phaseReady_mac hp hm) ⟨htext, ⟨x, hx⟩, ⟨d, hd⟩, .inr ⟨0, rfl, Nat.zero_le _, by simp [hpend],
        pendingIs_of_not_pending hpend _⟩⟩
  by_cases hlt : i < blockCount s.tlen
  · obtain ⟨k, hk⟩ := ho.key
    obtain ⟨w, hw, -⟩ := block_of_writtenTo (macText_written ho htext) i
    refine pair_advances (n := blockCount s.adlen + i) hp' hk hi hx hd hw hpending (fun hpend => ?_) rfl rfl ?_
      fun t ht => ?_
    · simp [engineMicro_sequence hpend, sequenceMicro, hp, mMacMicro, hi, hlt]
    · exact Iff.mpr (phaseReady_mac hp hm)
        ⟨htext, ⟨x, hx⟩, ⟨d, hd⟩, .inr ⟨i, hi, hle, fun _ => hlt, pendingIs_issue hc rfl d⟩⟩
    · refine (phaseReady_mac (ht.phase.trans hp) (ht.mode.trans hm)).mpr ⟨?_, ht.regS, ht.regD, .inr ⟨i + 1, ht.idx,
        ht.tlen ▸ hlt, by simp [ht.pending], pendingIs_of_not_pending ht.pending _⟩⟩
      rw [ht.decrypting, ht.tout, ht.tlen]
      exact htext
  · have hpend : s.pending = false := Bool.eq_false_iff.mpr (mt hin hlt)
    refine .toNext (t := enter .final s) hp' ?_ ?_ rfl fun _ => ?_
    · simp [engineMicro_sequence hpend, sequenceMicro, hp, mMacMicro, hi, hlt]
    · cases hdec : s.decrypting <;> simp [hp, phasesOf, hm, hdec]
    · exact Iff.mpr (phaseReady_mFinal rfl hm) ⟨rfl, ⟨x, hx⟩, ⟨d, hd⟩, pendingIs_of_not_pending hpend _⟩

/-- At the closing invocation of the first pass (R244, R245). -/
theorem mFinal_advances (hc : s.cfg.admitted = true) (ho : AeadWritten s) (hp : s.phase = .final) : Advances s := by
  have hp' : s.phase ≠ .publish := by simp [hp]
  obtain ⟨hi, ⟨x, hx⟩, ⟨d, hd⟩, hpending⟩ := (phaseReady_mFinal hp hm).mp hr
  cases hpend : s.pending with
  | false =>
    refine .within (t := issue (.mFinal (mFlags s)) d s) hp' ?_ rfl (.inl rfl) fun _ => ?_
    · simp [engineMicro_sequence hpend, sequenceMicro, hp, hm, mFinalMicro, hd]
    · exact Iff.mpr (phaseReady_mFinal hp hm) ⟨hi, ⟨x, hx⟩, ⟨d, hd⟩, pendingIs_issue hc rfl d⟩
  | true =>
    obtain ⟨u, hmicro, hu⟩ := nonceInvocation_micro ho hpend hpending rfl hx hd
    obtain ⟨y, hy⟩ := hu.regS
    rw [afterInvocation, mFinalNext_of hu.cfg hu.decrypting hy] at hmicro
    cases hdec : s.decrypting with
    | false =>
      rw [hdec] at hmicro
      refine .toNext hp' hmicro (by simp [hp, phasesOf, hm, hdec]) rfl fun hkept => ?_
      exact Iff.mpr (phaseReady_crypt rfl (hkept.mode.trans hm)) ⟨fun _ => ⟨_, rfl⟩, .inl ⟨rfl, hu.pending⟩⟩
    | true =>
      rw [hdec] at hmicro
      exact advances_to_compare hp (by simp [hm]) (by simp [hm]) hdec hmicro ⟨_, rfl⟩ hu.pending

/-- The encryption pass starts from a tag that is written: that of the first pass, or the supplied one (R240, R248). -/
theorem cryptStart_written (ho : AeadWritten s) (hp : s.phase = .crypt) : ∃ t, cryptStart s = some t := by
  obtain ⟨htag, -⟩ := (phaseReady_crypt hp hm).mp hr
  cases hdec : s.decrypting <;> simp only [cryptStart, hdec, Bool.false_eq_true, if_false, if_true]
  · exact htag hdec
  · exact ho.tagin hdec

/-- In the encryption pass (R246, R247). -/
theorem crypt_advances (hc : s.cfg.admitted = true) (ho : AeadWritten s) (hp : s.phase = .crypt) : Advances s := by
  have hp' : s.phase ≠ .publish := by simp [hp]
  obtain ⟨htag, ⟨hi, hpend⟩ | ⟨i, hi, ⟨x, hx⟩, ⟨d, hd⟩, hle, hout, hin, hpending⟩⟩ := (phaseReady_crypt hp hm).mp hr
  · obtain ⟨t, ht⟩ := cryptStart_written hr hm ho hp
    refine .within (t := { s with regS := some t, regD := some Config.d0, idx := some 0 }) hp' ?_ rfl (.inr (by simp [hi]))
      fun _ => ?_
    · simp [engineMicro_sequence hpend, sequenceMicro, hp, mCryptMicro, hi, ht]
    · exact Iff.mpr (phaseReady_crypt hp hm) ⟨htag, .inr ⟨0, rfl, ⟨_, rfl⟩, ⟨_, rfl⟩, Nat.zero_le _,
        by simp [Memory.writtenTo, Memory.readRange], by simp [hpend], pendingIs_of_not_pending hpend _⟩⟩
  cases hpend : s.pending with
  | true =>
    obtain ⟨u, hmicro, hu⟩ := nonceInvocation_micro ho hpend hpending rfl hx hd
    obtain ⟨y, hy⟩ := hu.regS
    obtain ⟨m, hblock, hlen⟩ := block_of_writtenTo (s := u) (sp := .tin) (len := u.tlen)
      (by simpa [State.buffer, hu.tin, hu.tlen] using ho.text) i
    rw [afterInvocation, mCryptNext_of hu.cfg (hu.idx.trans hi) hblock hy (hu.regD.trans hd)] at hmicro
    refine .within hp' hmicro ((textInjected_phase ..).trans hu.phase) (.inr (by simp [hi])) fun hkept => ?_
    refine Iff.mpr (phaseReady_crypt ((textInjected_phase ..).trans (hu.phase.trans hp)) (hkept.mode.trans hm))
      ⟨?_, .inr ⟨i + 1, rfl, ⟨_, textInjected_regS ..⟩, ⟨_, rfl⟩, ?_, ?_, ?_, ?_⟩⟩
    · exact fun hdec => (textInjected_tagT ..).trans hu.tagT ▸ htag (hkept.decrypting ▸ hdec)
    · exact hkept.tlen ▸ hin hpend
    · have hlen' : (rhoBy u y m).2.length = blockLength s.tlen i := by
        rw [rhoBy_snd, xorPrefix_length_block hblock, hlen, hu.tlen]
      rw [hkept.tlen, textInjected_tout, hu.tout]
      exact Memory.writtenTo_block hout hlen'
    · simp [textInjected_pending, hu.pending]
    · exact pendingIs_of_not_pending ((textInjected_pending ..).trans hu.pending) _
  | false =>
    have hmicro : engineMicro s = mCryptMicro s := by simp only [engineMicro_sequence hpend, sequenceMicro, hp]
    simp only [mCryptMicro, hi, hd, need_some] at hmicro
    split at hmicro
    case isTrue hlt =>
      refine .within hp' hmicro rfl (.inl rfl) fun _ => ?_
      exact Iff.mpr (phaseReady_crypt hp hm)
        ⟨htag, .inr ⟨i, hi, ⟨x, hx⟩, ⟨d, hd⟩, hle, hout, fun _ => hlt, pendingIs_issue hc rfl d⟩⟩
    case isFalse hlast =>
      cases hdec : s.decrypting with
      | false =>
        rw [hdec] at hmicro
        exact advances_to_publish (by simp [hp, phasesOf, hm, hdec]) (by simp [hm]) (by simp [hm]) hdec hmicro (htag hdec)
          hpend hp'
      | true =>
        rw [hdec] at hmicro
        refine .toNext hp' hmicro (by simp [hp, phasesOf, hm, hdec]) rfl fun _ => ?_
        have hall : i = textBlockCount s.tlen := by omega
        rw [hall, min_textBlockCount] at hout
        exact Iff.mpr (phaseReady_mAd rfl hm) ⟨fun _ => hout, .inl ⟨rfl, hpend⟩⟩

end

/-! ## The hash phase -/

/-- What a compression call leaves, as far as readiness speaks of it. -/
structure Compressed (s t : State) : Prop extends Kept s t where
  pending : t.pending = false
  regD : t.regD = s.regD
  regZ : t.regZ = s.regZ
  scratch : t.scratch = s.scratch
  regL : ∃ l, t.regL = some l
  regR : ∃ r, t.regR = some r

/-- A block of the hashed string advances when it is there: to the next block, or to the phase `p` after the last (R280, R283,
R284). -/
theorem hash_advances {s : State} {x : List Byte} {i : Nat} {l r : Block} {p : Phase} (hp : s.phase = .hashblk)
    (hpend : s.pending = false) (hi : s.idx = some i) (hx : hashInput s = some x) (hl : s.regL = some l) (hr : s.regR = some r)
    (hnext : (if s.mode = some .romulusH then .publish else .final) = p)
    (hphase : (Phase.hashblk, p) ∈ (phasesOf s).zip (phasesOf s).tail)
    (hblock : i < x.length / 32 → ∀ t, Compressed s t → t.phase = .hashblk → t.idx = some (i + 1) → phaseReady t = true)
    (hend : ∀ t, Compressed s t → t.phase = p → t.idx = none → phaseReady t = true) : Advances s := by
  have hmicro : engineMicro s = hashMicro s := by simp only [engineMicro_sequence hpend, sequenceMicro, hp]
  have hp' : s.phase ≠ .publish := by simp [hp]
  simp only [hashMicro, hi, hx, hl, hr, need_some] at hmicro
  split at hmicro
  case isTrue hlt =>
    refine .within hp' hmicro (by simp) (.inr (by simp [hi])) fun hkept =>
      hblock hlt _ ⟨hkept, rfl, ?_, ?_, ?_, ⟨_, rfl⟩, ⟨_, rfl⟩⟩ ?_ rfl
    all_goals simp [hp]
  case isFalse =>
    rw [hnext] at hmicro
    refine .toNext hp' hmicro (by simpa [hp]) rfl fun hkept =>
      hend _ ⟨hkept, rfl, ?_, ?_, ?_, ⟨_, rfl⟩, ⟨_, rfl⟩⟩ rfl rfl
    all_goals simp

theorem Kept.hashLength {s t : State} (k : Kept s t) : hashLength t = hashLength s := by
  simp only [Machine.hashLength, k.mode, k.adlen, k.tlen]

/-- The set-up of the hash phase (R281). -/
theorem hashMicro_entry {s : State} (hp : s.phase = .hashblk) (hpend : s.pending = false) (hi : s.idx = none) :
    engineMicro s = .next { s with regL := some Block.zero, regR := some Block.zero, idx := some 0 } := by
  simp [engineMicro_sequence hpend, sequenceMicro, hp, hashMicro, hi]

/-- In the hash phase of Romulus-H (R280). -/
theorem hHash_advances {s : State} (hr : phaseReady s = true) (hm : s.mode = some .romulusH)
    (ho : operandsWritten s.kind s = true) (hp : s.phase = .hashblk) : Advances s := by
  obtain ⟨hpend, ⟨hi, -⟩ | ⟨i, hi, ⟨l, hl⟩, ⟨r, hr⟩, -⟩⟩ := (phaseReady_hash hp hm).mp hr
  · refine .within (by simp [hp]) (hashMicro_entry hp hpend hi) rfl (.inr (by simp [hi])) fun _ => ?_
    exact Iff.mpr (phaseReady_hash hp hm) ⟨hpend, .inr ⟨0, rfl, ⟨_, rfl⟩, ⟨_, rfl⟩, Nat.zero_le _⟩⟩
  rw [kind_hash hm] at ho
  obtain ⟨x, hx⟩ := Option.isSome_iff_exists.mp ho
  have hinput : hashInput s = some x := by rw [hashInput, if_pos hm, hx]
  refine hash_advances (p := .publish) hp hpend hi hinput hl hr (by simp [hm]) (by simp [phasesOf, hm]) ?_ ?_
  · intro hlt t ht htp hti
    have hlength : hashLength s = s.tlen := by simp [hashLength, hm]
    rw [Memory.readRange_length hx, ← hlength, ← ht.hashLength] at hlt
    exact (phaseReady_hash htp (ht.mode.trans hm)).mpr ⟨ht.pending, .inr ⟨i + 1, hti, ht.regL, ht.regR, hlt⟩⟩
  · intro t ht htp hti
    refine (phaseReady_publish htp).mpr ⟨by simp [ht.mode, hm], hti, ht.pending, ?_⟩
    rw [ht.kind, kind_hash hm]
    exact ⟨fun _ => ⟨ht.regL, ht.regR⟩, by simp, by simp⟩

/-! ## Romulus-T -/

/-- The authentication input is written, and has the length that the declared lengths give it (R264). -/
theorem authInput_written {s : State} {d : Counter} (hm : s.mode = some .romulusT) (ho : AeadWritten s) (hd : s.regD = some d)
    (hkept : keptTo s s.tlen = true) : ∃ x, hashInput s = some x ∧ x.length = hashLength s := by
  obtain ⟨n, hn⟩ := ho.nonce
  obtain ⟨a, ha⟩ := Option.isSome_iff_exists.mp ho.ad
  obtain ⟨m, hmsg⟩ := Option.isSome_iff_exists.mp ho.text
  have hm' : s.mode ≠ some .romulusH := by simp [hm]
  obtain ⟨c, hc⟩ : ∃ c, cipherText s = some c := by cases hdec : s.decrypting <;> simp [cipherText, hdec, hmsg]
  have hinput : hashInput s = some (authString a c n d) := by simp [hashInput, hm', authInput, ha, hc, hn, hd]
  refine ⟨_, hinput, ?_⟩
  rw [hashInput_length hinput, if_neg hm', hashLength, if_neg hm']
  cases hdec : s.decrypting <;> simp_all [keptTo]

/-- The key of the tag generation is written: `KEY`, or the session key (R267, conflict C6). -/
theorem tagKey_written {s : State} {z : Block} (ho : AeadWritten s) (hz : s.regZ = some z) : ∃ k, s.tagKey = some k := by
  obtain ⟨k, hk⟩ := ho.key
  unfold State.tagKey
  split
  · exact ⟨k, hk⟩
  · exact ⟨z, hz⟩

theorem tagKey_of_kept {s t : State} (k : Kept s t) (hz : t.regZ = s.regZ) : t.tagKey = s.tagKey := by
  simp only [State.tagKey, k.cfg, k.key, hz]

theorem keptTo_iff (s : State) (n : Nat) : keptTo s n = true ↔ (s.decrypting = false → s.scratch.length = n) := by
  cases hdec : s.decrypting <;> simp [keptTo, hdec]

theorem keptTo_of_kept {s t : State} (k : Kept s t) (hw : t.scratch = s.scratch) (n : Nat) : keptTo t n = keptTo s n := by
  simp only [keptTo, k.decrypting, hw]

/-- What an invocation under the session key leaves, as far as readiness speaks of it. -/
structure SessionInvoked (s u : State) : Prop extends Kept s u where
  phase : u.phase = s.phase
  idx : u.idx = s.idx
  regD : u.regD = s.regD
  pending : u.pending = false
  regZ : ∃ z, u.regZ = some z

/-- The keystream invocation completes, and the scratch of `T_ENC` holds one more block (R262, R199). -/
theorem execTKs_next {s : State} {z : Block} {d : Counter} {i : Nat} (ho : AeadWritten s) (hz : s.regZ = some z)
    (hd : s.regD = some d) (hi : s.idx = some i) (hkept : keptTo s (min (16 * i) s.tlen) = true) :
    ∃ u, exec .tKs s = .next u ∧ SessionInvoked s u ∧ keptTo u (min (16 * (i + 1)) s.tlen) = true := by
  obtain ⟨n, hn⟩ := ho.nonce
  obtain ⟨x, hx, hxlen⟩ := block_of_writtenTo (s := s) (sp := .tin) ho.text i
  have hexec : exec .tKs s = _ := execTKs_of hz hn hd hi hx
  have hkeep := execDomain_kept rfl hexec
  rw [streamed_eq hx] at hexec hkeep
  refine ⟨_, hexec, ⟨hkeep, by simp, by simp, by simp, by simp, z, by simp [hz]⟩, (keptTo_iff _ _).mpr fun hdec => ?_⟩
  rw [hkeep.decrypting] at hdec
  have hdir : s.op.getLsbD 0 = false := hdec
  have hlen := (keptTo_iff _ _).mp hkept hdec
  simp only [hdir, Bool.false_eq_true, if_false, List.length_append, hlen, xorPrefix_length_block hx, hxlen, blockLength]
  omega

/-- The key update completes and keeps the scratch (R263). -/
theorem execTKu_next {s : State} {z : Block} {d : Counter} (ho : AeadWritten s) (hz : s.regZ = some z)
    (hd : s.regD = some d) : ∃ u, exec .tKu s = .next u ∧ SessionInvoked s u ∧ u.scratch = s.scratch := by
  obtain ⟨n, hn⟩ := ho.nonce
  have hexec : exec .tKu s = _ := execTKu_of hz hn hd
  refine ⟨_, hexec, ⟨execDomain_kept rfl hexec, ?_, ?_, ?_, rfl, _, rfl⟩, ?_⟩
  all_goals simp [sessionKeyed]

/-- The end of the loop body of a keystream block, whose output is kept (R263). -/
theorem stream_body_ends {s u : State} {i : Nat} {d : Counter} (hp : s.phase = .stream) (hm : s.mode = some .romulusT)
    (hi : s.idx = some i) (hmicro : engineMicro s = .next { u with regD := some d, idx := some (i + 1) })
    (hu : SessionInvoked s u) (hlt : i < textBlockCount s.tlen) (hkept : keptTo u (min (16 * (i + 1)) s.tlen) = true) :
    Advances s := by
  refine .within (by simp [hp]) hmicro hu.phase (.inr (by simp [hi])) fun _ => ?_
  refine Iff.mpr (phaseReady_stream (hu.phase.trans hp) (hu.mode.trans hm))
    ⟨hu.regZ, .inr ⟨i + 1, rfl, ⟨_, rfl⟩, hu.tlen ▸ hlt, ?_⟩⟩
  simp only [hu.pending, Bool.false_eq_true, if_false, hu.tlen]
  exact hkept

section

variable {s : State} (hr : phaseReady s = true) (hm : s.mode = some .romulusT)

include hr hm

/-- At the session-key derivation (R261). -/
theorem kdf_advances (hc : s.cfg.admitted = true) (ho : AeadWritten s) (hp : s.phase = .kdf) : Advances s := by
  have hp' : s.phase ≠ .publish := by simp [hp]
  obtain ⟨hi, hpending⟩ := (phaseReady_kdf hp hm).mp hr
  cases hpend : s.pending with
  | false =>
    refine .within (t := issue .tKdf Config.dz s) hp' ?_ rfl (.inl rfl) fun _ => ?_
    · simp [engineMicro_sequence hpend, sequenceMicro, hp, tKdfMicro]
    · exact Iff.mpr (phaseReady_kdf hp hm) ⟨hi, pendingIs_issue hc rfl _⟩
  | true =>
    obtain ⟨k, hk⟩ := ho.key
    obtain ⟨n, hn⟩ := ho.nonce
    have hmicro := engineMicro_pendingIs hpend hpending
    rw [exec, execTKdf_of hk hn, andThen_next, afterInvocation] at hmicro
    refine .toNext hp' hmicro ?_ rfl fun hkept => ?_
    · cases hdec : s.decrypting <;> simp [hp, phasesOf, hm, hdec]
    · exact Iff.mpr (phaseReady_stream rfl (hkept.mode.trans hm)) ⟨⟨_, rfl⟩, .inl ⟨rfl, rfl⟩⟩

/-- In the keystream phase (R263). -/
theorem stream_advances (hc : s.cfg.admitted = true) (ho : AeadWritten s) (hp : s.phase = .stream) : Advances s := by
  have hp' : s.phase ≠ .publish := by simp [hp]
  obtain ⟨⟨z, hz⟩, ⟨hi, hpend⟩ | ⟨i, hi, ⟨d, hd⟩, hle, hkept⟩⟩ := (phaseReady_stream hp hm).mp hr
  · refine .within (t := { s with regD := some Config.d0, idx := some 0, scratch := [] }) hp' ?_ rfl (.inr (by simp [hi]))
      fun _ => ?_
    · simp [engineMicro_sequence hpend, sequenceMicro, hp, tStreamMicro, hi]
    · refine Iff.mpr (phaseReady_stream hp hm) ⟨⟨z, hz⟩, .inr ⟨0, rfl, ⟨_, rfl⟩, Nat.zero_le _, ?_⟩⟩
      simp [hpend, keptTo]
  cases hpend : s.pending with
  | false =>
    simp only [hpend, Bool.false_eq_true, if_false] at hkept
    have hmicro : engineMicro s = tStreamMicro s := by simp only [engineMicro_sequence hpend, sequenceMicro, hp]
    simp only [tStreamMicro, hi, hd, need_some] at hmicro
    split at hmicro
    case isTrue hlt =>
      refine .within hp' hmicro rfl (.inl rfl) fun _ => ?_
      exact Iff.mpr (phaseReady_stream hp hm)
        ⟨⟨z, hz⟩, .inr ⟨i, hi, ⟨d, hd⟩, hle, hlt, .inl ⟨pendingIs_issue hc rfl d, hkept⟩⟩⟩
    case isFalse hlast =>
      have hall : i = textBlockCount s.tlen := by omega
      rw [hall, min_textBlockCount] at hkept
      refine .toNext hp' hmicro ?_ rfl fun _ => ?_
      · cases hdec : s.decrypting <;> simp [hp, phasesOf, hm, hdec]
      · exact Iff.mpr (phaseReady_tHash rfl hm)
          ⟨hpend, ⟨d, hd⟩, tagKey_written (s := s) ho hz, hkept, .inl ⟨rfl, hpend⟩⟩
  | true =>
    simp only [hpend, if_true] at hkept
    obtain ⟨hlt, ⟨hpending, hkept⟩ | ⟨hpending, hkept⟩⟩ := hkept
    · obtain ⟨u, hexec, hu, hkept⟩ := execTKs_next ho hz hd hi hkept
      have hmicro := engineMicro_pendingIs hpend hpending
      rw [hexec, andThen_next, afterInvocation, tKsNext_of (hu.idx.trans hi) (hu.regD.trans hd)] at hmicro
      split at hmicro
      case isTrue hnext =>
        refine .within hp' hmicro hu.phase (.inl hu.idx) fun _ => ?_
        exact Iff.mpr (phaseReady_stream (hu.phase.trans hp) (hu.mode.trans hm)) ⟨hu.regZ, .inr ⟨i, hu.idx.trans hi,
          ⟨d, hu.regD.trans hd⟩, hu.tlen ▸ hle, hu.tlen ▸ hlt,
          .inr ⟨pendingIs_issue (hu.cfg.symm ▸ hc) rfl d, hu.tlen.symm ▸ hkept⟩⟩⟩
      case isFalse =>
        exact stream_body_ends hp hm hi hmicro hu hlt hkept
    · obtain ⟨u, hexec, hu, hscratch⟩ := execTKu_next ho hz hd
      have hmicro := engineMicro_pendingIs hpend hpending
      rw [hexec, andThen_next, afterInvocation, stepCounter_of (hu.regD.trans hd) (hu.idx.trans hi)] at hmicro
      exact stream_body_ends hp hm hi hmicro hu hlt ((keptTo_of_kept hu.toKept hscratch _).trans hkept)

/-- In the hash phase of Romulus-T (R266). -/
theorem tHash_advances (ho : AeadWritten s) (hp : s.phase = .hashblk) : Advances s := by
  obtain ⟨hpend, ⟨d, hd⟩, ⟨k, hk⟩, hkept, ⟨hi, -⟩ | ⟨i, hi, ⟨l, hl⟩, ⟨r, hr⟩, -⟩⟩ := (phaseReady_tHash hp hm).mp hr
  · refine .within (by simp [hp]) (hashMicro_entry hp hpend hi) rfl (.inr (by simp [hi])) fun _ => ?_
    exact Iff.mpr (phaseReady_tHash hp hm)
      ⟨hpend, ⟨d, hd⟩, ⟨k, hk⟩, hkept, .inr ⟨0, rfl, ⟨_, rfl⟩, ⟨_, rfl⟩, Nat.zero_le _⟩⟩
  obtain ⟨x, hx, hlength⟩ := authInput_written hm ho hd hkept
  refine hash_advances (p := .final) hp hpend hi hx hl hr (by simp [hm]) ?_ ?_ ?_
  · cases hdec : s.decrypting <;> simp [phasesOf, hm, hdec]
  · intro hlt t ht htp hti
    rw [hlength, ← ht.hashLength] at hlt
    refine (phaseReady_tHash htp (ht.mode.trans hm)).mpr ⟨ht.pending, ⟨d, ht.regD.trans hd⟩,
      ⟨k, (tagKey_of_kept ht.toKept ht.regZ).trans hk⟩, ?_, .inr ⟨i + 1, hti, ht.regL, ht.regR, hlt⟩⟩
    rw [ht.tlen, keptTo_of_kept ht.toKept ht.scratch, hkept]
  · intro t ht htp hti
    exact (phaseReady_tFinal htp (ht.mode.trans hm)).mpr ⟨hti, ht.regL, ht.regR,
      ⟨k, (tagKey_of_kept ht.toKept ht.regZ).trans hk⟩, pendingIs_of_not_pending ht.pending _⟩

/-- At the tag generation (R267). -/
theorem tFinal_advances (hc : s.cfg.admitted = true) (hp : s.phase = .final) : Advances s := by
  have hp' : s.phase ≠ .publish := by simp [hp]
  obtain ⟨hi, ⟨l, hl⟩, ⟨r, hr⟩, ⟨k, hk⟩, hpending⟩ := (phaseReady_tFinal hp hm).mp hr
  cases hpend : s.pending with
  | false =>
    refine .within (t := issue .tTgf Config.dz s) hp' ?_ rfl (.inl rfl) fun _ => ?_
    · simp [engineMicro_sequence hpend, sequenceMicro, hp, hm, tFinalMicro]
    · exact Iff.mpr (phaseReady_tFinal hp hm) ⟨hi, ⟨l, hl⟩, ⟨r, hr⟩, ⟨k, hk⟩, pendingIs_issue hc rfl _⟩
  | true =>
    obtain ⟨u, hexec, htag, hu⟩ : ∃ u, exec .tTgf s = .next u ∧ (∃ t, u.tagT = some t) ∧ u.pending = false :=
      ⟨_, execTTgf_of hk hl hr, ⟨_, rfl⟩, rfl⟩
    have hmicro := engineMicro_pendingIs hpend hpending
    rw [hexec, andThen_next, afterInvocation, tTgfNext, (execDomain_kept rfl hexec).decrypting] at hmicro
    exact advances_from_tag hp (.inr hm) hmicro htag hu

end

/-! ## The comparison -/

/-- At the tag comparison of a decrypt (R196). -/
theorem compare_advances {s : State} (hr : phaseReady s = true) (ho : AeadWritten s) (hp : s.phase = .compare) : Advances s := by
  obtain ⟨hsome, hm, hdec, -, ⟨t, ht⟩, hpend⟩ := (phaseReady_compare hp).mp hr
  obtain ⟨g, hg⟩ := ho.tagin hdec
  have hmicro : engineMicro s = compareMicro s := by simp only [engineMicro_sequence hpend, sequenceMicro, hp]
  simp only [compareMicro, ht, hg, need_some] at hmicro
  refine .toNext (by simp [hp]) hmicro ?_ rfl fun hkept => ?_
  · obtain ⟨m, hmode⟩ := Option.isSome_iff_exists.mp hsome
    cases m <;> simp_all [phasesOf]
  · refine Iff.mpr (phaseReady_publish rfl) ⟨hkept.mode ▸ hsome, rfl, hpend, ?_⟩
    rw [hkept.kind, kind_aead hm, hdec]
    exact ⟨by simp, by simp, fun _ => ⟨_, rfl⟩⟩

/-! ## Every phase -/

/-- A ready engine of Romulus-N advances. -/
theorem romulusN_advances {s : State} (hr : phaseReady s = true) (hm : s.mode = some .romulusN) (hc : s.cfg.admitted = true)
    (ho : AeadWritten s) (hp : s.phase ≠ .publish) : Advances s := by
  cases hphase : s.phase with
  | ad => exact nAd_advances hr hm hc ho hphase
  | text => exact text_advances hr hm hc ho hphase
  | final => exact nFinal_advances hr hm hphase
  | compare => exact compare_advances hr ho hphase
  | publish => exact absurd hphase hp
  | _ => simp [phaseReady, hphase, hm] at hr

/-- A ready engine of Romulus-M advances. -/
theorem romulusM_advances {s : State} (hr : phaseReady s = true) (hm : s.mode = some .romulusM) (hc : s.cfg.admitted = true)
    (ho : AeadWritten s) (hp : s.phase ≠ .publish) : Advances s := by
  cases hphase : s.phase with
  | ad => exact mAd_advances hr hm hc ho hphase
  | mac => exact mac_advances hr hm hc ho hphase
  | crypt => exact crypt_advances hr hm hc ho hphase
  | final => exact mFinal_advances hr hm hc ho hphase
  | compare => exact compare_advances hr ho hphase
  | publish => exact absurd hphase hp
  | _ => simp [phaseReady, hphase, hm] at hr

/-- A ready engine of Romulus-T advances. -/
theorem romulusT_advances {s : State} (hr : phaseReady s = true) (hm : s.mode = some .romulusT) (hc : s.cfg.admitted = true)
    (ho : AeadWritten s) (hp : s.phase ≠ .publish) : Advances s := by
  cases hphase : s.phase with
  | kdf => exact kdf_advances hr hm hc ho hphase
  | stream => exact stream_advances hr hm hc ho hphase
  | hashblk => exact tHash_advances hr hm ho hphase
  | final => exact tFinal_advances hr hm hc hphase
  | compare => exact compare_advances hr ho hphase
  | publish => exact absurd hphase hp
  | _ => simp [phaseReady, hphase, hm] at hr

/-- A ready engine of Romulus-H advances. -/
theorem romulusH_advances {s : State} (hr : phaseReady s = true) (hm : s.mode = some .romulusH)
    (ho : operandsWritten s.kind s = true) (hp : s.phase ≠ .publish) : Advances s := by
  cases hphase : s.phase with
  | hashblk => exact hHash_advances hr hm ho hphase
  | publish => exact absurd hphase hp
  | _ => simp [phaseReady, hphase, hm] at hr

theorem mode_isSome_of_phaseReady {s : State} (h : phaseReady s = true) : ∃ m, s.mode = some m := by
  cases hm : s.mode with
  | some m => exact ⟨m, rfl⟩
  | none => cases hp : s.phase <;> simp [phaseReady, hp, hm] at h

/-- A ready engine advances in every phase but the last. -/
theorem engineReady_advances {s : State} (h : EngineReady s = true) (hp : s.phase ≠ .publish) : Advances s := by
  obtain ⟨-, hc, -, ho, hr⟩ := (engineReady_iff s).mp h
  obtain ⟨m, hm⟩ := mode_isSome_of_phaseReady hr
  cases m with
  | romulusH => exact romulusH_advances hr hm ho hp
  | romulusN => exact romulusN_advances hr hm hc (aeadWritten_of_operandsWritten (by simp [hm]) ho) hp
  | romulusM => exact romulusM_advances hr hm hc (aeadWritten_of_operandsWritten (by simp [hm]) ho) hp
  | romulusT => exact romulusT_advances hr hm hc (aeadWritten_of_operandsWritten (by simp [hm]) ho) hp

/-- What `START` checked, and what it found written, stays as it is until the end of the command. -/
theorem Kept.engineReady {s t : State} (k : Kept s t) (h : EngineReady s = true) (hr : phaseReady t = true) :
    EngineReady t = true := by
  obtain ⟨hb, hc, hchecks, ho, -⟩ := (engineReady_iff s).mp h
  refine (engineReady_iff t).mpr ⟨k.busy.trans hb, k.cfg ▸ hc, ?_, ?_, hr⟩
  · rw [← hchecks, k.kind]
    cases s.kind <;> simp only [precheck, k.cfg, k.klen, k.nlen, k.tglen, k.adlen, k.tlen]
  · rw [← ho, k.kind]
    cases s.kind <;> simp only [operandsWritten, k.key, k.nonce, k.tagin, k.adbuf, k.tin, k.adlen, k.tlen]

/-! ## The bound of `IDX` (R36) -/

theorem AtBlock.at_idx {s : State} {P : Nat → Prop} {i : Nat} (h : AtBlock s P) (hi : s.idx = some i) : P i := by
  rcases h with ⟨hnone, -⟩ | ⟨j, hj, hP⟩
  · simp [hi] at hnone
  · obtain rfl : j = i := by simpa [hi] using hj.symm
    exact hP

/-- The index is at most the number of blocks that its phase counts: of the associated data, of the text, or of the hashed
string. -/
theorem idx_le_of_phaseReady {s : State} (hr : phaseReady s = true) {i : Nat} (hi : s.idx = some i) :
    (s.mode ≠ some .romulusH ∧ i ≤ blockCount s.adlen) ∨ i ≤ blockCount s.tlen ∨ i ≤ hashLength s / 32 := by
  have htext : textBlockCount s.tlen ≤ blockCount s.tlen := le_max_right _ _
  obtain ⟨m, hm⟩ := mode_isSome_of_phaseReady hr
  cases hp : s.phase with
  | ad =>
    cases m with
    | romulusN =>
      obtain ⟨-, -, hle, -⟩ := ((phaseReady_nAd hp hm).mp hr).at_idx hi
      exact .inl ⟨by simp [hm], hle⟩
    | romulusM =>
      obtain ⟨-, hblock⟩ := (phaseReady_mAd hp hm).mp hr
      obtain ⟨-, -, hle, -⟩ := hblock.at_idx hi
      exact .inl ⟨by simp [hm], hle⟩
    | romulusH | romulusT => simp [phaseReady, hp, hm] at hr
  | text =>
    cases m with
    | romulusN =>
      obtain ⟨-, hblock⟩ := (phaseReady_text hp hm).mp hr
      obtain ⟨-, hlt, -⟩ := hblock.at_idx hi
      exact .inr (.inl hlt.le)
    | _ => simp [phaseReady, hp, hm] at hr
  | mac =>
    cases m with
    | romulusM =>
      obtain ⟨-, -, -, hblock⟩ := (phaseReady_mac hp hm).mp hr
      obtain ⟨hle, -⟩ := hblock.at_idx hi
      exact .inr (.inl hle)
    | _ => simp [phaseReady, hp, hm] at hr
  | crypt =>
    cases m with
    | romulusM =>
      obtain ⟨-, hblock⟩ := (phaseReady_crypt hp hm).mp hr
      obtain ⟨-, -, hle, -⟩ := hblock.at_idx hi
      exact .inr (.inl (hle.trans htext))
    | _ => simp [phaseReady, hp, hm] at hr
  | stream =>
    cases m with
    | romulusT =>
      obtain ⟨-, hblock⟩ := (phaseReady_stream hp hm).mp hr
      obtain ⟨-, hle, -⟩ := hblock.at_idx hi
      exact .inr (.inl (hle.trans htext))
    | _ => simp [phaseReady, hp, hm] at hr
  | hashblk =>
    cases m with
    | romulusH =>
      obtain ⟨-, hblock⟩ := (phaseReady_hash hp hm).mp hr
      obtain ⟨-, -, hle⟩ := hblock.at_idx hi
      exact .inr (.inr hle)
    | romulusT =>
      obtain ⟨-, -, -, -, hblock⟩ := (phaseReady_tHash hp hm).mp hr
      obtain ⟨-, -, hle⟩ := hblock.at_idx hi
      exact .inr (.inr hle)
    | _ => simp [phaseReady, hp, hm] at hr
  | _ => simp [phaseReady, hp, hi] at hr

theorem blockCount_le (n : Nat) : blockCount n ≤ n / 16 + 1 := by
  simp only [blockCount]
  omega

theorem authLength_le {la lm cap : Nat} (ha : la ≤ cap) (hm : lm ≤ cap) : authLength la lm / 32 ≤ cap / 16 + 1 := by
  simp only [authLength, ipadStarLength]
  split <;> split <;> omega

/-- The associated data of an authenticated-encryption command that passed its checks fits (R305). -/
theorem precheck_none_ad_fits {k : Kind} {s : State} (hk : k ≠ .hash) (h : precheck k s = none) : s.adlen ≤ s.cfg.bufCap := by
  cases k <;> simp only [precheck, ne_eq, not_true] at h hk <;> split_ifs at h <;> omega

/-- The index of a ready engine is at most `BUFCAP div 16 + 1`. -/
theorem engineReady_idx_le {s : State} (h : EngineReady s = true) {i : Nat} (hi : s.idx = some i) :
    i ≤ s.cfg.bufCap / 16 + 1 := by
  obtain ⟨-, -, hchecks, -, hr⟩ := (engineReady_iff s).mp h
  have htext := precheck_none_fits hchecks
  have had : s.mode ≠ some .romulusH → s.adlen ≤ s.cfg.bufCap := fun hm =>
    precheck_none_ad_fits (by rw [kind_aead hm]; split <;> simp) hchecks
  rcases idx_le_of_phaseReady hr hi with ⟨hm, hle⟩ | hle | hle
  · have := blockCount_le s.adlen
    have := had hm
    omega
  · have := blockCount_le s.tlen
    omega
  · unfold hashLength at hle
    split at hle
    · omega
    · exact hle.trans (authLength_le (had (by assumption)) htext)

/-- A capacity that the length registers can state leaves room for the index (R7, R36). -/
theorem idx_lt_of_admitted {c : Config} (hc : c.admitted = true) {i : Nat} (hi : i ≤ c.bufCap / 16 + 1) :
    i < 2 ^ c.lenWidth := by
  obtain ⟨-, -, -, hwidth, hcap⟩ := (admitted_iff c).mp hc
  have htwo : 2 ≤ 2 ^ c.lenWidth := Nat.le_self_pow (by omega) 2
  omega

/-! ## The publication -/

/-- The last micro-operation of a ready engine ends the command without error (R309). -/
theorem engineReady_publishes {s : State} (h : EngineReady s = true) (hp : s.phase = .publish) :
    ∃ t, engineMicro s = .next t ∧ t.busy = false ∧ statusDone t.status = true ∧ statusErr t.status = false := by
  obtain ⟨-, -, -, -, hr⟩ := (engineReady_iff s).mp h
  obtain ⟨-, -, hpend, hhash, hencrypt, hdecrypt⟩ := (phaseReady_publish hp).mp hr
  have hmicro : engineMicro s = publishMicro s := by simp only [engineMicro_sequence hpend, sequenceMicro, hp]
  obtain ⟨t, ht⟩ : ∃ t, publishMicro s = .next t := by
    cases hk : s.kind with
    | hash =>
      obtain ⟨⟨l, hl⟩, r, hr⟩ := hhash hk
      simp [publishMicro, hk, hl, hr]
    | encrypt =>
      obtain ⟨g, hg⟩ := hencrypt hk
      simp [publishMicro, hk, hg]
    | decrypt =>
      obtain ⟨a, ha⟩ := hdecrypt hk
      by_cases h0 : a = 0#8
      · exact ⟨_, publishMicro_valid hk (h0 ▸ ha)⟩
      · exact ⟨_, publishMicro_invalid hk ha h0⟩
  obtain ⟨g, d, v, m, n, -, rfl⟩ := publishMicro_destroys ht
  obtain ⟨hbusy, hdone, -, herr, -⟩ := statusOf_fields false true v false 0
  exact ⟨_, hmicro.trans ht, hbusy, hdone, herr⟩

/-- Settles O51: in the last phase the publication ends the command; in every other the engine advances, and `Kept` leaves
what `START` has checked as it is, from which the bound of the index follows. -/
theorem readyEngineNeverStops : Obligations.ReadyEngineNeverStops := by
  intro s h
  by_cases hp : s.phase = .publish
  · obtain ⟨t, ht, hend⟩ := engineReady_publishes h hp
    exact ⟨t, ht, .inr hend⟩
  · obtain ⟨t, ht, hr, hmoves⟩ := engineReady_advances h hp
    have hkept := engineMicro_kept hp ht
    have hready := hkept.engineReady h hr
    refine ⟨t, ht, .inl ⟨hready, hmoves, fun i hi => ?_⟩⟩
    have hle := engineReady_idx_le hready hi
    obtain ⟨-, hc, -⟩ := (engineReady_iff t).mp hready
    rw [← hkept.cfg]
    exact ⟨hle, idx_lt_of_admitted hc hle⟩

end Sys2Proof.Machine

/-! Proofs for `START` (60_exceptions.md): the order of its checks, its errors, `CLEAR`, the writes that are ignored, and that a
command that starts leaves the engine ready. -/

namespace Sys2Proof.Machine

open Sys2Proof

/-! ## The checks of `START` (R307) -/

/-- Step 1 of `START` changes nothing that the checks of a command look at. -/
theorem precheck_latch (v : Byte) (k : Kind) (s : State) : precheck k (latch v s) = precheck k s := by cases k <;> rfl

theorem operandsWritten_latch (v : Byte) (k : Kind) (s : State) : operandsWritten k (latch v s) = operandsWritten k s := by
  cases k <;> rfl

/-- `START` of a primitive on an idle block: steps 4 to 7 of R307, in order. -/
theorem startPrimitive_checks {s : State} (hb : s.busy = false) (v : Byte) (k : Kind) (p : Phase) :
    startPrimitive v k p s =
      if k ≠ .hash ∧ s.klen ≠ 16 then .next (raiseError .badKeyLen (latch v s))
      else if k ≠ .hash ∧ s.nlen ≠ 16 then .next (raiseError .badNonceLen (latch v s))
      else if k = .decrypt ∧ s.tglen ≠ 16 then .next (raiseError .badTagLen (latch v s))
      else if k ≠ .hash ∧ s.cfg.bufCap < s.adlen then .next (raiseError .lenRange (latch v s))
      else if s.cfg.bufCap < s.tlen then .next (raiseError .lenRange (latch v s))
      else if operandsWritten k s = true then .next { latch v s with status := statusRunning, phase := p }
      else .next (raiseFault .unwrittenOperand (latch v s)) := by
  rw [startPrimitive, if_neg (by simp [hb]), precheck_latch, operandsWritten_latch]
  cases k <;> simp only [precheck, ne_eq, reduceCtorEq, not_true, not_false_eq_true, true_and, false_and, if_false]
  all_goals split_ifs <;> rfl

/-- A text is written when each of its bytes is (R307 step 6). -/
theorem Memory.writtenTo_iff (m : Memory) (n : Nat) : m.writtenTo n = true ↔ ∀ a, a < n → (m.read a).isSome = true := by
  simp [Memory.writtenTo, Memory.readRange_isSome]

/-- The table of R93: what each kind of command reads is written. -/
theorem operandsWritten_iff (k : Kind) (s : State) :
    operandsWritten k s = true ↔
      (k ≠ .hash → s.key.value.isSome = true ∧ s.nonce.value.isSome = true ∧
        ∀ a, a < s.adlen → (s.adbuf.read a).isSome = true) ∧
      (k = .decrypt → s.tagin.value.isSome = true) ∧ ∀ a, a < s.tlen → (s.tin.read a).isSome = true := by
  simp only [← Memory.writtenTo_iff]
  cases k <;> simp only [operandsWritten, Bool.and_eq_true, ne_eq, reduceCtorEq, not_true, not_false_eq_true, forall_const,
    false_imp_iff, true_and] <;> tauto

/-- A command word other than `CLEAR` is `START` of a primitive, whose kind and first phase its row says (R91, R307). -/
theorem primitive_row {v : Byte} {i : Instr} (h : decodeCommand v = .ok i) (hv : v ≠ 0#8) :
    ∃ k, exec i = startPrimitive v k (firstPhase i) ∧
      ((v = 4#8 ∨ v = 5#8 ∨ v = 6#8 ∨ v = 7#8 ∨ v = 8#8 ∨ v = 9#8) ↔ k ≠ .hash) ∧
      ((v = 5#8 ∨ v = 7#8 ∨ v = 9#8) ↔ k = .decrypt) ∧
      (if v = 2#8 then Phase.hashblk else if v = 4#8 ∨ v = 5#8 ∨ v = 6#8 then .ad else if v = 7#8 then .crypt else .kdf) =
        firstPhase i := by
  have hrow := (commandWordsAreTheOpcodeMap v i).mp h
  simp only [List.mem_cons, Prod.mk.injEq, List.not_mem_nil, or_false] at hrow
  rcases hrow with ⟨rfl, rfl⟩ | ⟨rfl, rfl⟩ | ⟨rfl, rfl⟩ | ⟨rfl, rfl⟩ | ⟨rfl, rfl⟩ | ⟨rfl, rfl⟩ | ⟨rfl, rfl⟩ | ⟨rfl, rfl⟩
  · exact absurd rfl hv
  · exact ⟨.hash, rfl, by decide, by decide, by decide⟩
  · exact ⟨.encrypt, rfl, by decide, by decide, by decide⟩
  · exact ⟨.decrypt, rfl, by decide, by decide, by decide⟩
  · exact ⟨.encrypt, rfl, by decide, by decide, by decide⟩
  · exact ⟨.decrypt, rfl, by decide, by decide, by decide⟩
  · exact ⟨.encrypt, rfl, by decide, by decide, by decide⟩
  · exact ⟨.decrypt, rfl, by decide, by decide, by decide⟩

/-- The eight command words (R91). -/
theorem decodeCommand_ok_iff {v : Byte} :
    (∃ i, decodeCommand v = .ok i) ↔
      v = 0#8 ∨ v = 2#8 ∨ v = 4#8 ∨ v = 5#8 ∨ v = 6#8 ∨ v = 7#8 ∨ v = 8#8 ∨ v = 9#8 := by
  simp [commandWordsAreTheOpcodeMap v, exists_or]

/-- Settles O6: a reserved word and `CLEAR` are what they are at once; a primitive makes the checks of its kind, and they are those
that the statement makes of its word. -/
theorem startChecksInOrder : Obligations.StartChecksInOrder := by
  intro v s hb
  refine ⟨[], rfl, ?_⟩
  intro begun cleared error aead decrypt first
  cases hd : decodeCommand v with
  | error e =>
    have hreserved : ¬(v = 0#8 ∨ v = 2#8 ∨ aead) := mt decodeCommand_ok_iff.mpr (by simp [hd])
    rw [if_pos hreserved, start_error hd, startReserved_eq, if_neg (by simp [hb])]
    rfl
  | ok i =>
    have hword : v = 0#8 ∨ v = 2#8 ∨ aead := decodeCommand_ok_iff.mp ⟨i, hd⟩
    rw [start_ok hd, if_neg (not_not.mpr hword)]
    by_cases hv : v = 0#8
    · subst hv
      obtain rfl : i = .clear := by simpa [decodeCommand] using hd.symm
      rw [if_pos rfl, exec, execClear_eq, if_neg (by simp [hb])]
      rfl
    · obtain ⟨k, hexec, haead, hdecrypt, hfirst⟩ := primitive_row hd hv
      have haead : aead ↔ k ≠ .hash := haead
      have hdecrypt : decrypt ↔ k = .decrypt := hdecrypt
      have hfirst : first = firstPhase i := hfirst
      have htag : k ≠ .hash ∧ k = .decrypt ∧ s.tglen ≠ 16 ↔ k = .decrypt ∧ s.tglen ≠ 16 := by cases k <;> simp
      rw [if_neg hv, hexec, startPrimitive_checks hb, hfirst]
      simp only [haead, hdecrypt, htag, ← operandsWritten_iff, ite_not]
      split_ifs <;> rfl

/-! ## Errors (R308) -/

/-- The errors of `START` that an idle block can make, with the word itself latched. -/
theorem start_error_outcome {v : Byte} {s t : State} (hb : s.busy = false) (h : start v s = .next t)
    (herr : statusErr t.status = true) : ∃ c, t = raiseError c (latch v s) := by
  cases hd : decodeCommand v with
  | error e =>
    rw [start_error hd, startReserved_eq, if_neg (by simp [hb])] at h
    cases h
    exact ⟨_, rfl⟩
  | ok i =>
    rw [start_ok hd] at h
    by_cases hv : v = 0#8
    · subst hv
      obtain rfl : i = .clear := by simpa [decodeCommand] using hd.symm
      rw [exec, execClear_eq, if_neg (by simp [hb])] at h
      cases h
      simp at herr
    · obtain ⟨k, hexec, -⟩ := primitive_row hd hv
      rw [hexec] at h
      rcases startPrimitive_cases v k (firstPhase i) s with ⟨hbusy, -⟩ | ⟨-, ⟨c, -, e⟩ | ⟨-, -, e⟩ | ⟨-, -, e⟩⟩
      · simp [hb] at hbusy
      all_goals
        rw [e] at h
        cases h
      · exact ⟨c, rfl⟩
      all_goals simp at herr

theorem statusError_eq_append (c : ErrorCode) : statusError c = ecodeOf c ++ 0b1010#4 := by cases c <;> rfl

theorem ecodeOf_range (c : ErrorCode) : 1 ≤ (ecodeOf c).toNat ∧ (ecodeOf c).toNat ≤ 5 := by cases c <;> decide

/-- Settles O7: the error outcome unwrites the operands and reports the code; the invariant says what an idle block holds. -/
theorem errorEntryIsExact : Obligations.ErrorEntryIsExact := by
  intro v s t hinv hb h herr
  obtain ⟨c, rfl⟩ := start_error_outcome hb h herr
  obtain ⟨hlow, hhigh⟩ := ecodeOf_range c
  refine ⟨⟨ecodeOf c, hlow, hhigh, ?_⟩, hinv.phase_idle hb, hinv.idle_clean hb, rfl⟩
  rw [raiseError, statusError_eq_append]
  rfl

/-! ## `CLEAR` (R312) -/

/-- Settles O9: on an idle block `CLEAR` has one outcome, and right after reset that is the state itself. -/
theorem clearEmptiesTheBlock : Obligations.ClearEmptiesTheBlock := by
  have hclear : ∀ s : State, s.busy = false →
      exec .clear s = .next { unwriteOperands (latch (encode .clear) s) with status := statusClear, phase := .idle } :=
    fun s hb => (execClear_eq s).trans (if_neg (by simp [hb]))
  exact ⟨fun s hb => ⟨[], rfl, hclear s hb⟩, fun c => hclear _ (by simp [State.busy, State.resetWith, statusBusy])⟩

/-! ## Ignored writes (R306) -/

/-- While `BUSY = 0` a byte of `TOUT` or at or beyond `BUFCAP` is not written (R30). -/
theorem writeBufferByte_ignored {s : State} (hb : s.busy = false) {sp : Space} {off : Nat}
    (h : sp = .tout ∨ s.cfg.bufCap ≤ off) (b : Byte) : writeBufferByte sp off b s = .next s := by
  unfold writeBufferByte
  rw [if_neg (by simp [hb])]
  split
  · rfl
  · obtain rfl := h.resolve_right (by assumption)
    rfl

/-- Settles O11: in the default map an offset that is named is `STATUS`, a result, or in no row. -/
theorem ignoredWritesChangeNothing : Obligations.IgnoredWritesChangeNothing := by
  intro s b rest hf hb
  have hreg : ∀ off, writeIdleRegister (registerAt s.cfg off) b { s with script := rest } = .next { s with script := rest } →
      s.script = .writeReg off [b] :: rest → step s = .next { s with script := rest } := by
    intro off h hs
    rw [step_action hf hs, hostTurn, writeRegisters_singleton, writeRegisterByte_idle (s := { s with script := rest }) hb]
    exact h
  refine ⟨fun off hmap hoff => hreg off ?_, fun off hnone => hreg off (by rw [hnone]; rfl), fun sp off h hs => ?_⟩
  · rcases registerAt_cases s.cfg off with ⟨w, hw, i, hi, rfl, hr⟩ | ⟨hr, -⟩
    · have hrows : ∀ w ∈ Config.defaultRegMap, ∀ i < w.size,
          w.base + i = 1 ∨ (5 ≤ w.base + i ∧ w.base + i ≤ 7) ∨ 0x40 ≤ w.base + i →
            w.reg = .status ∨ w.reg = .tagout ∨ w.reg = .digest := by decide
      rw [hr]
      rcases hrows w (hmap ▸ hw) i hi hoff with h | h | h <;> rw [h] <;> rfl
    · rw [hr]; rfl
  · rw [step_action hf hs, hostTurn, writeBuffer, writeBufferByte_ignored (s := { s with script := rest }) hb h]
    rfl

/-! ## The mark -/

/-! ## A started command is ready (R307 step 7) -/

/-- Mode and direction of each primitive, from the fields of its command word (R90, R91). -/
theorem mode_decrypting_of_op {i : Instr} {m : Mode} {dec : Bool}
    (h : (i, m, dec) ∈
      [(Instr.hash, Mode.romulusH, false), (.nEnc, .romulusN, false), (.nDec, .romulusN, true), (.mEnc, .romulusM, false),
        (.mDec, .romulusM, true), (.tEnc, .romulusT, false), (.tDec, .romulusT, true)])
    {u : State} (hop : u.op = encode i) : u.mode = some m ∧ u.decrypting = dec := by
  simp only [State.mode, State.decrypting, hop]
  fin_cases h <;> exact ⟨rfl, rfl⟩

/-- An idle block has no index and no invocation pending (R38). -/
theorem Inv.idle_entry {s : State} (h : Inv s) (hb : s.busy = false) : s.idx = none ∧ s.pending = false := by
  have hclean := h.idle_clean hb
  simp only [internalsUnwritten, Bool.and_eq_true, Option.isNone_iff_eq_none, Bool.not_eq_true'] at hclean
  tauto

/-- A primitive that goes from idle to `BUSY` is ready when it is so at the entry of its first phase. -/
theorem startPrimitive_ready {i : Instr} {k : Kind} {p : Phase} {s t : State} (hinv : Inv s) (hb : s.busy = false)
    (hc : s.cfg.admitted = true) (h : startPrimitive (encode i) k p s = .next t) (hbusy : t.busy = true)
    (hentry : t.op = encode i → t.phase = p → t.idx = none → t.pending = false → t.kind = k ∧ phaseReady t = true) :
    EngineReady t = true := by
  obtain ⟨hi, hpend⟩ := hinv.idle_entry hb
  rcases startPrimitive_cases (encode i) k p s with ⟨hs, -⟩ | ⟨-, ⟨c, -, e⟩ | ⟨hchecks, hwritten, e⟩ | ⟨-, -, e⟩⟩
  · simp [hb] at hs
  all_goals
    rw [e] at h
    cases h
  case inr.inr.inl =>
    obtain ⟨hkind, hready⟩ := hentry rfl rfl hi hpend
    refine (engineReady_iff _).mpr ⟨hbusy, hc, ?_, ?_, hready⟩
    · rw [hkind, ← hchecks]
      cases k <;> rfl
    · rw [hkind, ← hwritten]
      cases k <;> rfl
  all_goals simp [State.busy] at hbusy

/-- Settles O50: each primitive is ready in its first phase as soon as it is entered. -/
theorem startMakesTheEngineReady : Obligations.StartMakesTheEngineReady := by
  intro i s t hi hinv hb hc h hbusy
  cases i <;> simp only [Instr.format, reduceCtorEq] at hi
  case clear =>
    rw [exec, execClear_eq, if_neg (by simp [hb])] at h
    cases h
    simp [State.busy] at hbusy
  all_goals
    refine startPrimitive_ready hinv hb hc h hbusy fun hop hp hidx hpend => ?_
    obtain ⟨hm, hd⟩ := mode_decrypting_of_op (by simp; exact ⟨rfl, rfl⟩) hop
    refine ⟨by simp [State.kind, hm, hd], ?_⟩
  case hash => exact (phaseReady_hash hp hm).mpr ⟨hpend, .inl ⟨hidx, hpend⟩⟩
  case nEnc | nDec => exact (phaseReady_nAd hp hm).mpr (.inl ⟨hidx, hpend⟩)
  case mEnc => exact (phaseReady_mAd hp hm).mpr ⟨by simp [hd], .inl ⟨hidx, hpend⟩⟩
  case mDec => exact (phaseReady_crypt hp hm).mpr ⟨by simp [hd], .inl ⟨hidx, hpend⟩⟩
  case tEnc | tDec => exact (phaseReady_kdf hp hm).mpr ⟨hidx, pendingIs_of_not_pending hpend _⟩

end Sys2Proof.Machine

/-! Proof that the mark `FAULT` ends the run and is never cleared (60_exceptions.md, R306): what each turn keeps, and which faults
the engine's micro-operations have. -/

namespace Sys2Proof.Machine

open Sys2Proof

/-! ## The mark (R306) -/

/-- The configuration is as it was, and the mark, if it was set, has its reason. -/
structure MarkKept (s t : State) : Prop where
  cfg : t.cfg = s.cfg
  mark : ∀ r, s.fault = some r → t.fault = some r

theorem MarkKept.of_eq {s t : State} (hc : t.cfg = s.cfg) (hf : t.fault = s.fault) : MarkKept s t := ⟨hc, fun _ h => hf.trans h⟩

theorem MarkKept.trans {s t u : State} (h : MarkKept s t) (g : MarkKept t u) : MarkKept s u :=
  ⟨g.cfg.trans h.cfg, fun r hr => g.mark r (h.mark r hr)⟩

theorem raiseFault_markKept (r : FaultReason) (s : State) : MarkKept s (raiseFault r s) :=
  ⟨rfl, fun q hq => by simp [raiseFault, hq]⟩

theorem Started.markKept {s t : State} (h : Started s t) : MarkKept s t := by
  cases h with
  | busy _ => exact raiseFault_markKept _ s
  | unwritten v _ => exact (MarkKept.of_eq rfl rfl : MarkKept s (latch v s)).trans (raiseFault_markKept _ _)
  | error | clear | running => exact .of_eq rfl rfl

theorem engineMicro_markKept {s t : State} (h : engineMicro s = .next t) : MarkKept s t := by
  obtain ⟨hcfg, -, -, -, -, -, -, -, -, hfault, -⟩ := engineLeavesInputsAlone s t h
  exact .of_eq hcfg hfault

/-- An outcome that goes on from `s`, the mark and the configuration kept. -/
def GoesOn (s : State) (o : Out State) : Prop := ∃ t, o = .next t ∧ MarkKept s t

theorem GoesOn.of_eq {s t : State} (hc : t.cfg = s.cfg) (hf : t.fault = s.fault) : GoesOn s (.next t) := ⟨t, rfl, .of_eq hc hf⟩

theorem raiseFault_goesOn (r : FaultReason) (s : State) : GoesOn s (.next (raiseFault r s)) := ⟨_, rfl, raiseFault_markKept r s⟩

theorem start_goesOn (v : Byte) (s : State) : GoesOn s (start v s) := by
  obtain ⟨t, ht⟩ : ∃ t, start v s = .next t := by
    cases hd : decodeCommand v with
    | ok i => exact start_ok hd s ▸ exec_command_next (decodeCommand_format hd) s
    | error e =>
      rw [start_error hd, startReserved_eq]
      split <;> exact ⟨_, rfl⟩
  exact ⟨t, ht, (start_started ht).markKept⟩

theorem writeRegisterByte_goesOn (off : Nat) (b : Byte) (s : State) : GoesOn s (writeRegisterByte off b s) := by
  unfold writeRegisterByte
  split
  · exact raiseFault_goesOn _ s
  · rcases registerAt s.cfg off with _ | ⟨reg, i⟩
    · exact .of_eq rfl rfl
    · cases reg with
      | cmd => exact start_goesOn b s
      | _ => exact .of_eq rfl rfl

theorem writeBufferByte_goesOn (sp : Space) (off : Nat) (b : Byte) (s : State) : GoesOn s (writeBufferByte sp off b s) := by
  unfold writeBufferByte
  split
  · exact raiseFault_goesOn _ s
  · split
    · exact .of_eq rfl rfl
    · cases sp <;> exact .of_eq rfl rfl

/-- A write goes on when that of each of its bytes does (log 13). -/
theorem bytewise_goesOn {write : Nat → Byte → State → Out State} {writes : Nat → List Byte → State → Out State}
    (hnil : ∀ off t, writes off [] t = .next t)
    (hcons : ∀ off b bs t, writes off (b :: bs) t = andThen (write off b t) (writes (off + 1) bs))
    (hbyte : ∀ off b t, GoesOn t (write off b t)) (off : Nat) (bs : List Byte) (s : State) : GoesOn s (writes off bs s) := by
  induction bs generalizing off s with
  | nil => exact hnil off s ▸ .of_eq rfl rfl
  | cons b bs ih =>
    obtain ⟨u, hu, hmark⟩ := hbyte off b s
    obtain ⟨t, ht, hmark'⟩ := ih (off + 1) u
    exact ⟨t, by rw [hcons, hu, andThen_next, ht], hmark.trans hmark'⟩

theorem returnBytes_goesOn (r : Except FaultReason (List Byte)) (s : State) : GoesOn s (returnBytes r s) := by
  cases r with
  | ok bs => exact .of_eq rfl rfl
  | error r => exact raiseFault_goesOn r s

/-- Every turn goes on, but for the micro-operation of a busy block, which may stop. -/
theorem turn_goesOn (s : State) :
    GoesOn s (turn s) ∨ s.busy = true ∧ ∃ u, MarkKept s u ∧ turn s = engineMicro u := by
  have hengine : ∀ u, MarkKept s u → u.busy = s.busy →
      GoesOn s (engineTurn u) ∨ s.busy = true ∧ ∃ w, MarkKept s w ∧ engineTurn u = engineMicro w := by
    intro u hmark hbusy
    unfold engineTurn
    split
    next h => exact .inr ⟨hbusy ▸ h, u, hmark, rfl⟩
    next => exact .inl ⟨u, rfl, hmark⟩
  unfold turn
  split
  · exact hengine s (.of_eq rfl rfl) rfl
  · rename_i a rest _
    have hscript : ∀ {o}, GoesOn { s with script := rest } o → GoesOn s o := fun ⟨t, ht, hmark⟩ =>
      ⟨t, ht, hmark.cfg, hmark.mark⟩
    cases a with
    | idle => exact hengine _ (.of_eq rfl rfl) rfl
    | start v => exact .inl (hscript (start_goesOn v _))
    | writeReg off bs =>
      exact .inl (hscript (bytewise_goesOn (fun _ _ => rfl) (fun _ _ _ _ => rfl) writeRegisterByte_goesOn off bs _))
    | readReg off n => exact .inl (hscript (returnBytes_goesOn _ _))
    | writeBuf sp off bs =>
      exact .inl (hscript (bytewise_goesOn (fun _ _ => rfl) (fun _ _ _ _ => rfl) (writeBufferByte_goesOn sp) off bs _))
    | readBuf sp off n => exact .inl (hscript (returnBytes_goesOn _ _))
    | wait =>
      simp only [hostTurn]
      split
      next h => exact .inr ⟨h, s, .of_eq rfl rfl, rfl⟩
      next => exact .inl (.of_eq rfl rfl)
    | reset => exact .inl (.of_eq rfl rfl)

theorem turn_markKept {s t : State} (h : turn s = .next t) : MarkKept s t := by
  rcases turn_goesOn s with ⟨u, hu, hmark⟩ | ⟨-, u, hmark, hu⟩
  · obtain rfl : u = t := by simpa [hu] using h
    exact hmark
  · exact hmark.trans (engineMicro_markKept (hu ▸ h))

/-! ## The faults of the engine -/

/-- Of the faults an outcome can be only the unwritten register (log 17). -/
def FaultsUnwritten (o : Out State) : Prop := ∀ r, o = .fault r → r = .engineUnwritten

theorem FaultsUnwritten.next (s : State) : FaultsUnwritten (.next s) := by rintro r ⟨⟩

theorem FaultsUnwritten.refused (r : Refusal) : FaultsUnwritten (.refused r) := by rintro q ⟨⟩

theorem FaultsUnwritten.need {α : Type} {x : Option α} {f : α → Out State} (h : ∀ a, FaultsUnwritten (f a)) :
    FaultsUnwritten (need x f) := by
  cases x with
  | none =>
    rintro r ⟨⟩
    rfl
  | some a => exact h a

theorem FaultsUnwritten.andThen {o : Out State} {f : State → Out State} (ho : FaultsUnwritten o)
    (hf : ∀ s, FaultsUnwritten (f s)) : FaultsUnwritten (andThen o f) := by
  cases o with
  | next s => exact hf s
  | fault r => exact ho
  | refused r => exact .refused r

theorem FaultsUnwritten.ite {p : Prop} [Decidable p] {a b : Out State} (ha : FaultsUnwritten a) (hb : FaultsUnwritten b) :
    FaultsUnwritten (if p then a else b) := by
  split
  · exact ha
  · exact hb

section

variable (s : State)

theorem stepCounter_faults : FaultsUnwritten (stepCounter s) := .need fun _ => .need fun _ => .next _

theorem pairMicro_faults (sp : Space) (len n : Nat) (tag : Instr) : FaultsUnwritten (pairMicro sp len n tag s) :=
  .need fun _ => .need fun _ => .ite (.need fun _ => .need fun _ => stepCounter_faults _) (.next _)

/-- A domain row (R97). -/
theorem exec_faults {i : Instr} (hi : i.format = .domain) : FaultsUnwritten (exec i s) := by
  cases i with
  | nMsg | nMsgLastFull | nMsgLastPart | nAdLastFull | nAdLastPart | mCrypt | mFinal =>
    exact .need fun _ => .need fun _ => .need fun _ => .need fun _ => .next _
  | nAd | mAd | mMsg => exact .need fun _ => .need fun _ => .need fun _ => .need fun _ => .need fun _ => .next _
  | tKdf => exact .need fun _ => .need fun _ => .next _
  | tKs => exact .need fun _ => .need fun _ => .need fun _ => .need fun _ => .need fun _ => .next _
  | tKu | tTgf => exact .need fun _ => .need fun _ => .need fun _ => .next _
  | clear | hash | nEnc | nDec | mEnc | mDec | tEnc | tDec => cases hi

/-- The rest of a loop body. -/
theorem afterInvocation_faults (i : Instr) : FaultsUnwritten (afterInvocation i s) := by
  cases i with
  | nAd | mAd | mMsg | tKu => exact stepCounter_faults s
  | nAdLastFull | nAdLastPart | nMsgLastFull | nMsgLastPart | tKdf | tTgf => exact .next _
  | nMsg | mFinal => exact .need fun _ => .next _
  | mCrypt => exact .need fun _ => .need fun _ => .need fun _ => stepCounter_faults _
  | tKs => exact .need fun _ => .need fun _ => .ite (.next _) (stepCounter_faults s)
  | clear | hash | nEnc | nDec | mEnc | mDec | tEnc | tDec => exact .refused _

theorem invocationMicro_faults : FaultsUnwritten (invocationMicro s) := by
  refine .need fun w => ?_
  split
  · exact .refused _
  · split
    next h => exact .andThen (exec_faults s (decodeDomain_format h)) fun t => afterInvocation_faults t _
    next => exact .refused _

theorem nAdMicro_faults : FaultsUnwritten (nAdMicro s) := by
  unfold nAdMicro
  split
  · exact .next _
  · exact .ite (pairMicro_faults _ _ _ _ _) (.need fun _ => .next _)

theorem mAdMicro_faults : FaultsUnwritten (mAdMicro s) := by
  unfold mAdMicro
  split
  · exact .next _
  · exact .ite (pairMicro_faults _ _ _ _ _) (.next _)

theorem nTextMicro_faults : FaultsUnwritten (nTextMicro s) := by
  unfold nTextMicro
  split
  · exact .next _
  · exact .need fun _ => .need fun _ => .need fun _ => .next _

theorem mMacMicro_faults : FaultsUnwritten (mMacMicro s) := by
  unfold mMacMicro
  split
  · exact .next _
  · exact .ite (pairMicro_faults _ _ _ _ _) (.next _)

theorem mCryptMicro_faults : FaultsUnwritten (mCryptMicro s) := by
  unfold mCryptMicro
  split
  · exact .need fun _ => .next _
  · exact .need fun _ => .ite (.next _) (.next _)

theorem tStreamMicro_faults : FaultsUnwritten (tStreamMicro s) := by
  unfold tStreamMicro
  split
  · exact .next _
  · exact .need fun _ => .ite (.next _) (.next _)

theorem hashMicro_faults : FaultsUnwritten (hashMicro s) := by
  unfold hashMicro
  split
  · exact .next _
  · exact .need fun _ => .need fun _ => .need fun _ => .ite (.next _) (.next _)

theorem publishMicro_faults : FaultsUnwritten (publishMicro s) := by
  unfold publishMicro
  split
  · exact .need fun _ => .need fun _ => .next _
  · exact .need fun _ => .next _
  · exact .need fun _ => .ite (.next _) (.next _)

theorem sequenceMicro_faults : FaultsUnwritten (sequenceMicro s) := by
  unfold sequenceMicro
  cases s.phase with
  | idle => exact .refused _
  | ad =>
    rcases s.mode with _ | _ | _ | _ | _
    case some.romulusN => exact nAdMicro_faults s
    case some.romulusM => exact mAdMicro_faults s
    all_goals exact .refused _
  | text => exact nTextMicro_faults s
  | mac => exact mMacMicro_faults s
  | crypt => exact mCryptMicro_faults s
  | kdf => exact .next _
  | stream => exact tStreamMicro_faults s
  | hashblk => exact hashMicro_faults s
  | final =>
    rcases s.mode with _ | _ | _ | _ | _
    case some.romulusN | some.romulusM => exact .need fun _ => .next _
    case some.romulusT => exact .next _
    all_goals exact .refused _
  | compare => exact .need fun _ => .need fun _ => .next _
  | publish => exact publishMicro_faults s

/-- A micro-operation that faults has met an unwritten register. -/
theorem engineMicro_faults : FaultsUnwritten (engineMicro s) := .ite (invocationMicro_faults s) (sequenceMicro_faults s)

end

/-- No turn ends the run: only a state with the mark does. -/
theorem turn_ne_runEnded (s : State) (r : FaultReason) : turn s ≠ .fault (.runEnded r) := by
  intro h
  rcases turn_goesOn s with ⟨t, ht, -⟩ | ⟨-, u, -, hu⟩
  · rw [ht] at h
    cases h
  · cases engineMicro_faults u _ (hu.symm.trans h)

theorem step_eq_runEnded_iff (s : State) (r : FaultReason) : step s = .fault (.runEnded r) ↔ s.fault = some r := by
  cases hf : s.fault with
  | none => simp [step, hf, turn_ne_runEnded]
  | some q => simp [step, hf]

/-- Settles O54: a turn keeps the mark and the configuration, and stops only as a micro-operation that meets an unwritten register
or has no meaning. -/
theorem faultMarkIsNeverCleared : Obligations.FaultMarkIsNeverCleared := by
  refine ⟨fun s t h => ?_, step_eq_runEnded_iff, fun s t r hr h => (turn_markKept h).mark r hr,
    fun i s hi => exec_command_next hi s, fun s hf hb => ?_⟩
  · obtain ⟨hf, ht⟩ := step_cases h
    exact ⟨hf, (turn_markKept ht).cfg⟩
  · rcases turn_goesOn s with ⟨t, ht, -⟩ | ⟨hbusy, -⟩
    · exact ⟨t, by simp only [step, hf, ht]⟩
    · simp [hb] at hbusy

end Sys2Proof.Machine

/-! Proofs for termination and for the idle block (60_exceptions.md, R340, R341, R350): every micro-operation of a ready engine
uses up one of the steps that the lengths allow its command, and what the `RESET` action and an idle block do. -/

namespace Sys2Proof.Machine

open Sys2Proof

/-! ## The place of the engine -/

/-- `PHASE` and `IDX` are the same. -/
def SamePlace (s t : State) : Prop := t.phase = s.phase ∧ t.idx = s.idx

/-- The next state of the outcome, if it is one, satisfies `P`. -/
def Answers (P : State → Prop) (o : Out State) : Prop := ∀ t, o = .next t → P t

section

variable {P : State → Prop}

theorem Answers.next {s : State} (h : P s) : Answers P (.next s) := by
  rintro t ⟨⟩
  exact h

theorem Answers.refused (r : Refusal) : Answers P (.refused r) := by rintro t ⟨⟩

theorem Answers.need {α : Type} {x : Option α} {f : α → Out State} (h : ∀ a, x = some a → Answers P (f a)) :
    Answers P (need x f) := by
  intro t ht
  obtain ⟨a, ha, ht⟩ := need_eq_next.mp ht
  exact h a ha t ht

theorem Answers.ite {p : Prop} [Decidable p] {a b : Out State} (ha : Answers P a) (hb : Answers P b) :
    Answers P (if p then a else b) := by
  split
  · exact ha
  · exact hb

/-- Entering a phase from another one. -/
theorem Answers.enter {s u : State} {p : Phase} (hp : p ≠ s.phase) : Answers (fun t => SamePlace s t → P t) (.next (enter p u)) :=
  .next fun ⟨hphase, _⟩ => absurd hphase hp

/-- Writing `IDX` for the first time, or counting it up. -/
theorem Answers.index {s u : State} (hu : u.idx ≠ s.idx) : Answers (fun t => SamePlace s t → P t) (.next u) :=
  .next fun ⟨_, hidx⟩ => absurd hidx hu

/-- The end of a loop body counts `IDX` up. -/
theorem Answers.stepCounter {s u : State} (hi : u.idx = s.idx) :
    Answers (fun t => SamePlace s t → P t) (stepCounter u) :=
  .need fun _ _ => .need fun i hu => .index (by simp [← hi, hu])

end

theorem invokeNonce_samePlace (i : Instr) (s : State) : Answers (SamePlace s) (invokeNonce i s) := by
  intro t ht
  obtain ⟨k, n, d, x, -, -, -, -, rfl⟩ := invokeNonce_eq_next ht
  simp [SamePlace]

theorem invokeBlock_samePlace (i : Instr) (sp : Space) (len : Nat) (s : State) :
    Answers (SamePlace s) (invokeBlock i sp len s) := by
  intro t ht
  obtain ⟨j, w, k, d, x, -, -, -, -, -, rfl⟩ := invokeBlock_eq_next ht
  simp [SamePlace]

/-- An invocation leaves the engine where it is. -/
theorem execDomain_samePlace {i : Instr} (hi : i.format = .domain) (s : State) : Answers (SamePlace s) (exec i s) := by
  cases i <;> simp only [Instr.format, reduceCtorEq] at hi
  case nAd | mAd | mMsg => exact invokeBlock_samePlace _ _ _ s
  case tKdf => exact .need fun _ _ => .need fun _ _ => .next (by simp [SamePlace])
  case tKu | tTgf => exact .need fun _ _ => .need fun _ _ => .need fun _ _ => .next (by simp [SamePlace])
  case tKs =>
    exact .need fun _ _ => .need fun _ _ => .need fun _ _ => .need fun _ _ => .need fun _ _ => .next (by simp [SamePlace])
  all_goals exact invokeNonce_samePlace _ s

/-- After an invocation in its own phase (R97) the engine moves on, but for the key update that follows a keystream block
(R263). -/
theorem afterInvocation_moves {i : Instr} {s : State} (hp : (placeOf i).2 = s.phase) :
    Answers (fun t => SamePlace s t → i = .tKs ∧ ∃ d, t = issue .tKu d s) (afterInvocation i s) := by
  cases i
  case nAd | mAd | mMsg | tKu => exact .stepCounter rfl
  case nMsg => exact .need fun _ hi => .index (by simp [hi])
  case mCrypt => exact .need fun _ _ => .need fun _ _ => .need fun _ _ => .stepCounter (by simp)
  case tKs => exact .need fun _ _ => .need fun d _ => .ite (.next fun _ => ⟨rfl, d, rfl⟩) (.stepCounter rfl)
  case mFinal => exact .need fun _ _ => .enter (by rw [← hp]; split <;> simp [placeOf])
  case tTgf => exact .enter (by rw [← hp]; split <;> simp [placeOf])
  case nAdLastFull | nAdLastPart | nMsgLastFull | nMsgLastPart | tKdf => exact .enter (by simp [← hp, placeOf])
  all_goals exact .refused _

section

variable (s : State)

/-- A state at the same place as `s` has an invocation pending. -/
def IssuesIfSamePlace (t : State) : Prop := SamePlace s t → t.pending = true

variable {s}

theorem issue_issues {i : Instr} {d : Counter} {u : State} : Answers (IssuesIfSamePlace s) (.next (issue i d u)) :=
  .next fun _ => rfl

theorem pairMicro_issues {sp : Space} {len n : Nat} {tag : Instr} : Answers (IssuesIfSamePlace s) (pairMicro sp len n tag s) :=
  .need fun _ _ => .need fun _ _ => .ite (.need fun _ _ => .need fun _ _ => .stepCounter (by simp)) issue_issues

theorem nAdMicro_issues : Answers (IssuesIfSamePlace s) (nAdMicro s) := by
  unfold nAdMicro
  cases hi : s.idx with
  | none => exact .index (by simp [startPairs, hi])
  | some i => exact .ite pairMicro_issues (.need fun _ _ => issue_issues)

theorem mAdMicro_issues (hp : s.phase = .ad) : Answers (IssuesIfSamePlace s) (mAdMicro s) := by
  unfold mAdMicro
  cases hi : s.idx with
  | none => exact .index (by simp [startPairs, hi])
  | some i => exact .ite pairMicro_issues (.enter (by simp [hp]))

theorem nTextMicro_issues : Answers (IssuesIfSamePlace s) (nTextMicro s) := by
  unfold nTextMicro
  cases hi : s.idx with
  | none => exact .index (by simp [hi])
  | some i => exact .need fun _ _ => .need fun _ _ => .need fun _ _ => issue_issues

theorem mMacMicro_issues (hp : s.phase = .mac) : Answers (IssuesIfSamePlace s) (mMacMicro s) := by
  unfold mMacMicro
  cases hi : s.idx with
  | none => exact .index (by simp [hi])
  | some i => exact .ite pairMicro_issues (.enter (by simp [hp]))

theorem mCryptMicro_issues (hp : s.phase = .crypt) : Answers (IssuesIfSamePlace s) (mCryptMicro s) := by
  unfold mCryptMicro
  cases hi : s.idx with
  | none => exact .need fun _ _ => .index (by simp [hi])
  | some i => exact .need fun _ _ => .ite issue_issues (.enter (by rw [hp]; split <;> simp))

theorem tStreamMicro_issues (hp : s.phase = .stream) : Answers (IssuesIfSamePlace s) (tStreamMicro s) := by
  unfold tStreamMicro
  cases hi : s.idx with
  | none => exact .index (by simp [hi])
  | some i => exact .need fun _ _ => .ite issue_issues (.enter (by simp [hp]))

theorem hashMicro_issues (hp : s.phase = .hashblk) : Answers (IssuesIfSamePlace s) (hashMicro s) := by
  unfold hashMicro
  cases hi : s.idx with
  | none => exact .index (by simp [hi])
  | some i =>
    exact .need fun _ _ => .need fun _ _ => .need fun _ _ =>
      .ite (.index (by simp [hi])) (.enter (by rw [hp]; split <;> simp))

theorem publishMicro_issues (hp : s.phase = .publish) : Answers (IssuesIfSamePlace s) (publishMicro s) := by
  rintro t ht ⟨hphase, -⟩
  obtain ⟨g, d, v, m, n, -, rfl⟩ := publishMicro_destroys ht
  simp [hp] at hphase

/-- With no invocation pending the engine moves on, or issues one. -/
theorem sequenceMicro_issues : Answers (IssuesIfSamePlace s) (sequenceMicro s) := by
  unfold sequenceMicro
  cases hp : s.phase with
  | idle => exact .refused _
  | ad =>
    rcases s.mode with _ | _ | _ | _ | _
    case some.romulusN => exact nAdMicro_issues
    case some.romulusM => exact mAdMicro_issues hp
    all_goals exact .refused _
  | text => exact nTextMicro_issues
  | mac => exact mMacMicro_issues hp
  | crypt => exact mCryptMicro_issues hp
  | kdf => exact issue_issues
  | stream => exact tStreamMicro_issues hp
  | hashblk => exact hashMicro_issues hp
  | final =>
    rcases s.mode with _ | _ | _ | _ | _
    case some.romulusN => exact .need fun _ _ => .enter (by rw [hp]; split <;> simp)
    case some.romulusM => exact .need fun _ _ => issue_issues
    case some.romulusT => exact issue_issues
    all_goals exact .refused _
  | compare => exact .need fun _ _ => .need fun _ _ => .enter (by simp [hp])
  | publish => exact publishMicro_issues hp

end

/-! ## The tag of the pending invocation -/

theorem pendingIs_decoded {s : State} {i : Instr} (hp : s.pending = true) (h : pendingIs i s = true) :
    ∃ b, s.tk1.bind (tagOf s.cfg) = some b ∧ decodeDomain s.cfg.domain b = .ok i := by
  simp only [pendingIs, hp, Bool.not_true, Bool.false_or] at h
  split at h
  · exact ⟨_, by assumption, by simpa using h⟩
  · cases h

theorem pendingIs_format {s : State} {i : Instr} (hp : s.pending = true) (h : pendingIs i s = true) : i.format = .domain := by
  obtain ⟨b, -, hb⟩ := pendingIs_decoded hp h
  exact decodeDomain_format hb

/-- No more than one tag is pending (R97). -/
theorem pendingIs_unique {s : State} {i j : Instr} (hp : s.pending = true) (hi : pendingIs i s = true)
    (hj : pendingIs j s = true) : i = j := by
  obtain ⟨b, hb, hbi⟩ := pendingIs_decoded hp hi
  obtain ⟨c, hc, hcj⟩ := pendingIs_decoded hp hj
  obtain rfl : b = c := Option.some.inj (hb.symm.trans hc)
  exact Except.ok.inj (hbi.symm.trans hcj)

/-! ## The blocks of a phase -/

/-- How many blocks `IDX` counts in the phase (R36). -/
def blocksIn (s : State) : Phase → Nat
  | .ad => blockCount s.adlen
  | .text | .mac => blockCount s.tlen
  | .crypt | .stream => textBlockCount s.tlen
  | .hashblk => hashLength s / 32
  | .idle | .kdf | .final | .compare | .publish => 0

/-- Where a ready engine is: in a phase of its command, at most at the end of the phase's blocks, with no invocation pending but
one that belongs to the phase (R36, R97). -/
structure InPlace (s : State) : Prop where
  listed : s.phase ∈ phasesOf s
  index : ∀ i, s.idx = some i → i ≤ blocksIn s s.phase
  tagged : s.pending = true → ∃ i, pendingIs i s = true ∧ (placeOf i).2 = s.phase

theorem AtBlock.imp {s : State} {P Q : Nat → Prop} (h : AtBlock s P) (hPQ : ∀ i, P i → Q i) : AtBlock s Q :=
  h.imp_right fun ⟨i, hi, hP⟩ => ⟨i, hi, hPQ i hP⟩

/-- In a phase that counts blocks. -/
theorem InPlace.of_atBlock {s : State} (hl : s.phase ∈ phasesOf s)
    (h : AtBlock s fun i => i ≤ blocksIn s s.phase ∧ (s.pending = true → ∃ j, pendingIs j s = true ∧ (placeOf j).2 = s.phase)) :
    InPlace s := by
  refine ⟨hl, fun i hi => (h.at_idx hi).1, fun hp => ?_⟩
  rcases h with ⟨-, hnot⟩ | ⟨i, -, -, htag⟩
  · simp [hp] at hnot
  · exact htag hp

/-- In a phase that counts none. -/
theorem InPlace.of_noIndex {s : State} (hl : s.phase ∈ phasesOf s) (hi : s.idx = none)
    (h : s.pending = true → ∃ j, pendingIs j s = true ∧ (placeOf j).2 = s.phase) : InPlace s :=
  ⟨hl, by simp [hi], h⟩

theorem compare_inPlace {s : State} (hr : phaseReady s = true) (hp : s.phase = .compare) : InPlace s := by
  obtain ⟨hsome, hm, hdec, hi, -, hpend⟩ := (phaseReady_compare hp).mp hr
  refine .of_noIndex ?_ hi (by simp [hpend])
  obtain ⟨m, hmode⟩ := Option.isSome_iff_exists.mp hsome
  cases m <;> simp_all [phasesOf]

theorem publish_inPlace {s : State} (hr : phaseReady s = true) (hp : s.phase = .publish) : InPlace s := by
  obtain ⟨hsome, hi, hpend, -⟩ := (phaseReady_publish hp).mp hr
  refine .of_noIndex ?_ hi (by simp [hpend])
  obtain ⟨m, hmode⟩ := Option.isSome_iff_exists.mp hsome
  cases m <;> cases hdec : s.decrypting <;> simp [phasesOf, hmode, hdec, hp]

section

variable {s : State} (hr : phaseReady s = true)

include hr

theorem romulusH_inPlace (hm : s.mode = some .romulusH) : InPlace s := by
  cases hp : s.phase with
  | hashblk =>
    obtain ⟨hpend, hblock⟩ := (phaseReady_hash hp hm).mp hr
    refine .of_atBlock (by simp [phasesOf, hm, hp]) (hblock.imp fun i ⟨_, _, hle⟩ => ?_)
    exact ⟨by simpa [hp, blocksIn] using hle, by simp [hpend]⟩
  | publish => exact publish_inPlace hr hp
  | _ => simp [phaseReady, hp, hm] at hr

theorem romulusN_inPlace (hm : s.mode = some .romulusN) : InPlace s := by
  have hlisted : s.phase = .ad ∨ s.phase = .text ∨ s.phase = .final → s.phase ∈ phasesOf s := by
    cases hdec : s.decrypting <;> rintro (hp | hp | hp) <;> simp [phasesOf, hm, hdec, hp]
  cases hp : s.phase with
  | ad =>
    refine .of_atBlock (hlisted (by simp [hp])) (((phaseReady_nAd hp hm).mp hr).imp fun i ⟨_, _, hle, htag⟩ => ?_)
    refine ⟨by simpa [hp, blocksIn] using hle, fun _ => ⟨_, htag, ?_⟩⟩
    rw [hp, nAdLast]
    split_ifs <;> rfl
  | text =>
    obtain ⟨-, hblock⟩ := (phaseReady_text hp hm).mp hr
    refine .of_atBlock (hlisted (by simp [hp])) (hblock.imp fun i ⟨_, hlt, htag⟩ => ?_)
    refine ⟨by simpa [hp, blocksIn] using hlt.le, fun _ => ⟨_, htag, ?_⟩⟩
    rw [hp, nTextTag]
    split_ifs <;> rfl
  | final =>
    obtain ⟨hi, -, hpend⟩ := (phaseReady_nFinal hp hm).mp hr
    exact .of_noIndex (hlisted (by simp [hp])) hi (by simp [hpend])
  | compare => exact compare_inPlace hr hp
  | publish => exact publish_inPlace hr hp
  | _ => simp [phaseReady, hp, hm] at hr

theorem romulusM_inPlace (hm : s.mode = some .romulusM) : InPlace s := by
  have hlisted : s.phase = .ad ∨ s.phase = .mac ∨ s.phase = .final ∨ s.phase = .crypt → s.phase ∈ phasesOf s := by
    cases hdec : s.decrypting <;> rintro (hp | hp | hp | hp) <;> simp [phasesOf, hm, hdec, hp]
  cases hp : s.phase with
  | ad =>
    obtain ⟨-, hblock⟩ := (phaseReady_mAd hp hm).mp hr
    refine .of_atBlock (hlisted (by simp [hp])) (hblock.imp fun i ⟨_, _, hle, _, htag⟩ => ?_)
    exact ⟨by simpa [hp, blocksIn] using hle, fun _ => ⟨_, htag, hp.symm⟩⟩
  | mac =>
    obtain ⟨-, -, -, hblock⟩ := (phaseReady_mac hp hm).mp hr
    refine .of_atBlock (hlisted (by simp [hp])) (hblock.imp fun i ⟨hle, _, htag⟩ => ?_)
    exact ⟨by simpa [hp, blocksIn] using hle, fun _ => ⟨_, htag, hp.symm⟩⟩
  | crypt =>
    obtain ⟨-, hblock⟩ := (phaseReady_crypt hp hm).mp hr
    refine .of_atBlock (hlisted (by simp [hp])) (hblock.imp fun i ⟨_, _, hle, _, _, htag⟩ => ?_)
    exact ⟨by simpa [hp, blocksIn] using hle, fun _ => ⟨_, htag, hp.symm⟩⟩
  | final =>
    obtain ⟨hi, -, -, htag⟩ := (phaseReady_mFinal hp hm).mp hr
    exact .of_noIndex (hlisted (by simp [hp])) hi fun _ => ⟨_, htag, hp.symm⟩
  | compare => exact compare_inPlace hr hp
  | publish => exact publish_inPlace hr hp
  | _ => simp [phaseReady, hp, hm] at hr

theorem romulusT_inPlace (hm : s.mode = some .romulusT) : InPlace s := by
  have hlisted : s.phase = .kdf ∨ s.phase = .stream ∨ s.phase = .hashblk ∨ s.phase = .final → s.phase ∈ phasesOf s := by
    cases hdec : s.decrypting <;> rintro (hp | hp | hp | hp) <;> simp [phasesOf, hm, hdec, hp]
  cases hp : s.phase with
  | kdf =>
    obtain ⟨hi, htag⟩ := (phaseReady_kdf hp hm).mp hr
    exact .of_noIndex (hlisted (by simp [hp])) hi fun _ => ⟨_, htag, hp.symm⟩
  | stream =>
    obtain ⟨-, hblock⟩ := (phaseReady_stream hp hm).mp hr
    refine .of_atBlock (hlisted (by simp [hp])) (hblock.imp fun i ⟨_, hle, hbody⟩ => ?_)
    refine ⟨by simpa [hp, blocksIn] using hle, fun hpend => ?_⟩
    rw [if_pos hpend] at hbody
    obtain ⟨-, ⟨htag, -⟩ | ⟨htag, -⟩⟩ := hbody
    · exact ⟨_, htag, hp.symm⟩
    · exact ⟨_, htag, hp.symm⟩
  | hashblk =>
    obtain ⟨hpend, -, -, -, hblock⟩ := (phaseReady_tHash hp hm).mp hr
    refine .of_atBlock (hlisted (by simp [hp])) (hblock.imp fun i ⟨_, _, hle⟩ => ?_)
    exact ⟨by simpa [hp, blocksIn] using hle, by simp [hpend]⟩
  | final =>
    obtain ⟨hi, -, -, -, htag⟩ := (phaseReady_tFinal hp hm).mp hr
    exact .of_noIndex (hlisted (by simp [hp])) hi fun _ => ⟨_, htag, hp.symm⟩
  | compare => exact compare_inPlace hr hp
  | publish => exact publish_inPlace hr hp
  | _ => simp [phaseReady, hp, hm] at hr

theorem phaseReady_inPlace : InPlace s := by
  obtain ⟨m, hm⟩ := mode_isSome_of_phaseReady hr
  cases m with
  | romulusH => exact romulusH_inPlace hr hm
  | romulusN => exact romulusN_inPlace hr hm
  | romulusM => exact romulusM_inPlace hr hm
  | romulusT => exact romulusT_inPlace hr hm

end

/-! ## The steps of a phase -/

/-- At most how many micro-operations the engine takes at one value of `IDX` (log 2): one, or the issue of an invocation and the
invocation, or in the keystream phase a second invocation as well. -/
def stepsPerIndex : Phase → Nat
  | .stream => 3
  | .hashblk | .compare | .publish => 1
  | .idle | .ad | .text | .mac | .crypt | .kdf | .final => 2

/-- How many micro-operations the engine has taken at the present value of `IDX`. -/
def stage (s : State) : Nat := if s.pending then if pendingIs .tKu s then 2 else 1 else 0

/-- How many steps are enough for a phase: `IDX` is unwritten, or one of 0 to the number of blocks. -/
def phaseSteps (s : State) (p : Phase) : Nat := stepsPerIndex p * (blocksIn s p + 2)

/-- How many of the steps of its phase the engine has taken or passed over. -/
def stepsTaken (s : State) : Nat := stepsPerIndex s.phase * s.idx.elim 0 (· + 1) + stage s

theorem one_lt_stepsPerIndex {i : Instr} (hi : i.format = .domain) : 1 < stepsPerIndex (placeOf i).2 := by
  cases i <;> simp [Instr.format, placeOf, stepsPerIndex] at hi ⊢

theorem InPlace.stage_lt {s : State} (h : InPlace s) : stage s < stepsPerIndex s.phase := by
  unfold stage
  split
  case isFalse => cases s.phase <;> simp [stepsPerIndex]
  case isTrue hpend =>
    obtain ⟨i, hi, hplace⟩ := h.tagged hpend
    rw [← hplace]
    split
    case isTrue htKu =>
      obtain rfl := pendingIs_unique hpend hi htKu
      simp [placeOf, stepsPerIndex]
    case isFalse => exact one_lt_stepsPerIndex (pendingIs_format hpend hi)

theorem InPlace.stepsTaken_lt {s : State} (h : InPlace s) : stepsTaken s < phaseSteps s s.phase := by
  have hle : s.idx.elim 0 (· + 1) ≤ blocksIn s s.phase + 1 := by
    cases hi : s.idx with
    | none => simp
    | some i => simpa using h.index i hi
  calc stepsTaken s
    _ < stepsPerIndex s.phase * s.idx.elim 0 (· + 1) + stepsPerIndex s.phase := Nat.add_lt_add_left h.stage_lt _
    _ = stepsPerIndex s.phase * (s.idx.elim 0 (· + 1) + 1) := (Nat.mul_succ ..).symm
    _ ≤ phaseSteps s s.phase := Nat.mul_le_mul_left _ (Nat.succ_le_succ hle)

/-- A micro-operation that leaves `PHASE` and `IDX` issues an invocation: the first at this place, or the key update after a
keystream block. -/
theorem stage_lt_of_samePlace {s t : State} (h : EngineReady s = true) (hmicro : engineMicro s = .next t)
    (hplace : SamePlace s t) : stage s < stage t := by
  obtain ⟨-, hc, -, -, hr⟩ := (engineReady_iff s).mp h
  cases hpend : s.pending with
  | false =>
    rw [engineMicro_sequence hpend] at hmicro
    have hissued : t.pending = true := sequenceMicro_issues t hmicro hplace
    simp only [stage, hpend, hissued, Bool.false_eq_true, if_false, if_true]
    split <;> simp
  | true =>
    obtain ⟨i, hi, hphase⟩ := (phaseReady_inPlace hr).tagged hpend
    have hformat := pendingIs_format hpend hi
    rw [engineMicro_pendingIs hpend hi] at hmicro
    obtain ⟨u, hexec, hnext⟩ := andThen_eq_next.mp hmicro
    obtain ⟨hup, hui⟩ := execDomain_samePlace hformat s u hexec
    obtain ⟨rfl, d, rfl⟩ := afterInvocation_moves (hphase.trans hup.symm) t hnext
      ⟨hplace.1.trans hup.symm, hplace.2.trans hui.symm⟩
    have hfirst : ¬ pendingIs .tKu s = true := fun htKu => by cases pendingIs_unique hpend hi htKu
    have hsecond : pendingIs .tKu (issue .tKu d u) = true :=
      pendingIs_issue ((execDomain_kept hformat hexec).cfg.symm ▸ hc) rfl d
    simp [stage, hpend, hfirst, hsecond]

/-- Within a phase every micro-operation takes a step. -/
theorem stepsTaken_lt_of_within {s t : State} (h : EngineReady s = true) (hmicro : engineMicro s = .next t)
    (hphase : t.phase = s.phase) (hidx : t.idx = s.idx ∨ t.idx = some (s.idx.elim 0 (· + 1))) :
    stepsTaken s < stepsTaken t := by
  obtain ⟨-, -, -, -, hr⟩ := (engineReady_iff s).mp h
  unfold stepsTaken
  rw [hphase]
  rcases hidx with hidx | hidx
  · rw [hidx]
    exact Nat.add_lt_add_left (stage_lt_of_samePlace h hmicro ⟨hphase, hidx⟩) _
  · have := (phaseReady_inPlace hr).stage_lt
    rw [hidx, Option.elim_some, Nat.mul_succ]
    omega

/-! ## The steps of a command -/

/-- The phases of the command from the present one on. -/
def phasesFrom (s : State) : List Phase := (phasesOf s).dropWhile (· ≠ s.phase)

/-- At most how many steps the command still takes. -/
def stepsLeft (s : State) : Nat := ((phasesFrom s).map (phaseSteps s)).sum - stepsTaken s

theorem dropWhile_ne_of_mem {α : Type} [DecidableEq α] {l : List α} {a : α} (h : a ∈ l) :
    ∃ l', l.dropWhile (· ≠ a) = a :: l' := by
  induction l with
  | nil => cases h
  | cons x l ih =>
    by_cases hx : x = a
    · exact ⟨l, by simp [hx]⟩
    · obtain ⟨l', hl'⟩ := ih ((List.mem_cons.mp h).resolve_left (Ne.symm hx))
      exact ⟨l', by simpa [hx] using hl'⟩

/-- In a list without repetitions, what begins with an element is it and what begins with the next. -/
theorem dropWhile_ne_of_mem_zip_tail {α : Type} [DecidableEq α] {l : List α} {a b : α} (hl : l.Nodup)
    (h : (a, b) ∈ l.zip l.tail) : l.dropWhile (· ≠ a) = a :: l.dropWhile (· ≠ b) := by
  induction l with
  | nil => cases h
  | cons x l ih =>
    obtain ⟨hx, hl⟩ := List.nodup_cons.mp hl
    cases l with
    | nil => cases h
    | cons y l =>
      rw [List.tail_cons, List.zip_cons_cons] at h
      rcases List.mem_cons.mp h with hab | h
      · cases hab
        have hne : a ≠ b := fun e => hx (by simp [e])
        simp [hne]
      · have hxa : x ≠ a := fun e => hx (e ▸ (List.of_mem_zip h).1)
        have hxb : x ≠ b := fun e => hx (e ▸ List.mem_of_mem_tail (List.of_mem_zip h).2)
        simpa [hxa, hxb] using ih hl h

theorem phasesOf_nodup (s : State) : (phasesOf s).Nodup := by
  unfold phasesOf
  split <;> decide

theorem Kept.phasesOf {s t : State} (k : Kept s t) : phasesOf t = phasesOf s := by
  simp only [Machine.phasesOf, k.mode, k.decrypting]

theorem Kept.phaseSteps {s t : State} (k : Kept s t) : phaseSteps t = phaseSteps s := by
  funext p
  cases p <;> simp only [Machine.phaseSteps, blocksIn, k.adlen, k.tlen, k.hashLength]

/-- The phase of a ready engine is the first of those to come, so there is a step left. -/
theorem InPlace.stepsTaken_lt_sum {s : State} (h : InPlace s) : stepsTaken s < ((phasesFrom s).map (phaseSteps s)).sum := by
  obtain ⟨l, hl⟩ := dropWhile_ne_of_mem h.listed
  rw [phasesFrom, hl, List.map_cons, List.sum_cons]
  exact h.stepsTaken_lt.trans_le (Nat.le_add_right ..)

/-- Every micro-operation that moves forward uses up a step of the command. -/
theorem stepsLeft_decreases {s t : State} (h : EngineReady s = true) (k : Kept s t) (hmicro : engineMicro s = .next t)
    (hmoves : MovesForward s t) : stepsLeft t < stepsLeft s := by
  obtain ⟨-, -, -, -, hr⟩ := (engineReady_iff s).mp h
  have hsum := (phaseReady_inPlace hr).stepsTaken_lt_sum
  unfold stepsLeft
  rw [k.phaseSteps]
  rcases hmoves with ⟨hphase, hidx⟩ | ⟨hnext, -⟩
  · have hfrom : phasesFrom t = phasesFrom s := by rw [phasesFrom, phasesFrom, k.phasesOf, hphase]
    have htaken := stepsTaken_lt_of_within h hmicro hphase hidx
    rw [hfrom]
    omega
  · have hfrom : phasesFrom s = s.phase :: phasesFrom t := by
      rw [phasesFrom, phasesFrom, k.phasesOf, dropWhile_ne_of_mem_zip_tail (phasesOf_nodup s) hnext]
    have hphase := (phaseReady_inPlace hr).stepsTaken_lt
    rw [hfrom, List.map_cons, List.sum_cons]
    omega

/-- The hashed string has no more blocks of 32 bytes than associated data and text have blocks together (R264, R280). -/
theorem hashBlocks_le (s : State) : hashLength s / 32 ≤ blockCount s.adlen + blockCount s.tlen := by
  unfold hashLength
  split
  · simp only [blockCount]
    omega
  · simp only [authLength, ipadStarLength, blockCount]
    split <;> split <;> omega

/-- The phases of every command together take no more steps than R350 allows. -/
theorem sum_phaseSteps_le (s : State) :
    ((phasesOf s).map (phaseSteps s)).sum ≤ 4 * (blockCount s.adlen + blockCount s.tlen) + 20 := by
  have hhash := hashBlocks_le s
  have htext : textBlockCount s.tlen ≤ blockCount s.tlen := le_max_right _ _
  unfold phasesOf
  split <;> simp [phaseSteps, stepsPerIndex, blocksIn] <;> omega

theorem stepsLeft_le (s : State) : stepsLeft s ≤ 4 * (blockCount s.adlen + blockCount s.tlen) + 20 := by
  have hsub : ((phasesFrom s).map (phaseSteps s)).sum ≤ ((phasesOf s).map (phaseSteps s)).sum :=
    ((List.dropWhile_sublist _).map _).sum_le_sum fun _ _ => Nat.zero_le _
  exact (Nat.sub_le ..).trans (hsub.trans (sum_phaseSteps_le s))

/-- A ready engine ends its command within the steps that are left, by induction on their number. -/
theorem ends_within_stepsLeft {s : State} (hf : s.fault = none) (hs : s.script = []) (h : EngineReady s = true) :
    ∃ (j : Nat) (t : State), j ≤ stepsLeft s ∧ steps j s = .next t ∧
      t.busy = false ∧ statusDone t.status = true ∧ statusErr t.status = false := by
  induction hn : stepsLeft s using Nat.strong_induction_on generalizing s with
  | _ n ih =>
    subst hn
    obtain ⟨hb, -, -, -, hr⟩ := (engineReady_iff s).mp h
    have hrunning : Running s := ⟨hf, hs, hb⟩
    by_cases hp : s.phase = .publish
    · obtain ⟨t, ht, hend⟩ := engineReady_publishes h hp
      refine ⟨1, t, Nat.sub_pos_of_lt (phaseReady_inPlace hr).stepsTaken_lt_sum, ?_, hend⟩
      rw [steps, hrunning.step_eq, ht]
      rfl
    · obtain ⟨t, ht, htr, hmoves⟩ := engineReady_advances h hp
      have hkept := engineMicro_kept hp ht
      have hless := stepsLeft_decreases h hkept ht hmoves
      obtain ⟨j, e, hj, he, hend⟩ :=
        ih _ hless (hkept.fault.trans hf) (hkept.script.trans hs) (hkept.engineReady h htr) rfl
      refine ⟨j + 1, e, by omega, ?_, hend⟩
      rw [steps, hrunning.step_eq, ht, andThen_next, he]

/-- Settles O52: every micro-operation uses up one of the steps left, and those are bounded by the number of blocks. -/
theorem everyCommandEnds : Obligations.EveryCommandEnds := by
  intro s hf hs h
  obtain ⟨j, t, hj, ht, hend⟩ := ends_within_stepsLeft hf hs h
  exact ⟨j, t, hj.trans (stepsLeft_le s), ht, hend⟩

/-! ## The `RESET` action (R340) -/

/-- Settles O55: the turn is `resetAction`, which carries over the mark, what is left of the script, the reads and the draws. -/
theorem resetActionEmptiesTheBlock : Obligations.ResetActionEmptiesTheBlock := by
  have hturn : ∀ (s : State) (rest : List HostAction), s.script = .reset :: rest →
      turn s = .next { State.resetWith s.cfg with fault := s.fault, script := rest, reads := s.reads, draws := s.draws } := by
    intro s rest hs
    rw [turn, hs]
    rfl
  refine ⟨fun s rest hf hs => ?_, hturn⟩
  have hreset := hturn s rest hs
  rw [hf] at hreset
  simp only [step, hf]
  exact hreset

/-! ## The idle block (R341) -/

theorem engineTurn_idle {s : State} (hb : s.busy = false) : engineTurn s = .next s := by simp [engineTurn, hb]

/-- Settles O57: while `BUSY = 0` the turn of the engine does nothing, and `WAIT` reads `STATUS`. -/
theorem idleBlockStaysIdle : Obligations.IdleBlockStaysIdle := by
  intro s rest hf hb
  refine ⟨fun hs => ?_, fun hs => ?_, fun hs => ?_⟩
  · rw [step_quiet hf hs, engineTurn_idle hb]
  · rw [step_action hf hs]
    exact engineTurn_idle hb
  · rw [step_action hf hs]
    simp [hostTurn, hb]

end Sys2Proof.Machine
